-- ==== Sys2Proof/Word.lean ====
section
/-! DEFINITION. The word types of the machine: bytes, 16-bit and 32-bit words (R20, R70). -/
namespace Sys2Proof

/-- One byte of any of the four address spaces (R70). -/
abbrev Byte := BitVec 8
/-- A 16-bit word: a port number (R70) or a 16-bit register view (R21). -/
abbrev Half := BitVec 16
/-- A 32-bit word: a register, a linear or physical address, a bus word (R20, R70, R140). -/
abbrev Word := BitVec 32

end Sys2Proof
end

