-- ==== Sys2Proof/Config.lean ====
section
/-! DEFINITION. What an implementation fixes (the record `cfg` of R9, as plain data) and the free values:
opaque constants of which nothing can be proved. -/
namespace Sys2Proof

/-- The two access kinds of a memory check (R82, R84). -/
inductive AccessKind where
  | read | write
  deriving DecidableEq, Repr, Inhabited

/-- System context `sys` (R28): read by the paging and the I/O permission function, written by nothing but
the page-fault address `cr2` (R86). -/
structure Sys where
  pe : Bool
  pg : Bool
  wp : Bool
  cr3 : Word
  cr2 : Word
  cpl : BitVec 2
  tssBase : Word
  tssLimit : Word
  deriving DecidableEq, Repr, Inhabited

/-- A call the SCSI core makes to a target device (R252). -/
inductive DevCall where
  | commandPhase0 (cdb : List Byte)
  | commandPhase1 (buffer : List Byte)
  | identify (lun : Option (BitVec 3))
  deriving DecidableEq, Repr

/-- What a device sets in `command_phase0` (R252): its phase, status and data. Its `buffer_length` is the length
of `buffer` (log 10). -/
structure DevReply where
  phase : Word
  status : Byte
  buffer : List Byte
  deriving DecidableEq, Repr, Inhabited

/-- How a parameter function of R9 is given: the spec's reference instantiation, or any function that meets
its contract (an opaque constant). -/
inductive ParamFn where
  | reference
  | unspecified
  deriving DecidableEq, Repr, Inhabited

/-- What stands in a region of the physical map besides the T128 window (R72). -/
inductive RegionKind where
  | ram
  | outside
  deriving DecidableEq, Repr

/-- One region of `cfg.PhysMap`, both bounds included (R72). -/
structure Region where
  lo : Word
  hi : Word
  kind : RegionKind
  deriving DecidableEq, Repr

/-- A range of window offsets, both bounds included (R160). -/
structure Span where
  lo : Nat
  hi : Nat
  deriving DecidableEq, Repr

/-- The layout of the bridge window, the parameters `cfg.T128_*` (R160). -/
structure T128Map where
  rom : Span
  ctrl : Span
  status : Span
  ncr : Span
  data : Span
  deriving DecidableEq, Repr

/-- The configuration record `cfg` of R9. `cfg.default32` stands in the CPU context (log 17) and `cfg.CHUNK_MAX`
is the constant `chunkMax`. -/
structure Cfg where
  /-- `cfg.cpu`; no rule reads it. -/
  cpuGeneration : Nat
  /-- `cfg.PageTranslate` (R84, R86). -/
  paging : ParamFn
  /-- `cfg.IoPermitted` (R211, R212). -/
  ioPolicy : ParamFn
  /-- `cfg.PhysMap` outside the T128 window; the first region that holds an address decides. -/
  physMap : List Region
  /-- `cfg.PortMap` outside the NCR5380 ports: the ports that reach a handler outside the block. -/
  outsidePorts : List Half
  /-- `cfg.Cycles(mnemonic, A)`, by the handler's index; a handler past the end costs 0. -/
  cycleCost : List Nat
  scsiBus : Nat
  clearReqInit : Nat
  waitDataInit : Nat
  waitCompleteInit : Nat
  pollMax : Nat
  /-- `cfg.irq_line`, −1 for none. -/
  irqLine : Int
  t128Base : Word
  t128Map : T128Map
  ncrPortBase : Option Half
  /-- `cfg.ST_BUSYBIT`. -/
  busyBit : Byte
  deriving DecidableEq, Repr

/-- The constraints R9 puts on the countdown and polling parameters. -/
abbrev Cfg.wf (c : Cfg) : Prop :=
  1 ≤ c.clearReqInit ∧ 1 ≤ c.waitDataInit ∧ c.waitDataInit ≤ c.waitCompleteInit ∧ 1 ≤ c.pollMax

/-- `cfg.CHUNK_MAX` (R9, fixed by the document): the bridge chunk bound. -/
def chunkMax : Nat := 512

/-- The window layout R160 gives. -/
def T128Map.standard : T128Map :=
  { rom := ⟨0x0000, 0x1BFF⟩, ctrl := ⟨0x1C00, 0x1C1F⟩, status := ⟨0x1C20, 0x1C3F⟩,
    ncr := ⟨0x1D00, 0x1DFF⟩, data := ⟨0x1E00, 0x1FFF⟩ }

/-- The platform `State.reset` stands in: the defaults of R9 where it gives one, and a value of the model's
for each OPEN parameter (DESIGN CHOICE, log 3): the whole physical space RAM but for the T128 window, no port
handler, no cycle cost. -/
def Cfg.standard : Cfg :=
  { cpuGeneration := 386, paging := .reference, ioPolicy := .reference,
    physMap := [⟨0x00000000, 0xFFFFFFFF, .ram⟩], outsidePorts := [], cycleCost := [], scsiBus := 0,
    clearReqInit := 3, waitDataInit := 4, waitCompleteInit := 8, pollMax := 10, irqLine := 5,
    t128Base := 0x000DC000, t128Map := .standard, ncrPortBase := none, busyBit := 0x04 }

/-- What an unspecified paging function answers (R84): the accessed and dirty marks it writes, and the
translated address or a page fault. -/
structure PagingAnswer where
  marks : List (Word × Byte)
  phys : Option Word
  deriving DecidableEq, Repr, Inhabited

/-- FREE VALUE: any paging function that meets R84 (log 15). -/
opaque Config.pageTranslate : Word → AccessKind → Sys → List Host.Cell → PagingAnswer
/-- FREE VALUE: any I/O permission function that meets R211 (log 15); arguments port, S, `sys`, `flags`, RAM. -/
opaque Config.ioPermitted : Half → Nat → Sys → Word → List Host.Cell → Bool
/-- FREE VALUE: the n-th byte drawn: an outside port or window read (R72, R73), the DBP line (R314) (log 9). -/
opaque Config.freeByte : Nat → Byte
/-- FREE VALUE: the n-th word drawn: a general register after a CPU reset (R60) (log 1). -/
opaque Config.freeWord : Nat → Word
/-- FREE VALUE: the n-th delay drawn: the steps before an armed timer fires (R350) (log 7). -/
opaque Config.freeDelay : Nat → Nat
/-- FREE VALUE: the ROM and scratch bytes of the T128 window, a parameter function of the offset (R332). -/
opaque Config.t128Rom : Nat → Byte
/-- FREE VALUE: the bridge buffer after an adapter reset (R62) (log 5). -/
opaque Config.bridgeBuffer : Nat → Vector Byte 512
/-- FREE VALUE: what the device at a bus and id does in `command_phase0`, given every call made to it so far,
newest first (R252) (log 10). -/
opaque Config.devReply : Nat → Nat → List DevCall → DevReply
/-- FREE VALUE: the status the device leaves in `command_phase1`, given every call made to it so far (R252)
(log 10). -/
opaque Config.devStatus : Nat → Nat → List DevCall → Byte
/-- FREE VALUE: a byte read from a device outside the contract of R252 (no target, or an index past
`buffer_length`); no run from reset reads it (log 20). -/
opaque Config.noDeviceByte : Nat → Byte

end Sys2Proof
end

