-- ==== Sys2Proof/Syntax.lean ====
section
/-! DEFINITION. The syntax of the block's instructions: one constructor of `Instr` per row of the opcode table
(R2, R120, R121, R128; prefixes R124 to R126, R130). -/
namespace Sys2Proof

/-- Element sizes S = 1, 2, 4 (R18, R122). -/
inductive Size where
  | byte | word | dword
  deriving DecidableEq, Repr, Inhabited

/-- Address sizes A = 16, 32 (R18, R123). -/
inductive AddrSize where
  | a16 | a32
  deriving DecidableEq, Repr, Inhabited

/-- The six segment registers (R25). -/
inductive SegReg where
  | es | cs | ss | ds | fs | gs
  deriving DecidableEq, Repr, Inhabited

/-- The seven families (R2). -/
inductive Family where
  | ins | outs | movs | cmps | stos | lods | scas
  deriving DecidableEq, Repr, Inhabited

/-- One of the 42 handlers: the triple of R128. -/
structure Handler where
  fam : Family
  size : Size
  asz : AddrSize
  deriving DecidableEq, Repr, Inhabited

/-- The eleven prefix bytes (R124, R125, R126, R130). -/
inductive Pfx where
  | es | cs | ss | ds | fs | gs | opSize | addrSize | repne | rep | lock
  deriving DecidableEq, Repr, Inhabited

/-- The repeat kinds of R31 other than none. -/
inductive RepKind where
  | rep | repe | repne
  deriving DecidableEq, Repr, Inhabited

/-- Why a byte sequence is no instruction of the block (R130 (a) and (c)); the LOCK prefix of R130 (b) is
syntax, refused when it is executed. -/
inductive DecodeReject where
  | outOfScope
  | prefixCombination
  deriving DecidableEq, Repr, Inhabited

/-- An instruction as the bytes spell it: an opcode byte is one of the 42 handlers, and a prefix byte wraps the
instruction it stands before (R120, R133; log 13). -/
inductive Instr where
  /-- INSB.a16 (R215). -/
  | insbA16
  /-- INSB.a32 (R215). -/
  | insbA32
  /-- INSW.a16 (R216). -/
  | inswA16
  /-- INSW.a32 (R216). -/
  | inswA32
  /-- INSD.a16 (R217). -/
  | insdA16
  /-- INSD.a32 (R217). -/
  | insdA32
  /-- OUTSB.a16 (R219). -/
  | outsbA16
  /-- OUTSB.a32 (R219). -/
  | outsbA32
  /-- OUTSW.a16 (R220). -/
  | outswA16
  /-- OUTSW.a32 (R220). -/
  | outswA32
  /-- OUTSD.a16 (R221). -/
  | outsdA16
  /-- OUTSD.a32 (R221). -/
  | outsdA32
  /-- MOVSB.a16 (R171). -/
  | movsbA16
  /-- MOVSB.a32 (R171). -/
  | movsbA32
  /-- MOVSW.a16 (R172). -/
  | movswA16
  /-- MOVSW.a32 (R172). -/
  | movswA32
  /-- MOVSD.a16 (R173). -/
  | movsdA16
  /-- MOVSD.a32 (R173). -/
  | movsdA32
  /-- CMPSB.a16 (R193). -/
  | cmpsbA16
  /-- CMPSB.a32 (R193). -/
  | cmpsbA32
  /-- CMPSW.a16 (R194). -/
  | cmpswA16
  /-- CMPSW.a32 (R194). -/
  | cmpswA32
  /-- CMPSD.a16 (R195). -/
  | cmpsdA16
  /-- CMPSD.a32 (R195). -/
  | cmpsdA32
  /-- STOSB.a16 (R175). -/
  | stosbA16
  /-- STOSB.a32 (R175). -/
  | stosbA32
  /-- STOSW.a16 (R176). -/
  | stoswA16
  /-- STOSW.a32 (R176). -/
  | stoswA32
  /-- STOSD.a16 (R177). -/
  | stosdA16
  /-- STOSD.a32 (R177). -/
  | stosdA32
  /-- LODSB.a16 (R179). -/
  | lodsbA16
  /-- LODSB.a32 (R179). -/
  | lodsbA32
  /-- LODSW.a16 (R180). -/
  | lodswA16
  /-- LODSW.a32 (R180). -/
  | lodswA32
  /-- LODSD.a16 (R181). -/
  | lodsdA16
  /-- LODSD.a32 (R181). -/
  | lodsdA32
  /-- SCASB.a16 (R197). -/
  | scasbA16
  /-- SCASB.a32 (R197). -/
  | scasbA32
  /-- SCASW.a16 (R198). -/
  | scaswA16
  /-- SCASW.a32 (R198). -/
  | scaswA32
  /-- SCASD.a16 (R199). -/
  | scasdA16
  /-- SCASD.a32 (R199). -/
  | scasdA32
  /-- PREFIX.ES, byte 0x26 (R124), before `rest`. -/
  | prefixES (rest : Instr)
  /-- PREFIX.CS, byte 0x2E (R124), before `rest`. -/
  | prefixCS (rest : Instr)
  /-- PREFIX.SS, byte 0x36 (R124), before `rest`. -/
  | prefixSS (rest : Instr)
  /-- PREFIX.DS, byte 0x3E (R124), before `rest`. -/
  | prefixDS (rest : Instr)
  /-- PREFIX.FS, byte 0x64 (R124), before `rest`. -/
  | prefixFS (rest : Instr)
  /-- PREFIX.GS, byte 0x65 (R124), before `rest`. -/
  | prefixGS (rest : Instr)
  /-- PREFIX.OPSIZE, byte 0x66 (R126), before `rest`. -/
  | prefixOpSize (rest : Instr)
  /-- PREFIX.ADDRSIZE, byte 0x67 (R126), before `rest`. -/
  | prefixAddrSize (rest : Instr)
  /-- PREFIX.REPNE, byte 0xF2 (R125), before `rest`. -/
  | prefixRepne (rest : Instr)
  /-- PREFIX.REP, byte 0xF3 (R125), before `rest`. -/
  | prefixRep (rest : Instr)
  /-- PREFIX.LOCK, byte 0xF0 (R130), before `rest`. -/
  | prefixLock (rest : Instr)
  deriving DecidableEq, Repr, Inhabited

end Sys2Proof
end

