-- ==== Sys2Proof/Decode.lean ====
section
/-! DEFINITION. The decoder and the encoder of the block's instructions (R120 to R133), total on any bytes, and
the decode context (R31) of an instruction. -/
namespace Sys2Proof

/-- Bytes of an element (R18). -/
def Size.bytes : Size → Nat
  | .byte => 1
  | .word => 2
  | .dword => 4

/-- The handler an instruction ends in (R128). -/
def Instr.handler : Instr → Handler
  | .insbA16 => ⟨.ins, .byte, .a16⟩
  | .insbA32 => ⟨.ins, .byte, .a32⟩
  | .inswA16 => ⟨.ins, .word, .a16⟩
  | .inswA32 => ⟨.ins, .word, .a32⟩
  | .insdA16 => ⟨.ins, .dword, .a16⟩
  | .insdA32 => ⟨.ins, .dword, .a32⟩
  | .outsbA16 => ⟨.outs, .byte, .a16⟩
  | .outsbA32 => ⟨.outs, .byte, .a32⟩
  | .outswA16 => ⟨.outs, .word, .a16⟩
  | .outswA32 => ⟨.outs, .word, .a32⟩
  | .outsdA16 => ⟨.outs, .dword, .a16⟩
  | .outsdA32 => ⟨.outs, .dword, .a32⟩
  | .movsbA16 => ⟨.movs, .byte, .a16⟩
  | .movsbA32 => ⟨.movs, .byte, .a32⟩
  | .movswA16 => ⟨.movs, .word, .a16⟩
  | .movswA32 => ⟨.movs, .word, .a32⟩
  | .movsdA16 => ⟨.movs, .dword, .a16⟩
  | .movsdA32 => ⟨.movs, .dword, .a32⟩
  | .cmpsbA16 => ⟨.cmps, .byte, .a16⟩
  | .cmpsbA32 => ⟨.cmps, .byte, .a32⟩
  | .cmpswA16 => ⟨.cmps, .word, .a16⟩
  | .cmpswA32 => ⟨.cmps, .word, .a32⟩
  | .cmpsdA16 => ⟨.cmps, .dword, .a16⟩
  | .cmpsdA32 => ⟨.cmps, .dword, .a32⟩
  | .stosbA16 => ⟨.stos, .byte, .a16⟩
  | .stosbA32 => ⟨.stos, .byte, .a32⟩
  | .stoswA16 => ⟨.stos, .word, .a16⟩
  | .stoswA32 => ⟨.stos, .word, .a32⟩
  | .stosdA16 => ⟨.stos, .dword, .a16⟩
  | .stosdA32 => ⟨.stos, .dword, .a32⟩
  | .lodsbA16 => ⟨.lods, .byte, .a16⟩
  | .lodsbA32 => ⟨.lods, .byte, .a32⟩
  | .lodswA16 => ⟨.lods, .word, .a16⟩
  | .lodswA32 => ⟨.lods, .word, .a32⟩
  | .lodsdA16 => ⟨.lods, .dword, .a16⟩
  | .lodsdA32 => ⟨.lods, .dword, .a32⟩
  | .scasbA16 => ⟨.scas, .byte, .a16⟩
  | .scasbA32 => ⟨.scas, .byte, .a32⟩
  | .scaswA16 => ⟨.scas, .word, .a16⟩
  | .scaswA32 => ⟨.scas, .word, .a32⟩
  | .scasdA16 => ⟨.scas, .dword, .a16⟩
  | .scasdA32 => ⟨.scas, .dword, .a32⟩
  | .prefixES rest => rest.handler
  | .prefixCS rest => rest.handler
  | .prefixSS rest => rest.handler
  | .prefixDS rest => rest.handler
  | .prefixFS rest => rest.handler
  | .prefixGS rest => rest.handler
  | .prefixOpSize rest => rest.handler
  | .prefixAddrSize rest => rest.handler
  | .prefixRepne rest => rest.handler
  | .prefixRep rest => rest.handler
  | .prefixLock rest => rest.handler

/-- The prefix bytes of an instruction, first byte first (R120). -/
def Instr.prefixes : Instr → List Pfx
  | .prefixES rest => .es :: rest.prefixes
  | .prefixCS rest => .cs :: rest.prefixes
  | .prefixSS rest => .ss :: rest.prefixes
  | .prefixDS rest => .ds :: rest.prefixes
  | .prefixFS rest => .fs :: rest.prefixes
  | .prefixGS rest => .gs :: rest.prefixes
  | .prefixOpSize rest => .opSize :: rest.prefixes
  | .prefixAddrSize rest => .addrSize :: rest.prefixes
  | .prefixRepne rest => .repne :: rest.prefixes
  | .prefixRep rest => .rep :: rest.prefixes
  | .prefixLock rest => .lock :: rest.prefixes
  | .insbA16 => []
  | .insbA32 => []
  | .inswA16 => []
  | .inswA32 => []
  | .insdA16 => []
  | .insdA32 => []
  | .outsbA16 => []
  | .outsbA32 => []
  | .outswA16 => []
  | .outswA32 => []
  | .outsdA16 => []
  | .outsdA32 => []
  | .movsbA16 => []
  | .movsbA32 => []
  | .movswA16 => []
  | .movswA32 => []
  | .movsdA16 => []
  | .movsdA32 => []
  | .cmpsbA16 => []
  | .cmpsbA32 => []
  | .cmpswA16 => []
  | .cmpswA32 => []
  | .cmpsdA16 => []
  | .cmpsdA32 => []
  | .stosbA16 => []
  | .stosbA32 => []
  | .stoswA16 => []
  | .stoswA32 => []
  | .stosdA16 => []
  | .stosdA32 => []
  | .lodsbA16 => []
  | .lodsbA32 => []
  | .lodswA16 => []
  | .lodswA32 => []
  | .lodsdA16 => []
  | .lodsdA32 => []
  | .scasbA16 => []
  | .scasbA32 => []
  | .scaswA16 => []
  | .scaswA32 => []
  | .scasdA16 => []
  | .scasdA32 => []

/-- The instruction without prefixes that a handler is (R128). -/
def Handler.toInstr : Handler → Instr
  | ⟨.ins, .byte, .a16⟩ => .insbA16
  | ⟨.ins, .byte, .a32⟩ => .insbA32
  | ⟨.ins, .word, .a16⟩ => .inswA16
  | ⟨.ins, .word, .a32⟩ => .inswA32
  | ⟨.ins, .dword, .a16⟩ => .insdA16
  | ⟨.ins, .dword, .a32⟩ => .insdA32
  | ⟨.outs, .byte, .a16⟩ => .outsbA16
  | ⟨.outs, .byte, .a32⟩ => .outsbA32
  | ⟨.outs, .word, .a16⟩ => .outswA16
  | ⟨.outs, .word, .a32⟩ => .outswA32
  | ⟨.outs, .dword, .a16⟩ => .outsdA16
  | ⟨.outs, .dword, .a32⟩ => .outsdA32
  | ⟨.movs, .byte, .a16⟩ => .movsbA16
  | ⟨.movs, .byte, .a32⟩ => .movsbA32
  | ⟨.movs, .word, .a16⟩ => .movswA16
  | ⟨.movs, .word, .a32⟩ => .movswA32
  | ⟨.movs, .dword, .a16⟩ => .movsdA16
  | ⟨.movs, .dword, .a32⟩ => .movsdA32
  | ⟨.cmps, .byte, .a16⟩ => .cmpsbA16
  | ⟨.cmps, .byte, .a32⟩ => .cmpsbA32
  | ⟨.cmps, .word, .a16⟩ => .cmpswA16
  | ⟨.cmps, .word, .a32⟩ => .cmpswA32
  | ⟨.cmps, .dword, .a16⟩ => .cmpsdA16
  | ⟨.cmps, .dword, .a32⟩ => .cmpsdA32
  | ⟨.stos, .byte, .a16⟩ => .stosbA16
  | ⟨.stos, .byte, .a32⟩ => .stosbA32
  | ⟨.stos, .word, .a16⟩ => .stoswA16
  | ⟨.stos, .word, .a32⟩ => .stoswA32
  | ⟨.stos, .dword, .a16⟩ => .stosdA16
  | ⟨.stos, .dword, .a32⟩ => .stosdA32
  | ⟨.lods, .byte, .a16⟩ => .lodsbA16
  | ⟨.lods, .byte, .a32⟩ => .lodsbA32
  | ⟨.lods, .word, .a16⟩ => .lodswA16
  | ⟨.lods, .word, .a32⟩ => .lodswA32
  | ⟨.lods, .dword, .a16⟩ => .lodsdA16
  | ⟨.lods, .dword, .a32⟩ => .lodsdA32
  | ⟨.scas, .byte, .a16⟩ => .scasbA16
  | ⟨.scas, .byte, .a32⟩ => .scasbA32
  | ⟨.scas, .word, .a16⟩ => .scaswA16
  | ⟨.scas, .word, .a32⟩ => .scaswA32
  | ⟨.scas, .dword, .a16⟩ => .scasdA16
  | ⟨.scas, .dword, .a32⟩ => .scasdA32

/-- A prefix byte put before an instruction (R120). -/
def Pfx.wrap : Pfx → Instr → Instr
  | .es, rest => .prefixES rest
  | .cs, rest => .prefixCS rest
  | .ss, rest => .prefixSS rest
  | .ds, rest => .prefixDS rest
  | .fs, rest => .prefixFS rest
  | .gs, rest => .prefixGS rest
  | .opSize, rest => .prefixOpSize rest
  | .addrSize, rest => .prefixAddrSize rest
  | .repne, rest => .prefixRepne rest
  | .rep, rest => .prefixRep rest
  | .lock, rest => .prefixLock rest

/-- The byte of a prefix (R124, R125, R126, R130). -/
def Pfx.code : Pfx → Byte
  | .es => 0x26
  | .cs => 0x2E
  | .ss => 0x36
  | .ds => 0x3E
  | .fs => 0x64
  | .gs => 0x65
  | .opSize => 0x66
  | .addrSize => 0x67
  | .repne => 0xF2
  | .rep => 0xF3
  | .lock => 0xF0

/-- The prefix a byte is, if it is one of the eleven (R133). -/
def Pfx.ofByte? (b : Byte) : Option Pfx :=
  if b = 0x26 then some .es
  else if b = 0x2E then some .cs
  else if b = 0x36 then some .ss
  else if b = 0x3E then some .ds
  else if b = 0x64 then some .fs
  else if b = 0x65 then some .gs
  else if b = 0x66 then some .opSize
  else if b = 0x67 then some .addrSize
  else if b = 0xF2 then some .repne
  else if b = 0xF3 then some .rep
  else if b = 0xF0 then some .lock
  else none

/-- The family and the width bit `w` of an opcode byte, none outside the fourteen (R121). -/
def opcodeOf? (b : Byte) : Option (Family × Bool) :=
  if b = 0x6C then some (.ins, false)
  else if b = 0x6D then some (.ins, true)
  else if b = 0x6E then some (.outs, false)
  else if b = 0x6F then some (.outs, true)
  else if b = 0xA4 then some (.movs, false)
  else if b = 0xA5 then some (.movs, true)
  else if b = 0xA6 then some (.cmps, false)
  else if b = 0xA7 then some (.cmps, true)
  else if b = 0xAA then some (.stos, false)
  else if b = 0xAB then some (.stos, true)
  else if b = 0xAC then some (.lods, false)
  else if b = 0xAD then some (.lods, true)
  else if b = 0xAE then some (.scas, false)
  else if b = 0xAF then some (.scas, true)
  else none

/-- The opcode byte of a family and element size (R121). -/
def opcodeByte (f : Family) (s : Size) : Byte :=
  (match f with
    | .ins => 0x6C
    | .outs => 0x6E
    | .movs => 0xA4
    | .cmps => 0xA6
    | .stos => 0xAA
    | .lods => 0xAC
    | .scas => 0xAE) ||| (if s = .byte then 0 else 1)

/-- The operand size (R122): `w` the width bit, `d32` is `cfg.default32`, `has66` whether 0x66 is present. -/
def operandSize (d32 has66 w : Bool) : Size :=
  if w then (if d32 ^^ has66 then .dword else .word) else .byte

/-- The address size (R123). -/
def addressSize (d32 has67 : Bool) : AddrSize :=
  if d32 ^^ has67 then .a32 else .a16

/-- The segment a prefix names, for the six segment overrides (R124). -/
def Pfx.seg? : Pfx → Option SegReg
  | .es => some .es
  | .cs => some .cs
  | .ss => some .ss
  | .ds => some .ds
  | .fs => some .fs
  | .gs => some .gs
  | .opSize | .addrSize | .repne | .rep | .lock => none

/-- `ea_seg`: the segment an override names, DS without one (R124). -/
def effectiveSeg (ps : List Pfx) : SegReg :=
  (ps.findSome? Pfx.seg?).getD .ds

/-- Whether a family compares, so that 0xF3 is REPE and 0xF2 is legal (R125). -/
def Family.compares : Family → Bool
  | .cmps | .scas => true
  | .ins | .outs | .movs | .stos | .lods => false

/-- The repeat kind of R31, from the prefixes and the family (R125). -/
def repeatKind (ps : List Pfx) (f : Family) : Option RepKind :=
  if .rep ∈ ps then some (if f.compares then .repe else .rep)
  else if .repne ∈ ps then some .repne
  else none

/-- Whether the prefixes of an instruction of family `f` are one of the refused combinations of R130 (c): more
than four prefix bytes, a prefix byte twice, two segment prefixes, both repeat prefixes, or 0xF2 before a family
that does not compare. -/
def badPrefixes (ps : List Pfx) (f : Family) : Bool :=
  decide (4 < ps.length) || !decide ps.Nodup || decide (1 < (ps.filterMap Pfx.seg?).length)
    || (decide (.rep ∈ ps) && decide (.repne ∈ ps)) || (decide (.repne ∈ ps) && !f.compares)

/-- Split a byte sequence into its leading prefixes and the rest (R133). -/
def scanPrefixes : List Byte → List Pfx × List Byte
  | [] => ([], [])
  | b :: bs =>
    match Pfx.ofByte? b with
    | some p => let r := scanPrefixes bs; (p :: r.1, r.2)
    | none => ([], b :: bs)

/-- The decoder (R133, R233): the instruction at the head of a byte sequence in code whose default size is 32 bits
when `d32`, and the bytes after it. A sequence with more than four prefixes is refused whatever follows them, one
that ends before an opcode byte is out of scope, and an opcode outside the fourteen is out of scope whatever its
prefixes are (log 12). -/
def decode (d32 : Bool) (bs : List Byte) : Except DecodeReject (Instr × List Byte) :=
  let ps := (scanPrefixes bs).1
  if 4 < ps.length then .error .prefixCombination
  else match (scanPrefixes bs).2 with
    | [] => .error .outOfScope
    | op :: rest =>
      match opcodeOf? op with
      | none => .error .outOfScope
      | some (f, w) =>
        if badPrefixes ps f then .error .prefixCombination
        else
          let h : Handler := ⟨f, operandSize d32 (decide (.opSize ∈ ps)) w, addressSize d32 (decide (.addrSize ∈ ps))⟩
          .ok (ps.foldr Pfx.wrap h.toInstr, rest)

/-- The encoder: the bytes of an instruction (R120, R121, R124 to R126). -/
def encode (i : Instr) : List Byte :=
  i.prefixes.map Pfx.code ++ [opcodeByte i.handler.fam i.handler.size]

/-- The length of an instruction in bytes (R120). -/
def Instr.length (i : Instr) : Nat := i.prefixes.length + 1

/-- The length of the longest instruction: four prefixes and an opcode byte (R130 (c)). -/
def maxFetch : Nat := 5

/-- The first `n` bytes of the number `w`, least significant first. -/
def bytesOfNat : Nat → Nat → List Byte
  | 0, _ => []
  | n + 1, w => BitVec.ofNat 8 w :: bytesOfNat n (w / 256)

/-- The bytes of an instruction whose bits are `w`, numbered as the opcode table numbers them; bits from `nbits`
up are 0. -/
def tableBytes (nbits w : Nat) : List Byte := bytesOfNat maxFetch (w % 2 ^ nbits)

/-- The instruction the decoder reads from a word of the opcode table, in 16-bit code, which is what State.reset
holds (log 13). -/
def decodeTableWord (nbits w : Nat) : Option Instr :=
  match decode false (tableBytes nbits w) with
  | .ok (i, _) => some i
  | .error _ => none

end Sys2Proof
end

