-- ==== Sys2Proof/Machine/State.lean ====
section
/-! DEFINITION. The state of the machine as plain data (10_state.md), its reset values (R60 to R63), and the closed
types of the reasons a step stops. INVENTORY.md lists every field with its rule. -/
namespace Sys2Proof.Machine

/-- Names of the eight general registers (R20). -/
inductive Reg where
  | eax | ecx | edx | ebx | esp | ebp | esi | edi
  deriving DecidableEq, Repr

/-- The eight 32-bit general registers (R20). -/
structure Regs where
  eax : Word
  ecx : Word
  edx : Word
  ebx : Word
  esp : Word
  ebp : Word
  esi : Word
  edi : Word
  deriving DecidableEq, Repr

/-- A loaded segment descriptor (R24). -/
structure SegDesc where
  base : Word
  limitLo : Word
  limitHi : Word
  valid : Bool
  readable : Bool
  writable : Bool
  isStack : Bool
  deriving DecidableEq, Repr

/-- The six segment registers (R25). -/
structure SegRegs where
  es : SegDesc
  cs : SegDesc
  ss : SegDesc
  ds : SegDesc
  fs : SegDesc
  gs : SegDesc
  deriving DecidableEq, Repr

/-- The abort kinds and the fields each records (R360). -/
inductive Abort where
  /-- The descriptor's `valid` is 0. -/
  | segNotValid (seg : SegReg)
  /-- A read of a non-readable or a write of a non-writable segment. -/
  | segAccess (seg : SegReg) (kind : AccessKind)
  /-- An element outside the limits, or past offset 2^32 − 1. -/
  | segLimit (seg : SegReg)
  /-- The translation of a linear byte address failed. -/
  | pageFault (lin : Word) (kind : AccessKind)
  /-- `cfg.IoPermitted` said no. -/
  | ioPermFault (port : Half) (size : Size)
  deriving DecidableEq, Repr

/-- The CPU execution context (R20 to R29). -/
structure Cpu where
  regs : Regs
  pc : Word
  segs : SegRegs
  flags : Word
  /-- `abrt`: none, or the abort not yet delivered (R27). -/
  abrt : Option Abort
  sys : Sys
  /-- The cycle counter (R29). Its width is unspecified (R382, U20): here it is unbounded and never wraps (DESIGN
  CHOICE, log 24). -/
  cycles : Nat
  /-- Prefetch bookkeeping (R29): no rule reads or changes it (log 18). -/
  prefetch : Nat
  /-- `cfg.default32`, the default size of the loaded code segment (R9, R60; log 17). -/
  default32 : Bool
  deriving DecidableEq, Repr

/-- The nine states of the SCSI phase machine (R35). -/
inductive BusState where
  | idle | select | command | dataIn | dataOut | status | messageIn | messageOut | messageId
  deriving DecidableEq, Repr

/-- The DMA modes (R43). -/
inductive DmaMode where
  | idle | outTxBus | inTxBus
  deriving DecidableEq, Repr

/-- The SCSI core (R35 to R45). `msglun = none` is `LUN_USE_CDB`; `targetId = none` is `NONE`. -/
structure Ncr where
  state : BusState
  curBus : Word
  busIn : Word
  command : Vector Byte 16
  commandPos : Nat
  targetId : Option (Fin 8)
  waitData : Nat
  clearReq : Nat
  waitComplete : Nat
  newPhase : Word
  dataPos : Nat
  txData : Byte
  msgout : Vector Byte 256
  msgoutPos : Nat
  msglun : Option (BitVec 3)
  dmaMode : DmaMode
  outputData : Byte
  icr : Byte
  mode : Byte
  tcr : Byte
  ser : Byte
  isr : Byte
  irqState : Bool
  deriving DecidableEq, Repr

/-- The T128 bridge (R50 to R52). `timerWait` is the model's own: the steps that pass before the armed timer
fires (R350, log 7). -/
structure Bridge where
  buffer : Vector Byte 512
  hostPos : Nat
  pos : Nat
  total : Nat
  status : Byte
  ctrl : Byte
  timerArmed : Bool
  timerWait : Nat
  pumpDone : Bool
  deriving DecidableEq, Repr

/-- A target device (R46, R252): the fields the core uses, the logical unit it recorded, and the model's own: the
answers it will give to the next `command_phase0` and `command_phase1` calls, and the calls made so far, newest
first (log 10). Its `buffer_length` is the length of `buffer`. -/
structure Device where
  present : Bool
  phase : Word
  status : Byte
  buffer : List Byte
  lun : Option (BitVec 3)
  replies : List DevReply
  finals : List Byte
  calls : List DevCall
  deriving DecidableEq, Repr

/-- The outputs of the block: the interrupt line (R320) and writes to handlers outside it (R72, R73). -/
inductive Output where
  | irqRaise (line : Int)
  | irqLower (line : Int)
  | portWrite (port : Half) (b : Byte)
  | windowWrite (addr : Word) (b : Byte)
  deriving DecidableEq, Repr

/-- Everything outside the CPU and RAM: the SCSI core, the bridge, the device table by bus and id (R46), the
outputs so far, newest first (log 11), and the model's own source of free values: bytes and delays the outside
world is set to supply, and the number of free values drawn past them (log 9, log 7). -/
structure Io where
  ncr : Ncr
  bridge : Bridge
  scsiDevices : List (Vector Device 8)
  outputs : List Output
  inputs : List Byte
  delays : List Nat
  drawn : Nat
  deriving DecidableEq, Repr

/-- An access the environment makes while it delivers a fault or an interrupt (R370). -/
inductive EnvAccess where
  | memRead (addr : Word)
  | memWrite (addr : Word) (b : Byte)
  | portRead (port : Half)
  | portWrite (port : Half) (b : Byte)
  deriving DecidableEq, Repr

/-- What the environment does at a step boundary: deliver a fault or an interrupt by some accesses and a new CPU
context (R370, R239), or one of the platform's resets (R400). -/
inductive EnvEvent where
  | deliver (accesses : List EnvAccess) (cpu : Cpu)
  | cpuReset
  | adapterReset
  deriving DecidableEq, Repr

/-- The state of the machine. `agenda` is the model's own: for each coming step boundary, what the environment
does there, if anything (log 8). -/
structure State where
  cpu : Cpu
  mem : List Host.Cell
  io : Io
  cfg : Cfg
  agenda : List (Option EnvEvent)
  deriving DecidableEq, Repr

/-- Why the machine stops. -/
inductive Fault where
  /-- Raised by `step` alone: an abort stands undelivered, the environment delivers nothing and no timer is armed,
  so no agent is enabled (R370: final for the CPU agent). Safe: the machine claims nothing of what a dispatcher
  outside the block would do. -/
  | undelivered (kind : Abort)
  deriving DecidableEq, Repr

/-- Why a step has no meaning. -/
inductive Refusal where
  /-- Raised by `exec` for an instruction not modelled yet. Safe: nothing is claimed of it. -/
  | notModelled (mnemonic : String)
  /-- `refused(out_of_scope)`: raised by `step` for an opcode byte outside the fourteen (R130 (a)). Safe. -/
  | outOfScope
  /-- `refused(lock)`: raised by `exec` for a LOCK prefix (R130 (b)). Safe. -/
  | lock
  /-- `refused(prefix)`: raised by `step` and `exec` for the combinations of R130 (c). Safe. -/
  | prefixCombination
  deriving DecidableEq, Repr

/-- The marker `BUS_IDLE` of `new_phase` (R140). -/
def busIdleMark : Word := 0x80000000

/-- The descriptor of a data segment after CPU reset (R60); only SS has `is_stack` (R24). -/
def SegDesc.afterReset (base : Word) (isStack : Bool) : SegDesc :=
  { base := base, limitLo := 0, limitHi := 0xFFFF, valid := true, readable := true, writable := true,
    isStack := isStack }

/-- The segment registers after CPU reset (R60). -/
def SegRegs.afterReset : SegRegs :=
  { es := .afterReset 0 false, cs := .afterReset 0xFFFF0000 false, ss := .afterReset 0 true,
    ds := .afterReset 0 false, fs := .afterReset 0 false, gs := .afterReset 0 false }

/-- The system context after CPU reset: `pe` and `pg` from R60, the rest the family's values (PRESUMED, log 4). -/
def sysAfterReset : Sys :=
  { pe := false, pg := false, wp := false, cr3 := 0, cr2 := 0, cpl := 0, tssBase := 0, tssLimit := 0xFFFF }

/-- The CPU context after CPU reset, with the general registers given (R60, R402). -/
def Cpu.afterReset (regs : Regs) : Cpu :=
  { regs := regs, pc := 0x0000FFF0, segs := .afterReset, flags := 0x00000002, abrt := none,
    sys := sysAfterReset, cycles := 0, prefetch := 0, default32 := false }

/-- The SCSI core after reset (R61). -/
def Ncr.afterReset : Ncr :=
  { state := .idle, curBus := 0, busIn := 0, command := Vector.replicate 16 0, commandPos := 0,
    targetId := none, waitData := 0, clearReq := 0, waitComplete := 0, newPhase := busIdleMark, dataPos := 0,
    txData := 0, msgout := Vector.replicate 256 0, msgoutPos := 0, msglun := none, dmaMode := .idle,
    outputData := 0, icr := 0, mode := 0, tcr := 0, ser := 0, isr := 0, irqState := false }

/-- The bridge after reset, with the buffer given (R62). -/
def Bridge.afterReset (buffer : Vector Byte 512) : Bridge :=
  { buffer := buffer, hostPos := 0, pos := 0, total := 0, status := 0, ctrl := 0, timerArmed := false,
    timerWait := 0, pumpDone := false }

/-- The general registers of `State.reset`: R60 gives none, the model holds zeros (DESIGN CHOICE, log 1). -/
def Regs.zero : Regs :=
  { eax := 0, ecx := 0, edx := 0, ebx := 0, esp := 0, ebp := 0, esi := 0, edi := 0 }

/-- A device table entry with no device (R46). -/
def Device.absent : Device :=
  { present := false, phase := 0, status := 0, buffer := [], lun := none, replies := [], finals := [],
    calls := [] }

/-- The machine right after reset (R60 to R63): RAM with nothing listed, the platform of `Cfg.standard` and no
device present (log 3); the one output is the interrupt line lowered by the core's own reset (R61, R404). -/
def State.reset : State :=
  { cpu := .afterReset .zero,
    mem := [],
    io :=
      { ncr := .afterReset, bridge := .afterReset (Vector.replicate 512 0),
        scsiDevices := [Vector.replicate 8 .absent], outputs := [.irqLower 5], inputs := [], delays := [],
        drawn := 0 },
    cfg := .standard,
    agenda := [] }

end Sys2Proof.Machine
end

