-- ==== Sys2Proof/Machine/BusWord.lean ====
section
/-! DEFINITION. The SCSI bus word and phase codes (R140, R142), the selection byte (R144) and the two length tables
(R146, R148). -/
namespace Sys2Proof.Machine

def busSel : Word := 0x00000002
def busIo : Word := 0x00000004
def busCd : Word := 0x00000008
def busMsg : Word := 0x00000010
def busReq : Word := 0x00000020
def busBsy : Word := 0x00000040
def busAtn : Word := 0x00000100
def busAck : Word := 0x00000200
def busArb : Word := 0x00008000
def busDataMask : Word := 0x00FF0000
def phaseMask : Word := 0x0000001C

def phaseDataOut : Word := 0x00
def phaseDataIn : Word := 0x04
def phaseCommand : Word := 0x08
def phaseStatus : Word := 0x0C
def phaseMessageOut : Word := 0x18
def phaseMessageIn : Word := 0x1C

/-- Whether any of the lines of `mask` is set in a bus word. -/
def hasLine (b mask : Word) : Bool := decide (b &&& mask ≠ 0)

/-- `BUS_SETDATA` (R140). -/
def busSetData (v : Byte) : Word := v.setWidth 32 <<< 16

/-- `BUS_GETDATA` (R140). -/
def busGetData (b : Word) : Byte := (b >>> 16).setWidth 8

/-- The state a phase code is entered in (R142); none for the two reserved codes. -/
def stateOfPhase (p : Word) : Option BusState :=
  if p = phaseDataOut then some .dataOut
  else if p = phaseDataIn then some .dataIn
  else if p = phaseCommand then some .command
  else if p = phaseStatus then some .status
  else if p = phaseMessageOut then some .messageOut
  else if p = phaseMessageIn then some .messageIn
  else none

/-- `TargetOf`: the lowest bit set in the selection byte (R144). -/
def targetOf (d : Byte) : Option (Fin 8) :=
  (List.finRange 8).find? fun k => d.getLsbD k.val

/-- `CmdLen` (R146). -/
def cmdLen (c0 : Byte) : Nat :=
  match ((c0 >>> 5) &&& 7).toNat with
  | 0 => 6
  | 1 => 10
  | 2 => 10
  | 3 => 6
  | 4 => 16
  | 5 => 12
  | 6 => 10
  | _ => 6

/-- `GetMsgLen` of the first byte, the second byte and the count of bytes received (R148). -/
def getMsgLen (msg0 msg1 : Byte) (len : Nat) : Nat :=
  if msg0 = 0x00 ∨ (0x02 ≤ msg0 ∧ msg0 ≤ 0x1F) ∨ 0x80 ≤ msg0 then 1
  else if 0x20 ≤ msg0 ∧ msg0 ≤ 0x2F then 2
  else if len < 2 then len + 1
  else msg1.toNat

end Sys2Proof.Machine
end

