-- ==== Sys2Proof/Machine/Scsi.lean ====
section
/-! DEFINITION. The device table and the SCSI bus phase state machine: `BusUpdate` and `BusRead` (R250 to R292). -/
namespace Sys2Proof.Machine

/-! ### The device table (R46, R252) -/

/-- The device table's entry for a bus and id; a bus the table does not hold has no device. -/
def deviceAt (cfg : Cfg) (io : Io) (id : Fin 8) : Device :=
  match io.scsiDevices[cfg.scsiBus]? with
  | some row => row.get id
  | none => .absent

/-- Replace the device table's entry for this adapter's bus and an id. -/
def setDeviceAt (cfg : Cfg) (io : Io) (id : Fin 8) (d : Device) : Io :=
  { io with scsiDevices := io.scsiDevices.modify cfg.scsiBus fun row => row.set id.val d }

/-- `dev`: the selected device (R14), none when `target_id = NONE`. -/
def selected (cfg : Cfg) (io : Io) : Option Device :=
  io.ncr.targetId.map (deviceAt cfg io)

/-- `Present(target_id)` (R252). -/
def targetPresent (cfg : Cfg) (io : Io) : Bool :=
  match selected cfg io with
  | some d => d.present
  | none => false

/-- `dev.buffer_length` (R252); 0 without a target. -/
def devBufferLength (cfg : Cfg) (io : Io) : Nat :=
  match selected cfg io with
  | some d => d.buffer.length
  | none => 0

/-- `dev.buffer[i]` (R252); a free value outside the contract (log 20). -/
def devByte (cfg : Cfg) (io : Io) (i : Nat) : Byte :=
  match selected cfg io with
  | some d => (d.buffer[i]?).getD (Config.noDeviceByte i)
  | none => Config.noDeviceByte i

/-- `dev.status` (R252); a free value without a target (log 20). -/
def devStatus (cfg : Cfg) (io : Io) : Byte :=
  match selected cfg io with
  | some d => d.status
  | none => Config.noDeviceByte 0

/-- Change the selected device, if there is one. -/
def modifySelected (cfg : Cfg) (f : Fin 8 → Device → Device) (io : Io) : Io :=
  match io.ncr.targetId with
  | some id => setDeviceAt cfg io id (f id (deviceAt cfg io id))
  | none => io

/-- `dev.command_phase0(cdb)` (R252): the device sets its phase, status and data as its next scripted answer or,
with none left, as the free function of the calls made to it (log 10). -/
def Device.commandPhase0 (bus : Nat) (id : Fin 8) (cdb : List Byte) (d : Device) : Device :=
  let calls := .commandPhase0 cdb :: d.calls
  let r := match d.replies with
    | r :: _ => r
    | [] => Config.devReply bus id.val calls
  { d with phase := r.phase, status := r.status, buffer := r.buffer, replies := d.replies.tail, calls := calls }

/-- `dev.command_phase1()` (R252): the device sees its buffer and finalises its status. -/
def Device.commandPhase1 (bus : Nat) (id : Fin 8) (d : Device) : Device :=
  let calls := .commandPhase1 d.buffer :: d.calls
  let st := match d.finals with
    | st :: _ => st
    | [] => Config.devStatus bus id.val calls
  { d with status := st, finals := d.finals.tail, calls := calls }

/-- `dev.identify(lun)` (R252): records the logical unit. -/
def Device.identify (lun : Option (BitVec 3)) (d : Device) : Device :=
  { d with lun := lun, calls := .identify lun :: d.calls }

/-- `dev.buffer[i] <- b` (R272). -/
def Device.putByte (i : Nat) (b : Byte) (d : Device) : Device :=
  { d with buffer := d.buffer.set i b }

def commandPhase0 (cfg : Cfg) (cdb : List Byte) (io : Io) : Io :=
  modifySelected cfg (fun id d => d.commandPhase0 cfg.scsiBus id cdb) io

def commandPhase1 (cfg : Cfg) (io : Io) : Io :=
  modifySelected cfg (fun id d => d.commandPhase1 cfg.scsiBus id) io

def identify (cfg : Cfg) (lun : Option (BitVec 3)) (io : Io) : Io :=
  modifySelected cfg (fun _ d => d.identify lun) io

def putDevByte (cfg : Cfg) (i : Nat) (b : Byte) (io : Io) : Io :=
  modifySelected cfg (fun _ d => d.putByte i b) io

/-- Change the SCSI core's record. -/
def Io.mapNcr (f : Ncr → Ncr) (io : Io) : Io := { io with ncr := f io.ncr }

/-! ### The helpers of R253 -/

def Ncr.setPhase (p : Word) (n : Ncr) : Ncr :=
  { n with curBus := (n.curBus &&& ~~~phaseMask) ||| (p &&& phaseMask) }

def Ncr.setData (v : Byte) (n : Ncr) : Ncr :=
  { n with curBus := (n.curBus &&& ~~~busDataMask) ||| busSetData v }

def Ncr.clearReqLine (n : Ncr) : Ncr := { n with curBus := n.curBus &&& ~~~busReq }

def Ncr.raiseReqLine (n : Ncr) : Ncr := { n with curBus := n.curBus ||| busReq }

/-- `ArmPhase(p, wc)` (R253). -/
def Ncr.armPhase (cfg : Cfg) (p : Word) (wc : Nat) (n : Ncr) : Ncr :=
  { n with newPhase := p, waitData := cfg.waitDataInit, clearReq := 0, waitComplete := wc }

/-- `ArmReq(p)` (R253). -/
def Ncr.armReq (cfg : Cfg) (p : Word) (n : Ncr) : Ncr :=
  { n with newPhase := p, clearReq := cfg.clearReqInit }

/-- `AckRise(bus)` (R253): a rising edge of ACK counts only while the core has REQ asserted. -/
def Ncr.ackRise (bus : Word) (n : Ncr) : Bool :=
  hasLine bus busAck && !hasLine n.busIn busAck && hasLine n.curBus busReq

/-! ### Tick (R256, R257) -/

/-- `PhaseEntry`, the action of `wait_data` reaching zero (R257). -/
def phaseEntry (cfg : Cfg) (io : Io) : Io :=
  if hasLine io.ncr.newPhase busIdleMark then
    io.mapNcr fun n => { n with state := .idle, curBus := 0 }
  else
    let io := io.mapNcr (Ncr.setPhase io.ncr.newPhase)
    let p := io.ncr.newPhase &&& phaseMask
    let io :=
      match stateOfPhase p with
      | some .dataIn =>
        let v := devByte cfg io io.ncr.dataPos
        io.mapNcr fun n => ({ n with state := .dataIn, txData := v, dataPos := n.dataPos + 1 } : Ncr).setData v
      | some .status => io.mapNcr fun n => ({ n with state := .status } : Ncr).setData (devStatus cfg io)
      | some .messageIn => io.mapNcr fun n => ({ n with state := .messageIn } : Ncr).setData 0x00
      | some st => io.mapNcr fun n => { n with state := st }
      | none => io
    if io.ncr.waitComplete = 0 then io.mapNcr Ncr.raiseReqLine else io

/-- T1: the countdown of the next REQ within a phase (R256). -/
def tickClearReq (n : Ncr) : Ncr :=
  if 0 < n.clearReq then
    if n.clearReq = 1 then ({ n with clearReq := 0 }.setPhase n.newPhase).raiseReqLine
    else { n with clearReq := n.clearReq - 1 }
  else n

/-- T2: the countdown of the entry to the next phase (R256). -/
def tickWaitData (cfg : Cfg) (io : Io) : Io :=
  if 0 < io.ncr.waitData then
    if io.ncr.waitData = 1 then phaseEntry cfg (io.mapNcr fun n => { n with waitData := 0 })
    else io.mapNcr fun n => { n with waitData := n.waitData - 1 }
  else io

/-- T3: the countdown of the first REQ after a data phase (R256). -/
def tickWaitComplete (n : Ncr) : Ncr :=
  if 0 < n.waitComplete then
    if n.waitComplete = 1 then
      if n.state = .idle then { n with waitComplete := 0 } else { n with waitComplete := 0 }.raiseReqLine
    else { n with waitComplete := n.waitComplete - 1 }
  else n

/-- `Tick` (R256). -/
def tick (cfg : Cfg) (io : Io) : Io :=
  (tickWaitData cfg (io.mapNcr tickClearReq)).mapNcr tickWaitComplete

/-! ### The states (R262 to R282) -/

/-- R262. -/
def dispatchIdle (cfg : Cfg) (bus : Word) (io : Io) : Io :=
  let io := io.mapNcr fun n => { n with waitData := 0, clearReq := 0, waitComplete := 0 }
  if hasLine bus busSel && !hasLine bus busBsy then
    let io := io.mapNcr fun n => { n with targetId := targetOf (busGetData bus) }
    if targetPresent cfg io then
      io.mapNcr fun n => { n with curBus := n.curBus ||| busBsy, state := .select }
    else io.mapNcr fun n => { n with curBus := 0 }
  else io

/-- `EnterCommand` (R265). -/
def enterCommand (n : Ncr) : Ncr :=
  { n with state := .command, commandPos := 0, curBus := busBsy ||| busReq ||| phaseCommand }

/-- R264. -/
def dispatchSelect (cfg : Cfg) (bus : Word) (io : Io) : Io :=
  if hasLine bus busSel then io
  else if hasLine bus busAtn then
    io.mapNcr fun n =>
      { n with state := .messageOut, msgoutPos := 0, msglun := none, curBus := busBsy ||| busReq ||| phaseMessageOut }
  else if targetPresent cfg io then io.mapNcr enterCommand
  else io.mapNcr fun n => { n with state := .idle, curBus := 0 }

/-- `NextPhase` (R268). -/
def nextPhase (cfg : Cfg) (io : Io) : Word :=
  match selected cfg io with
  | some d =>
    let p := d.phase &&& phaseMask
    if (p = phaseDataIn ∨ p = phaseDataOut) ∧ 0 < d.buffer.length then p else phaseStatus
  | none => phaseStatus

/-- R266. -/
def dispatchCommand (cfg : Cfg) (bus : Word) (io : Io) : Io :=
  if io.ncr.ackRise bus then
    let io := io.mapNcr fun n =>
      { n with command := n.command.setIfInBounds n.commandPos (busGetData bus),
               commandPos := n.commandPos + 1 }.clearReqLine
    if io.ncr.commandPos = cmdLen (io.ncr.command.get 0) then
      let io := io.mapNcr fun n => { n with dataPos := 0 }
      let io := commandPhase0 cfg (io.ncr.command.toList.take io.ncr.commandPos) io
      io.mapNcr (Ncr.armPhase cfg (nextPhase cfg io) 0)
    else io.mapNcr (Ncr.armReq cfg phaseCommand)
  else io

/-- The completion of a data phase (R270, R272). -/
def finishData (cfg : Cfg) (io : Io) : Io :=
  (commandPhase1 cfg (io.mapNcr Ncr.clearReqLine)).mapNcr (Ncr.armPhase cfg phaseStatus cfg.waitCompleteInit)

/-- REQ for the next byte of a data phase: at once in a DMA mode, else by the countdown (R270, R272). -/
def nextDataReq (cfg : Cfg) (p : Word) (n : Ncr) : Ncr :=
  if n.dmaMode ≠ .idle then n else n.clearReqLine.armReq cfg p

/-- R270. -/
def dispatchDataIn (cfg : Cfg) (bus : Word) (io : Io) : Io :=
  if io.ncr.ackRise bus then
    if devBufferLength cfg io ≤ io.ncr.dataPos then finishData cfg io
    else
      let v := devByte cfg io io.ncr.dataPos
      io.mapNcr fun n =>
        nextDataReq cfg phaseDataIn (({ n with txData := v, dataPos := n.dataPos + 1 } : Ncr).setData v)
  else io

/-- R272. -/
def dispatchDataOut (cfg : Cfg) (bus : Word) (io : Io) : Io :=
  if io.ncr.ackRise bus then
    let io := (putDevByte cfg io.ncr.dataPos (busGetData bus) io).mapNcr fun n =>
      { n with dataPos := n.dataPos + 1 }
    if devBufferLength cfg io ≤ io.ncr.dataPos then finishData cfg io
    else io.mapNcr (nextDataReq cfg phaseDataOut)
  else io

/-- R274. -/
def dispatchStatus (cfg : Cfg) (bus : Word) (io : Io) : Io :=
  if io.ncr.ackRise bus then
    (identify cfg none io).mapNcr fun n =>
      ({ n with msglun := none } : Ncr).clearReqLine.armPhase cfg phaseMessageIn cfg.waitCompleteInit
  else io

/-- R276. -/
def dispatchMessageIn (cfg : Cfg) (bus : Word) (io : Io) : Io :=
  if io.ncr.ackRise bus then io.mapNcr fun n => n.clearReqLine.armPhase cfg busIdleMark 0 else io

/-- R280. -/
def dispatchMessageOut (cfg : Cfg) (bus : Word) (io : Io) : Io :=
  if io.ncr.ackRise bus then
    io.mapNcr fun n =>
      let n := { n with msgout := n.msgout.setIfInBounds n.msgoutPos (busGetData bus),
                        msgoutPos := n.msgoutPos + 1 }.clearReqLine
      let m0 := n.msgout.get 0
      if getMsgLen m0 (n.msgout.get 1) n.msgoutPos ≤ n.msgoutPos then
        { n with msglun := if m0 &&& 0x80 ≠ 0 then some (m0.setWidth 3) else n.msglun, state := .messageId }
      else n.armReq cfg phaseMessageOut
  else io

/-- R282: with the target gone the machine parks (R286). -/
def dispatchMessageId (cfg : Cfg) (io : Io) : Io :=
  if targetPresent cfg io then (identify cfg io.ncr.msglun io).mapNcr enterCommand else io

/-- Step B3 of `BusUpdate`: the rule of the state (R254). -/
def dispatch (cfg : Cfg) (bus : Word) (io : Io) : Io :=
  match io.ncr.state with
  | .idle => dispatchIdle cfg bus io
  | .select => dispatchSelect cfg bus io
  | .command => dispatchCommand cfg bus io
  | .dataIn => dispatchDataIn cfg bus io
  | .dataOut => dispatchDataOut cfg bus io
  | .status => dispatchStatus cfg bus io
  | .messageIn => dispatchMessageIn cfg bus io
  | .messageOut => dispatchMessageOut cfg bus io
  | .messageId => dispatchMessageId cfg io

/-- The arbitration override, step B1 (R255). -/
def arbitrationOverride (n : Ncr) : Ncr :=
  { n with state := .idle, waitData := 0, clearReq := 0, waitComplete := 0 }

/-- `BusUpdate(bus)` (R254). -/
def busUpdate (cfg : Cfg) (bus : Word) (io : Io) : Io :=
  let io :=
    if hasLine bus busArb then io.mapNcr arbitrationOverride
    else dispatch cfg bus (tick cfg io)
  io.mapNcr fun n => { n with busIn := bus }

/-- `BusRead()` (R258). -/
def busRead (io : Io) : Word := io.ncr.curBus

end Sys2Proof.Machine
end

