-- ==== Sys2Proof/Machine/Registers.lean ====
section
/-! DEFINITION. The NCR5380 register file (R300 to R326), the interrupt (R320), the adapter reset (R61, R62, R306)
and the start of a pseudo-DMA transfer (R338), which two of the registers perform. -/
namespace Sys2Proof.Machine

/-- Change the bridge's record. -/
def Io.mapBridge (f : Bridge → Bridge) (io : Io) : Io := { io with bridge := f io.bridge }

/-- Record an output. -/
def Io.emit (o : Output) (io : Io) : Io := { io with outputs := o :: io.outputs }

/-- Draw a byte of the outside world: the next one it is set to supply, else a free value (log 9). -/
def drawByte (io : Io) : Byte × Io :=
  match io.inputs with
  | b :: rest => (b, { io with inputs := rest })
  | [] => (Config.freeByte io.drawn, { io with drawn := io.drawn + 1 })

/-- Draw a timer delay likewise (log 7). -/
def drawDelay (io : Io) : Nat × Io :=
  match io.delays with
  | d :: rest => (d, { io with delays := rest })
  | [] => (Config.freeDelay io.drawn, { io with drawn := io.drawn + 1 })

/-- `timer_armed <- 1`: a timer already armed keeps its delay (R350, log 7). -/
def armTimer (io : Io) : Io :=
  if io.bridge.timerArmed then io
  else
    let (d, io) := drawDelay io
    io.mapBridge fun b => { b with timerArmed := true, timerWait := d }

/-- `timer_armed <- 0`. -/
def Bridge.disarm (b : Bridge) : Bridge := { b with timerArmed := false, timerWait := 0 }

/-- `status <- status or cfg.ST_BUSYBIT`. -/
def Bridge.setBusy (cfg : Cfg) (b : Bridge) : Bridge := { b with status := b.status ||| cfg.busyBit }

/-- `status <- status and not cfg.ST_BUSYBIT`. -/
def Bridge.clearBusy (cfg : Cfg) (b : Bridge) : Bridge := { b with status := b.status &&& ~~~cfg.busyBit }

/-- Whether any bit of `mask` is set in a register. -/
def hasBit (r mask : Byte) : Bool := decide (r &&& mask ≠ 0)

/-! ### Interrupt (R320) -/

/-- `NcrIrq(set)` (R320). -/
def ncrIrqSet (cfg : Cfg) (io : Io) : Io :=
  let io := io.mapNcr fun n => { n with irqState := true, isr := n.isr ||| 0x10 }
  if cfg.irqLine ≠ -1 then io.emit (.irqRaise cfg.irqLine) else io

/-- `NcrIrq(clear)` with the document's quirk: the line is lowered unless it is line 1; lowering line −1, which
is no line, does nothing (R320). -/
def ncrIrqClear (cfg : Cfg) (io : Io) : Io :=
  let io := io.mapNcr fun n => { n with irqState := false, isr := n.isr &&& ~~~0x10 }
  if cfg.irqLine ≠ 1 ∧ cfg.irqLine ≠ -1 then io.emit (.irqLower cfg.irqLine) else io

/-- The adapter reset, hard or soft (R400): the SCSI core and the bridge take the values of R61 and R62; the
bridge buffer is left unspecified, so it becomes a free value (log 5). The device table is not reset (R63). -/
def adapterReset (cfg : Cfg) (io : Io) : Io :=
  ncrIrqClear cfg
    { io with ncr := .afterReset, bridge := .afterReset (Config.bridgeBuffer io.drawn), drawn := io.drawn + 1 }

/-! ### The chunk and the start of a transfer (R330, R338) -/

/-- `DevLen()` (R330). -/
def devLen (cfg : Cfg) (io : Io) : Nat :=
  if targetPresent cfg io then devBufferLength cfg io else 0

/-- `Chunk()` (R330). -/
def chunk (cfg : Cfg) (io : Io) : Nat := min chunkMax (devLen cfg io)

/-- `BridgeDmaStart(send)` (R338). -/
def dmaStartSend (cfg : Cfg) (io : Io) : Io :=
  io.mapBridge fun b => { b with pos := 0, hostPos := 0, total := 0, pumpDone := false }.setBusy cfg

/-- `BridgeDmaStart(recv)` (R338). -/
def dmaStartRecv (cfg : Cfg) (io : Io) : Io :=
  armTimer (io.mapBridge fun b =>
    { b with pos := 0, hostPos := chunk cfg io, total := 0, pumpDone := false }.clearBusy cfg)

/-! ### The registers -/

/-- `HostBus()` (R302). -/
def hostBus (n : Ncr) : Word :=
  busSetData n.outputData
    ||| (if hasBit n.icr 0x02 then busAtn else 0)
    ||| (if hasBit n.icr 0x04 then busSel else 0)
    ||| (if hasBit n.icr 0x08 then busBsy else 0)
    ||| (if hasBit n.icr 0x10 then busAck else 0)
    ||| (if hasBit n.tcr 0x01 then busIo else 0)
    ||| (if hasBit n.tcr 0x02 then busCd else 0)
    ||| (if hasBit n.tcr 0x04 then busMsg else 0)
    ||| (if hasBit n.tcr 0x08 then busReq else 0)
    ||| (if hasBit n.mode 0x01 then busArb else 0)

/-- `BusUpdate(HostBus())`: the call every register access makes (R301). -/
def hostUpdate (cfg : Cfg) (io : Io) : Io := busUpdate cfg (hostBus io.ncr) io

/-- A byte with some bits set when a condition holds. -/
def bitIf (c : Bool) (mask : Byte) : Byte := if c then mask else 0

/-- The value of register 4 without its unspecified bit 0 (R314). -/
def busStatusValue (io : Io) : Byte := (busRead io).setWidth 8 &&& 0xFE

/-- The value of register 5 (R315). -/
def busAndStatusValue (io : Io) : Byte :=
  let n := io.ncr
  (n.isr &&& 0x80)
    ||| bitIf (decide (n.dmaMode ≠ .idle) && hasLine (busRead io) busReq) 0x40
    ||| (n.isr &&& 0x10)
    ||| bitIf (decide (((busRead io &&& phaseMask) >>> 2).setWidth 8 = n.tcr &&& 0x07)) 0x08
    ||| (n.isr &&& 0x04)
    ||| bitIf (hasBit n.icr 0x02) 0x02
    ||| bitIf (hasBit n.icr 0x10) 0x01

/-- `ReadValue(n)` and the read's own side effects (R303, R305, R308, R310, R314, R315, R317, R318). -/
def readValue (cfg : Cfg) (reg : BitVec 3) (io : Io) : Byte × Io :=
  let n := io.ncr
  match reg with
  | 0 => (if hasBit n.icr 0x01 then n.outputData else busGetData (busRead io), io)
  | 1 => ((n.icr &&& 0x1F) ||| bitIf (hasBit n.mode 0x01) 0x40, io)
  | 2 => (n.mode, io)
  | 3 => (n.tcr &&& 0x8F, io)
  | 4 =>
    let (dbp, io) := drawByte io
    (busStatusValue io ||| (dbp &&& 0x01), io)
  | 5 => (busAndStatusValue io, io)
  | 6 => (busGetData (busRead io), io)
  | 7 => (0x00, (ncrIrqClear cfg io).mapNcr fun n => { n with isr := n.isr &&& ~~~0x04 })

/-- The effect of a register's write (R303, R306, R309, R310, R312, R316, R317, R318). -/
def writeEffect (cfg : Cfg) (reg : BitVec 3) (v : Byte) (io : Io) : Io :=
  match reg with
  | 0 => io.mapNcr fun n => { n with outputData := v }
  | 1 => if hasBit v 0x80 then adapterReset cfg io else io.mapNcr fun n => { n with icr := v &&& 0x1F }
  | 2 =>
    let io := io.mapNcr fun n => { n with mode := v }
    if hasBit v 0x02 then io
    else
      (io.mapNcr fun n => { n with dmaMode := .idle, isr := n.isr &&& ~~~0x80, tcr := n.tcr &&& ~~~0x80 }).mapBridge
        fun b => b.disarm.clearBusy cfg
  | 3 => io.mapNcr fun n => { n with tcr := (n.tcr &&& 0x80) ||| (v &&& 0x0F) }
  | 4 => io.mapNcr fun n => { n with ser := v }
  | 5 =>
    if hasBit io.ncr.mode 0x02 then dmaStartSend cfg (io.mapNcr fun n => { n with dmaMode := .outTxBus }) else io
  | 6 => io
  | 7 =>
    if hasBit io.ncr.mode 0x02 then dmaStartRecv cfg (io.mapNcr fun n => { n with dmaMode := .inTxBus }) else io

/-- `RegRead(n)` (R301). -/
def regRead (cfg : Cfg) (reg : BitVec 3) (io : Io) : Byte × Io := readValue cfg reg (hostUpdate cfg io)

/-- `RegWrite(n, v)` (R301). -/
def regWrite (cfg : Cfg) (reg : BitVec 3) (v : Byte) (io : Io) : Io := hostUpdate cfg (writeEffect cfg reg v io)

end Sys2Proof.Machine
end

