-- ==== Sys2Proof/Machine/Bridge.lean ====
section
/-! DEFINITION. The T128 pseudo-DMA bridge: its window (R332, R333), the data port (R336, R337) and the pump
(R340 to R348). -/
namespace Sys2Proof.Machine

/-! ### The data port -/

/-- Whether an access to the data port is rejected: outside the mode of its direction, past the chunk (R336, R337),
or with the busy bit clear (R62, R426, U19; log 26). -/
abbrev portRejects (cfg : Cfg) (m : DmaMode) (io : Io) : Prop :=
  io.ncr.dmaMode ≠ m ∨ chunk cfg io ≤ io.bridge.hostPos ∨ hasBit io.bridge.status cfg.busyBit = false

/-- `DataPortRead()` (R336). -/
def dataPortRead (cfg : Cfg) (io : Io) : Byte × Io :=
  if portRejects cfg .inTxBus io then (0xFF, io)
  else
    let v := (io.bridge.buffer[io.bridge.hostPos]?).getD 0xFF
    let io := io.mapBridge fun b => { b with hostPos := b.hostPos + 1 }
    if io.bridge.hostPos = chunk cfg io then
      let io := io.mapBridge (Bridge.clearBusy cfg)
      (v, if io.bridge.pumpDone then io.mapNcr fun n => { n with dmaMode := .idle } else armTimer io)
    else (v, io)

/-- `DataPortWrite(v)` (R337). -/
def dataPortWrite (cfg : Cfg) (v : Byte) (io : Io) : Io :=
  if portRejects cfg .outTxBus io then io
  else
    let io := io.mapBridge fun b =>
      { b with buffer := b.buffer.setIfInBounds b.hostPos v, hostPos := b.hostPos + 1 }
    if io.bridge.hostPos = chunk cfg io then armTimer (io.mapBridge (Bridge.clearBusy cfg)) else io

/-! ### The window -/

/-- Whether an offset lies in a region of the window. -/
def Span.holds (sp : Span) (off : Nat) : Bool := decide (sp.lo ≤ off ∧ off ≤ sp.hi)

/-- The NCR5380 register an offset of the window's NCR region names (R160). -/
def windowReg (m : T128Map) (off : Nat) : BitVec 3 := BitVec.ofNat 3 ((off - m.ncr.lo) >>> 5)

/-- `BridgeRead` of one byte, by its offset in the window (R332). -/
def bridgeRead (cfg : Cfg) (off : Nat) (io : Io) : Byte × Io :=
  let m := cfg.t128Map
  if Span.holds m.rom off then (Config.t128Rom off, io)
  else if Span.holds m.ctrl off then (io.bridge.ctrl, io)
  else if Span.holds m.status off then (io.bridge.status, io)
  else if Span.holds m.ncr off then regRead cfg (windowReg m off) io
  else if Span.holds m.data off then dataPortRead cfg io
  else (0xFF, io)

/-- `BridgeWrite` of one byte, by its offset in the window (R333). -/
def bridgeWrite (cfg : Cfg) (off : Nat) (v : Byte) (io : Io) : Io :=
  let m := cfg.t128Map
  if Span.holds m.ctrl off then io.mapBridge fun b => { b with ctrl := v }
  else if Span.holds m.ncr off then regWrite cfg (windowReg m off) v io
  else if Span.holds m.data off then dataPortWrite cfg v io
  else io

/-! ### The pump -/

/-- `PollReq(phase)`, at most `n` polls (R341). -/
def pollReq (cfg : Cfg) (phase : Word) : Nat → Io → Bool × Io
  | 0, io => (false, io)
  | n + 1, io =>
    let io := hostUpdate cfg io
    if hasLine (busRead io) busReq ∧ busRead io &&& phaseMask = phase then (true, io)
    else pollReq cfg phase n io

/-- `Handshake(d)` (R342). -/
def handshake (cfg : Cfg) (d : Byte) (io : Io) : Io :=
  let h := (hostBus io.ncr &&& ~~~busDataMask) ||| busSetData d
  busUpdate cfg (h &&& ~~~busAck) (busUpdate cfg (h ||| busAck) io)

/-- `EndOfDma()` (R347). -/
def endOfDma (cfg : Cfg) (io : Io) : Io :=
  let io := io.mapNcr fun n => { n with isr := n.isr ||| 0x80, tcr := n.tcr ||| 0x80 }
  if hasBit io.ncr.mode 0x08 then ncrIrqSet cfg io else io

/-- The end of `Drain` and `Fill` when a chunk is through (R344, R346). -/
def chunkDone (cfg : Cfg) (io : Io) : Io :=
  io.mapBridge fun b => { b with pos := 0, hostPos := 0 }.setBusy cfg

/-- One more byte moved between the buffer and the bus. -/
def Bridge.countByte (b : Bridge) : Bridge := { b with pos := b.pos + 1, total := b.total + 1 }

/-- `Drain()` (R344); the loop moves `pos` on in every round, so `chunkMax` rounds end it. -/
def drain (cfg : Cfg) : Nat → Io → Io
  | 0, io => chunkDone cfg io
  | n + 1, io =>
    if io.bridge.pos < chunk cfg io then
      let (ready, io) := pollReq cfg phaseDataOut cfg.pollMax io
      if !ready then armTimer io
      else
        let io := handshake cfg ((io.bridge.buffer[io.bridge.pos]?).getD 0) io
        let io := io.mapBridge Bridge.countByte
        if io.bridge.total = devLen cfg io then
          ((endOfDma cfg io).mapNcr fun n => { n with dmaMode := .idle }).mapBridge
            fun b => { b with pos := 0, hostPos := 0 }
        else drain cfg n io
    else chunkDone cfg io

/-- `Fill()` (R346). -/
def fill (cfg : Cfg) : Nat → Io → Io
  | 0, io => chunkDone cfg io
  | n + 1, io =>
    if io.bridge.pos < chunk cfg io then
      let (ready, io) := pollReq cfg phaseDataIn cfg.pollMax io
      if !ready then armTimer io
      else
        let d := busGetData (busRead io)
        let io := handshake cfg io.ncr.outputData io
        let io := io.mapBridge fun b => { b with buffer := b.buffer.setIfInBounds b.pos d }.countByte
        if io.bridge.total = devLen cfg io then
          chunkDone cfg ((endOfDma cfg io).mapBridge fun b => { b with pumpDone := true })
        else fill cfg n io
    else chunkDone cfg io

/-- The condition of `BusyGuard()`: BSY gone while MONITOR_BUSY is set and a DMA mode is active (R348). -/
def busyLost (io : Io) : Bool :=
  hasBit io.ncr.mode 0x04 && !hasLine (busRead io) busBsy && decide (io.ncr.dmaMode ≠ .idle)

/-- The effect of `BusyGuard()` when its condition holds (R348). -/
def abortDma (cfg : Cfg) (io : Io) : Io :=
  (io.mapNcr fun n => { n with mode := n.mode &&& ~~~0x02, dmaMode := .idle, isr := n.isr ||| 0x04 }).mapBridge
    fun b => (b.clearBusy cfg).disarm

/-- `Callback()`, the timer agent's step (R340). -/
def callback (cfg : Cfg) (io : Io) : Io :=
  let io := io.mapBridge Bridge.disarm
  if busyLost io then abortDma cfg io
  else
    let io :=
      if io.ncr.dmaMode = .outTxBus ∧ io.bridge.hostPos = chunk cfg io then drain cfg chunkMax io else io
    if io.ncr.dmaMode = .inTxBus ∧ io.bridge.hostPos = chunk cfg io ∧ io.bridge.pumpDone = false then
      fill cfg chunkMax io
    else io

end Sys2Proof.Machine
end

