-- ==== Sys2Proof/Machine/Flags.lean ====
section
/-! DEFINITION. The bits of `flags` the block uses (R26) and the subtraction flags (R190). -/
namespace Sys2Proof.Machine

/-- The one-bit flags of R26. -/
inductive Flag where
  | cf | pf | af | zf | sf | df | ovf
  deriving DecidableEq, Repr

/-- Bit positions (R26). -/
def Flag.pos : Flag → Nat
  | .cf => 0
  | .pf => 2
  | .af => 4
  | .zf => 6
  | .sf => 7
  | .df => 10
  | .ovf => 11

/-- Read a flag. -/
def getFlag (f : Flag) (flags : Word) : Bool := flags.getLsbD f.pos

/-- Write a flag; every other bit stays. -/
def setFlag (f : Flag) (b : Bool) (flags : Word) : Word :=
  (flags &&& ~~~(1#32 <<< f.pos)) ||| (if b then 1#32 <<< f.pos else 0)

/-- IOPL, bits 13:12 (R26). -/
def iopl (flags : Word) : BitVec 2 := (flags >>> 12).setWidth 2

/-- VM, bit 17 (R26). -/
def vmFlag (flags : Word) : Bool := flags.getLsbD 17

/-- Whether a byte has an even number of 1 bits (R190, PF). -/
def evenParity (b : Byte) : Bool :=
  !(b.getLsbD 0 ^^ b.getLsbD 1 ^^ b.getLsbD 2 ^^ b.getLsbD 3 ^^ b.getLsbD 4 ^^ b.getLsbD 5 ^^ b.getLsbD 6
    ^^ b.getLsbD 7)

/-- `SetSub(N, a, b)` on a flags word (R190). -/
def setSub {n : Nat} (a b : BitVec n) (flags : Word) : Word :=
  let r := a - b
  setFlag .ovf ((a ^^^ b) &&& (a ^^^ r)).msb <|
  setFlag .af ((a.setWidth 4).ult (b.setWidth 4)) <|
  setFlag .pf (evenParity (r.setWidth 8)) <|
  setFlag .sf r.msb <|
  setFlag .zf (decide (r = 0)) <|
  setFlag .cf (a.ult b) flags

/-- `SetSub(8·S, a, b)` on elements held in words. -/
def setSubElem (sz : Size) (a b : Word) (flags : Word) : Word :=
  match sz with
  | .byte => setSub (a.setWidth 8) (b.setWidth 8) flags
  | .word => setSub (a.setWidth 16) (b.setWidth 16) flags
  | .dword => setSub a b flags

/-- `Stop(d)`, the flag condition of a repeat kind (R235). -/
def stopCondition (kind : RepKind) (flags : Word) : Bool :=
  match kind with
  | .rep => false
  | .repe => !getFlag .zf flags
  | .repne => getFlag .zf flags

end Sys2Proof.Machine
end

