-- ==== Sys2Proof/Machine/Memory.lean ====
section
/-! DEFINITION. RAM as a list of cells in one canonical form (R70, R72): addresses strictly rising and no cell
that holds what an unlisted address reads as. -/
namespace Sys2Proof.Machine

/-- What a byte of RAM nothing has written reads as: 0 (DESIGN CHOICE, log 2). -/
def ramDefault : Byte := 0

/-- Read one byte of RAM. -/
def Memory.read : List Host.Cell → Nat → Byte
  | [], _ => ramDefault
  | (k, v) :: rest, a => if a = k then v else Memory.read rest a

/-- Put a cell in front unless it holds the default. -/
def Memory.cons (a : Nat) (b : Byte) (rest : List Host.Cell) : List Host.Cell :=
  if b = ramDefault then rest else (a, b) :: rest

/-- Write one byte of RAM, keeping the canonical form. -/
def Memory.write : List Host.Cell → Nat → Byte → List Host.Cell
  | [], a, b => Memory.cons a b []
  | (k, v) :: rest, a, b =>
    if a < k then Memory.cons a b ((k, v) :: rest)
    else if a = k then Memory.cons a b rest
    else (k, v) :: Memory.write rest a b

/-- The canonical form of a list of cells whose addresses all lie at or above `lo`. -/
def Memory.wfFrom : Nat → List Host.Cell → Bool
  | _, [] => true
  | lo, (k, v) :: rest => decide (lo ≤ k) && decide (v ≠ ramDefault) && Memory.wfFrom (k + 1) rest

/-- The canonical form: addresses strictly rising, no cell equal to what an unlisted address reads as. -/
def Memory.wf (m : List Host.Cell) : Bool := Memory.wfFrom 0 m

end Sys2Proof.Machine
end

