-- ==== Sys2Proof/Machine/Operands.lean ====
section
/-! DEFINITION. Registers and their views (R20, R21), index and accumulator operands (R11), the index advance
(R168), and the named updates of the CPU context. -/
namespace Sys2Proof.Machine

/-- Read a general register (R20). -/
def Regs.get (r : Regs) : Reg → Word
  | .eax => r.eax
  | .ecx => r.ecx
  | .edx => r.edx
  | .ebx => r.ebx
  | .esp => r.esp
  | .ebp => r.ebp
  | .esi => r.esi
  | .edi => r.edi

/-- Write a general register (R20). -/
def Regs.set (r : Regs) (k : Reg) (v : Word) : Regs :=
  match k with
  | .eax => { r with eax := v }
  | .ecx => { r with ecx := v }
  | .edx => { r with edx := v }
  | .ebx => { r with ebx := v }
  | .esp => { r with esp := v }
  | .ebp => { r with ebp := v }
  | .esi => { r with esi := v }
  | .edi => { r with edi := v }

/-- The low 8-bit view, bits 7:0 (R21): AL of EAX, and so on. -/
def low8 (v : Word) : Byte := v.setWidth 8
/-- The high 8-bit view, bits 15:8 (R21): AH of EAX, and so on. -/
def high8 (v : Word) : Byte := (v >>> 8).setWidth 8
/-- The 16-bit view, bits 15:0 (R21). -/
def low16 (v : Word) : Half := v.setWidth 16
/-- Write the low 8-bit view; bits 31:8 stay (R21). -/
def setLow8 (v : Word) (b : Byte) : Word := (v &&& 0xFFFFFF00) ||| b.setWidth 32
/-- Write the high 8-bit view; bits 31:16 and 7:0 stay (R21). -/
def setHigh8 (v : Word) (b : Byte) : Word := (v &&& 0xFFFF00FF) ||| (b.setWidth 32 <<< 8)
/-- Write the 16-bit view; bits 31:16 stay (R21). -/
def setLow16 (v : Word) (h : Half) : Word := (v &&& 0xFFFF0000) ||| h.setWidth 32

/-- The index view of a register's value at address size A (R11). -/
def indexView (a : AddrSize) (v : Word) : Word :=
  match a with
  | .a16 => (low16 v).setWidth 32
  | .a32 => v

/-- A register's value after a write of its index view (R11). -/
def withIndexView (a : AddrSize) (old new : Word) : Word :=
  match a with
  | .a16 => setLow16 old (low16 new)
  | .a32 => new

/-- `IDX(r, A)` (R11). -/
def idx (r : Regs) (k : Reg) (a : AddrSize) : Word := indexView a (r.get k)

/-- `IDX(r, A) <- v` (R11). -/
def setIdx (k : Reg) (a : AddrSize) (v : Word) (r : Regs) : Regs := r.set k (withIndexView a (r.get k) v)

/-- The element in the accumulator, `ACC(S)` (R11), zero-extended. -/
def acc (r : Regs) : Size → Word
  | .byte => (low8 r.eax).setWidth 32
  | .word => (low16 r.eax).setWidth 32
  | .dword => r.eax

/-- `ACC(S) <- v`: the other bits of EAX stay (R11, R21). -/
def setAcc (s : Size) (v : Word) (r : Regs) : Regs :=
  match s with
  | .byte => r.set .eax (setLow8 r.eax (low8 v))
  | .word => r.set .eax (setLow16 r.eax (low16 v))
  | .dword => r.set .eax v

/-- The port operand `DX` (R210). -/
def dx (r : Regs) : Half := low16 r.edx

/-- The descriptor of a segment register (R25). -/
def SegRegs.get (s : SegRegs) : SegReg → SegDesc
  | .es => s.es
  | .cs => s.cs
  | .ss => s.ss
  | .ds => s.ds
  | .fs => s.fs
  | .gs => s.gs

/-! ### Named updates of the CPU context -/

def State.setRegs (r : Regs) (s : State) : State := { s with cpu := { s.cpu with regs := r } }
def State.setPc (p : Word) (s : State) : State := { s with cpu := { s.cpu with pc := p } }
def State.setFlags (f : Word) (s : State) : State := { s with cpu := { s.cpu with flags := f } }
def State.setAbrt (a : Option Abort) (s : State) : State := { s with cpu := { s.cpu with abrt := a } }
def State.setCr2 (w : Word) (s : State) : State := { s with cpu := { s.cpu with sys := { s.cpu.sys with cr2 := w } } }
def State.addCycles (n : Nat) (s : State) : State := { s with cpu := { s.cpu with cycles := s.cpu.cycles + n } }
def State.setMem (m : List Host.Cell) (s : State) : State := { s with mem := m }
def State.setIo (io : Io) (s : State) : State := { s with io := io }
def State.setAgenda (g : List (Option EnvEvent)) (s : State) : State := { s with agenda := g }

/-- An index register's value after `Advance` (R168). -/
def advanced (df : Bool) (a : AddrSize) (sz : Size) (v : Word) : Word :=
  if df then indexView a v - BitVec.ofNat 32 sz.bytes else indexView a v + BitVec.ofNat 32 sz.bytes

/-- The Direction flag, bit 10 of `flags` (R26). -/
def directionFlag (flags : Word) : Bool := flags.getLsbD 10

/-- `Advance(r, A, S)` (R168). -/
def advance (k : Reg) (a : AddrSize) (sz : Size) (s : State) : State :=
  s.setRegs (setIdx k a (advanced (directionFlag s.cpu.flags) a sz (s.cpu.regs.get k)) s.cpu.regs)

/-- The place of a handler in `cfg.cycleCost`. -/
def handlerIndex (h : Handler) : Nat :=
  let f := match h.fam with
    | .ins => 0
    | .outs => 1
    | .movs => 2
    | .cmps => 3
    | .stos => 4
    | .lods => 5
    | .scas => 6
  let z := match h.size with
    | .byte => 0
    | .word => 1
    | .dword => 2
  f * 6 + z * 2 + (match h.asz with
    | .a16 => 0
    | .a32 => 1)

/-- `cfg.Cycles(mnemonic, A)` (R9, R29). -/
def cycleCost (cfg : Cfg) (h : Handler) : Nat := cfg.cycleCost.getD (handlerIndex h) 0

/-- `cycles <- cycles + cfg.Cycles(mnemonic, A)` (R29). -/
def charge (h : Handler) (s : State) : State := s.addCycles (cycleCost s.cfg h)

end Sys2Proof.Machine
end

