-- ==== Sys2Proof/Machine/Ops.lean ====
section
/-! DEFINITION. The named operations over memory, ports and the abort flag: physical and port access (R72, R73),
segmentation (R80, R82), paging (R84, R86), the primitives the handlers call (R88 to R95), the I/O permission check
(R211, R212), taking an abort (R13, R361, R366) and its delivery (R370), and CPU reset (R400). -/
namespace Sys2Proof.Machine

/-! ### Results of an operation that may abort -/

/-- What an operation that may raise an abort answers (R13): a value and the state after it, or the abort raised
and the state it leaves. -/
inductive Res (α : Type) where
  | ok (a : α) (s : State)
  | abort (k : Abort) (s : State)

/-- Go on after an operation that did not abort. -/
def Res.bind {α β : Type} (r : Res α) (f : α → State → Res β) : Res β :=
  match r with
  | .ok a s => f a s
  | .abort k s => .abort k s

/-- The check after an access: `if abrt ≠ none: return 1` (R72, R170, R223). -/
def checkAbort (s : State) : Res Unit :=
  match s.cpu.abrt with
  | some k => .abort k s
  | none => .ok () s

/-! ### Physical space (R72) -/

/-- What `cfg.PhysMap` says of an address. -/
inductive PhysTarget where
  | ram
  | t128 (off : Nat)
  | outside
  | unmapped
  deriving DecidableEq, Repr

/-- `cfg.PhysMap(addr)` (R72, R160): the T128 window, 16384 bytes at `cfg.T128_BASE`, then the first region that
holds the address. -/
def physTarget (cfg : Cfg) (addr : Word) : PhysTarget :=
  let off := (addr - cfg.t128Base).toNat
  if off < 0x4000 then .t128 off
  else
    match cfg.physMap.find? fun r => decide (r.lo ≤ addr ∧ addr ≤ r.hi) with
    | some r =>
      match r.kind with
      | .ram => .ram
      | .outside => .outside
    | none => .unmapped

/-- `MemRead(addr, 1)` (R72). -/
def memRead (addr : Word) (s : State) : Byte × State :=
  match physTarget s.cfg addr with
  | .ram => (Memory.read s.mem addr.toNat, s)
  | .t128 off => ((bridgeRead s.cfg off s.io).1, s.setIo (bridgeRead s.cfg off s.io).2)
  | .outside => ((drawByte s.io).1, s.setIo (drawByte s.io).2)
  | .unmapped => (0xFF, s)

/-- `MemWrite(addr, 1, b)` (R72). -/
def memWrite (addr : Word) (b : Byte) (s : State) : State :=
  match physTarget s.cfg addr with
  | .ram => s.setMem (Memory.write s.mem addr.toNat b)
  | .t128 off => s.setIo (bridgeWrite s.cfg off b s.io)
  | .outside => s.setIo (s.io.emit (.windowWrite addr b))
  | .unmapped => s

/-- Byte reads at the given addresses, in that order. -/
def readBytes : List Word → State → List Byte × State
  | [], s => ([], s)
  | p :: ps, s =>
    let (b, s) := memRead p s
    let (bs, s) := readBytes ps s
    (b :: bs, s)

/-- A little-endian value (R75). -/
def leValue : List Byte → Word
  | [] => 0
  | b :: bs => b.setWidth 32 ||| (leValue bs <<< 8)

/-- Byte `i` of a value (R75): bits `8i+7 : 8i`. -/
def byteOf (v : Word) (i : Nat) : Byte := (v >>> (8 * i)).setWidth 8

/-- `ReadElem(pa, S)`, without the abort check after it (R89). -/
def readElem (pa : List Word) (s : State) : Word × State :=
  ((leValue (readBytes pa s).1), (readBytes pa s).2)

/-- `WriteElem(pa, S, v)`, without the abort check after it: the byte at the lowest index first (R90). -/
def writeElem : List Word → Word → State → State
  | [], _, s => s
  | p :: ps, v, s => writeElem ps (v >>> 8) (memWrite p (v.setWidth 8) s)

/-- The four addresses of a doubleword at `a`. -/
def dwordAddrs (a : Word) : List Word := [a, a + 1, a + 2, a + 3]

/-! ### Ports (R73, R95) -/

/-- The register a port reaches in the port-mapped register file (R162). -/
def portReg (cfg : Cfg) (port : Half) : Option (BitVec 3) :=
  match cfg.ncrPortBase with
  | some b => if (port - b).toNat < 8 then some ((port - b).setWidth 3) else none
  | none => none

/-- `PortRead8(port)` (R73). -/
def portRead8 (port : Half) (s : State) : Byte × State :=
  match portReg s.cfg port with
  | some r => ((regRead s.cfg r s.io).1, s.setIo (regRead s.cfg r s.io).2)
  | none =>
    if port ∈ s.cfg.outsidePorts then ((drawByte s.io).1, s.setIo (drawByte s.io).2) else (0xFF, s)

/-- `PortWrite8(port, b)` (R73). -/
def portWrite8 (port : Half) (b : Byte) (s : State) : State :=
  match portReg s.cfg port with
  | some r => s.setIo (regWrite s.cfg r b s.io)
  | none => if port ∈ s.cfg.outsidePorts then s.setIo (s.io.emit (.portWrite port b)) else s

/-- The byte reads of `PortIn`, in ascending port order modulo 2^16 (R95). -/
def portReadBytes : Nat → Half → State → List Byte × State
  | 0, _, s => ([], s)
  | n + 1, port, s =>
    let (b, s) := portRead8 port s
    let (bs, s) := portReadBytes n (port + 1) s
    (b :: bs, s)

/-- `PortIn(port, S)` (R95). -/
def portIn (port : Half) (sz : Size) (s : State) : Word × State :=
  (leValue (portReadBytes sz.bytes port s).1, (portReadBytes sz.bytes port s).2)

/-- The byte writes of `PortOut`, in ascending port order modulo 2^16 (R95). -/
def portWriteBytes : Nat → Half → Word → State → State
  | 0, _, _, s => s
  | n + 1, port, v, s => portWriteBytes n (port + 1) (v >>> 8) (portWrite8 port (v.setWidth 8) s)

/-- `PortOut(port, S, v)` (R95). -/
def portOut (port : Half) (sz : Size) (v : Word) (s : State) : State := portWriteBytes sz.bytes port v s

/-! ### Segmentation (R80, R82) -/

/-- `Linear(seg, off, i)` (R80). -/
def linearAddr (d : SegDesc) (off : Word) (i : Nat) : Word := d.base + off + BitVec.ofNat 32 i

/-- `SegCheck(seg, off, n, kind)`: the abort it raises, if any (R82). -/
def segCheck (seg : SegReg) (d : SegDesc) (off : Word) (n : Nat) (kind : AccessKind) : Option Abort :=
  if d.valid = false then some (.segNotValid seg)
  else if kind = .read ∧ d.readable = false then some (.segAccess seg .read)
  else if kind = .write ∧ d.writable = false then some (.segAccess seg .write)
  else
    let last := off.toNat + (n - 1)
    if 2 ^ 32 ≤ last ∨ off < d.limitLo ∨ d.limitHi.toNat < last then some (.segLimit seg)
    else none

/-! ### Paging (R84, R86) -/

/-- Raise `PageFault(lin, kind)` as the reference function does: `cr2` records the address (R86). -/
def raisePageFault (lin : Word) (kind : AccessKind) (s : State) : Res Word :=
  .abort (.pageFault lin kind) (s.setCr2 lin)

/-- The protection test of R86: `u` whether the access is a user's, `wr` whether it is a write. -/
def pageDenied (sys : Sys) (pde pte : Word) (u wr : Bool) : Bool :=
  let rw := pde.getLsbD 1 && pte.getLsbD 1
  let us := pde.getLsbD 2 && pte.getLsbD 2
  (u && !us) || (wr && !rw && (u || sys.wp))

/-- The entry of a page table at `a`, as a doubleword (R86). -/
def readEntry (a : Word) (s : State) : Word × State := readElem (dwordAddrs a) s

/-- Write a page table entry unless `keep` (R86). -/
def markEntry (keep : Bool) (a v : Word) (s : State) : State :=
  if keep then s else writeElem (dwordAddrs a) v s

/-- The reference paging function: the i386 two-level page table (R86). -/
def pageTranslateI386 (sys : Sys) (lin : Word) (kind : AccessKind) (s : State) : Res Word :=
  if sys.pg = false then .ok lin s
  else
    let wr := decide (kind = .write)
    let u := decide (sys.cpl = 3)
    let pdeA := (sys.cr3 &&& 0xFFFFF000) ||| ((lin >>> 22) <<< 2)
    let (pde, s) := readEntry pdeA s
    if pde.getLsbD 0 = false then raisePageFault lin kind s
    else
      let pteA := (pde &&& 0xFFFFF000) ||| (((lin >>> 12) &&& 0x3FF) <<< 2)
      let (pte, s) := readEntry pteA s
      if pte.getLsbD 0 = false then raisePageFault lin kind s
      else if pageDenied sys pde pte u wr then raisePageFault lin kind s
      else
        let s := markEntry (pde.getLsbD 5) pdeA (pde ||| 0x20) s
        let s := markEntry (pte.getLsbD 5 && (!wr || pte.getLsbD 6)) pteA
          (pte ||| 0x20 ||| (if wr then 0x40 else 0)) s
        .ok ((pte &&& 0xFFFFF000) ||| (lin &&& 0xFFF)) s

/-- The marks an unspecified paging function writes into RAM (R84). -/
def applyMarks : List (Word × Byte) → List Host.Cell → List Host.Cell
  | [], m => m
  | (a, b) :: rest, m => applyMarks rest (Memory.write m a.toNat b)

/-- Any paging function that meets R84, given by a free value (log 15); with paging off it returns `lin`. A page
fault leaves no marks of the failing byte (R366). -/
def pageTranslateFree (sys : Sys) (lin : Word) (kind : AccessKind) (s : State) : Res Word :=
  if sys.pg = false then .ok lin s
  else
    let r := Config.pageTranslate lin kind sys s.mem
    match r.phys with
    | some p => .ok p (s.setMem (applyMarks r.marks s.mem))
    | none => .abort (.pageFault lin kind) s

/-- `cfg.PageTranslate(lin, kind, sys)` (R84). -/
def pageTranslate (sys : Sys) (lin : Word) (kind : AccessKind) (s : State) : Res Word :=
  match s.cfg.paging with
  | .reference => pageTranslateI386 sys lin kind s
  | .unspecified => pageTranslateFree sys lin kind s

/-- Translate `n` bytes of an element from byte `i` on, ascending (R88). -/
def translateFrom (d : SegDesc) (off : Word) (kind : AccessKind) : Nat → Nat → State → Res (List Word)
  | 0, _, s => .ok [] s
  | n + 1, i, s =>
    (pageTranslate s.cpu.sys (linearAddr d off i) kind s).bind fun p s =>
      (translateFrom d off kind n (i + 1) s).bind fun ps s => .ok (p :: ps) s

/-- `PreTranslate(seg, off, S, kind)` (R88). -/
def preTranslate (seg : SegReg) (off : Word) (n : Nat) (kind : AccessKind) (s : State) : Res (List Word) :=
  match segCheck seg (s.cpu.segs.get seg) off n kind with
  | some k => .abort k s
  | none => translateFrom (s.cpu.segs.get seg) off kind n 0 s

/-- `ReadMem(seg, off, S)` (R92). -/
def readMem (seg : SegReg) (off : Word) (n : Nat) (s : State) : Res Word :=
  (preTranslate seg off n .read s).bind fun pa s =>
    (checkAbort (readElem pa s).2).bind fun _ s' => .ok (readElem pa s).1 s'

/-- `WriteMem(seg, off, S, v)` (R92). -/
def writeMem (seg : SegReg) (off : Word) (n : Nat) (v : Word) (s : State) : Res Unit :=
  (preTranslate seg off n .write s).bind fun pa s => checkAbort (writeElem pa v s)

/-! ### I/O permission (R211, R212) -/

/-- The state `s` with the outside world's supply as it stands in `t`: what was drawn on the way to `t` is drawn
(log 9). -/
def keepDraws (s t : State) : State := s.setIo { s.io with inputs := t.io.inputs, drawn := t.io.drawn }

/-- One byte of `SysRead`, through the paging function as if `sys.cpl = 0` (R212). `cfg.IoPermitted` has no side
effect (R211): the marks of the translation and what the read does to a device are not kept; a page fault records
`cr2` (R86, R366; log 16). Each address of an outside window gives a byte of its own (R72), so a byte drawn from
outside stays drawn (the model's choice, logs 9 and 16). -/
def sysByte (lin : Word) (s : State) : Res Byte :=
  match pageTranslate { s.cpu.sys with cpl := 0 } lin .read s with
  | .ok p t => .ok (memRead p t).1 (keepDraws s (memRead p t).2)
  | .abort k t => .abort k ((keepDraws s t).setCr2 t.cpu.sys.cr2)

/-- `SysRead(lin, n)`: its bytes, ascending (R212). -/
def sysRead : Nat → Word → State → Res (List Byte)
  | 0, _, s => .ok [] s
  | n + 1, lin, s =>
    (sysByte lin s).bind fun b s => (sysRead n (lin + 1) s).bind fun bs s => .ok (b :: bs) s

/-- The reference I/O permission function: IOPL and the task state segment's bitmap (R212). The width of `at` is not
stated: it is computed without wrap (DESIGN CHOICE, log 25). -/
def ioPermittedI386 (port : Half) (sz : Size) (s : State) : Res Bool :=
  let sys := s.cpu.sys
  if sys.pe = false then .ok true s
  else if vmFlag s.cpu.flags = false ∧ sys.cpl ≤ iopl s.cpu.flags then .ok true s
  else if sys.tssLimit < 0x67 then .ok false s
  else
    (sysRead 2 (sys.tssBase + 0x66) s).bind fun mapBytes s =>
      let at' := (leValue mapBytes).toNat + port.toNat / 8
      if sys.tssLimit.toNat < at' + 1 then .ok false s
      else
        (sysRead 2 (sys.tssBase + BitVec.ofNat 32 at') s).bind fun bits s =>
          .ok (decide (leValue bits &&& (((1#32 <<< sz.bytes) - 1) <<< (port.toNat % 8)) = 0)) s

/-- `cfg.IoPermitted(port, S, sys, flags)` (R211). -/
def ioPermitted (port : Half) (sz : Size) (s : State) : Res Bool :=
  match s.cfg.ioPolicy with
  | .reference => ioPermittedI386 port sz s
  | .unspecified => .ok (Config.ioPermitted port sz.bytes s.cpu.sys s.cpu.flags s.mem) s

/-- `IoCheck(port, S)` (R211). -/
def ioCheck (port : Half) (sz : Size) (s : State) : Res Unit :=
  (ioPermitted port sz s).bind fun ok s => if ok then .ok () s else .abort (.ioPermFault port sz) s

/-! ### Taking an abort, its delivery, and reset -/

/-- Take an abort: `abrt` records it and the handler returns 1 with nothing else changed (R13, R361, R366,
R368; log 6). -/
def takeAbort (k : Abort) (s : State) : State := s.setAbrt (some k)

/-- The x86 vector a dispatcher outside the block reports for an abort, from general knowledge (R360, R362). -/
def Abort.vector (segs : SegRegs) : Abort → Nat
  | .segNotValid seg => if (segs.get seg).isStack then 12 else 13
  | .segAccess _ _ => 13
  | .segLimit seg => if (segs.get seg).isStack then 12 else 13
  | .pageFault _ _ => 14
  | .ioPermFault _ _ => 13

/-- One access of the environment (R370). -/
def envAccess (a : EnvAccess) (s : State) : State :=
  match a with
  | .memRead addr => (memRead addr s).2
  | .memWrite addr b => memWrite addr b s
  | .portRead port => (portRead8 port s).2
  | .portWrite port b => portWrite8 port b s

/-- `Deliver`: the environment makes its accesses and leaves a CPU context of its own with `abrt = none` (R370);
a return from the fault is the same step with the context of R366 restored (R372; log 8). -/
def deliver (accesses : List EnvAccess) (cpu : Cpu) (s : State) : State :=
  { accesses.foldl (fun s a => envAccess a s) s with cpu := { cpu with abrt := none } }

/-- The general registers after a CPU reset: unspecified, free values (R60; log 1). -/
def freeRegs (n : Nat) : Regs :=
  { eax := Config.freeWord n, ecx := Config.freeWord (n + 1), edx := Config.freeWord (n + 2),
    ebx := Config.freeWord (n + 3), esp := Config.freeWord (n + 4), ebp := Config.freeWord (n + 5),
    esi := Config.freeWord (n + 6), edi := Config.freeWord (n + 7) }

/-- CPU reset (R400): the CPU context of R60; SCSI and bridge state unchanged. -/
def cpuReset (s : State) : State :=
  { s with cpu := .afterReset (freeRegs s.io.drawn), io := { s.io with drawn := s.io.drawn + 8 } }

/-- What the environment does at a step boundary (R370, R400). -/
def envEvent (e : EnvEvent) (s : State) : State :=
  match e with
  | .deliver accesses cpu => deliver accesses cpu s
  | .cpuReset => cpuReset s
  | .adapterReset => s.setIo (adapterReset s.cfg s.io)

end Sys2Proof.Machine
end

