-- ==== Sys2Proof/Machine/Repeat.lean ====
section
/-! DEFINITION. Running one string instruction after its decoding: the plain step (R238), the repeat loop (R234 to
R237) and the refusals of R130 (b) and (c). -/
namespace Sys2Proof.Machine

/-- `(pc + len) mod M`, with M = 2^16 in 16-bit code and 2^32 otherwise (R23). -/
def pcAfter (d32 : Bool) (pc : Word) (n : Nat) : Word :=
  let p := pc + BitVec.ofNat 32 n
  if d32 then p else (low16 p).setWidth 32

/-- Move `pc` past an instruction of `len` bytes (R236, R238). -/
def pcAdvance (len : Nat) (s : State) : State := s.setPc (pcAfter s.cpu.default32 s.cpu.pc len)

/-- `StepPlain` (R238): one iteration, `pc` moved on unless it aborted. -/
def stepPlain (len : Nat) (iter : State → Res Unit) (s : State) : State :=
  match iter s with
  | .abort k s => takeAbort k s
  | .ok _ s => pcAdvance len s

/-- The end of a successful iteration of a repeated instruction: the count `c` goes down, and `pc` moves on when it
is used up or the flag condition holds (R234, R235, R236). -/
def repeatTail (len : Nat) (a : AddrSize) (kind : RepKind) (c : Word) (s : State) : State :=
  let s := s.setRegs (setIdx .ecx a (c - 1) s.cpu.regs)
  if c - 1 = 0 ∨ stopCondition kind s.cpu.flags = true then pcAdvance len s else s

/-- `StepRepeat` (R234). -/
def stepRepeat (len : Nat) (a : AddrSize) (kind : RepKind) (iter : State → Res Unit) (s : State) : State :=
  let c := idx s.cpu.regs .ecx a
  if c = 0 then pcAdvance len s
  else
    match iter s with
    | .abort k s => takeAbort k s
    | .ok _ s => repeatTail len a kind c s

/-- One CPU step of a decoded instruction with prefixes `ps` and handler `h`, whose iteration is `iter` (R230).
The LOCK prefix and the refused combinations change nothing (R130, R233). -/
def stepString (ps : List Pfx) (h : Handler) (iter : SegReg → State → Res Unit) (s : State) :
    Host.Outcome State Fault Refusal :=
  if .lock ∈ ps then .refused .lock
  else if badPrefixes ps h.fam then .refused .prefixCombination
  else
    let len := ps.length + 1
    match repeatKind ps h.fam with
    | none => .next (stepPlain len (iter (effectiveSeg ps)) s)
    | some kind => .next (stepRepeat len h.asz kind (iter (effectiveSeg ps)) s)

end Sys2Proof.Machine
end

