-- ==== Sys2Proof/Machine/Cmps.lean ====
section
/-! DEFINITION. CMPS: flags of source − ES:EDI (R193 to R195). -/
namespace Sys2Proof.Machine

/-- One iteration of CMPS (R193, R194, R195): ES:EDI is checked for read, and the flags are written after both
reads (R191, R192). -/
def cmpsIter (sz : Size) (a : AddrSize) (ea : SegReg) (s : State) : Res Unit :=
  (preTranslate ea (idx s.cpu.regs .esi a) sz.bytes .read s).bind fun paSrc s1 =>
    (preTranslate .es (idx s.cpu.regs .edi a) sz.bytes .read s1).bind fun paDst s2 =>
      (checkAbort (readElem paSrc s2).2).bind fun _ s3 =>
        (checkAbort (readElem paDst s3).2).bind fun _ s4 =>
          .ok () (charge ⟨.cmps, sz, a⟩ (advance .edi a sz (advance .esi a sz
            (s4.setFlags (setSubElem sz (readElem paSrc s2).1 (readElem paDst s3).1 s4.cpu.flags)))))

/-- CMPSB.a16 (R193). -/
def execCmpsBA16 (s : State) : Host.Outcome State Fault Refusal :=
  stepString [] ⟨.cmps, .byte, .a16⟩ (cmpsIter .byte .a16) s

/-- CMPSB.a32 (R193). -/
def execCmpsBA32 (s : State) : Host.Outcome State Fault Refusal :=
  stepString [] ⟨.cmps, .byte, .a32⟩ (cmpsIter .byte .a32) s

/-- CMPSW.a16 (R194). -/
def execCmpsWA16 (s : State) : Host.Outcome State Fault Refusal :=
  stepString [] ⟨.cmps, .word, .a16⟩ (cmpsIter .word .a16) s

/-- CMPSW.a32 (R194). -/
def execCmpsWA32 (s : State) : Host.Outcome State Fault Refusal :=
  stepString [] ⟨.cmps, .word, .a32⟩ (cmpsIter .word .a32) s

/-- CMPSD.a16 (R195). -/
def execCmpsDA16 (s : State) : Host.Outcome State Fault Refusal :=
  stepString [] ⟨.cmps, .dword, .a16⟩ (cmpsIter .dword .a16) s

/-- CMPSD.a32 (R195). -/
def execCmpsDA32 (s : State) : Host.Outcome State Fault Refusal :=
  stepString [] ⟨.cmps, .dword, .a32⟩ (cmpsIter .dword .a32) s

end Sys2Proof.Machine
end

