-- ==== Sys2Proof/Machine/Ins.lean ====
section
/-! DEFINITION. INS: port DX to ES:EDI (R215 to R217). -/
namespace Sys2Proof.Machine

/-- One iteration of INS (R214 to R217): permission, destination, port read, memory write, in that order. -/
def insIter (sz : Size) (a : AddrSize) (_ea : SegReg) (s : State) : Res Unit :=
  (ioCheck (dx s.cpu.regs) sz s).bind fun _ s1 =>
    (preTranslate .es (idx s.cpu.regs .edi a) sz.bytes .write s1).bind fun paDst s2 =>
      (checkAbort (portIn (dx s.cpu.regs) sz s2).2).bind fun _ s3 =>
        (checkAbort (writeElem paDst (portIn (dx s.cpu.regs) sz s2).1 s3)).bind fun _ s4 =>
          .ok () (charge ⟨.ins, sz, a⟩ (advance .edi a sz s4))

/-- INSB.a16 (R215). -/
def execInsBA16 (s : State) : Host.Outcome State Fault Refusal :=
  stepString [] ⟨.ins, .byte, .a16⟩ (insIter .byte .a16) s

/-- INSB.a32 (R215). -/
def execInsBA32 (s : State) : Host.Outcome State Fault Refusal :=
  stepString [] ⟨.ins, .byte, .a32⟩ (insIter .byte .a32) s

/-- INSW.a16 (R216). -/
def execInsWA16 (s : State) : Host.Outcome State Fault Refusal :=
  stepString [] ⟨.ins, .word, .a16⟩ (insIter .word .a16) s

/-- INSW.a32 (R216). -/
def execInsWA32 (s : State) : Host.Outcome State Fault Refusal :=
  stepString [] ⟨.ins, .word, .a32⟩ (insIter .word .a32) s

/-- INSD.a16 (R217). -/
def execInsDA16 (s : State) : Host.Outcome State Fault Refusal :=
  stepString [] ⟨.ins, .dword, .a16⟩ (insIter .dword .a16) s

/-- INSD.a32 (R217). -/
def execInsDA32 (s : State) : Host.Outcome State Fault Refusal :=
  stepString [] ⟨.ins, .dword, .a32⟩ (insIter .dword .a32) s

end Sys2Proof.Machine
end

