-- ==== Sys2Proof/Machine/Lods.lean ====
section
/-! DEFINITION. LODS: source to the accumulator (R179 to R181). -/
namespace Sys2Proof.Machine

/-- One iteration of LODS (R179, R180, R181). -/
def lodsIter (sz : Size) (a : AddrSize) (ea : SegReg) (s : State) : Res Unit :=
  (preTranslate ea (idx s.cpu.regs .esi a) sz.bytes .read s).bind fun paSrc s1 =>
    (checkAbort (readElem paSrc s1).2).bind fun _ s2 =>
      .ok () (charge ⟨.lods, sz, a⟩ (advance .esi a sz
        (s2.setRegs (setAcc sz (readElem paSrc s1).1 s2.cpu.regs))))

/-- LODSB.a16 (R179). -/
def execLodsBA16 (s : State) : Host.Outcome State Fault Refusal :=
  stepString [] ⟨.lods, .byte, .a16⟩ (lodsIter .byte .a16) s

/-- LODSB.a32 (R179). -/
def execLodsBA32 (s : State) : Host.Outcome State Fault Refusal :=
  stepString [] ⟨.lods, .byte, .a32⟩ (lodsIter .byte .a32) s

/-- LODSW.a16 (R180). -/
def execLodsWA16 (s : State) : Host.Outcome State Fault Refusal :=
  stepString [] ⟨.lods, .word, .a16⟩ (lodsIter .word .a16) s

/-- LODSW.a32 (R180). -/
def execLodsWA32 (s : State) : Host.Outcome State Fault Refusal :=
  stepString [] ⟨.lods, .word, .a32⟩ (lodsIter .word .a32) s

/-- LODSD.a16 (R181). -/
def execLodsDA16 (s : State) : Host.Outcome State Fault Refusal :=
  stepString [] ⟨.lods, .dword, .a16⟩ (lodsIter .dword .a16) s

/-- LODSD.a32 (R181). -/
def execLodsDA32 (s : State) : Host.Outcome State Fault Refusal :=
  stepString [] ⟨.lods, .dword, .a32⟩ (lodsIter .dword .a32) s

end Sys2Proof.Machine
end

