-- ==== Sys2Proof/Machine/Movs.lean ====
section
/-! DEFINITION. MOVS: source to ES:EDI (R171 to R174). -/
namespace Sys2Proof.Machine

/-- One iteration of MOVS (R171, R172, R173): both operands are translated before either is accessed, the
destination always through ES (R174). -/
def movsIter (sz : Size) (a : AddrSize) (ea : SegReg) (s : State) : Res Unit :=
  (preTranslate ea (idx s.cpu.regs .esi a) sz.bytes .read s).bind fun paSrc s1 =>
    (preTranslate .es (idx s.cpu.regs .edi a) sz.bytes .write s1).bind fun paDst s2 =>
      (checkAbort (readElem paSrc s2).2).bind fun _ s3 =>
        (checkAbort (writeElem paDst (readElem paSrc s2).1 s3)).bind fun _ s4 =>
          .ok () (charge ⟨.movs, sz, a⟩ (advance .edi a sz (advance .esi a sz s4)))

/-- MOVSB.a16 (R171). -/
def execMovsBA16 (s : State) : Host.Outcome State Fault Refusal :=
  stepString [] ⟨.movs, .byte, .a16⟩ (movsIter .byte .a16) s

/-- MOVSB.a32 (R171). -/
def execMovsBA32 (s : State) : Host.Outcome State Fault Refusal :=
  stepString [] ⟨.movs, .byte, .a32⟩ (movsIter .byte .a32) s

/-- MOVSW.a16 (R172). -/
def execMovsWA16 (s : State) : Host.Outcome State Fault Refusal :=
  stepString [] ⟨.movs, .word, .a16⟩ (movsIter .word .a16) s

/-- MOVSW.a32 (R172). -/
def execMovsWA32 (s : State) : Host.Outcome State Fault Refusal :=
  stepString [] ⟨.movs, .word, .a32⟩ (movsIter .word .a32) s

/-- MOVSD.a16 (R173). -/
def execMovsDA16 (s : State) : Host.Outcome State Fault Refusal :=
  stepString [] ⟨.movs, .dword, .a16⟩ (movsIter .dword .a16) s

/-- MOVSD.a32 (R173). -/
def execMovsDA32 (s : State) : Host.Outcome State Fault Refusal :=
  stepString [] ⟨.movs, .dword, .a32⟩ (movsIter .dword .a32) s

end Sys2Proof.Machine
end

