-- ==== Sys2Proof/Machine/Outs.lean ====
section
/-! DEFINITION. OUTS: source to port DX (R219 to R221). -/
namespace Sys2Proof.Machine

/-- One iteration of OUTS (R218 to R221): permission, source, memory read, port write, in that order. -/
def outsIter (sz : Size) (a : AddrSize) (ea : SegReg) (s : State) : Res Unit :=
  (ioCheck (dx s.cpu.regs) sz s).bind fun _ s1 =>
    (preTranslate ea (idx s.cpu.regs .esi a) sz.bytes .read s1).bind fun paSrc s2 =>
      (checkAbort (readElem paSrc s2).2).bind fun _ s3 =>
        (checkAbort (portOut (dx s.cpu.regs) sz (readElem paSrc s2).1 s3)).bind fun _ s4 =>
          .ok () (charge ⟨.outs, sz, a⟩ (advance .esi a sz s4))

/-- OUTSB.a16 (R219). -/
def execOutsBA16 (s : State) : Host.Outcome State Fault Refusal :=
  stepString [] ⟨.outs, .byte, .a16⟩ (outsIter .byte .a16) s

/-- OUTSB.a32 (R219). -/
def execOutsBA32 (s : State) : Host.Outcome State Fault Refusal :=
  stepString [] ⟨.outs, .byte, .a32⟩ (outsIter .byte .a32) s

/-- OUTSW.a16 (R220). -/
def execOutsWA16 (s : State) : Host.Outcome State Fault Refusal :=
  stepString [] ⟨.outs, .word, .a16⟩ (outsIter .word .a16) s

/-- OUTSW.a32 (R220). -/
def execOutsWA32 (s : State) : Host.Outcome State Fault Refusal :=
  stepString [] ⟨.outs, .word, .a32⟩ (outsIter .word .a32) s

/-- OUTSD.a16 (R221). -/
def execOutsDA16 (s : State) : Host.Outcome State Fault Refusal :=
  stepString [] ⟨.outs, .dword, .a16⟩ (outsIter .dword .a16) s

/-- OUTSD.a32 (R221). -/
def execOutsDA32 (s : State) : Host.Outcome State Fault Refusal :=
  stepString [] ⟨.outs, .dword, .a32⟩ (outsIter .dword .a32) s

end Sys2Proof.Machine
end

