-- ==== Sys2Proof/Machine/Scas.lean ====
section
/-! DEFINITION. SCAS: flags of accumulator − ES:EDI (R197 to R199). -/
namespace Sys2Proof.Machine

/-- One iteration of SCAS (R197, R198, R199); the segment prefix is not used (R124). -/
def scasIter (sz : Size) (a : AddrSize) (_ea : SegReg) (s : State) : Res Unit :=
  (preTranslate .es (idx s.cpu.regs .edi a) sz.bytes .read s).bind fun paDst s1 =>
    (checkAbort (readElem paDst s1).2).bind fun _ s2 =>
      .ok () (charge ⟨.scas, sz, a⟩ (advance .edi a sz
        (s2.setFlags (setSubElem sz (acc s2.cpu.regs sz) (readElem paDst s1).1 s2.cpu.flags))))

/-- SCASB.a16 (R197). -/
def execScasBA16 (s : State) : Host.Outcome State Fault Refusal :=
  stepString [] ⟨.scas, .byte, .a16⟩ (scasIter .byte .a16) s

/-- SCASB.a32 (R197). -/
def execScasBA32 (s : State) : Host.Outcome State Fault Refusal :=
  stepString [] ⟨.scas, .byte, .a32⟩ (scasIter .byte .a32) s

/-- SCASW.a16 (R198). -/
def execScasWA16 (s : State) : Host.Outcome State Fault Refusal :=
  stepString [] ⟨.scas, .word, .a16⟩ (scasIter .word .a16) s

/-- SCASW.a32 (R198). -/
def execScasWA32 (s : State) : Host.Outcome State Fault Refusal :=
  stepString [] ⟨.scas, .word, .a32⟩ (scasIter .word .a32) s

/-- SCASD.a16 (R199). -/
def execScasDA16 (s : State) : Host.Outcome State Fault Refusal :=
  stepString [] ⟨.scas, .dword, .a16⟩ (scasIter .dword .a16) s

/-- SCASD.a32 (R199). -/
def execScasDA32 (s : State) : Host.Outcome State Fault Refusal :=
  stepString [] ⟨.scas, .dword, .a32⟩ (scasIter .dword .a32) s

end Sys2Proof.Machine
end

