-- ==== Sys2Proof/Machine/Stos.lean ====
section
/-! DEFINITION. STOS: accumulator to ES:EDI (R175 to R177). -/
namespace Sys2Proof.Machine

/-- One iteration of STOS (R175, R176, R177); the segment prefix is not used (R124). -/
def stosIter (sz : Size) (a : AddrSize) (_ea : SegReg) (s : State) : Res Unit :=
  (preTranslate .es (idx s.cpu.regs .edi a) sz.bytes .write s).bind fun paDst s1 =>
    (checkAbort (writeElem paDst (acc s1.cpu.regs sz) s1)).bind fun _ s2 =>
      .ok () (charge ⟨.stos, sz, a⟩ (advance .edi a sz s2))

/-- STOSB.a16 (R175). -/
def execStosBA16 (s : State) : Host.Outcome State Fault Refusal :=
  stepString [] ⟨.stos, .byte, .a16⟩ (stosIter .byte .a16) s

/-- STOSB.a32 (R175). -/
def execStosBA32 (s : State) : Host.Outcome State Fault Refusal :=
  stepString [] ⟨.stos, .byte, .a32⟩ (stosIter .byte .a32) s

/-- STOSW.a16 (R176). -/
def execStosWA16 (s : State) : Host.Outcome State Fault Refusal :=
  stepString [] ⟨.stos, .word, .a16⟩ (stosIter .word .a16) s

/-- STOSW.a32 (R176). -/
def execStosWA32 (s : State) : Host.Outcome State Fault Refusal :=
  stepString [] ⟨.stos, .word, .a32⟩ (stosIter .word .a32) s

/-- STOSD.a16 (R177). -/
def execStosDA16 (s : State) : Host.Outcome State Fault Refusal :=
  stepString [] ⟨.stos, .dword, .a16⟩ (stosIter .dword .a16) s

/-- STOSD.a32 (R177). -/
def execStosDA32 (s : State) : Host.Outcome State Fault Refusal :=
  stepString [] ⟨.stos, .dword, .a32⟩ (stosIter .dword .a32) s

end Sys2Proof.Machine
end

