-- ==== Sys2Proof/Machine/Prefixes.lean ====
section
/-! DEFINITION. The instructions that begin with a prefix byte (R124 to R126, R130): the string instruction they
modify, run with the decode context of all its prefixes (R31). -/
namespace Sys2Proof.Machine

/-- The iteration of a handler (R128). -/
def iterate (h : Handler) : SegReg → State → Res Unit :=
  match h.fam with
  | .movs => movsIter h.size h.asz
  | .stos => stosIter h.size h.asz
  | .lods => lodsIter h.size h.asz
  | .cmps => cmpsIter h.size h.asz
  | .scas => scasIter h.size h.asz
  | .ins => insIter h.size h.asz
  | .outs => outsIter h.size h.asz

/-- A string instruction with one more prefix in front. -/
def stepPrefixed (p : Pfx) (rest : Instr) (s : State) : Host.Outcome State Fault Refusal :=
  stepString (p :: rest.prefixes) rest.handler (iterate rest.handler) s

/-- PREFIX.ES (R124). -/
def execPrefixES (rest : Instr) (s : State) : Host.Outcome State Fault Refusal :=
  stepPrefixed .es rest s

/-- PREFIX.CS (R124). -/
def execPrefixCS (rest : Instr) (s : State) : Host.Outcome State Fault Refusal :=
  stepPrefixed .cs rest s

/-- PREFIX.SS (R124). -/
def execPrefixSS (rest : Instr) (s : State) : Host.Outcome State Fault Refusal :=
  stepPrefixed .ss rest s

/-- PREFIX.DS (R124). -/
def execPrefixDS (rest : Instr) (s : State) : Host.Outcome State Fault Refusal :=
  stepPrefixed .ds rest s

/-- PREFIX.FS (R124). -/
def execPrefixFS (rest : Instr) (s : State) : Host.Outcome State Fault Refusal :=
  stepPrefixed .fs rest s

/-- PREFIX.GS (R124). -/
def execPrefixGS (rest : Instr) (s : State) : Host.Outcome State Fault Refusal :=
  stepPrefixed .gs rest s

/-- PREFIX.OPSIZE (R126). -/
def execPrefixOpSize (rest : Instr) (s : State) : Host.Outcome State Fault Refusal :=
  stepPrefixed .opSize rest s

/-- PREFIX.ADDRSIZE (R126). -/
def execPrefixAddrSize (rest : Instr) (s : State) : Host.Outcome State Fault Refusal :=
  stepPrefixed .addrSize rest s

/-- PREFIX.REPNE (R125). -/
def execPrefixRepne (rest : Instr) (s : State) : Host.Outcome State Fault Refusal :=
  stepPrefixed .repne rest s

/-- PREFIX.REP (R125). -/
def execPrefixRep (rest : Instr) (s : State) : Host.Outcome State Fault Refusal :=
  stepPrefixed .rep rest s

/-- PREFIX.LOCK (R130). -/
def execPrefixLock (rest : Instr) (s : State) : Host.Outcome State Fault Refusal :=
  stepPrefixed .lock rest s

end Sys2Proof.Machine
end

