-- ==== Sys2Proof/Machine/Dispatch.lean ====
section
/-! DEFINITION. The dispatch of an instruction to its meaning, one arm per constructor of Instr. -/
namespace Sys2Proof.Machine

def exec (i : Instr) (s : State) : Host.Outcome State Fault Refusal :=
  match i with
  | .insbA16 => Sys2Proof.Machine.execInsBA16 s
  | .insbA32 => Sys2Proof.Machine.execInsBA32 s
  | .inswA16 => Sys2Proof.Machine.execInsWA16 s
  | .inswA32 => Sys2Proof.Machine.execInsWA32 s
  | .insdA16 => Sys2Proof.Machine.execInsDA16 s
  | .insdA32 => Sys2Proof.Machine.execInsDA32 s
  | .outsbA16 => Sys2Proof.Machine.execOutsBA16 s
  | .outsbA32 => Sys2Proof.Machine.execOutsBA32 s
  | .outswA16 => Sys2Proof.Machine.execOutsWA16 s
  | .outswA32 => Sys2Proof.Machine.execOutsWA32 s
  | .outsdA16 => Sys2Proof.Machine.execOutsDA16 s
  | .outsdA32 => Sys2Proof.Machine.execOutsDA32 s
  | .movsbA16 => Sys2Proof.Machine.execMovsBA16 s
  | .movsbA32 => Sys2Proof.Machine.execMovsBA32 s
  | .movswA16 => Sys2Proof.Machine.execMovsWA16 s
  | .movswA32 => Sys2Proof.Machine.execMovsWA32 s
  | .movsdA16 => Sys2Proof.Machine.execMovsDA16 s
  | .movsdA32 => Sys2Proof.Machine.execMovsDA32 s
  | .cmpsbA16 => Sys2Proof.Machine.execCmpsBA16 s
  | .cmpsbA32 => Sys2Proof.Machine.execCmpsBA32 s
  | .cmpswA16 => Sys2Proof.Machine.execCmpsWA16 s
  | .cmpswA32 => Sys2Proof.Machine.execCmpsWA32 s
  | .cmpsdA16 => Sys2Proof.Machine.execCmpsDA16 s
  | .cmpsdA32 => Sys2Proof.Machine.execCmpsDA32 s
  | .stosbA16 => Sys2Proof.Machine.execStosBA16 s
  | .stosbA32 => Sys2Proof.Machine.execStosBA32 s
  | .stoswA16 => Sys2Proof.Machine.execStosWA16 s
  | .stoswA32 => Sys2Proof.Machine.execStosWA32 s
  | .stosdA16 => Sys2Proof.Machine.execStosDA16 s
  | .stosdA32 => Sys2Proof.Machine.execStosDA32 s
  | .lodsbA16 => Sys2Proof.Machine.execLodsBA16 s
  | .lodsbA32 => Sys2Proof.Machine.execLodsBA32 s
  | .lodswA16 => Sys2Proof.Machine.execLodsWA16 s
  | .lodswA32 => Sys2Proof.Machine.execLodsWA32 s
  | .lodsdA16 => Sys2Proof.Machine.execLodsDA16 s
  | .lodsdA32 => Sys2Proof.Machine.execLodsDA32 s
  | .scasbA16 => Sys2Proof.Machine.execScasBA16 s
  | .scasbA32 => Sys2Proof.Machine.execScasBA32 s
  | .scaswA16 => Sys2Proof.Machine.execScasWA16 s
  | .scaswA32 => Sys2Proof.Machine.execScasWA32 s
  | .scasdA16 => Sys2Proof.Machine.execScasDA16 s
  | .scasdA32 => Sys2Proof.Machine.execScasDA32 s
  | .prefixES rest => Sys2Proof.Machine.execPrefixES rest s
  | .prefixCS rest => Sys2Proof.Machine.execPrefixCS rest s
  | .prefixSS rest => Sys2Proof.Machine.execPrefixSS rest s
  | .prefixDS rest => Sys2Proof.Machine.execPrefixDS rest s
  | .prefixFS rest => Sys2Proof.Machine.execPrefixFS rest s
  | .prefixGS rest => Sys2Proof.Machine.execPrefixGS rest s
  | .prefixOpSize rest => Sys2Proof.Machine.execPrefixOpSize rest s
  | .prefixAddrSize rest => Sys2Proof.Machine.execPrefixAddrSize rest s
  | .prefixRepne rest => Sys2Proof.Machine.execPrefixRepne rest s
  | .prefixRep rest => Sys2Proof.Machine.execPrefixRep rest s
  | .prefixLock rest => Sys2Proof.Machine.execPrefixLock rest s

end Sys2Proof.Machine
end

