-- ==== Sys2Proof/Machine/Fetch.lean ====
section
/-! DEFINITION. Fetching an instruction's bytes from the code segment (R232), and the same addresses for placing
an instruction there. -/
namespace Sys2Proof.Machine

/-- The offset of byte `i` of the instruction at `pc` (R232). -/
def fetchOffset (cpu : Cpu) (i : Nat) : Word := pcAfter cpu.default32 cpu.pc i

/-- The offsets of the code segment, after which the fetch is back where it began (R23). -/
def codeTurn (d32 : Bool) : Nat := if d32 then 2 ^ 32 else 2 ^ 16

/-- Read instruction bytes from byte `i` on, at most `n` of them, up to and with the first byte that is no prefix
(R133, R232). -/
def fetchFrom : Nat → Nat → State → Res (List Byte)
  | 0, _, s => .ok [] s
  | n + 1, i, s =>
    (readMem .cs (fetchOffset s.cpu i) 1 s).bind fun w s =>
      match Pfx.ofByte? (low8 w) with
      | none => .ok [low8 w] s
      | some _ => (fetchFrom n (i + 1) s).bind fun bs s => .ok (low8 w :: bs) s

/-- The bytes of the instruction at `pc`: prefixes as long as they come, and the opcode (R133, R232). In a segment of
prefixes alone it gives up after one turn (log 12). -/
def fetch (s : State) : Res (List Byte) := fetchFrom (codeTurn s.cpu.default32) 0 s

/-- What a fetch that aborts in `t` leaves of the state `s` it began in: nothing has changed (R232) but accessed marks
in RAM and `cr2` (R366). What the reads of the earlier bytes did to a device, and what they drew from outside, is
undone (log 27). -/
def fetchUndone (s t : State) : State := (s.setMem t.mem).setCr2 t.cpu.sys.cr2

/-- Store bytes in RAM where the fetch reads byte `i` of an instruction, where it reads RAM at all. -/
def placeFrom : List Byte → Nat → State → State
  | [], _, s => s
  | b :: bs, i, s =>
    match preTranslate .cs (fetchOffset s.cpu i) 1 .read s with
    | .ok (p :: _) _ =>
      placeFrom bs (i + 1)
        (if physTarget s.cfg p = .ram then s.setMem (Memory.write s.mem p.toNat b) else s)
    | _ => placeFrom bs (i + 1) s

/-- Let the CPU move next: no event at this step boundary, no abort pending, no timer due. -/
def clearTheWay (s : State) : State :=
  let g := match s.agenda with
    | some e :: rest => none :: some e :: rest
    | g => g
  let wait := if s.io.bridge.timerArmed && decide (s.io.bridge.timerWait = 0) then 1 else s.io.bridge.timerWait
  ((s.setAbrt none).setAgenda g).setIo (s.io.mapBridge fun b => { b with timerWait := wait })

end Sys2Proof.Machine
end

