-- ==== Sys2Proof/Machine/Step.lean ====
section
/-! DEFINITION. One step of the machine: the agent whose turn it is moves (R4, R230, R350; logs 6, 7, 8). -/
namespace Sys2Proof.Machine

/-- The refusal a decoder's rejection is (R130). -/
def refusalOf : DecodeReject → Refusal
  | .outOfScope => .outOfScope
  | .prefixCombination => .prefixCombination

/-- `CpuStep` (R230): fetch, decode, run; a fetch that aborts changes nothing else (R232, R366). -/
def cpuStep (s : State) : Host.Outcome State Fault Refusal :=
  match fetch s with
  | .abort k t => .next (takeAbort k (fetchUndone s t))
  | .ok bytes s' =>
    match decode s.cpu.default32 bytes with
    | .error r => .refused (refusalOf r)
    | .ok (i, _) => exec i s'

/-- The CPU agent's turn: it is enabled while `abrt = none` (R230). With an abort undelivered it waits while a timer
is armed, and the machine stops when none is (R370, log 6). -/
def cpuTurn (s : State) : Host.Outcome State Fault Refusal :=
  match s.cpu.abrt with
  | none => cpuStep s
  | some k => if s.io.bridge.timerArmed then .next s else .fault (.undelivered k)

/-- One step of the armed timer's delay (R350, log 7). -/
def timerTick (s : State) : State :=
  if s.io.bridge.timerArmed then s.setIo (s.io.mapBridge fun b => { b with timerWait := b.timerWait - 1 }) else s

/-- Whether the bridge timer's callback runs now (R350, log 7). -/
def timerDue (s : State) : Bool := s.io.bridge.timerArmed && decide (s.io.bridge.timerWait = 0)

/-- The turn of an agent of the block: the timer when it is due, else the CPU (R4, R350). -/
def agentStep (s : State) : Host.Outcome State Fault Refusal :=
  if timerDue s then .next (s.setIo (callback s.cfg s.io)) else cpuTurn (timerTick s)

/-- One step of the machine: the environment's event for this step boundary if it has one (log 8), else the turn
of an agent of the block. -/
def step (s : State) : Host.Outcome State Fault Refusal :=
  match s.agenda with
  | some e :: rest => .next (envEvent e (s.setAgenda rest))
  | none :: rest => agentStep (s.setAgenda rest)
  | [] => agentStep s

/-- The state with an instruction of the opcode table stored where `step` fetches next, and the CPU to move next
(log 14). -/
def State.withFetchWord (s : State) (nbits w : Nat) : State := placeFrom (tableBytes nbits w) 0 (clearTheWay s)

end Sys2Proof.Machine
end

