-- ==== Sys2Proof/WellFormed.lean ====
section
/-! DEFINITION. When an instruction is one the decoder can produce: its prefixes are admitted (R130 (c)) and its
handler is the one the opcode and the size prefixes select (R122, R123, R128). -/
namespace Sys2Proof

/-- The handler's size and address size are those its prefixes select in code of default size `d32` (R122,
R123). -/
abbrev SizesAgree (d32 : Bool) (ps : List Pfx) (h : Handler) : Prop :=
  h.size = operandSize d32 (decide (.opSize ∈ ps)) (decide (h.size ≠ .byte)) ∧
    h.asz = addressSize d32 (decide (.addrSize ∈ ps))

/-- A well-formed instruction of code whose default size is 32 bits when `d32`. A LOCK prefix is syntax: its
instruction is refused when it is executed (R130 (b)). -/
abbrev WellFormed (d32 : Bool) (i : Instr) : Prop :=
  badPrefixes i.prefixes i.handler.fam = false ∧ SizesAgree d32 i.prefixes i.handler

/-- An instruction the block executes: no LOCK prefix and no refused combination (R130). -/
abbrev Admitted (i : Instr) : Prop :=
  Pfx.lock ∉ i.prefixes ∧ badPrefixes i.prefixes i.handler.fam = false

end Sys2Proof
end

