-- ==== Sys2Proof/Safety.lean ====
section
/-! DEFINITION. The words claims are made in: the decode context of an instruction, operands that pass their checks
and lie in RAM, what an iteration leaves in the CPU context, and the invariant of the machine (R290 and the legal
values of the registers). -/
namespace Sys2Proof.Machine

/-! ### The decode context of an instruction (R31) -/

/-- The repeat kind (R125). -/
def repOf (i : Instr) : Option RepKind := repeatKind i.prefixes i.handler.fam

/-- `ea_seg`: the segment a segment prefix names, the first of two, and DS without one (R124). -/
def segOf : Instr → SegReg
  | .prefixES _ => .es
  | .prefixCS _ => .cs
  | .prefixSS _ => .ss
  | .prefixDS _ => .ds
  | .prefixFS _ => .fs
  | .prefixGS _ => .gs
  | .prefixOpSize rest | .prefixAddrSize rest | .prefixRepne rest | .prefixRep rest | .prefixLock rest => segOf rest
  | .insbA16 | .insbA32 | .inswA16 | .inswA32 | .insdA16 | .insdA32
  | .outsbA16 | .outsbA32 | .outswA16 | .outswA32 | .outsdA16 | .outsdA32
  | .movsbA16 | .movsbA32 | .movswA16 | .movswA32 | .movsdA16 | .movsdA32
  | .cmpsbA16 | .cmpsbA32 | .cmpswA16 | .cmpswA32 | .cmpsdA16 | .cmpsdA32
  | .stosbA16 | .stosbA32 | .stoswA16 | .stoswA32 | .stosdA16 | .stosdA32
  | .lodsbA16 | .lodsbA32 | .lodswA16 | .lodswA32 | .lodsdA16 | .lodsdA32
  | .scasbA16 | .scasbA32 | .scaswA16 | .scaswA32 | .scasdA16 | .scasdA32 => .ds

/-- `IDX(ECX, A)`, the count of a repeated form (R234). -/
def countOf (i : Instr) (s : State) : Word := idx s.cpu.regs .ecx i.handler.asz

/-- `IDX(ESI, A)`, the offset of the source operand (R132). -/
def srcOff (i : Instr) (s : State) : Word := idx s.cpu.regs .esi i.handler.asz

/-- `IDX(EDI, A)`, the offset of the operand at ES (R132). -/
def dstOff (i : Instr) (s : State) : Word := idx s.cpu.regs .edi i.handler.asz

/-- The bytes of an element of the instruction. -/
def elemBytes (i : Instr) : Nat := i.handler.size.bytes

/-- An instruction that runs an iteration now: its encoding is not refused (R130), no abort is pending (R230), and
a repeated form has a count that is not 0 (R234). -/
abbrev Iterates (i : Instr) (s : State) : Prop :=
  Admitted i ∧ s.cpu.abrt = none ∧ (repOf i ≠ none → countOf i s ≠ 0)

/-! ### Operands -/

/-- Paging is off, so every translation is the identity (R84). -/
abbrev PagingOff (s : State) : Prop := s.cpu.sys.pg = false

/-- The physical address of byte `k` of an element with paging off (R80, R84, R88). -/
def byteAddr (s : State) (seg : SegReg) (off : Word) (k : Nat) : Word := linearAddr (s.cpu.segs.get seg) off k

/-- An access of `n` bytes passes the segment check (R82). -/
abbrev SegAllows (d : SegDesc) (off : Word) (n : Nat) (kind : AccessKind) : Prop :=
  d.valid = true ∧ (kind = .read → d.readable = true) ∧ (kind = .write → d.writable = true) ∧
    off.toNat + n ≤ 2 ^ 32 ∧ d.limitLo.toNat ≤ off.toNat ∧ off.toNat + n ≤ d.limitHi.toNat + 1

/-- An operand of `n` bytes that passes the segment check and lies in RAM (R72, R82). -/
abbrev RamOperand (s : State) (seg : SegReg) (off : Word) (n : Nat) (kind : AccessKind) : Prop :=
  SegAllows (s.cpu.segs.get seg) off n kind ∧ ∀ k, k < n → physTarget s.cfg (byteAddr s seg off k) = .ram

/-- The byte of RAM at a physical address. -/
def ramByte (s : State) (a : Word) : Byte := Memory.read s.mem a.toNat

/-- The element in RAM at an operand: the byte at the lowest offset in bits 7:0 (R75, R89). -/
def ramElem (s : State) (seg : SegReg) (off : Word) (n : Nat) : Word :=
  leValue ((List.range n).map fun k => ramByte s (byteAddr s seg off k))

/-- RAM `m'` is RAM `m` with the `n` bytes `v 0, v 1, …` at the addresses `addr 0, addr 1, …`; every other byte is
as before. -/
abbrev Stores (m m' : List Host.Cell) (n : Nat) (addr : Nat → Word) (v : Nat → Byte) : Prop :=
  (∀ k, k < n → Memory.read m' (addr k).toNat = v k) ∧
    ∀ a, (∀ k, k < n → a ≠ (addr k).toNat) → Memory.read m' a = Memory.read m a

/-- Real mode, or protected mode with a privilege level IOPL admits: every port is open (R212). -/
abbrev IoOpen (s : State) : Prop :=
  s.cfg.ioPolicy = .reference ∧
    (s.cpu.sys.pe = false ∨ (vmFlag s.cpu.flags = false ∧ s.cpu.sys.cpl ≤ iopl s.cpu.flags))

/-- Whether a family does port I/O, so that the permission check comes first (R211). -/
def Family.isIo : Family → Bool
  | .ins | .outs => true
  | .movs | .cmps | .stos | .lods | .scas => false

/-- The memory checks of an iteration in the order of R364, each with the abort it raises, if any. -/
def operandChecks (i : Instr) (s : State) : List (Option Abort) :=
  let src := segCheck (segOf i) (s.cpu.segs.get (segOf i)) (srcOff i s) (elemBytes i) .read
  let dst := segCheck .es s.cpu.segs.es (dstOff i s) (elemBytes i)
  match i.handler.fam with
  | .movs => [src, dst .write]
  | .cmps => [src, dst .read]
  | .stos => [dst .write]
  | .ins => [dst .write]
  | .scas => [dst .read]
  | .lods => [src]
  | .outs => [src]

/-- The abort an iteration reports for its memory operands with paging off: the first of the checks (R364). -/
def firstAbort (i : Instr) (s : State) : Option Abort := (operandChecks i s).findSome? id

/-- The permission check of an I/O family and the translations of an iteration's operands, source first, which come
before every access (R170, R211, R364): the physical addresses of the source and of the operand at ES. -/
def translateOperands (i : Instr) (s : State) : Res (List Word × List Word) :=
  let src (s' : State) := preTranslate (segOf i) (srcOff i s) (elemBytes i) .read s'
  let dst (kind : AccessKind) (s' : State) := preTranslate .es (dstOff i s) (elemBytes i) kind s'
  let permit := ioCheck (dx s.cpu.regs) i.handler.size s
  match i.handler.fam with
  | .movs => (src s).bind fun pa u => (dst .write u).bind fun pb w => .ok (pa, pb) w
  | .cmps => (src s).bind fun pa u => (dst .read u).bind fun pb w => .ok (pa, pb) w
  | .stos => (dst .write s).bind fun pb w => .ok ([], pb) w
  | .scas => (dst .read s).bind fun pb w => .ok ([], pb) w
  | .lods => (src s).bind fun pa w => .ok (pa, []) w
  | .ins => permit.bind fun _ u => (dst .write u).bind fun pb w => .ok ([], pb) w
  | .outs => permit.bind fun _ u => (src u).bind fun pa w => .ok (pa, []) w

/-! ### What an iteration leaves in the CPU context -/

/-- The registers with one index register advanced by the element size (R168). -/
def stepIndex (k : Reg) (i : Instr) (s : State) (r : Regs) : Regs :=
  setIdx k i.handler.asz (advanced (directionFlag s.cpu.flags) i.handler.asz i.handler.size (s.cpu.regs.get k)) r

/-- The registers after the repeat loop's decrement, for a repeated form (R234). -/
def endRegs (i : Instr) (s : State) (r : Regs) : Regs :=
  match repOf i with
  | none => r
  | some _ => setIdx .ecx i.handler.asz (countOf i s - 1) r

/-- `pc` after an iteration that left `flags`: past the instruction, but at it while a repeated form goes on
(R234, R236, R238). -/
def endPc (i : Instr) (s : State) (flags : Word) : Word :=
  match repOf i with
  | none => pcAfter s.cpu.default32 s.cpu.pc i.length
  | some kind =>
    if countOf i s - 1 = 0 ∨ stopCondition kind flags = true then pcAfter s.cpu.default32 s.cpu.pc i.length
    else s.cpu.pc

/-- The CPU context after an iteration that left the registers `r` and `flags` (R29, R234, R238). -/
def endCpu (i : Instr) (s : State) (r : Regs) (flags : Word) : Cpu :=
  { s.cpu with regs := endRegs i s r, pc := endPc i s flags, flags := flags,
               cycles := s.cpu.cycles + cycleCost s.cfg i.handler }

/-! ### The invariant -/

/-- The lines and data the core can drive in `cur_bus`: MSG, C/D, I/O, REQ, BSY and the data byte (R140, R153,
R314). -/
def drivenMask : Word := 0x00FF007C

/-- R290 (g) and (h), and the lines that are never driven: outside IDLE the target holds BSY and is known. -/
abbrev BusLines (n : Ncr) : Prop :=
  (n.state ≠ .idle → hasLine n.curBus busBsy = true ∧ n.targetId ≠ none) ∧ n.curBus &&& ~~~drivenMask = 0

/-- R290 (e), and the reach of the countdowns: which may run in which state, and what they were armed with.
`len` is the selected device's buffer length. -/
abbrev BusCountdowns (n : Ncr) (len : Nat) : Prop :=
  (n.state = .idle ∨ n.state = .select ∨ n.state = .messageOut ∨ n.state = .messageId →
    n.waitData = 0 ∧ n.waitComplete = 0) ∧
  (n.state = .command → n.waitComplete = 0) ∧
  (0 < n.clearReq → n.waitData = 0 ∧ n.waitComplete = 0 ∧ hasLine n.curBus busReq = false ∧
    (n.state = .command ∨ n.state = .dataIn ∨ n.state = .dataOut ∨ n.state = .messageOut)) ∧
  (0 < n.waitData → hasLine n.curBus busReq = false ∧ (n.waitComplete = 0 ∨ n.waitData ≤ n.waitComplete) ∧
    (n.newPhase = busIdleMark ∨ n.newPhase = phaseStatus ∨ n.newPhase = phaseMessageIn ∨
      ((n.newPhase = phaseDataIn ∨ n.newPhase = phaseDataOut) ∧ n.state = .command ∧ n.dataPos = 0 ∧ 0 < len)))

/-- R290 (b) to (d): the positions stay within what they index. -/
abbrev BusPositions (n : Ncr) (len : Nat) : Prop :=
  n.commandPos ≤ 16 ∧
  (n.state = .command → 1 ≤ n.commandPos → n.commandPos ≤ cmdLen (n.command.get 0) ∧
    (n.waitData = 0 → n.commandPos < cmdLen (n.command.get 0))) ∧
  n.msgoutPos ≤ 255 ∧
  (n.state = .messageOut → n.msgoutPos ≤ 254) ∧
  (n.state = .dataIn ∨ n.state = .dataOut → 1 ≤ len ∧ n.dataPos ≤ len ∧ (n.waitData = 0 → n.waitComplete = 0)) ∧
  (n.state = .dataOut → n.waitData = 0 → n.dataPos < len)

/-- R290 for the SCSI core, made inductive; clause (a) holds by the type of `state`, and (f), which
speaks of past calls, is left out. -/
abbrev BusInv (cfg : Cfg) (io : Io) : Prop :=
  BusLines io.ncr ∧ BusCountdowns io.ncr (devBufferLength cfg io) ∧ BusPositions io.ncr (devBufferLength cfg io)

/-- The stored registers hold no bit a write ignores, and `irq_state` is the IRQ_ACTIVE bit (R306, R310, R315,
R320). -/
abbrev RegInv (n : Ncr) : Prop :=
  n.icr &&& 0xE0 = 0 ∧ n.tcr &&& 0x70 = 0 ∧ n.isr &&& 0x6B = 0 ∧ n.irqState = hasBit n.isr 0x10

/-- The bridge's positions stay in its buffer (R50), and a disarmed timer has no delay left (log 7). -/
abbrev BridgeInv (b : Bridge) : Prop :=
  b.hostPos ≤ 512 ∧ b.pos ≤ 512 ∧ (b.timerArmed = false → b.timerWait = 0)

/-- The invariant of the machine: canonical RAM, a legal configuration (R9), and the invariants of the adapter. -/
abbrev MachineInv (s : State) : Prop :=
  Memory.wf s.mem = true ∧ s.cfg.wf ∧ BusInv s.cfg s.io ∧ RegInv s.io.ncr ∧ BridgeInv s.io.bridge

/-! ### Sequences of calls -/

/-- A sequence of `BusUpdate` calls (R250). -/
def busUpdates (cfg : Cfg) (buses : List Word) (io : Io) : Io := buses.foldl (fun io b => busUpdate cfg b io) io

/-- `n` reads of the data port in a row (R336). -/
def dataPortReads (cfg : Cfg) : Nat → Io → List Byte × Io
  | 0, io => ([], io)
  | n + 1, io =>
    let r := dataPortRead cfg io
    let rs := dataPortReads cfg n r.2
    (r.1 :: rs.1, rs.2)

/-- Writes to the data port in a row (R337). -/
def dataPortWrites (cfg : Cfg) (vs : List Byte) (io : Io) : Io := vs.foldl (fun io v => dataPortWrite cfg v io) io

/-- Nowhere in as many host updates as the pump polls for REQ does it stand asserted in the phase (R341). -/
abbrev NoReq (cfg : Cfg) (io : Io) (phase : Word) : Prop :=
  ∀ k, k < cfg.pollMax →
    let b := (busUpdates cfg (List.replicate (k + 1) (hostBus io.ncr)) io).ncr.curBus
    hasLine b busReq = false ∨ b &&& phaseMask ≠ phase

/-- What a poll that runs out leaves: the phase machine after all its updates, the timer armed, and the transfer
where it stood (R341). -/
abbrev PollRanOut (cfg : Cfg) (io io' : Io) : Prop :=
  let u := busUpdates cfg (List.replicate cfg.pollMax (hostBus io.ncr)) io
  io'.ncr = u.ncr ∧ io'.scsiDevices = u.scsiDevices ∧ io'.outputs = io.outputs ∧ io'.bridge.timerArmed = true ∧
    { io'.bridge with timerArmed := io.bridge.timerArmed, timerWait := io.bridge.timerWait } = io.bridge

/-- The host's lines while the pump runs: no ACK of the host's own and no arbitration (R302, R412). -/
abbrev HostQuiet (n : Ncr) : Prop := n.icr &&& 0x10 = 0 ∧ n.mode &&& 0x01 = 0

/-- An ACK edge the core counts: ACK rises and REQ is asserted (R253). -/
abbrev AckEdge (bus : Word) (n : Ncr) : Prop :=
  bus.getLsbD 9 = true ∧ n.busIn.getLsbD 9 = false ∧ n.curBus.getLsbD 5 = true

/-- No countdown is running (R39). -/
abbrev NoCountdown (n : Ncr) : Prop := n.waitData = 0 ∧ n.clearReq = 0 ∧ n.waitComplete = 0

/-- The phase machine stands in a data phase of the device `id`, which is present, with REQ and BSY asserted and no
countdown running (R257, R270, R272). -/
abbrev DataPhase (cfg : Cfg) (io : Io) (id : Fin 8) (st : BusState) (phase : Word) : Prop :=
  io.ncr.state = st ∧ io.ncr.targetId = some id ∧ (deviceAt cfg io id).present = true ∧
    io.ncr.waitData = 0 ∧ io.ncr.clearReq = 0 ∧ io.ncr.waitComplete = 0 ∧
    hasLine io.ncr.curBus busReq = true ∧ hasLine io.ncr.curBus busBsy = true ∧
    io.ncr.curBus &&& phaseMask = phase

/-! ### Safe runs -/

/-- A run of `n` steps that ends in a state, without a fault and without a refusal. -/
def RunsTo : Nat → State → State → Prop
  | 0, s, t => s = t
  | n + 1, s, t => ∃ u, step s = .next u ∧ RunsTo n u t

end Sys2Proof.Machine
end

