-- ==== Sys2Proof/Certificates/Slice0/Obligations.lean ====
section
/-! DEFINITION. The statements for the provers, from the numbered rules of spec/. -/

section
open Sys2Proof Sys2Proof.Machine

/-! ### Encoding -/

/-- R120, R121, R124 to R126, R128: the encoding of a well-formed instruction decodes to it, whatever bytes
follow. -/
def Obligations.DecodeEncode : Prop :=
  ∀ (d32 : Bool) (i : Instr) (rest : List Byte), WellFormed d32 i → decode d32 (encode i ++ rest) = .ok (i, rest)

/-- R120, R133: what the decoder accepts is a well-formed instruction, spelled by the bytes it took. R122, R123: its
sizes come from bit 0 of its opcode byte and the presence of 0x66 and 0x67 among the bytes before it. R124, R125: so do
its segment (DS without a segment prefix) and its repeat kind (REPE for 0xF3 before CMPS and SCAS). -/
def Obligations.DecodeSound : Prop :=
  ∀ (d32 : Bool) (bs rest : List Byte) (i : Instr), decode d32 bs = .ok (i, rest) →
    let before := bs.take (i.length - 1)
    WellFormed d32 i ∧ bs = encode i ++ rest ∧
    (∃ op, bs[i.length - 1]? = some op ∧
      (op.getLsbD 0 = false → i.handler.size = .byte) ∧
      (op.getLsbD 0 = true → i.handler.size = if d32 ^^ decide (0x66#8 ∈ before) then .dword else .word) ∧
      i.handler.asz = if d32 ^^ decide (0x67#8 ∈ before) then .a32 else .a16) ∧
    segOf i = (if 0x26#8 ∈ before then .es else if 0x2E#8 ∈ before then .cs else if 0x36#8 ∈ before then .ss
      else if 0x3E#8 ∈ before then .ds else if 0x64#8 ∈ before then .fs else if 0x65#8 ∈ before then .gs else .ds) ∧
    repOf i = (if 0xF3#8 ∈ before then some (if i.handler.fam ∈ [Family.cmps, .scas] then .repe else .rep)
      else if 0xF2#8 ∈ before then some .repne else none)

/-- R130 (a) and (c): at most four prefixes before an opcode outside the fourteen are out of scope; more than four
prefix bytes, a prefix byte twice, two segment prefixes, both repeat prefixes, and 0xF2 before a family that does
not compare are a refused combination. -/
def Obligations.DecodeRefusals : Prop :=
  ∀ (d32 : Bool) (ps : List Pfx) (rest : List Byte),
    (∀ op : Byte, ps.length ≤ 4 → Pfx.ofByte? op = none →
      op ∉ [0x6C#8, 0x6D, 0x6E, 0x6F, 0xA4, 0xA5, 0xA6, 0xA7, 0xAA, 0xAB, 0xAC, 0xAD, 0xAE, 0xAF] →
      decode d32 (ps.map Pfx.code ++ op :: rest) = .error .outOfScope) ∧
    (∀ (f : Family) (z : Size),
      4 < ps.length ∨ ¬ ps.Nodup ∨ (∃ p ∈ ps, ∃ q ∈ ps, p ≠ q ∧ p.seg?.isSome ∧ q.seg?.isSome) ∨
        (.rep ∈ ps ∧ .repne ∈ ps) ∨ (.repne ∈ ps ∧ f.compares = false) →
      decode d32 (ps.map Pfx.code ++ opcodeByte f z :: rest) = .error .prefixCombination)

/-- R121 to R126: ten words written out from the encoding tables. -/
def Obligations.DecodeWords : Prop :=
  decode false [0xA4] = .ok (.movsbA16, []) ∧
  decode false [0x66, 0xA5] = .ok (.prefixOpSize .movsdA16, []) ∧
  decode true [0xAB] = .ok (.stosdA32, []) ∧
  decode true [0x66, 0xAD] = .ok (.prefixOpSize .lodswA32, []) ∧
  decode true [0x67, 0xA6] = .ok (.prefixAddrSize .cmpsbA16, []) ∧
  decode false [0xF2, 0xAE] = .ok (.prefixRepne .scasbA16, []) ∧
  decode false [0xF3, 0x67, 0x6D] = .ok (.prefixRep (.prefixAddrSize .inswA32), []) ∧
  decode false [0x64, 0x6E] = .ok (.prefixFS .outsbA16, []) ∧
  decode false [0x2E, 0xF3, 0xA4] = .ok (.prefixCS (.prefixRep .movsbA16), []) ∧
  decode false [0xF0, 0xA4] = .ok (.prefixLock .movsbA16, [])

/-! ### One step -/

/-- R230: with no event, no timer due and no abort pending, the step fetches, decodes and runs the instruction; R233:
an encoding the decoder rejects is refused with the decoder's reason. The armed timer's delay goes down by one and the
event slot is used up (the model's choice, logs 7 and 8). -/
def Obligations.StepRunsDecoded : Prop :=
  ∀ (s s1 : State) (bytes : List Byte),
    (∀ e, s.agenda.head? ≠ some (some e)) → timerDue s = false → s.cpu.abrt = none →
    fetch (timerTick (s.setAgenda s.agenda.tail)) = .ok bytes s1 →
    (∀ i rest, decode s.cpu.default32 bytes = .ok (i, rest) → step s = exec i s1) ∧
    (decode s.cpu.default32 bytes = .error .outOfScope → step s = .refused .outOfScope) ∧
    (decode s.cpu.default32 bytes = .error .prefixCombination → step s = .refused .prefixCombination)

/-- R230, R232, R233: when the bytes of a well-formed instruction stand in RAM at CS:pc, readable and within the
limits, and paging is off, the step is that instruction's (with the event slot and the armed timer's delay as
above, logs 7 and 8). R23, R80: where these bytes lie, and where every `pc` and every operand byte of the other
statements lies: `pc` wraps modulo 2^16 in 16-bit code and 2^32 otherwise, a linear address is base + offset + index
modulo 2^32. -/
def Obligations.StepRunsEncodedInRam : Prop :=
  ∀ (s : State) (i : Instr),
    (∀ (d32 : Bool) (pc : Word) (n : Nat),
      (pcAfter d32 pc n).toNat = (pc.toNat + n) % (if d32 then 2 ^ 32 else 2 ^ 16)) ∧
    (∀ k, (fetchOffset s.cpu k).toNat = (s.cpu.pc.toNat + k) % (if s.cpu.default32 then 2 ^ 32 else 2 ^ 16)) ∧
    (∀ (d : SegDesc) (off : Word) (k : Nat),
      (linearAddr d off k).toNat = (d.base.toNat + off.toNat + k) % 2 ^ 32) ∧
    (∀ seg off k, byteAddr s seg off k = linearAddr (s.cpu.segs.get seg) off k) ∧
    ((∀ e, s.agenda.head? ≠ some (some e)) → timerDue s = false → s.cpu.abrt = none → PagingOff s →
      WellFormed s.cpu.default32 i →
      (∀ k, k < i.length → RamOperand s .cs (fetchOffset s.cpu k) 1 .read ∧
        (encode i)[k]? = some (ramByte s (byteAddr s .cs (fetchOffset s.cpu k) 0))) →
      step s = exec i (timerTick (s.setAgenda s.agenda.tail)))

/-- R232, R366: when a fetch aborts, the step ends with that abort and nothing else has changed, wherever the earlier
bytes lie and with any paging function, but accessed marks in RAM and `cr2`; not those either with paging off, and the
marks lie in bits 5 and 6 with the reference paging function. (That marks and `cr2` stay and all else is undone is
log 27; the event slot and the armed timer's delay are the model's own, logs 7 and 8.) R364: which byte fails: with
paging off, the first one that fails its segment check. The bytes before it are prefixes read from RAM, however many
(R133; a whole turn of the code segment is log 12's). -/
def Obligations.FetchAborts : Prop :=
  ∀ (s : State) (k : Abort),
    (∀ e, s.agenda.head? ≠ some (some e)) → timerDue s = false → s.cpu.abrt = none →
    let s0 := timerTick (s.setAgenda s.agenda.tail)
    (∀ t, fetch s0 = .abort k t →
      ∃ m c, step s = .next { s0 with
        cpu := { s.cpu with abrt := some k, sys := { s.cpu.sys with cr2 := c } }, mem := m } ∧
      (PagingOff s → m = s.mem ∧ c = s.cpu.sys.cr2) ∧
      (s.cfg.paging = .reference → Memory.wf s.mem = true →
        ∀ a, Memory.read m a &&& 0x9F = Memory.read s.mem a &&& 0x9F)) ∧
    (∀ j, PagingOff s → j < codeTurn s.cpu.default32 →
      (∀ n, n < j → RamOperand s .cs (fetchOffset s.cpu n) 1 .read ∧
        Pfx.ofByte? (ramByte s (byteAddr s .cs (fetchOffset s.cpu n) 0)) ≠ none) →
      segCheck .cs s.cpu.segs.cs (fetchOffset s.cpu j) 1 .read = some k →
      step s = .next (s0.setAbrt (some k)))

/-- R370: with an abort undelivered, nothing to deliver it and no timer armed, the machine stops (the model's form of
the end, log 6; the events are the model's form of the environment, log 8). After a delivery `abrt` is none and the
rest of the CPU context is the environment's; a delivery
without accesses touches neither RAM nor the SCSI and bridge state. -/
def Obligations.AbortDelivery : Prop :=
  ∀ s : State,
    (∀ k, (∀ e, s.agenda.head? ≠ some (some e)) → s.cpu.abrt = some k → s.io.bridge.timerArmed = false →
      step s = .fault (.undelivered k)) ∧
    (∀ accesses c rest, s.agenda = some (.deliver accesses c) :: rest →
      ∃ t, step s = .next t ∧ t.cpu = { c with abrt := none } ∧ t.cfg = s.cfg ∧ t.agenda = rest ∧
        (accesses = [] → t.io = s.io ∧ t.mem = s.mem))

/-- R350, R340: with no event at this boundary, an armed timer whose delay has passed runs its callback, whether an
abort is pending or not; the CPU does not move. R382: with the CPU stopped by an abort and no events, the callback runs
after the delay the timer was armed with. The delay is the model's (log 7), and so are the waiting steps of a stopped
CPU that are counted there (log 6). -/
def Obligations.TimerFires : Prop :=
  ∀ s : State, s.io.bridge.timerArmed = true →
    ((∀ e, s.agenda.head? ≠ some (some e)) → s.io.bridge.timerWait = 0 →
      step s = .next ((s.setAgenda s.agenda.tail).setIo (callback s.cfg s.io))) ∧
    (∀ (k : Abort) (n : Nat), s.agenda = [] → s.cpu.abrt = some k → s.io.bridge.timerWait = n →
      RunsTo (n + 1) s (s.setIo (callback s.cfg (s.io.mapBridge fun b => { b with timerWait := 0 }))))

/-- R400, R60: a CPU reset gives the CPU context the values R60 lists, whatever the registers it does not list become,
and leaves RAM, the SCSI core, the bridge and the device table alone. R400, R61, R62: an adapter reset gives the SCSI
core and the bridge their reset values, whatever the buffer becomes, lowers the interrupt line unless it is line 1 (or
none), and leaves the CPU, RAM and the device table alone. The events are the model's form of the platform (log 8). -/
def Obligations.CpuResetEvent : Prop :=
  ∀ (s : State) (rest : List (Option EnvEvent)),
    (s.agenda = some .cpuReset :: rest →
      ∃ t, step s = .next t ∧ t.mem = s.mem ∧ t.cfg = s.cfg ∧ t.agenda = rest ∧
        t.io.ncr = s.io.ncr ∧ t.io.bridge = s.io.bridge ∧ t.io.scsiDevices = s.io.scsiDevices ∧
        t.io.outputs = s.io.outputs ∧
        t.cpu.pc = 0x0000FFF0 ∧ t.cpu.flags = 0x00000002 ∧ t.cpu.abrt = none ∧ t.cpu.sys.pe = false ∧
        t.cpu.sys.pg = false ∧ t.cpu.cycles = 0 ∧ t.cpu.prefetch = 0 ∧ t.cpu.default32 = false ∧
        ∀ seg, (t.cpu.segs.get seg).base = (if seg = .cs then 0xFFFF0000 else 0) ∧
          (t.cpu.segs.get seg).limitLo = 0 ∧ (t.cpu.segs.get seg).limitHi = 0xFFFF ∧
          (t.cpu.segs.get seg).valid = true ∧ (t.cpu.segs.get seg).readable = true ∧
          (t.cpu.segs.get seg).writable = true) ∧
    (s.agenda = some .adapterReset :: rest →
      ∃ t, step s = .next t ∧ t.cpu = s.cpu ∧ t.mem = s.mem ∧ t.cfg = s.cfg ∧ t.agenda = rest ∧
        t.io.ncr = .afterReset ∧ (∃ buffer, t.io.bridge = .afterReset buffer) ∧
        t.io.scsiDevices = s.io.scsiDevices ∧
        t.io.outputs = if s.cfg.irqLine ≠ 1 ∧ s.cfg.irqLine ≠ -1 then .irqLower s.cfg.irqLine :: s.io.outputs
          else s.io.outputs)

/-- R60 to R62: the values the spec gives for reset, in the state after reset. -/
def Obligations.ResetValues : Prop :=
  let c := State.reset.cpu
  let n := State.reset.io.ncr
  let b := State.reset.io.bridge
  c.pc = 0x0000FFF0 ∧ linearAddr c.segs.cs c.pc 0 = 0xFFFFFFF0 ∧ c.flags = 0x00000002 ∧ c.abrt = none ∧
  c.sys.pe = false ∧ c.sys.pg = false ∧ c.cycles = 0 ∧ c.prefetch = 0 ∧ c.default32 = false ∧
  c.segs.cs.base = 0xFFFF0000 ∧
  (∀ seg, (c.segs.get seg).limitLo = 0 ∧ (c.segs.get seg).limitHi = 0xFFFF ∧ (c.segs.get seg).valid = true ∧
    (c.segs.get seg).readable = true ∧ (c.segs.get seg).writable = true ∧
    (seg ≠ .cs → (c.segs.get seg).base = 0)) ∧
  n.state = .idle ∧ n.curBus = 0 ∧ n.busIn = 0 ∧ n.command = Vector.replicate 16 0 ∧
  n.msgout = Vector.replicate 256 0 ∧ n.txData = 0 ∧ n.outputData = 0 ∧ n.ser = 0 ∧ n.targetId = none ∧ n.waitData = 0 ∧ n.clearReq = 0 ∧
  n.waitComplete = 0 ∧ n.newPhase = 0x80000000 ∧ n.commandPos = 0 ∧ n.dataPos = 0 ∧ n.msgoutPos = 0 ∧
  n.msglun = none ∧ n.dmaMode = .idle ∧ n.icr = 0 ∧ n.mode = 0 ∧ n.tcr = 0 ∧ n.isr = 0 ∧ n.irqState = false ∧
  Output.irqLower State.reset.cfg.irqLine ∈ State.reset.io.outputs ∧
  b.hostPos = 0 ∧ b.pos = 0 ∧ b.total = 0 ∧ b.status = 0 ∧ b.ctrl = 0 ∧ b.timerArmed = false ∧ b.pumpDone = false

/-! ### The families: result, frame and completion

Each statement covers every form of its family: the six constructors of the family, and each of them behind admitted
segment, size and repeat prefixes, a repeated form with a count that is not 0. Operands lie in RAM, paging is off. -/

/-- MOVS, R171 to R174: `movsbA16`, `movsbA32`, `movswA16`, `movswA32`, `movsdA16`, `movsdA32`, and the ten prefix
constructors but LOCK before them. -/
def Obligations.MovsResult : Prop :=
  ∀ (i : Instr) (s : State), i.handler.fam = .movs → Iterates i s → PagingOff s → Memory.wf s.mem = true →
    RamOperand s (segOf i) (srcOff i s) (elemBytes i) .read →
    RamOperand s .es (dstOff i s) (elemBytes i) .write →
    ∃ m, exec i s = .next { s with
        cpu := endCpu i s (stepIndex .edi i s (stepIndex .esi i s s.cpu.regs)) s.cpu.flags, mem := m } ∧
      Memory.wf m = true ∧
      Stores s.mem m (elemBytes i) (byteAddr s .es (dstOff i s))
        (fun k => ramByte s (byteAddr s (segOf i) (srcOff i s) k))

/-- STOS, R175 to R177: `stosbA16`, `stosbA32`, `stoswA16`, `stoswA32`, `stosdA16`, `stosdA32`, and the prefix
constructors but LOCK before them. -/
def Obligations.StosResult : Prop :=
  ∀ (i : Instr) (s : State), i.handler.fam = .stos → Iterates i s → PagingOff s → Memory.wf s.mem = true →
    RamOperand s .es (dstOff i s) (elemBytes i) .write →
    ∃ m, exec i s = .next { s with cpu := endCpu i s (stepIndex .edi i s s.cpu.regs) s.cpu.flags, mem := m } ∧
      Memory.wf m = true ∧
      Stores s.mem m (elemBytes i) (byteAddr s .es (dstOff i s))
        (fun k => byteOf (acc s.cpu.regs i.handler.size) k)

/-- LODS, R179 to R181: `lodsbA16`, `lodsbA32`, `lodswA16`, `lodswA32`, `lodsdA16`, `lodsdA32`, and the prefix
constructors but LOCK before them. -/
def Obligations.LodsResult : Prop :=
  ∀ (i : Instr) (s : State), i.handler.fam = .lods → Iterates i s → PagingOff s →
    RamOperand s (segOf i) (srcOff i s) (elemBytes i) .read →
    exec i s = .next { s with
      cpu := endCpu i s (stepIndex .esi i s
        (setAcc i.handler.size (ramElem s (segOf i) (srcOff i s) (elemBytes i)) s.cpu.regs)) s.cpu.flags }

/-- CMPS, R191 to R195: `cmpsbA16`, `cmpsbA32`, `cmpswA16`, `cmpswA32`, `cmpsdA16`, `cmpsdA32`, and the prefix
constructors but LOCK before them. -/
def Obligations.CmpsResult : Prop :=
  ∀ (i : Instr) (s : State), i.handler.fam = .cmps → Iterates i s → PagingOff s →
    RamOperand s (segOf i) (srcOff i s) (elemBytes i) .read →
    RamOperand s .es (dstOff i s) (elemBytes i) .read →
    exec i s = .next { s with
      cpu := endCpu i s (stepIndex .edi i s (stepIndex .esi i s s.cpu.regs))
        (setSubElem i.handler.size (ramElem s (segOf i) (srcOff i s) (elemBytes i))
          (ramElem s .es (dstOff i s) (elemBytes i)) s.cpu.flags) }

/-- SCAS, R191, R192, R197 to R199: `scasbA16`, `scasbA32`, `scaswA16`, `scaswA32`, `scasdA16`, `scasdA32`, and the
prefix constructors but LOCK before them. -/
def Obligations.ScasResult : Prop :=
  ∀ (i : Instr) (s : State), i.handler.fam = .scas → Iterates i s → PagingOff s →
    RamOperand s .es (dstOff i s) (elemBytes i) .read →
    exec i s = .next { s with
      cpu := endCpu i s (stepIndex .edi i s s.cpu.regs)
        (setSubElem i.handler.size (acc s.cpu.regs i.handler.size)
          (ramElem s .es (dstOff i s) (elemBytes i)) s.cpu.flags) }

/-- INS, R210, R214 to R217: `insbA16`, `insbA32`, `inswA16`, `inswA32`, `insdA16`, `insdA32`, and the prefix
constructors but LOCK before them; any port, the ports open. -/
def Obligations.InsResult : Prop :=
  ∀ (i : Instr) (s : State), i.handler.fam = .ins → Iterates i s → PagingOff s → Memory.wf s.mem = true → IoOpen s →
    RamOperand s .es (dstOff i s) (elemBytes i) .write →
    let r := portIn (dx s.cpu.regs) i.handler.size s
    ∃ m, exec i s = .next { s with
        cpu := endCpu i s (stepIndex .edi i s s.cpu.regs) s.cpu.flags, mem := m, io := r.2.io } ∧
      Memory.wf m = true ∧
      Stores s.mem m (elemBytes i) (byteAddr s .es (dstOff i s)) (fun k => byteOf r.1 k)

/-- OUTS, R210, R218 to R221: `outsbA16`, `outsbA32`, `outswA16`, `outswA32`, `outsdA16`, `outsdA32`, and the prefix
constructors but LOCK before them; any port, the ports open. -/
def Obligations.OutsResult : Prop :=
  ∀ (i : Instr) (s : State), i.handler.fam = .outs → Iterates i s → PagingOff s → IoOpen s →
    RamOperand s (segOf i) (srcOff i s) (elemBytes i) .read →
    exec i s = .next { s with
      cpu := endCpu i s (stepIndex .esi i s s.cpu.regs) s.cpu.flags,
      io := (portOut (dx s.cpu.regs) i.handler.size (ramElem s (segOf i) (srcOff i s) (elemBytes i)) s).io }

/-- Where the bytes of an element go. R95: a port element is S byte accesses at ascending ports modulo 2^16. R73, R162,
R213: a port of the NCR5380 register file reaches its register; one without a handler reads 0xFF and ignores writes.
R72, R160: what an address reaches: the T128 window below the distance 0x4000 from its base, then the first region that
holds the address (the precedence is the model's, log 21), else nothing, which reads 0xFF and ignores writes. Outside
handlers answer what is drawn and their writes are outputs (logs 9 and 11). R332, R333: the regions of the standard
window. R184: INSB and OUTSB to the register file, and MOVSB from and to the data port, move the byte the device gives
or takes. -/
def Obligations.DeviceBytesStored : Prop :=
  ∀ (i : Instr) (s : State) (b : Byte),
    (∀ (port : Half) (v : Word),
      let r0 := portRead8 port s
      let r1 := portRead8 (port + 1) r0.2
      let r2 := portRead8 (port + 2) r1.2
      let r3 := portRead8 (port + 3) r2.2
      let w0 := portWrite8 port (v.extractLsb' 0 8) s
      let w1 := portWrite8 (port + 1) (v.extractLsb' 8 8) w0
      portIn port .byte s = (r0.1.setWidth 32, r0.2) ∧ portOut port .byte v s = w0 ∧
      portIn port .word s = ((r1.1 ++ r0.1).setWidth 32, r1.2) ∧ portOut port .word v s = w1 ∧
      portIn port .dword s = (r3.1 ++ r2.1 ++ r1.1 ++ r0.1, r3.2) ∧
      portOut port .dword v s =
        portWrite8 (port + 3) (v.extractLsb' 24 8) (portWrite8 (port + 2) (v.extractLsb' 16 8) w1)) ∧
    (∀ port : Half,
      (∀ (base : Half) (n : BitVec 3), s.cfg.ncrPortBase = some base → port = base + n.setWidth 16 →
        portRead8 port s = ((regRead s.cfg n s.io).1, s.setIo (regRead s.cfg n s.io).2) ∧
        portWrite8 port b s = s.setIo (regWrite s.cfg n b s.io)) ∧
      ((∀ base, s.cfg.ncrPortBase = some base → 8 ≤ (port - base).toNat) → port ∉ s.cfg.outsidePorts →
        portRead8 port s = (0xFF, s) ∧ portWrite8 port b s = s) ∧
      ((∀ base, s.cfg.ncrPortBase = some base → 8 ≤ (port - base).toNat) → port ∈ s.cfg.outsidePorts →
        (∀ v rest, s.io.inputs = v :: rest → portRead8 port s = (v, s.setIo { s.io with inputs := rest })) ∧
        portWrite8 port b s = s.setIo { s.io with outputs := .portWrite port b :: s.io.outputs })) ∧
    (∀ a : Word,
      let dist := (a - s.cfg.t128Base).toNat
      let holds (r : Region) : Prop := r.lo.toNat ≤ a.toNat ∧ a.toNat ≤ r.hi.toNat
      (dist < 0x4000 → physTarget s.cfg a = .t128 dist) ∧
      (∀ before r after, 0x4000 ≤ dist → s.cfg.physMap = before ++ r :: after → (∀ q ∈ before, ¬ holds q) → holds r →
        (r.kind = .ram → physTarget s.cfg a = .ram) ∧ (r.kind = .outside → physTarget s.cfg a = .outside)) ∧
      (0x4000 ≤ dist → (∀ q ∈ s.cfg.physMap, ¬ holds q) → physTarget s.cfg a = .unmapped)) ∧
    (∀ a : Word,
      (physTarget s.cfg a = .ram →
        memRead a s = (ramByte s a, s) ∧ memWrite a b s = { s with mem := Memory.write s.mem a.toNat b }) ∧
      (physTarget s.cfg a = .outside →
        (∀ v rest, s.io.inputs = v :: rest → memRead a s = (v, s.setIo { s.io with inputs := rest })) ∧
        memWrite a b s = s.setIo { s.io with outputs := .windowWrite a b :: s.io.outputs }) ∧
      (physTarget s.cfg a = .unmapped → memRead a s = (0xFF, s) ∧ memWrite a b s = s) ∧
      (∀ off, physTarget s.cfg a = .t128 off → s.cfg.t128Map = .standard →
        let n := BitVec.ofNat 3 ((off - 0x1D00) / 32)
        (off ≤ 0x1BFF → memRead a s = (Config.t128Rom off, s) ∧ memWrite a b s = s) ∧
        (0x1C00 ≤ off → off ≤ 0x1C1F → memRead a s = (s.io.bridge.ctrl, s) ∧
          memWrite a b s = s.setIo { s.io with bridge := { s.io.bridge with ctrl := b } }) ∧
        (0x1C20 ≤ off → off ≤ 0x1C3F → memRead a s = (s.io.bridge.status, s) ∧ memWrite a b s = s) ∧
        (0x1D00 ≤ off → off ≤ 0x1DFF →
          memRead a s = ((regRead s.cfg n s.io).1, s.setIo (regRead s.cfg n s.io).2) ∧
          memWrite a b s = s.setIo (regWrite s.cfg n b s.io)) ∧
        (0x1E00 ≤ off → off ≤ 0x1FFF →
          memRead a s = ((dataPortRead s.cfg s.io).1, s.setIo (dataPortRead s.cfg s.io).2) ∧
          memWrite a b s = s.setIo (dataPortWrite s.cfg b s.io)) ∧
        ((0x1C40 ≤ off ∧ off ≤ 0x1CFF) ∨ 0x2000 ≤ off → memRead a s = (0xFF, s) ∧ memWrite a b s = s))) ∧
    (s.cpu.abrt = none → PagingOff s → Memory.wf s.mem = true →
      (∀ (base : Half) (n : BitVec 3), IoOpen s → s.cfg.ncrPortBase = some base →
        dx s.cpu.regs = base + n.setWidth 16 →
        (i = .insbA16 ∨ i = .insbA32 → RamOperand s .es (dstOff i s) 1 .write →
          ∃ t, exec i s = .next t ∧ t.io = (regRead s.cfg n s.io).2 ∧
            Memory.read t.mem (byteAddr s .es (dstOff i s) 0).toNat = (regRead s.cfg n s.io).1) ∧
        (i = .outsbA16 ∨ i = .outsbA32 → RamOperand s .ds (srcOff i s) 1 .read →
          ∃ t, exec i s = .next t ∧ t.mem = s.mem ∧
            t.io = regWrite s.cfg n (ramByte s (byteAddr s .ds (srcOff i s) 0)) s.io)) ∧
      (∀ off : Nat, i = .movsbA16 ∨ i = .movsbA32 → s.cfg.t128Map = .standard → 0x1E00 ≤ off → off ≤ 0x1FFF →
        (RamOperand s .es (dstOff i s) 1 .write → SegAllows s.cpu.segs.ds (srcOff i s) 1 .read →
          physTarget s.cfg (byteAddr s .ds (srcOff i s) 0) = .t128 off →
          ∃ t, exec i s = .next t ∧ t.io = (dataPortRead s.cfg s.io).2 ∧
            Memory.read t.mem (byteAddr s .es (dstOff i s) 0).toNat = (dataPortRead s.cfg s.io).1) ∧
        (RamOperand s .ds (srcOff i s) 1 .read → SegAllows s.cpu.segs.es (dstOff i s) 1 .write →
          physTarget s.cfg (byteAddr s .es (dstOff i s) 0) = .t128 off →
          ∃ t, exec i s = .next t ∧ t.mem = s.mem ∧
            t.io = dataPortWrite s.cfg (ramByte s (byteAddr s .ds (srcOff i s) 0)) s.io)))

/-- R88, R170, R211, R364: every family uses the physical addresses the translations of its operands give, with paging
on or off, any paging function and any permission function; what the check and the translations themselves left (`w`)
stays. The addresses lie in RAM. R366: when the check or a translation aborts, that is all that has happened: no byte of
an operand and no port has been touched. -/
def Obligations.TranslatedOperands : Prop :=
  ∀ (i : Instr) (s w : State), Iterates i s →
    (∀ k, translateOperands i s = .abort k w → exec i s = .next (w.setAbrt (some k))) ∧
    (∀ pa pb, translateOperands i s = .ok (pa, pb) w → (∀ p ∈ pa ++ pb, physTarget s.cfg p = .ram) →
      let z := i.handler.size
      let regs := s.cpu.regs
      let src := leValue (pa.map (ramByte w))
      let dst := leValue (pb.map (ramByte w))
      let done (r : Regs) (f : Word) : State := { w with cpu := { endCpu i s r f with sys := w.cpu.sys } }
      let stores (m : List Host.Cell) (v : Word) : Prop :=
        (∀ k, (h : k < pb.length) → Memory.read m (pb[k]).toNat = byteOf v k) ∧
        ∀ a, (∀ p ∈ pb, a ≠ p.toNat) → Memory.read m a = Memory.read w.mem a
      (i.handler.fam = .lods → exec i s = .next (done (stepIndex .esi i s (setAcc z src regs)) s.cpu.flags)) ∧
      (i.handler.fam = .scas → exec i s = .next (done (stepIndex .edi i s regs)
        (setSubElem z (acc regs z) dst s.cpu.flags))) ∧
      (i.handler.fam = .cmps → exec i s = .next (done (stepIndex .edi i s (stepIndex .esi i s regs))
        (setSubElem z src dst s.cpu.flags))) ∧
      (i.handler.fam = .outs → exec i s = .next { done (stepIndex .esi i s regs) s.cpu.flags with
        io := (portOut (dx regs) z src w).io }) ∧
      (Memory.wf s.mem = true → pb.Nodup →
        (i.handler.fam = .stos → ∃ m, stores m (acc regs z) ∧
          exec i s = .next { done (stepIndex .edi i s regs) s.cpu.flags with mem := m }) ∧
        (i.handler.fam = .movs → ∃ m, stores m src ∧
          exec i s = .next { done (stepIndex .edi i s (stepIndex .esi i s regs)) s.cpu.flags with mem := m }) ∧
        (i.handler.fam = .ins → ∃ m, stores m (portIn (dx regs) z w).1 ∧
          exec i s = .next { done (stepIndex .edi i s regs) s.cpu.flags with
            mem := m, io := (portIn (dx regs) z w).2.io })))

/-! ### All instructions -/

/-- R170, R238, R234: with paging off, the ports open for INS and OUTS, and every operand check passed, any
iteration completes, whatever lies at the operands (RAM, a device window, nothing): the registers are those of the
family with the indexes advanced, `pc`, count and cycles follow. -/
def Obligations.IterationCompletes : Prop :=
  ∀ (i : Instr) (s : State), Iterates i s → PagingOff s →
    (Family.isIo i.handler.fam = true → IoOpen s) → firstAbort i s = none →
    ∃ t v f, exec i s = .next t ∧
      t.cpu = endCpu i s (match i.handler.fam with
        | .movs | .cmps => stepIndex .edi i s (stepIndex .esi i s s.cpu.regs)
        | .stos | .scas | .ins => stepIndex .edi i s s.cpu.regs
        | .lods => stepIndex .esi i s (setAcc i.handler.size v s.cpu.regs)
        | .outs => stepIndex .esi i s s.cpu.regs) f ∧
      t.cfg = s.cfg ∧ t.agenda = s.agenda

/-- R364, R366, R82: with paging off, and the ports open for INS and OUTS, an iteration whose operand checks fail
takes the first abort of the table and changes nothing else. -/
def Obligations.FirstAbortTaken : Prop :=
  ∀ (i : Instr) (s : State) (k : Abort), Iterates i s → PagingOff s →
    (Family.isIo i.handler.fam = true → IoOpen s) → firstAbort i s = some k →
    exec i s = .next (s.setAbrt (some k))

/-- R211, R212: INS and OUTS in protected mode at a privilege level IOPL does not admit (or in virtual-8086 mode),
with no room for an I/O bitmap in the task state segment: the permission abort comes first and nothing else
changes, whatever the memory operand is. -/
def Obligations.IoDenied : Prop :=
  ∀ (i : Instr) (s : State), Iterates i s → Family.isIo i.handler.fam = true → s.cfg.ioPolicy = .reference →
    s.cpu.sys.pe = true → (vmFlag s.cpu.flags = true ∨ iopl s.cpu.flags < s.cpu.sys.cpl) →
    s.cpu.sys.tssLimit < 0x67 →
    exec i s = .next (s.setAbrt (some (.ioPermFault (dx s.cpu.regs) i.handler.size)))

/-- R211: the permission check has no side effect: it leaves the state as it is, but for the `cr2` of a page fault that
it reports, with any permission and any paging function (that what it drew from outside stays drawn is the model's
bookkeeping, logs 9 and 16). R72: two bytes it reads from outside are two draws, in order. R212: the I/O bitmap
decides: with the map base and the two bitmap bytes in RAM and paging off, the check passes exactly when the bits of
all the ports of the element are clear. (That `at` does not wrap is the model's, log 25.) -/
def Obligations.IoBitmap : Prop :=
  ∀ (s : State) (port : Half) (z : Size) (at' : Nat),
    (∀ t, ioCheck port z s = .ok () t → t = keepDraws s t) ∧
    (∀ k t, ioCheck port z s = .abort k t → t = (keepDraws s t).setCr2 t.cpu.sys.cr2 ∧
      (k = .ioPermFault port z → t = keepDraws s t)) ∧
    (∀ t, keepDraws s t = { s with io := { s.io with inputs := t.io.inputs, drawn := t.io.drawn } }) ∧
    (∀ lin b0 b1 rest, PagingOff s → physTarget s.cfg lin = .outside → physTarget s.cfg (lin + 1) = .outside →
      s.io.inputs = b0 :: b1 :: rest →
      sysRead 2 lin s = .ok [b0, b1] { s with io := { s.io with inputs := rest } }) ∧
    (s.cfg.ioPolicy = .reference → s.cpu.sys.pe = true →
      (vmFlag s.cpu.flags = true ∨ iopl s.cpu.flags < s.cpu.sys.cpl) → ¬ s.cpu.sys.tssLimit < 0x67 → PagingOff s →
      let tss := s.cpu.sys.tssBase
      let a := tss + BitVec.ofNat 32 at'
      physTarget s.cfg (tss + 0x66) = .ram → physTarget s.cfg (tss + 0x66 + 1) = .ram →
      at' = (ramByte s (tss + 0x66)).toNat + 256 * (ramByte s (tss + 0x66 + 1)).toNat + port.toNat / 8 →
      (s.cpu.sys.tssLimit.toNat < at' + 1 → ioCheck port z s = .abort (.ioPermFault port z) s) ∧
      (at' + 1 ≤ s.cpu.sys.tssLimit.toNat → physTarget s.cfg a = .ram → physTarget s.cfg (a + 1) = .ram →
        let bits : Half := (ramByte s a).setWidth 16 ||| ((ramByte s (a + 1)).setWidth 16 <<< 8)
        ((∀ k, k < z.bytes → bits.getLsbD (port.toNat % 8 + k) = false) → ioCheck port z s = .ok () s) ∧
        ((∃ k, k < z.bytes ∧ bits.getLsbD (port.toNat % 8 + k) = true) →
          ioCheck port z s = .abort (.ioPermFault port z) s)))

/-- R22, R25, R28, R11: no instruction writes a segment register, the system context but for `cr2`, the code size,
EBX, EDX, ESP or EBP, nor the configuration or the events to come; ESI, EDI, EAX and ECX are written by the families
and forms that use them alone, and a narrow view leaves the rest of its register. That the prefetch bookkeeping stays
is the model's choice, not the spec's (log 18). -/
def Obligations.RegisterFrame : Prop :=
  ∀ (i : Instr) (s t : State), exec i s = .next t →
    t.cpu.segs = s.cpu.segs ∧ { t.cpu.sys with cr2 := s.cpu.sys.cr2 } = s.cpu.sys ∧
    t.cpu.default32 = s.cpu.default32 ∧ t.cpu.prefetch = s.cpu.prefetch ∧ t.cfg = s.cfg ∧ t.agenda = s.agenda ∧
    t.cpu.regs.ebx = s.cpu.regs.ebx ∧ t.cpu.regs.edx = s.cpu.regs.edx ∧ t.cpu.regs.esp = s.cpu.regs.esp ∧
    t.cpu.regs.ebp = s.cpu.regs.ebp ∧
    (i.handler.fam ∈ [Family.stos, .scas, .ins] → t.cpu.regs.esi = s.cpu.regs.esi) ∧
    (i.handler.fam ∈ [Family.lods, .outs] → t.cpu.regs.edi = s.cpu.regs.edi) ∧
    (i.handler.fam ≠ .lods → t.cpu.regs.eax = s.cpu.regs.eax) ∧
    (repOf i = none → t.cpu.regs.ecx = s.cpu.regs.ecx) ∧
    (i.handler.asz = .a16 → t.cpu.regs.esi >>> 16 = s.cpu.regs.esi >>> 16 ∧
      t.cpu.regs.edi >>> 16 = s.cpu.regs.edi >>> 16 ∧ t.cpu.regs.ecx >>> 16 = s.cpu.regs.ecx >>> 16) ∧
    (i.handler.size = .byte → t.cpu.regs.eax >>> 8 = s.cpu.regs.eax >>> 8) ∧
    (i.handler.size = .word → t.cpu.regs.eax >>> 16 = s.cpu.regs.eax >>> 16)

/-- R26, R190: only CMPS and SCAS write flags, and only CF, PF, AF, ZF, SF and OF. -/
def Obligations.FlagsFrame : Prop :=
  ∀ (i : Instr) (s t : State), exec i s = .next t →
    (i.handler.fam ∉ [Family.cmps, .scas] → t.cpu.flags = s.cpu.flags) ∧
    (∀ k, k ∉ [0, 2, 4, 6, 7, 11] → t.cpu.flags.getLsbD k = s.cpu.flags.getLsbD k)

/-- R366: at an abort no general register, no flag, no count, no `pc` and no cycle has changed, with any paging
function and any I/O permission function; only `cr2` may have. With paging off RAM is as it was, with the reference
paging function RAM has changed in accessed and dirty bits (bits 5 and 6 of a byte) at most. With paging off or an
unspecified paging function no port and no device has been touched (what a permission check drew from outside stays
drawn, logs 9 and 16). -/
def Obligations.AbortIsPrecise : Prop :=
  ∀ (i : Instr) (s t : State) (k : Abort), s.cpu.abrt = none → exec i s = .next t → t.cpu.abrt = some k →
    t.cpu = { s.cpu with abrt := some k, sys := { s.cpu.sys with cr2 := t.cpu.sys.cr2 } } ∧
    (PagingOff s → t.mem = s.mem) ∧
    (s.cfg.paging = .reference → Memory.wf s.mem = true →
      ∀ a, Memory.read t.mem a &&& 0x9F = Memory.read s.mem a &&& 0x9F) ∧
    (PagingOff s ∨ s.cfg.paging = .unspecified →
      t.io = { s.io with inputs := t.io.inputs, drawn := t.io.drawn })

/-- R90, R171, R175, R193: with paging off, CMPS, SCAS, LODS and OUTS leave all of RAM as it is, and MOVS, STOS and
INS leave every byte outside their destination as it is, whatever the operands lie in. -/
def Obligations.MemoryFrame : Prop :=
  ∀ (i : Instr) (s t : State), PagingOff s → exec i s = .next t →
    (i.handler.fam ∈ [Family.cmps, .scas, .lods, .outs] → t.mem = s.mem) ∧
    (∀ a, (∀ k, k < elemBytes i → a ≠ (byteAddr s .es (dstOff i s) k).toNat) →
      Memory.read t.mem a = Memory.read s.mem a)

/-- R373: with paging off the five memory families run the same in every mode and at every privilege level. -/
def Obligations.PrivilegeBlind : Prop :=
  ∀ (i : Instr) (s t : State) (y : Sys), Family.isIo i.handler.fam = false → s.cpu.abrt = none →
    PagingOff s → y.pg = false → exec i s = .next t →
    exec i { s with cpu := { s.cpu with sys := y } } = .next { t with cpu := { t.cpu with sys := y } }

/-- R130: an instruction takes a step exactly when its encoding is admitted; else it is refused with the reason the
rule gives, LOCK before the combinations (that order is the model's, log 12); `prefixLock` before any instruction is
refused. -/
def Obligations.RefusedEncodings : Prop :=
  ∀ (i : Instr) (s : State),
    (Admitted i → ∃ t, exec i s = .next t) ∧
    (Pfx.lock ∈ i.prefixes → exec i s = .refused .lock) ∧
    exec (.prefixLock i) s = .refused .lock ∧
    (Pfx.lock ∉ i.prefixes → badPrefixes i.prefixes i.handler.fam = true → exec i s = .refused .prefixCombination)

/-! ### The repeat loop -/

/-- R234: with count 0 only `pc` moves: no iteration, no check, no access. -/
def Obligations.RepeatCountZero : Prop :=
  ∀ (i : Instr) (s : State), Admitted i → repOf i ≠ none → countOf i s = 0 →
    exec i s = .next { s with cpu := { s.cpu with pc := pcAfter s.cpu.default32 s.cpu.pc i.length } }

/-- R234 to R237: one step of `prefixRep j` or `prefixRepne j` with a count that is not 0 is the step of `j`, and
then: after an abort nothing more; else the count goes down, and `pc` moves past the longer instruction when the
count is used up or ZF meets the condition of REPE or REPNE, and stays otherwise. -/
def Obligations.RepeatIsPlainThenCount : Prop :=
  ∀ (i j : Instr) (s : State), i = .prefixRep j ∨ i = .prefixRepne j → Iterates i s → repOf j = none →
    ∃ u, exec j s = .next u ∧
      exec i s = .next (if u.cpu.abrt = none then
        { u with cpu := { u.cpu with
          regs := setIdx .ecx i.handler.asz (countOf i s - 1) u.cpu.regs,
          pc := if countOf i s = 1 ∨ (i.handler.fam ∈ [Family.cmps, .scas] ∧
              ((i = .prefixRep j ∧ u.cpu.flags.getLsbD 6 = false) ∨
                (i = .prefixRepne j ∧ u.cpu.flags.getLsbD 6 = true)))
            then pcAfter s.cpu.default32 s.cpu.pc (j.length + 1) else s.cpu.pc } }
      else u)

/-- R241: REP, started with a count n that is not 0 and meeting no abort, runs exactly n steps: the count after k of
them is n − k, `pc` stays until the last and then moves past the instruction. -/
def Obligations.RepRunsCountTimes : Prop :=
  ∀ (i : Instr) (n : Nat) (t : Nat → State), Admitted i → repOf i = some .rep →
    (t 0).cpu.abrt = none → (countOf i (t 0)).toNat = n → 0 < n →
    (∀ k, k < n → exec i (t k) = .next (t (k + 1)) ∧ (t (k + 1)).cpu.abrt = none) →
    (∀ k, k ≤ n → (countOf i (t k)).toNat = n - k) ∧
    (∀ k, k < n → (t k).cpu.pc = (t 0).cpu.pc) ∧
    (t n).cpu.pc = pcAfter (t 0).cpu.default32 (t 0).cpu.pc i.length

/-! ### The shared operations -/

/-- R168, R11: the index view moves by S in the direction of DF, modulo 2^A; with A = 16 bits 31:16 stay; every other
register stays. -/
def Obligations.AdvanceRule : Prop :=
  ∀ (k : Reg) (a : AddrSize) (z : Size) (s : State),
    let t := advance k a z s
    (a = .a16 → ((t.cpu.regs.get k).setWidth 16 : Half) =
        (if s.cpu.flags.getLsbD 10 then (s.cpu.regs.get k).setWidth 16 - BitVec.ofNat 16 z.bytes
         else (s.cpu.regs.get k).setWidth 16 + BitVec.ofNat 16 z.bytes) ∧
      t.cpu.regs.get k >>> 16 = s.cpu.regs.get k >>> 16) ∧
    (a = .a32 → t.cpu.regs.get k =
      if s.cpu.flags.getLsbD 10 then s.cpu.regs.get k - BitVec.ofNat 32 z.bytes
      else s.cpu.regs.get k + BitVec.ofNat 32 z.bytes) ∧
    (∀ r, r ≠ k → t.cpu.regs.get r = s.cpu.regs.get r)

/-- R190: the six flags of a subtraction at each width, and no other bit; an element of S bytes is subtracted at width
8·S. The part of R11 that speaks of the accumulator: ACC(S) is AL, AX or EAX, and a write leaves the rest of EAX and
the other registers. -/
def Obligations.SetSubRule : Prop :=
  (∀ (n : Nat) (a b : BitVec n) (f : Word), n = 8 ∨ n = 16 ∨ n = 32 →
    let r := a - b
    let g := setSub a b f
    g.getLsbD 0 = decide (a.toNat < b.toNat) ∧
    g.getLsbD 6 = decide (r.toNat = 0) ∧
    g.getLsbD 7 = r.getLsbD (n - 1) ∧
    g.getLsbD 2 = decide (((List.range 8).filter fun k => r.getLsbD k).length % 2 = 0) ∧
    g.getLsbD 4 = decide (a.toNat % 16 < b.toNat % 16) ∧
    g.getLsbD 4 = ((a ^^^ b ^^^ r).getLsbD 4) ∧
    g.getLsbD 11 = ((a ^^^ b) &&& (a ^^^ r)).getLsbD (n - 1) ∧
    (∀ k, k ∉ [0, 2, 4, 6, 7, 11] → g.getLsbD k = f.getLsbD k)) ∧
  (∀ a b f : Word,
    setSubElem .byte a b f = setSub (a.extractLsb' 0 8) (b.extractLsb' 0 8) f ∧
    setSubElem .word a b f = setSub (a.extractLsb' 0 16) (b.extractLsb' 0 16) f ∧
    setSubElem .dword a b f = setSub a b f) ∧
  (∀ (r : Regs) (v : Word),
    acc r .byte = (r.eax.extractLsb' 0 8).setWidth 32 ∧ acc r .word = (r.eax.extractLsb' 0 16).setWidth 32 ∧
    acc r .dword = r.eax ∧
    (setAcc .byte v r).eax = r.eax.extractLsb' 8 24 ++ v.extractLsb' 0 8 ∧
    (setAcc .word v r).eax = r.eax.extractLsb' 16 16 ++ v.extractLsb' 0 16 ∧
    (setAcc .dword v r).eax = v ∧
    ∀ (z : Size) (k : Reg), k ≠ .eax → (setAcc z v r).get k = r.get k)

/-- R82: the four tests of the segment check, in order, the last one without wrap; an abort it raises comes before
any byte of the element is translated. -/
def Obligations.SegCheckRule : Prop :=
  ∀ (seg : SegReg) (s : State) (off : Word) (n : Nat) (kind : AccessKind), n = 1 ∨ n = 2 ∨ n = 4 →
    let d := s.cpu.segs.get seg
    let last := off.toNat + (n - 1)
    (∀ k, segCheck seg d off n kind = some k → preTranslate seg off n kind s = .abort k s) ∧
    (d.valid = false → segCheck seg d off n kind = some (.segNotValid seg)) ∧
    (d.valid = true → kind = .read → d.readable = false →
      segCheck seg d off n kind = some (.segAccess seg .read)) ∧
    (d.valid = true → kind = .write → d.writable = false →
      segCheck seg d off n kind = some (.segAccess seg .write)) ∧
    (d.valid = true → (kind = .read → d.readable = true) → (kind = .write → d.writable = true) →
      segCheck seg d off n kind =
        if 2 ^ 32 ≤ last ∨ off.toNat < d.limitLo.toNat ∨ d.limitHi.toNat < last then some (.segLimit seg) else none)

/-- R75, R89, R90: an element written to RAM reads back as the value's low S bytes, and the byte at the lowest
address is bits 7:0. -/
def Obligations.ElementRoundTrip : Prop :=
  ∀ (s : State) (pa : List Word) (z : Size) (v : Word), Memory.wf s.mem = true → pa.length = z.bytes → pa.Nodup →
    (∀ p ∈ pa, physTarget s.cfg p = .ram) →
    (readElem pa (writeElem pa v s)).1 = (match z with
      | .byte => (v.setWidth 8).setWidth 32
      | .word => (v.setWidth 16).setWidth 32
      | .dword => v) ∧
    (∀ p ∈ pa.head?, ramByte (writeElem pa v s) p = v.setWidth 8)

/-- R84, R366: with any paging function a page fault names the byte and the access and leaves RAM and the CPU context
but for `cr2` as they are. R86: the two-level walk with its entries in RAM. An entry that is not present, or does not
permit the access, is a page fault of that byte and access; `cr2` records the address, and no mark is written. With both
entries present and permitting the access: the frame of the second entry with the offset in the page, and nothing
changes but the marks of the two entries. -/
def Obligations.PageWalk : Prop :=
  ∀ (s : State) (lin : Word) (kind : AccessKind),
    (∀ k t, pageTranslate s.cpu.sys lin kind s = .abort k t → k = .pageFault lin kind ∧ t.mem = s.mem ∧
      t.cpu = { s.cpu with sys := { s.cpu.sys with cr2 := t.cpu.sys.cr2 } }) ∧
    (s.cfg.paging = .reference → s.cpu.sys.pg = true →
      let pdeA := (s.cpu.sys.cr3 &&& 0xFFFFF000) ||| ((lin >>> 22) <<< 2)
      let pde := leValue ((dwordAddrs pdeA).map (ramByte s))
      let pteA := (pde &&& 0xFFFFF000) ||| (((lin >>> 12) &&& 0x3FF) <<< 2)
      let pte := leValue ((dwordAddrs pteA).map (ramByte s))
      let fault : Res Word := .abort (.pageFault lin kind) (s.setCr2 lin)
      let denied := (s.cpu.sys.cpl = 3 ∧ (pde.getLsbD 2 = false ∨ pte.getLsbD 2 = false)) ∨
        (kind = .write ∧ (pde.getLsbD 1 = false ∨ pte.getLsbD 1 = false) ∧
          (s.cpu.sys.cpl = 3 ∨ s.cpu.sys.wp = true))
      (∀ p ∈ dwordAddrs pdeA, physTarget s.cfg p = .ram) →
      (pde.getLsbD 0 = false → pageTranslate s.cpu.sys lin kind s = fault) ∧
      (pde.getLsbD 0 = true → (∀ p ∈ dwordAddrs pteA, physTarget s.cfg p = .ram) →
        (pte.getLsbD 0 = false → pageTranslate s.cpu.sys lin kind s = fault) ∧
        (pte.getLsbD 0 = true → denied → pageTranslate s.cpu.sys lin kind s = fault) ∧
        (pte.getLsbD 0 = true → ¬ denied → Memory.wf s.mem = true →
          ∃ m, pageTranslate s.cpu.sys lin kind s = .ok ((pte &&& 0xFFFFF000) ||| (lin &&& 0xFFF)) (s.setMem m) ∧
            (∀ a, (∀ p ∈ dwordAddrs pdeA ++ dwordAddrs pteA, a ≠ p.toNat) → Memory.read m a = Memory.read s.mem a) ∧
            (pde.getLsbD 5 = true → pte.getLsbD 5 = true → (kind = .write → pte.getLsbD 6 = true) → m = s.mem) ∧
            ((∀ p ∈ dwordAddrs pdeA, p ∉ dwordAddrs pteA) →
              leValue ((dwordAddrs pdeA).map (ramByte (s.setMem m))) = pde ||| 0x20 ∧
              leValue ((dwordAddrs pteA).map (ramByte (s.setMem m))) =
                pte ||| 0x20 ||| (if kind = .write then 0x40 else 0)))))

/-! ### Invariants -/

/-- The state after reset meets the invariant. -/
def Obligations.ResetMeetsInv : Prop := MachineInv State.reset

/-- R290: every bus update keeps the invariant of the SCSI core. -/
def Obligations.BusUpdateKeepsInv : Prop :=
  ∀ (cfg : Cfg) (bus : Word) (io : Io), cfg.wf → BusInv cfg io → BusInv cfg (busUpdate cfg bus io)

/-- R290, R50, R72: every step of the machine keeps the invariant. -/
def Obligations.StepKeepsInv : Prop := ∀ s t : State, MachineInv s → step s = .next t → MachineInv t

/-! ### The SCSI phase machine -/

/-- R255: arbitration forces IDLE and clears the countdowns; no countdown runs, no state rule, no device procedure. -/
def Obligations.ArbitrationOverride : Prop :=
  ∀ (cfg : Cfg) (bus : Word) (io : Io), bus.getLsbD 15 = true →
    busUpdate cfg bus io = { io with ncr := { io.ncr with
      state := .idle, waitData := 0, clearReq := 0, waitComplete := 0, busIn := bus } }

/-- R262, R144: selection from IDLE by the lowest id bit, with a target present and without, and IDLE without a
selection. -/
def Obligations.Selection : Prop :=
  ∀ (cfg : Cfg) (bus : Word) (io : Io), BusInv cfg io → io.ncr.state = .idle → hasLine bus busArb = false →
    (hasLine bus busSel = true → hasLine bus busBsy = false →
      (∀ id : Fin 8, (busGetData bus).getLsbD id = true →
        (∀ j : Fin 8, j < id → (busGetData bus).getLsbD j = false) →
        ((deviceAt cfg io id).present = true →
          busUpdate cfg bus io = { io with ncr := { io.ncr with
            targetId := some id, curBus := io.ncr.curBus ||| busBsy, state := .select, busIn := bus } }) ∧
        ((deviceAt cfg io id).present = false →
          busUpdate cfg bus io = { io with ncr := { io.ncr with
            targetId := some id, curBus := 0, busIn := bus } })) ∧
      (busGetData bus = 0 →
        busUpdate cfg bus io = { io with ncr := { io.ncr with targetId := none, curBus := 0, busIn := bus } })) ∧
    (hasLine bus busSel = false ∨ hasLine bus busBsy = true →
      busUpdate cfg bus io = { io with ncr := { io.ncr with busIn := bus } })

/-- R264, R265: SELECT waits while SEL is held; when it is released, ATN leads to MESSAGEOUT, a present target to
COMMAND, and an absent one to a free bus. -/
def Obligations.SelectRelease : Prop :=
  ∀ (cfg : Cfg) (bus : Word) (io : Io), BusInv cfg io → io.ncr.state = .select → hasLine bus busArb = false →
    (hasLine bus busSel = true → busUpdate cfg bus io = { io with ncr := { io.ncr with busIn := bus } }) ∧
    (hasLine bus busSel = false → hasLine bus busAtn = true →
      busUpdate cfg bus io = { io with ncr := { io.ncr with
        state := .messageOut, msgoutPos := 0, msglun := none, curBus := 0x00000078, busIn := bus } }) ∧
    (hasLine bus busSel = false → hasLine bus busAtn = false → targetPresent cfg io = true →
      busUpdate cfg bus io = { io with ncr := { io.ncr with
        state := .command, commandPos := 0, curBus := 0x00000068, busIn := bus } }) ∧
    (hasLine bus busSel = false → hasLine bus busAtn = false → targetPresent cfg io = false →
      busUpdate cfg bus io = { io with ncr := { io.ncr with state := .idle, curBus := 0, busIn := bus } })

/-- R266, R268, R37: an ACK edge in COMMAND stores the data byte; before the last byte REQ is re-armed; at the last
the device gets the whole block once, and its phase and length decide what comes next. R146: the length of the block,
by bits 7:5 of its first byte. R253, R284, R288: without an ACK edge (ACK low, ACK held, or REQ low) and with no
countdown running nothing changes but the recorded bus word. -/
def Obligations.CommandByte : Prop :=
  ∀ (cfg : Cfg) (bus : Word) (io : Io) (id : Fin 8), BusInv cfg io → io.ncr.state = .command →
    io.ncr.targetId = some id → (deviceAt cfg io id).present = true → hasLine bus busArb = false →
    let io' := busUpdate cfg bus io
    let c := io.ncr.command.setIfInBounds io.ncr.commandPos (busGetData bus)
    let d := (deviceAt cfg io id).commandPhase0 cfg.scsiBus id (c.toList.take (io.ncr.commandPos + 1))
    (∀ c0 : Byte, [6, 10, 10, 6, 16, 12, 10, 6][c0.toNat / 32]? = some (cmdLen c0)) ∧
    (NoCountdown io.ncr → ¬ AckEdge bus io.ncr → io' = { io with ncr := { io.ncr with busIn := bus } }) ∧
    (AckEdge bus io.ncr → io'.ncr.command.toList[io.ncr.commandPos]? = some (busGetData bus)) ∧
    (AckEdge bus io.ncr → io.ncr.commandPos + 1 ≠ cmdLen (c.get 0) →
      io' = { io with ncr := { io.ncr with
        command := c, commandPos := io.ncr.commandPos + 1, curBus := io.ncr.curBus &&& ~~~busReq,
        newPhase := phaseCommand, clearReq := cfg.clearReqInit, busIn := bus } }) ∧
    (AckEdge bus io.ncr → io.ncr.commandPos + 1 = cmdLen (c.get 0) →
      deviceAt cfg io' id = d ∧
      io'.ncr = { io.ncr with
        command := c, commandPos := io.ncr.commandPos + 1, curBus := io.ncr.curBus &&& ~~~busReq, dataPos := 0,
        newPhase := if (d.phase &&& phaseMask = 0x04 ∨ d.phase &&& phaseMask = 0x00) ∧ 0 < d.buffer.length
          then d.phase &&& phaseMask else 0x0C,
        waitData := cfg.waitDataInit, clearReq := 0, waitComplete := 0, busIn := bus })

/-- R270: an ACK edge in DATAIN presents the next byte, with REQ held in a DMA mode and re-armed otherwise; after the
last byte the device finalises its status and STATUS is armed.
R253, R284, R288: without an ACK edge (ACK low, ACK held, or REQ low) and with no countdown running nothing changes
but the recorded bus word. -/
def Obligations.DataInByte : Prop :=
  ∀ (cfg : Cfg) (bus : Word) (io : Io) (id : Fin 8), BusInv cfg io → io.ncr.state = .dataIn →
    io.ncr.targetId = some id → hasLine bus busArb = false →
    let io' := busUpdate cfg bus io
    let d := deviceAt cfg io id
    (NoCountdown io.ncr → ¬ AckEdge bus io.ncr → io' = { io with ncr := { io.ncr with busIn := bus } }) ∧
    (∀ v, AckEdge bus io.ncr → d.buffer[io.ncr.dataPos]? = some v →
      let shown := (io.ncr.curBus &&& ~~~busDataMask) ||| busSetData v
      (io.ncr.dmaMode ≠ .idle → io' = { io with ncr := { io.ncr with
        txData := v, dataPos := io.ncr.dataPos + 1, curBus := shown, busIn := bus } }) ∧
      (io.ncr.dmaMode = .idle → io' = { io with ncr := { io.ncr with
        txData := v, dataPos := io.ncr.dataPos + 1, curBus := shown &&& ~~~busReq, newPhase := phaseDataIn,
        clearReq := cfg.clearReqInit, busIn := bus } })) ∧
    (AckEdge bus io.ncr → d.buffer.length ≤ io.ncr.dataPos →
      deviceAt cfg io' id = d.commandPhase1 cfg.scsiBus id ∧
      io'.ncr = { io.ncr with
        curBus := io.ncr.curBus &&& ~~~busReq, newPhase := phaseStatus, waitData := cfg.waitDataInit, clearReq := 0,
        waitComplete := cfg.waitCompleteInit, busIn := bus })

/-- R272: an ACK edge in DATAOUT stores the data byte in the device's buffer, and goes on as DATAIN does.
R253, R284, R288: without an ACK edge (ACK low, ACK held, or REQ low) and with no countdown running nothing changes
but the recorded bus word. -/
def Obligations.DataOutByte : Prop :=
  ∀ (cfg : Cfg) (bus : Word) (io : Io) (id : Fin 8), BusInv cfg io → io.ncr.state = .dataOut →
    io.ncr.targetId = some id → hasLine bus busArb = false →
    let io' := busUpdate cfg bus io
    let d := (deviceAt cfg io id).putByte io.ncr.dataPos (busGetData bus)
    (NoCountdown io.ncr → ¬ AckEdge bus io.ncr → io' = { io with ncr := { io.ncr with busIn := bus } }) ∧
    (AckEdge bus io.ncr → d.buffer[io.ncr.dataPos]? = some (busGetData bus)) ∧
    (AckEdge bus io.ncr → io.ncr.dataPos + 1 < d.buffer.length →
      deviceAt cfg io' id = d ∧
      io'.ncr = { io.ncr with
        dataPos := io.ncr.dataPos + 1,
        curBus := if io.ncr.dmaMode = .idle then io.ncr.curBus &&& ~~~busReq else io.ncr.curBus,
        newPhase := if io.ncr.dmaMode = .idle then phaseDataOut else io.ncr.newPhase,
        clearReq := if io.ncr.dmaMode = .idle then cfg.clearReqInit else io.ncr.clearReq, busIn := bus }) ∧
    (AckEdge bus io.ncr → d.buffer.length ≤ io.ncr.dataPos + 1 →
      deviceAt cfg io' id = d.commandPhase1 cfg.scsiBus id ∧
      io'.ncr = { io.ncr with
        dataPos := io.ncr.dataPos + 1, curBus := io.ncr.curBus &&& ~~~busReq, newPhase := phaseStatus,
        waitData := cfg.waitDataInit, clearReq := 0, waitComplete := cfg.waitCompleteInit, busIn := bus })

/-- R274, R276: an ACK edge in STATUS identifies the target without a logical unit and arms MESSAGEIN; one in
MESSAGEIN arms the free bus.
R253, R284, R288: without an ACK edge (ACK low, ACK held, or REQ low) and with no countdown running nothing changes
but the recorded bus word. -/
def Obligations.StatusAndMessageIn : Prop :=
  ∀ (cfg : Cfg) (bus : Word) (io : Io) (id : Fin 8), BusInv cfg io → io.ncr.targetId = some id →
    (deviceAt cfg io id).present = true → hasLine bus busArb = false →
    let io' := busUpdate cfg bus io
    (io.ncr.state = .status ∨ io.ncr.state = .messageIn → NoCountdown io.ncr → ¬ AckEdge bus io.ncr →
      io' = { io with ncr := { io.ncr with busIn := bus } }) ∧
    (AckEdge bus io.ncr → io.ncr.state = .status →
      deviceAt cfg io' id = (deviceAt cfg io id).identify none ∧
      io'.ncr = { io.ncr with
        msglun := none, curBus := io.ncr.curBus &&& ~~~busReq, newPhase := phaseMessageIn,
        waitData := cfg.waitDataInit, clearReq := 0, waitComplete := cfg.waitCompleteInit, busIn := bus }) ∧
    (AckEdge bus io.ncr → io.ncr.state = .messageIn →
      io' = { io with ncr := { io.ncr with
        curBus := io.ncr.curBus &&& ~~~busReq, newPhase := 0x80000000, waitData := cfg.waitDataInit, clearReq := 0,
        waitComplete := 0, busIn := bus } })

/-- R280, R148, R152: an ACK edge in MESSAGEOUT stores the data byte; the message is complete after one byte, after
two, or after as many as its second byte says, and an IDENTIFY message names the logical unit. R282, R265: MESSAGE_ID
then gives the device the message's logical unit and enters COMMAND on the next call, whatever the lines but ARB
are.
R253, R284, R288: without an ACK edge (ACK low, ACK held, or REQ low) and with no countdown running nothing changes
but the recorded bus word. -/
def Obligations.MessageOut : Prop :=
  ∀ (cfg : Cfg) (bus : Word) (io : Io), BusInv cfg io → hasLine bus busArb = false →
    let p := io.ncr.msgoutPos + 1
    let m := io.ncr.msgout.setIfInBounds io.ncr.msgoutPos (busGetData bus)
    let m0 := (m.get 0).toNat
    let done := (m0 = 0 ∨ (2 ≤ m0 ∧ m0 ≤ 0x1F) ∨ 0x80 ≤ m0) ∨ (2 ≤ p ∧ 0x20 ≤ m0 ∧ m0 ≤ 0x2F) ∨
      (2 ≤ p ∧ (m0 = 1 ∨ (0x30 ≤ m0 ∧ m0 ≤ 0x7F)) ∧ (m.get 1).toNat ≤ p)
    (io.ncr.state = .messageOut → NoCountdown io.ncr → ¬ AckEdge bus io.ncr →
      busUpdate cfg bus io = { io with ncr := { io.ncr with busIn := bus } }) ∧
    (io.ncr.state = .messageOut → AckEdge bus io.ncr → done →
      busUpdate cfg bus io = { io with ncr := { io.ncr with
        msgout := m, msgoutPos := p, curBus := io.ncr.curBus &&& ~~~busReq,
        msglun := if 0x80 ≤ m0 then some ((m.get 0).setWidth 3) else io.ncr.msglun, state := .messageId,
        busIn := bus } }) ∧
    (io.ncr.state = .messageOut → AckEdge bus io.ncr → ¬ done →
      busUpdate cfg bus io = { io with ncr := { io.ncr with
        msgout := m, msgoutPos := p, curBus := io.ncr.curBus &&& ~~~busReq, newPhase := phaseMessageOut,
        clearReq := cfg.clearReqInit, busIn := bus } }) ∧
    (io.ncr.state = .messageId → ∀ id : Fin 8, io.ncr.targetId = some id → (deviceAt cfg io id).present = true →
      deviceAt cfg (busUpdate cfg bus io) id = (deviceAt cfg io id).identify io.ncr.msglun ∧
      (busUpdate cfg bus io).ncr = { io.ncr with
        state := .command, commandPos := 0, curBus := 0x00000068, busIn := bus })

/-- R256, R257, R39: an armed phase is entered on the `wait_data`-th call and not before, as its code says; REQ comes
with it unless `wait_complete` is still running. The calls carry no ARB, ACK or SEL. -/
def Obligations.PhaseEntered : Prop :=
  ∀ (cfg : Cfg) (io : Io) (buses : List Word), BusInv cfg io → 0 < io.ncr.waitData →
    buses.length = io.ncr.waitData →
    (∀ b ∈ buses, hasLine b busArb = false ∧ hasLine b busAck = false ∧ hasLine b busSel = false) →
    let io' := busUpdates cfg buses io
    (∀ k, k < buses.length → (busUpdates cfg (buses.take k) io).ncr.state = io.ncr.state ∧
      hasLine (busUpdates cfg (buses.take k) io).ncr.curBus busReq = false) ∧
    (io.ncr.newPhase = busIdleMark → io'.ncr.state = .idle ∧ io'.ncr.curBus = 0) ∧
    (io.ncr.newPhase = phaseStatus → io'.ncr.state = .status ∧ busGetData io'.ncr.curBus = devStatus cfg io ∧
      io'.ncr.curBus &&& phaseMask = phaseStatus ∧
      (hasLine io'.ncr.curBus busReq = true ↔ io.ncr.waitComplete = 0 ∨ io.ncr.waitComplete = io.ncr.waitData)) ∧
    (io.ncr.newPhase = phaseMessageIn → io'.ncr.state = .messageIn ∧ busGetData io'.ncr.curBus = 0 ∧
      io'.ncr.curBus &&& phaseMask = phaseMessageIn ∧
      (hasLine io'.ncr.curBus busReq = true ↔ io.ncr.waitComplete = 0 ∨ io.ncr.waitComplete = io.ncr.waitData)) ∧
    (io.ncr.newPhase = phaseDataIn → io'.ncr.state = .dataIn ∧ io'.ncr.dataPos = 1 ∧
      busGetData io'.ncr.curBus = devByte cfg io 0 ∧ io'.ncr.curBus &&& phaseMask = phaseDataIn ∧
      hasLine io'.ncr.curBus busReq = true) ∧
    (io.ncr.newPhase = phaseDataOut → io'.ncr.state = .dataOut ∧ io'.ncr.dataPos = 0 ∧
      io'.ncr.curBus &&& phaseMask = phaseDataOut ∧ hasLine io'.ncr.curBus busReq = true)

/-- R256, R39: within a phase REQ returns on the `clear_req`-th call without ARB and ACK, with the phase armed, and
not before. -/
def Obligations.ReqReturns : Prop :=
  ∀ (cfg : Cfg) (io : Io) (buses : List Word), BusInv cfg io → 0 < io.ncr.clearReq →
    buses.length = io.ncr.clearReq →
    (∀ b ∈ buses, hasLine b busArb = false ∧ hasLine b busAck = false) →
    let io' := busUpdates cfg buses io
    (∀ k, k < buses.length → hasLine (busUpdates cfg (buses.take k) io).ncr.curBus busReq = false) ∧
    io'.ncr.state = io.ncr.state ∧ hasLine io'.ncr.curBus busReq = true ∧
    io'.ncr.curBus &&& phaseMask = io.ncr.newPhase &&& phaseMask ∧ io'.ncr.clearReq = 0

/-! ### The registers and the bridge -/

/-- R301, R303, R305, R308, R310, R317: a register read runs the phase machine once with the host's lines and then
gives the register's value; R302: those lines, bit by bit. Reads 0, 1, 2, 3, 5 and 6 do nothing more; read 4 draws its
bit 0, which the spec leaves open, from outside (the draw is the model's choice, log 9); read 7 gives 0 and clears
the interrupt, its line unless that is line 1 (or none), and BUSY_ERROR (R318). R314, R315: the bits of registers 4 and 5 after the update, where RST and SEL are never set in a state that
meets the invariant. -/
def Obligations.RegisterReads : Prop :=
  ∀ (cfg : Cfg) (io : Io),
    let u := busUpdate cfg (hostBus io.ncr) io
    let r4 := (regRead cfg 4 io).1
    let r5 := (regRead cfg 5 io).1
    let h := hostBus io.ncr
    (∀ k, k < 8 → h.getLsbD (16 + k) = io.ncr.outputData.getLsbD k) ∧
    h.getLsbD 8 = io.ncr.icr.getLsbD 1 ∧ h.getLsbD 1 = io.ncr.icr.getLsbD 2 ∧ h.getLsbD 6 = io.ncr.icr.getLsbD 3 ∧
    h.getLsbD 9 = io.ncr.icr.getLsbD 4 ∧ h.getLsbD 2 = io.ncr.tcr.getLsbD 0 ∧ h.getLsbD 3 = io.ncr.tcr.getLsbD 1 ∧
    h.getLsbD 4 = io.ncr.tcr.getLsbD 2 ∧ h.getLsbD 5 = io.ncr.tcr.getLsbD 3 ∧
    h.getLsbD 15 = io.ncr.mode.getLsbD 0 ∧
    (∀ k, k ∉ [1, 2, 3, 4, 5, 6, 8, 9, 15] → k < 16 ∨ 24 ≤ k → h.getLsbD k = false) ∧
    regRead cfg 0 io = (if io.ncr.icr.getLsbD 0 then io.ncr.outputData else busGetData u.ncr.curBus, u) ∧
    regRead cfg 1 io = ((io.ncr.icr &&& 0x1F) ||| (if io.ncr.mode.getLsbD 0 then 0x40 else 0), u) ∧
    regRead cfg 2 io = (io.ncr.mode, u) ∧
    regRead cfg 3 io = (io.ncr.tcr &&& 0x8F, u) ∧
    (∀ b rest, io.inputs = b :: rest → (regRead cfg 4 io).2 = { u with inputs := rest } ∧ r4.getLsbD 0 = b.getLsbD 0) ∧
    (io.inputs = [] → (regRead cfg 4 io).2 = { u with drawn := io.drawn + 1 }) ∧
    (regRead cfg 5 io).2 = u ∧
    regRead cfg 6 io = (busGetData u.ncr.curBus, u) ∧
    regRead cfg 7 io = (0x00, { u with
      ncr := { u.ncr with irqState := false, isr := io.ncr.isr &&& 0xEB },
      outputs := if cfg.irqLine ≠ 1 ∧ cfg.irqLine ≠ -1 then .irqLower cfg.irqLine :: io.outputs else io.outputs }) ∧
    (cfg.wf → BusInv cfg io → r4.getLsbD 7 = false ∧ r4.getLsbD 6 = hasLine u.ncr.curBus busBsy ∧
      r4.getLsbD 5 = hasLine u.ncr.curBus busReq ∧ r4.getLsbD 4 = hasLine u.ncr.curBus busMsg ∧
      r4.getLsbD 3 = hasLine u.ncr.curBus busCd ∧ r4.getLsbD 2 = hasLine u.ncr.curBus busIo ∧
      r4.getLsbD 1 = false) ∧
    (RegInv io.ncr → r5.getLsbD 7 = io.ncr.isr.getLsbD 7 ∧
      r5.getLsbD 6 = (decide (io.ncr.dmaMode ≠ .idle) && hasLine u.ncr.curBus busReq) ∧ r5.getLsbD 5 = false ∧
      r5.getLsbD 4 = io.ncr.irqState ∧
      r5.getLsbD 3 = decide ((u.ncr.curBus &&& phaseMask).toNat / 4 = io.ncr.tcr.toNat % 8) ∧
      r5.getLsbD 2 = io.ncr.isr.getLsbD 2 ∧ r5.getLsbD 1 = io.ncr.icr.getLsbD 1 ∧
      r5.getLsbD 0 = io.ncr.icr.getLsbD 4)

/-- R306, R61, R62, R404: a write of register 1 with bit 7 set leaves the SCSI core and the bridge in their reset
state, whatever the buffer becomes, and the device table as it is; the interrupt line is lowered unless it is line 1
or none. With bit 7 clear bits 4:0 are stored, and the phase machine sees the new lines. -/
def Obligations.SoftReset : Prop :=
  ∀ (cfg : Cfg) (io : Io) (v : Byte),
    let io' := regWrite cfg 1 v io
    let io1 := { io with ncr := { io.ncr with icr := v &&& 0x1F } }
    (v.getLsbD 7 = true →
      io'.ncr = .afterReset ∧ (∃ buffer, io'.bridge = .afterReset buffer) ∧ io'.scsiDevices = io.scsiDevices ∧
      io'.outputs = if cfg.irqLine ≠ 1 ∧ cfg.irqLine ≠ -1 then .irqLower cfg.irqLine :: io.outputs else io.outputs) ∧
    (v.getLsbD 7 = false → io' = busUpdate cfg (hostBus io1.ncr) io1)

/-- R303, R310, R312, R317: writes of registers 0, 3, 4 and 6 store their value (tcr keeps bit 7 and takes bits 3:0; a
write of 6 stores nothing), and the phase machine sees the new lines. R309: a write of the mode register with bit 1 set
stores the mode and no more; with bit 1 clear it ends DMA: mode, END_OF_DMA, LAST_BYTE_SENT, timer and busy bit; the
bridge's buffer and positions stay. R316, R318, R338: the two start-DMA writes act only with DMA_MODE set; send
opens the buffer to the host, receive closes it and arms the timer. -/
def Obligations.DmaStartAndEnd : Prop :=
  ∀ (cfg : Cfg) (io : Io) (v : Byte),
    let after (n : Ncr) : Io := busUpdate cfg (hostBus n) { io with ncr := n }
    regWrite cfg 0 v io = after { io.ncr with outputData := v } ∧
    regWrite cfg 3 v io = after { io.ncr with tcr := (io.ncr.tcr &&& 0x80) ||| (v &&& 0x0F) } ∧
    regWrite cfg 4 v io = after { io.ncr with ser := v } ∧
    regWrite cfg 6 v io = after io.ncr ∧
    (v.getLsbD 1 = true → regWrite cfg 2 v io = after { io.ncr with mode := v }) ∧
    (v.getLsbD 1 = false →
      let io' := regWrite cfg 2 v io
      io'.ncr.mode = v ∧ io'.ncr.dmaMode = .idle ∧ io'.ncr.isr = io.ncr.isr &&& 0x7F ∧
      io'.ncr.tcr = io.ncr.tcr &&& 0x7F ∧ io'.bridge.timerArmed = false ∧
      io'.bridge.status = io.bridge.status &&& ~~~cfg.busyBit ∧ io'.bridge.buffer = io.bridge.buffer ∧
      io'.bridge.hostPos = io.bridge.hostPos ∧ io'.bridge.pos = io.bridge.pos ∧
      io'.bridge.total = io.bridge.total) ∧
    (io.ncr.mode.getLsbD 1 = true →
      let io' := regWrite cfg 5 v io
      io'.ncr.dmaMode = .outTxBus ∧ io'.bridge.pos = 0 ∧ io'.bridge.hostPos = 0 ∧ io'.bridge.total = 0 ∧
      io'.bridge.pumpDone = false ∧ io'.bridge.status = io.bridge.status ||| cfg.busyBit ∧
      io'.bridge.timerArmed = io.bridge.timerArmed) ∧
    (io.ncr.mode.getLsbD 1 = true →
      let io' := regWrite cfg 7 v io
      io'.ncr.dmaMode = .inTxBus ∧ io'.bridge.pos = 0 ∧ io'.bridge.hostPos = chunk cfg io ∧ io'.bridge.total = 0 ∧
      io'.bridge.pumpDone = false ∧ io'.bridge.status = io.bridge.status &&& ~~~cfg.busyBit ∧
      io'.bridge.timerArmed = true) ∧
    (io.ncr.mode.getLsbD 1 = false →
      regWrite cfg 5 v io = busUpdate cfg (hostBus io.ncr) io ∧ regWrite cfg 7 v io = busUpdate cfg (hostBus io.ncr) io)

/-- R336, R426: a read of the data port outside DMA_IN_TX_BUS, past the chunk or with the busy bit clear is rejected: it
gives 0xFF and changes nothing (the busy bit: log 26). R336, R330, R356: from the start of a chunk, exactly as many reads
as the chunk has bytes give the buffer's bytes in order; the last clears the busy bit and ends the DMA mode when the pump
is done or arms the timer when it is not; the next read is rejected. -/
def Obligations.ChunkReadOut : Prop :=
  ∀ (cfg : Cfg) (io : Io),
    (io.ncr.dmaMode ≠ .inTxBus ∨ chunk cfg io ≤ io.bridge.hostPos ∨ io.bridge.status &&& cfg.busyBit = 0 →
      dataPortRead cfg io = (0xFF, io)) ∧
    (io.ncr.dmaMode = .inTxBus → io.bridge.hostPos = 0 → io.bridge.status &&& cfg.busyBit ≠ 0 → 0 < chunk cfg io →
      let r := dataPortReads cfg (chunk cfg io) io
      r.1 = io.bridge.buffer.toList.take (chunk cfg io) ∧ r.2.bridge.hostPos = chunk cfg io ∧
      r.2.bridge.buffer = io.bridge.buffer ∧ r.2.bridge.status = io.bridge.status &&& ~~~cfg.busyBit ∧
      (io.bridge.pumpDone = true → r.2.ncr.dmaMode = .idle) ∧
      (io.bridge.pumpDone = false → r.2.ncr.dmaMode = .inTxBus ∧ r.2.bridge.timerArmed = true) ∧
      dataPortRead cfg r.2 = (0xFF, r.2))

/-- R337, R426: a write of the data port outside DMA_OUT_TX_BUS, past the chunk or with the busy bit clear is dropped (the
busy bit: log 26). R337, R330: from the start of a chunk, as many writes as the chunk has bytes fill the buffer in order;
the last clears the busy bit and arms the timer; further writes are dropped. -/
def Obligations.ChunkWrittenIn : Prop :=
  ∀ (cfg : Cfg) (io : Io) (vs : List Byte) (v : Byte),
    (io.ncr.dmaMode ≠ .outTxBus ∨ chunk cfg io ≤ io.bridge.hostPos ∨ io.bridge.status &&& cfg.busyBit = 0 →
      dataPortWrite cfg v io = io) ∧
    (io.ncr.dmaMode = .outTxBus → io.bridge.hostPos = 0 → io.bridge.status &&& cfg.busyBit ≠ 0 →
      vs.length = chunk cfg io → 0 < chunk cfg io →
      let io' := dataPortWrites cfg vs io
      io'.bridge.buffer.toList = vs ++ io.bridge.buffer.toList.drop (chunk cfg io) ∧
      io'.bridge.hostPos = chunk cfg io ∧ io'.bridge.status = io.bridge.status &&& ~~~cfg.busyBit ∧
      io'.bridge.timerArmed = true ∧ io'.ncr = io.ncr ∧ dataPortWrite cfg v io' = io')

/-- R340, R341, R342, R346, R347, R270, R352: receiving. With the phase machine in DATAIN and the byte `total` of the
device shown, one callback brings as many bytes as are left of the chunk and of the transfer to the buffer in order, the
rest of the buffer as it was, and opens it to the host. After the transfer's last byte it completes the device's command
and signals end-of-DMA (with the interrupt when it is enabled); before it, the pump goes on with the next chunk, whose
first byte is shown. R341: when REQ of the phase does not come in `pollMax` updates, the transfer stands where it was
and the timer is armed again. -/
def Obligations.CallbackReceives : Prop :=
  ∀ (cfg : Cfg) (io : Io), io.ncr.dmaMode = .inTxBus → io.bridge.pumpDone = false →
    io.bridge.hostPos = chunk cfg io → io.bridge.pos < chunk cfg io →
    let io' := callback cfg io
    (∀ id : Fin 8, cfg.wf → DataPhase cfg io id .dataIn phaseDataIn → HostQuiet io.ncr →
      io.ncr.dataPos = io.bridge.total + 1 →
      let d := deviceAt cfg io id
      d.buffer[io.bridge.total]? = some (busGetData io.ncr.curBus) →
      let m := min (chunk cfg io - io.bridge.pos) (d.buffer.length - io.bridge.total)
      io'.bridge.buffer.toList = io.bridge.buffer.toList.take io.bridge.pos ++
        (d.buffer.drop io.bridge.total).take m ++ io.bridge.buffer.toList.drop (io.bridge.pos + m) ∧
      io'.bridge.hostPos = 0 ∧ io'.bridge.pos = 0 ∧ io'.bridge.total = io.bridge.total + m ∧
      io'.bridge.timerArmed = false ∧ io'.bridge.status = io.bridge.status ||| cfg.busyBit ∧
      io'.ncr.dmaMode = .inTxBus ∧
      (io.bridge.total + m = d.buffer.length →
        io'.bridge.pumpDone = true ∧ io'.ncr.isr.getLsbD 7 = true ∧ io'.ncr.tcr.getLsbD 7 = true ∧
        (io.ncr.mode.getLsbD 3 = true → io'.ncr.irqState = true) ∧
        (io.ncr.mode.getLsbD 3 = false → io'.ncr.irqState = io.ncr.irqState ∧ io'.outputs = io.outputs) ∧
        deviceAt cfg io' id = d.commandPhase1 cfg.scsiBus id) ∧
      (io.bridge.total + m < d.buffer.length →
        io'.bridge.pumpDone = false ∧ io'.ncr.isr = io.ncr.isr ∧ io'.ncr.tcr = io.ncr.tcr ∧
        io'.ncr.irqState = io.ncr.irqState ∧ io'.outputs = io.outputs ∧ io'.scsiDevices = io.scsiDevices ∧
        io'.ncr.state = .dataIn ∧ io'.ncr.dataPos = io.bridge.total + m + 1 ∧
        d.buffer[io.bridge.total + m]? = some (busGetData io'.ncr.curBus))) ∧
    (io.ncr.mode.getLsbD 2 = false ∨ hasLine io.ncr.curBus busBsy = true → NoReq cfg io phaseDataIn →
      PollRanOut cfg io io')

/-- R340, R341, R342, R344, R347, R272, R352: sending. With the phase machine in DATAOUT at the byte `total` and a full
chunk, one callback moves as many bytes as are left of the chunk and of the transfer from the buffer to the device in
order, the rest of the device's buffer as it was. After the transfer's last byte it completes the device's command,
signals end-of-DMA and returns to the non-DMA mode with the busy bit as it was; before it, the buffer is opened to the
host for the next chunk. R341: when REQ of the phase does not come in `pollMax` updates, the transfer stands where it
was and the timer is armed again. -/
def Obligations.CallbackSends : Prop :=
  ∀ (cfg : Cfg) (io : Io), io.ncr.dmaMode = .outTxBus →
    io.bridge.hostPos = chunk cfg io → io.bridge.pos < chunk cfg io →
    let io' := callback cfg io
    (∀ id : Fin 8, cfg.wf → DataPhase cfg io id .dataOut phaseDataOut → HostQuiet io.ncr →
      io.ncr.dataPos = io.bridge.total →
      let d := deviceAt cfg io id
      io.bridge.total < d.buffer.length →
      let m := min (chunk cfg io - io.bridge.pos) (d.buffer.length - io.bridge.total)
      let d' : Device := { d with buffer := d.buffer.take io.bridge.total ++
        (io.bridge.buffer.toList.drop io.bridge.pos).take m ++ d.buffer.drop (io.bridge.total + m) }
      io'.bridge.buffer = io.bridge.buffer ∧ io'.bridge.hostPos = 0 ∧ io'.bridge.pos = 0 ∧
      io'.bridge.total = io.bridge.total + m ∧ io'.bridge.timerArmed = false ∧
      (io.bridge.total + m = d.buffer.length →
        deviceAt cfg io' id = d'.commandPhase1 cfg.scsiBus id ∧
        io'.bridge.status = io.bridge.status ∧ io'.ncr.dmaMode = .idle ∧
        io'.ncr.isr.getLsbD 7 = true ∧ io'.ncr.tcr.getLsbD 7 = true ∧
        (io.ncr.mode.getLsbD 3 = true → io'.ncr.irqState = true) ∧
        (io.ncr.mode.getLsbD 3 = false → io'.ncr.irqState = io.ncr.irqState ∧ io'.outputs = io.outputs)) ∧
      (io.bridge.total + m < d.buffer.length →
        deviceAt cfg io' id = d' ∧
        io'.bridge.status = io.bridge.status ||| cfg.busyBit ∧ io'.ncr.dmaMode = .outTxBus ∧
        io'.ncr.isr = io.ncr.isr ∧ io'.ncr.tcr = io.ncr.tcr ∧ io'.ncr.irqState = io.ncr.irqState ∧
        io'.outputs = io.outputs ∧ io'.ncr.state = .dataOut ∧ io'.ncr.dataPos = io.bridge.total + m)) ∧
    (io.ncr.mode.getLsbD 2 = false ∨ hasLine io.ncr.curBus busBsy = true → NoReq cfg io phaseDataOut →
      PollRanOut cfg io io')

/-- R348: when BSY is gone in a DMA mode with MONITOR_BUSY set, the callback aborts the transfer: DMA_MODE off, mode
idle, BUSY_ERROR set, busy bit and timer off, and nothing else. R340: without that, and with DMA idle, the chunk not
exhausted by the host, or a receive whose pump is done, the callback only disarms the timer (a disarmed timer has no
delay left, log 7). -/
def Obligations.BusyLossAborts : Prop :=
  ∀ (cfg : Cfg) (io : Io),
    (io.ncr.mode.getLsbD 2 = true → hasLine io.ncr.curBus busBsy = false → io.ncr.dmaMode ≠ .idle →
      callback cfg io = { io with
        ncr := { io.ncr with mode := io.ncr.mode &&& ~~~0x02, dmaMode := .idle, isr := io.ncr.isr ||| 0x04 },
        bridge := { io.bridge with
          status := io.bridge.status &&& ~~~cfg.busyBit, timerArmed := false, timerWait := 0 } }) ∧
    (io.ncr.mode.getLsbD 2 = false ∨ hasLine io.ncr.curBus busBsy = true ∨ io.ncr.dmaMode = .idle →
      io.ncr.dmaMode = .idle ∨ io.bridge.hostPos ≠ chunk cfg io ∨
        (io.ncr.dmaMode = .inTxBus ∧ io.bridge.pumpDone = true) →
      callback cfg io = { io with bridge := { io.bridge with timerArmed := false, timerWait := 0 } })

/-- R320, R347: the end of a transfer sets END_OF_DMA and LAST_BYTE_SENT, and raises the interrupt exactly when
ENA_EOP_INT is set; clearing it lowers the line unless that is line 1 (or none). -/
def Obligations.InterruptLine : Prop :=
  ∀ (cfg : Cfg) (io : Io),
    (io.ncr.mode.getLsbD 3 = true →
      endOfDma cfg io = { io with
        ncr := { io.ncr with isr := io.ncr.isr ||| 0x90, tcr := io.ncr.tcr ||| 0x80, irqState := true },
        outputs := if cfg.irqLine ≠ -1 then .irqRaise cfg.irqLine :: io.outputs else io.outputs }) ∧
    (io.ncr.mode.getLsbD 3 = false →
      endOfDma cfg io = { io with
        ncr := { io.ncr with isr := io.ncr.isr ||| 0x80, tcr := io.ncr.tcr ||| 0x80 } }) ∧
    ncrIrqClear cfg io = { io with
      ncr := { io.ncr with isr := io.ncr.isr &&& ~~~0x10, irqState := false },
      outputs := if cfg.irqLine = 1 ∨ cfg.irqLine = -1 then io.outputs else .irqLower cfg.irqLine :: io.outputs }

end
end

