-- ==== Sys2Proof/Laws/Memory.lean ====
section
/-! SUPPORT. The laws of RAM: a read after a write, and the canonical form every write keeps. -/
namespace Sys2Proof.Machine

theorem Memory.read_cons (a : Nat) (b : Byte) (rest : List Host.Cell) (c : Nat) :
    Memory.read (Memory.cons a b rest) c = if b = ramDefault then Memory.read rest c
      else if c = a then b else Memory.read rest c := by
  unfold Memory.cons
  split <;> simp [Memory.read]

/-- A write leaves every other address alone, in any list of cells. -/
theorem Memory.read_write_other {a c : Nat} (h : c ≠ a) (b : Byte) (m : List Host.Cell) :
    Memory.read (Memory.write m a b) c = Memory.read m c := by
  induction m with
  | nil => simp [Memory.write, Memory.read_cons, Memory.read, h]
  | cons kv rest ih =>
    obtain ⟨k, v⟩ := kv
    unfold Memory.write
    split
    · simp [Memory.read_cons, h]
    · split
      · subst_vars; simp [Memory.read_cons, Memory.read, h]
      · simp [Memory.read, ih]

theorem Memory.wfFrom_mono {lo lo' : Nat} (hle : lo' ≤ lo) {m : List Host.Cell}
    (h : Memory.wfFrom lo m = true) : Memory.wfFrom lo' m = true := by
  cases m with
  | nil => rfl
  | cons kv rest =>
    simp only [Memory.wfFrom, Bool.and_eq_true, decide_eq_true_eq] at h ⊢
    exact ⟨⟨hle.trans h.1.1, h.1.2⟩, h.2⟩

/-- An address below every listed one reads as the default. -/
theorem Memory.read_below {lo a : Nat} (ha : a < lo) {m : List Host.Cell} (h : Memory.wfFrom lo m = true) :
    Memory.read m a = ramDefault := by
  induction m generalizing lo with
  | nil => rfl
  | cons kv rest ih =>
    simp only [Memory.wfFrom, Bool.and_eq_true, decide_eq_true_eq] at h
    simp only [Memory.read]
    rw [if_neg (by omega)]
    exact ih (by omega) h.2

/-- A write is read back. -/
theorem Memory.read_write_same_from {lo : Nat} {m : List Host.Cell} (h : Memory.wfFrom lo m = true) (a : Nat)
    (b : Byte) : Memory.read (Memory.write m a b) a = b := by
  induction m generalizing lo with
  | nil => simp only [Memory.write, Memory.read_cons, Memory.read]; split <;> simp_all
  | cons kv rest ih =>
    obtain ⟨k, v⟩ := kv
    have hh := h
    simp only [Memory.wfFrom, Bool.and_eq_true, decide_eq_true_eq] at h
    unfold Memory.write
    split
    · next hlt =>
      rw [Memory.read_cons]
      split
      · next hb =>
        rw [hb]
        refine Memory.read_below (lo := a + 1) (by omega) ?_
        simp only [Memory.wfFrom, Bool.and_eq_true, decide_eq_true_eq]
        exact ⟨⟨by omega, h.1.2⟩, h.2⟩
      · simp
    · split
      · next he =>
        subst he
        rw [Memory.read_cons]
        split
        · next hb => rw [hb]; exact Memory.read_below (by omega) h.2
        · simp
      · next hne => simp only [Memory.read, if_neg hne]; exact ih h.2

theorem Memory.read_write_same {m : List Host.Cell} (h : Memory.wf m = true) (a : Nat) (b : Byte) :
    Memory.read (Memory.write m a b) a = b := Memory.read_write_same_from h a b

theorem Memory.cons_wfFrom {lo a : Nat} (ha : lo ≤ a) (b : Byte) {rest : List Host.Cell}
    (h : Memory.wfFrom (a + 1) rest = true) : Memory.wfFrom lo (Memory.cons a b rest) = true := by
  unfold Memory.cons
  split
  · exact Memory.wfFrom_mono (by omega) h
  · simp only [Memory.wfFrom, Bool.and_eq_true, decide_eq_true_eq]
    exact ⟨⟨ha, by assumption⟩, h⟩

theorem Memory.write_wfFrom {lo a : Nat} (ha : lo ≤ a) (b : Byte) {m : List Host.Cell}
    (h : Memory.wfFrom lo m = true) : Memory.wfFrom lo (Memory.write m a b) = true := by
  induction m generalizing lo with
  | nil => exact Memory.cons_wfFrom ha b rfl
  | cons kv rest ih =>
    obtain ⟨k, v⟩ := kv
    simp only [Memory.wfFrom, Bool.and_eq_true, decide_eq_true_eq] at h
    unfold Memory.write
    split
    · refine Memory.cons_wfFrom ha b ?_
      simp only [Memory.wfFrom, Bool.and_eq_true, decide_eq_true_eq]
      exact ⟨⟨by omega, h.1.2⟩, h.2⟩
    · split
      · subst_vars; exact Memory.cons_wfFrom ha b h.2
      · simp only [Memory.wfFrom, Bool.and_eq_true, decide_eq_true_eq]
        exact ⟨h.1, ih (by omega) h.2⟩

/-- Every write keeps the canonical form. -/
theorem Memory.write_wf {m : List Host.Cell} (h : Memory.wf m = true) (a : Nat) (b : Byte) :
    Memory.wf (Memory.write m a b) = true := Memory.write_wfFrom (Nat.zero_le a) b h

/-- The memory of `State.reset` has the canonical form. -/
theorem Memory.reset_wf : Memory.wf State.reset.mem = true := rfl

end Sys2Proof.Machine
end

