-- ==== Sys2Proof/Laws/State.lean ====
section
/-! SUPPORT. The fields of State after each named update, one lemma per field per update. -/
namespace Sys2Proof.Machine

variable (s : State)

/-! ### `setRegs` -/

@[simp] theorem State.setRegs_regs (r : Regs) : (s.setRegs r).cpu.regs = r := rfl
@[simp] theorem State.setRegs_pc (r : Regs) : (s.setRegs r).cpu.pc = s.cpu.pc := rfl
@[simp] theorem State.setRegs_segs (r : Regs) : (s.setRegs r).cpu.segs = s.cpu.segs := rfl
@[simp] theorem State.setRegs_flags (r : Regs) : (s.setRegs r).cpu.flags = s.cpu.flags := rfl
@[simp] theorem State.setRegs_abrt (r : Regs) : (s.setRegs r).cpu.abrt = s.cpu.abrt := rfl
@[simp] theorem State.setRegs_sys (r : Regs) : (s.setRegs r).cpu.sys = s.cpu.sys := rfl
@[simp] theorem State.setRegs_cycles (r : Regs) : (s.setRegs r).cpu.cycles = s.cpu.cycles := rfl
@[simp] theorem State.setRegs_prefetch (r : Regs) : (s.setRegs r).cpu.prefetch = s.cpu.prefetch := rfl
@[simp] theorem State.setRegs_default32 (r : Regs) : (s.setRegs r).cpu.default32 = s.cpu.default32 := rfl
@[simp] theorem State.setRegs_mem (r : Regs) : (s.setRegs r).mem = s.mem := rfl
@[simp] theorem State.setRegs_io (r : Regs) : (s.setRegs r).io = s.io := rfl
@[simp] theorem State.setRegs_cfg (r : Regs) : (s.setRegs r).cfg = s.cfg := rfl
@[simp] theorem State.setRegs_agenda (r : Regs) : (s.setRegs r).agenda = s.agenda := rfl

/-! ### `setPc` -/

@[simp] theorem State.setPc_regs (p : Word) : (s.setPc p).cpu.regs = s.cpu.regs := rfl
@[simp] theorem State.setPc_pc (p : Word) : (s.setPc p).cpu.pc = p := rfl
@[simp] theorem State.setPc_segs (p : Word) : (s.setPc p).cpu.segs = s.cpu.segs := rfl
@[simp] theorem State.setPc_flags (p : Word) : (s.setPc p).cpu.flags = s.cpu.flags := rfl
@[simp] theorem State.setPc_abrt (p : Word) : (s.setPc p).cpu.abrt = s.cpu.abrt := rfl
@[simp] theorem State.setPc_sys (p : Word) : (s.setPc p).cpu.sys = s.cpu.sys := rfl
@[simp] theorem State.setPc_cycles (p : Word) : (s.setPc p).cpu.cycles = s.cpu.cycles := rfl
@[simp] theorem State.setPc_prefetch (p : Word) : (s.setPc p).cpu.prefetch = s.cpu.prefetch := rfl
@[simp] theorem State.setPc_default32 (p : Word) : (s.setPc p).cpu.default32 = s.cpu.default32 := rfl
@[simp] theorem State.setPc_mem (p : Word) : (s.setPc p).mem = s.mem := rfl
@[simp] theorem State.setPc_io (p : Word) : (s.setPc p).io = s.io := rfl
@[simp] theorem State.setPc_cfg (p : Word) : (s.setPc p).cfg = s.cfg := rfl
@[simp] theorem State.setPc_agenda (p : Word) : (s.setPc p).agenda = s.agenda := rfl

/-! ### `setFlags` -/

@[simp] theorem State.setFlags_regs (f : Word) : (s.setFlags f).cpu.regs = s.cpu.regs := rfl
@[simp] theorem State.setFlags_pc (f : Word) : (s.setFlags f).cpu.pc = s.cpu.pc := rfl
@[simp] theorem State.setFlags_segs (f : Word) : (s.setFlags f).cpu.segs = s.cpu.segs := rfl
@[simp] theorem State.setFlags_flags (f : Word) : (s.setFlags f).cpu.flags = f := rfl
@[simp] theorem State.setFlags_abrt (f : Word) : (s.setFlags f).cpu.abrt = s.cpu.abrt := rfl
@[simp] theorem State.setFlags_sys (f : Word) : (s.setFlags f).cpu.sys = s.cpu.sys := rfl
@[simp] theorem State.setFlags_cycles (f : Word) : (s.setFlags f).cpu.cycles = s.cpu.cycles := rfl
@[simp] theorem State.setFlags_prefetch (f : Word) : (s.setFlags f).cpu.prefetch = s.cpu.prefetch := rfl
@[simp] theorem State.setFlags_default32 (f : Word) : (s.setFlags f).cpu.default32 = s.cpu.default32 := rfl
@[simp] theorem State.setFlags_mem (f : Word) : (s.setFlags f).mem = s.mem := rfl
@[simp] theorem State.setFlags_io (f : Word) : (s.setFlags f).io = s.io := rfl
@[simp] theorem State.setFlags_cfg (f : Word) : (s.setFlags f).cfg = s.cfg := rfl
@[simp] theorem State.setFlags_agenda (f : Word) : (s.setFlags f).agenda = s.agenda := rfl

/-! ### `setAbrt` -/

@[simp] theorem State.setAbrt_regs (a : Option Abort) : (s.setAbrt a).cpu.regs = s.cpu.regs := rfl
@[simp] theorem State.setAbrt_pc (a : Option Abort) : (s.setAbrt a).cpu.pc = s.cpu.pc := rfl
@[simp] theorem State.setAbrt_segs (a : Option Abort) : (s.setAbrt a).cpu.segs = s.cpu.segs := rfl
@[simp] theorem State.setAbrt_flags (a : Option Abort) : (s.setAbrt a).cpu.flags = s.cpu.flags := rfl
@[simp] theorem State.setAbrt_abrt (a : Option Abort) : (s.setAbrt a).cpu.abrt = a := rfl
@[simp] theorem State.setAbrt_sys (a : Option Abort) : (s.setAbrt a).cpu.sys = s.cpu.sys := rfl
@[simp] theorem State.setAbrt_cycles (a : Option Abort) : (s.setAbrt a).cpu.cycles = s.cpu.cycles := rfl
@[simp] theorem State.setAbrt_prefetch (a : Option Abort) : (s.setAbrt a).cpu.prefetch = s.cpu.prefetch := rfl
@[simp] theorem State.setAbrt_default32 (a : Option Abort) : (s.setAbrt a).cpu.default32 = s.cpu.default32 := rfl
@[simp] theorem State.setAbrt_mem (a : Option Abort) : (s.setAbrt a).mem = s.mem := rfl
@[simp] theorem State.setAbrt_io (a : Option Abort) : (s.setAbrt a).io = s.io := rfl
@[simp] theorem State.setAbrt_cfg (a : Option Abort) : (s.setAbrt a).cfg = s.cfg := rfl
@[simp] theorem State.setAbrt_agenda (a : Option Abort) : (s.setAbrt a).agenda = s.agenda := rfl

/-! ### `setCr2` -/

@[simp] theorem State.setCr2_regs (w : Word) : (s.setCr2 w).cpu.regs = s.cpu.regs := rfl
@[simp] theorem State.setCr2_pc (w : Word) : (s.setCr2 w).cpu.pc = s.cpu.pc := rfl
@[simp] theorem State.setCr2_segs (w : Word) : (s.setCr2 w).cpu.segs = s.cpu.segs := rfl
@[simp] theorem State.setCr2_flags (w : Word) : (s.setCr2 w).cpu.flags = s.cpu.flags := rfl
@[simp] theorem State.setCr2_abrt (w : Word) : (s.setCr2 w).cpu.abrt = s.cpu.abrt := rfl
@[simp] theorem State.setCr2_sys_pe (w : Word) : (s.setCr2 w).cpu.sys.pe = s.cpu.sys.pe := rfl
@[simp] theorem State.setCr2_sys_pg (w : Word) : (s.setCr2 w).cpu.sys.pg = s.cpu.sys.pg := rfl
@[simp] theorem State.setCr2_sys_wp (w : Word) : (s.setCr2 w).cpu.sys.wp = s.cpu.sys.wp := rfl
@[simp] theorem State.setCr2_sys_cr3 (w : Word) : (s.setCr2 w).cpu.sys.cr3 = s.cpu.sys.cr3 := rfl
@[simp] theorem State.setCr2_sys_cr2 (w : Word) : (s.setCr2 w).cpu.sys.cr2 = w := rfl
@[simp] theorem State.setCr2_sys_cpl (w : Word) : (s.setCr2 w).cpu.sys.cpl = s.cpu.sys.cpl := rfl
@[simp] theorem State.setCr2_sys_tssBase (w : Word) : (s.setCr2 w).cpu.sys.tssBase = s.cpu.sys.tssBase := rfl
@[simp] theorem State.setCr2_sys_tssLimit (w : Word) : (s.setCr2 w).cpu.sys.tssLimit = s.cpu.sys.tssLimit := rfl
@[simp] theorem State.setCr2_cycles (w : Word) : (s.setCr2 w).cpu.cycles = s.cpu.cycles := rfl
@[simp] theorem State.setCr2_prefetch (w : Word) : (s.setCr2 w).cpu.prefetch = s.cpu.prefetch := rfl
@[simp] theorem State.setCr2_default32 (w : Word) : (s.setCr2 w).cpu.default32 = s.cpu.default32 := rfl
@[simp] theorem State.setCr2_mem (w : Word) : (s.setCr2 w).mem = s.mem := rfl
@[simp] theorem State.setCr2_io (w : Word) : (s.setCr2 w).io = s.io := rfl
@[simp] theorem State.setCr2_cfg (w : Word) : (s.setCr2 w).cfg = s.cfg := rfl
@[simp] theorem State.setCr2_agenda (w : Word) : (s.setCr2 w).agenda = s.agenda := rfl

/-! ### `addCycles` -/

@[simp] theorem State.addCycles_regs (n : Nat) : (s.addCycles n).cpu.regs = s.cpu.regs := rfl
@[simp] theorem State.addCycles_pc (n : Nat) : (s.addCycles n).cpu.pc = s.cpu.pc := rfl
@[simp] theorem State.addCycles_segs (n : Nat) : (s.addCycles n).cpu.segs = s.cpu.segs := rfl
@[simp] theorem State.addCycles_flags (n : Nat) : (s.addCycles n).cpu.flags = s.cpu.flags := rfl
@[simp] theorem State.addCycles_abrt (n : Nat) : (s.addCycles n).cpu.abrt = s.cpu.abrt := rfl
@[simp] theorem State.addCycles_sys (n : Nat) : (s.addCycles n).cpu.sys = s.cpu.sys := rfl
@[simp] theorem State.addCycles_cycles (n : Nat) : (s.addCycles n).cpu.cycles = s.cpu.cycles + n := rfl
@[simp] theorem State.addCycles_prefetch (n : Nat) : (s.addCycles n).cpu.prefetch = s.cpu.prefetch := rfl
@[simp] theorem State.addCycles_default32 (n : Nat) : (s.addCycles n).cpu.default32 = s.cpu.default32 := rfl
@[simp] theorem State.addCycles_mem (n : Nat) : (s.addCycles n).mem = s.mem := rfl
@[simp] theorem State.addCycles_io (n : Nat) : (s.addCycles n).io = s.io := rfl
@[simp] theorem State.addCycles_cfg (n : Nat) : (s.addCycles n).cfg = s.cfg := rfl
@[simp] theorem State.addCycles_agenda (n : Nat) : (s.addCycles n).agenda = s.agenda := rfl

/-! ### `setMem` -/

@[simp] theorem State.setMem_cpu (m : List Host.Cell) : (s.setMem m).cpu = s.cpu := rfl
@[simp] theorem State.setMem_mem (m : List Host.Cell) : (s.setMem m).mem = m := rfl
@[simp] theorem State.setMem_io (m : List Host.Cell) : (s.setMem m).io = s.io := rfl
@[simp] theorem State.setMem_cfg (m : List Host.Cell) : (s.setMem m).cfg = s.cfg := rfl
@[simp] theorem State.setMem_agenda (m : List Host.Cell) : (s.setMem m).agenda = s.agenda := rfl

/-! ### `setIo` -/

@[simp] theorem State.setIo_cpu (io : Io) : (s.setIo io).cpu = s.cpu := rfl
@[simp] theorem State.setIo_mem (io : Io) : (s.setIo io).mem = s.mem := rfl
@[simp] theorem State.setIo_io (io : Io) : (s.setIo io).io = io := rfl
@[simp] theorem State.setIo_cfg (io : Io) : (s.setIo io).cfg = s.cfg := rfl
@[simp] theorem State.setIo_agenda (io : Io) : (s.setIo io).agenda = s.agenda := rfl

/-! ### `setAgenda` -/

@[simp] theorem State.setAgenda_cpu (g : List (Option EnvEvent)) : (s.setAgenda g).cpu = s.cpu := rfl
@[simp] theorem State.setAgenda_mem (g : List (Option EnvEvent)) : (s.setAgenda g).mem = s.mem := rfl
@[simp] theorem State.setAgenda_io (g : List (Option EnvEvent)) : (s.setAgenda g).io = s.io := rfl
@[simp] theorem State.setAgenda_cfg (g : List (Option EnvEvent)) : (s.setAgenda g).cfg = s.cfg := rfl
@[simp] theorem State.setAgenda_agenda (g : List (Option EnvEvent)) : (s.setAgenda g).agenda = g := rfl

end Sys2Proof.Machine
end

