-- ==== Sys2Proof/Laws/Access.lean ====
section
/-! SUPPORT. What the shared operations over memory, ports and translation can do: for each, the fields it leaves
alone, and its value on RAM and with paging off. -/
namespace Sys2Proof.Machine

/-! ### One byte of physical memory -/

/-- A byte read changes nothing but what its device changes. -/
theorem memRead_frame (a : Word) (s : State) : (memRead a s).2 = s.setIo (memRead a s).2.io := by
  unfold memRead
  split <;> rfl

@[simp] theorem memRead_cpu (a : Word) (s : State) : (memRead a s).2.cpu = s.cpu := by rw [memRead_frame]; rfl
@[simp] theorem memRead_mem (a : Word) (s : State) : (memRead a s).2.mem = s.mem := by rw [memRead_frame]; rfl
@[simp] theorem memRead_cfg (a : Word) (s : State) : (memRead a s).2.cfg = s.cfg := by rw [memRead_frame]; rfl
@[simp] theorem memRead_agenda (a : Word) (s : State) : (memRead a s).2.agenda = s.agenda := by
  rw [memRead_frame]; rfl

theorem memRead_ram {a : Word} {s : State} (h : physTarget s.cfg a = .ram) : memRead a s = (ramByte s a, s) := by
  simp [memRead, h, ramByte]

/-- A byte write changes RAM at that address, or what its device changes. -/
theorem memWrite_frame (a : Word) (b : Byte) (s : State) :
    memWrite a b s = (s.setMem (memWrite a b s).mem).setIo (memWrite a b s).io := by
  unfold memWrite
  split <;> rfl

@[simp] theorem memWrite_cpu (a : Word) (b : Byte) (s : State) : (memWrite a b s).cpu = s.cpu := by
  rw [memWrite_frame]; rfl
@[simp] theorem memWrite_cfg (a : Word) (b : Byte) (s : State) : (memWrite a b s).cfg = s.cfg := by
  rw [memWrite_frame]; rfl
@[simp] theorem memWrite_agenda (a : Word) (b : Byte) (s : State) : (memWrite a b s).agenda = s.agenda := by
  rw [memWrite_frame]; rfl

theorem memWrite_ram {a : Word} {b : Byte} {s : State} (h : physTarget s.cfg a = .ram) :
    memWrite a b s = s.setMem (Memory.write s.mem a.toNat b) := by
  simp [memWrite, h]

theorem memWrite_mem_cases (a : Word) (b : Byte) (s : State) :
    (memWrite a b s).mem = s.mem ∨ (memWrite a b s).mem = Memory.write s.mem a.toNat b := by
  unfold memWrite
  split <;> simp

theorem memWrite_wf (a : Word) (b : Byte) {s : State} (h : Memory.wf s.mem = true) :
    Memory.wf (memWrite a b s).mem = true := by
  rcases memWrite_mem_cases a b s with e | e <;> rw [e]
  · exact h
  · exact Memory.write_wf h _ _

theorem memWrite_other {a : Word} {c : Nat} (h : c ≠ a.toNat) (b : Byte) (s : State) :
    Memory.read (memWrite a b s).mem c = Memory.read s.mem c := by
  rcases memWrite_mem_cases a b s with e | e <;> rw [e]
  exact Memory.read_write_other h b s.mem

/-! ### Elements -/

theorem readBytes_frame (ps : List Word) (s : State) :
    (readBytes ps s).2 = s.setIo (readBytes ps s).2.io := by
  induction ps generalizing s with
  | nil => rfl
  | cons p ps ih =>
    simp only [readBytes]
    rw [ih, memRead_frame]; rfl

theorem readElem_frame (ps : List Word) (s : State) : (readElem ps s).2 = s.setIo (readElem ps s).2.io :=
  readBytes_frame ps s

@[simp] theorem readElem_cpu (ps : List Word) (s : State) : (readElem ps s).2.cpu = s.cpu := by
  rw [readElem_frame]; rfl
@[simp] theorem readElem_mem (ps : List Word) (s : State) : (readElem ps s).2.mem = s.mem := by
  rw [readElem_frame]; rfl
@[simp] theorem readElem_cfg (ps : List Word) (s : State) : (readElem ps s).2.cfg = s.cfg := by
  rw [readElem_frame]; rfl
@[simp] theorem readElem_agenda (ps : List Word) (s : State) : (readElem ps s).2.agenda = s.agenda := by
  rw [readElem_frame]; rfl

theorem readBytes_ram {ps : List Word} {s : State} (h : ∀ p ∈ ps, physTarget s.cfg p = .ram) :
    readBytes ps s = (ps.map (ramByte s), s) := by
  induction ps with
  | nil => rfl
  | cons p ps ih =>
    simp only [readBytes, memRead_ram (h p (List.mem_cons_self ..)), ih fun q hq => h q (List.mem_cons_of_mem _ hq),
      List.map_cons]

theorem readElem_ram {ps : List Word} {s : State} (h : ∀ p ∈ ps, physTarget s.cfg p = .ram) :
    readElem ps s = (leValue (ps.map (ramByte s)), s) := by
  simp [readElem, readBytes_ram h]

theorem writeElem_frame (ps : List Word) (v : Word) (s : State) :
    writeElem ps v s = (s.setMem (writeElem ps v s).mem).setIo (writeElem ps v s).io := by
  induction ps generalizing v s with
  | nil => rfl
  | cons p ps ih =>
    simp only [writeElem]
    rw [ih, memWrite_frame]; rfl

@[simp] theorem writeElem_cpu (ps : List Word) (v : Word) (s : State) : (writeElem ps v s).cpu = s.cpu := by
  rw [writeElem_frame]; rfl
@[simp] theorem writeElem_cfg (ps : List Word) (v : Word) (s : State) : (writeElem ps v s).cfg = s.cfg := by
  rw [writeElem_frame]; rfl
@[simp] theorem writeElem_agenda (ps : List Word) (v : Word) (s : State) :
    (writeElem ps v s).agenda = s.agenda := by
  rw [writeElem_frame]; rfl

theorem writeElem_wf (ps : List Word) (v : Word) {s : State} (h : Memory.wf s.mem = true) :
    Memory.wf (writeElem ps v s).mem = true := by
  induction ps generalizing v s with
  | nil => exact h
  | cons p ps ih => exact ih _ (memWrite_wf _ _ h)

/-- An element write leaves every byte of RAM outside its addresses alone. -/
theorem writeElem_other {ps : List Word} {c : Nat} (h : ∀ p ∈ ps, c ≠ p.toNat) (v : Word) (s : State) :
    Memory.read (writeElem ps v s).mem c = Memory.read s.mem c := by
  induction ps generalizing v s with
  | nil => rfl
  | cons p ps ih =>
    rw [writeElem, ih (fun q hq => h q (List.mem_cons_of_mem _ hq)),
      memWrite_other (h p (List.mem_cons_self ..))]

theorem writeElem_ram_io {ps : List Word} {v : Word} {s : State} (h : ∀ p ∈ ps, physTarget s.cfg p = .ram) :
    (writeElem ps v s).io = s.io := by
  induction ps generalizing v s with
  | nil => rfl
  | cons p ps ih =>
    rw [writeElem, ih, memWrite_ram (h p (List.mem_cons_self ..))]
    · rfl
    · intro q hq
      rw [memWrite_cfg]
      exact h q (List.mem_cons_of_mem _ hq)

/-- An element written to RAM is read back byte by byte. -/
theorem writeElem_ram_read {ps : List Word} {v : Word} {s : State} (h : ∀ p ∈ ps, physTarget s.cfg p = .ram)
    (hw : Memory.wf s.mem = true) (hd : ps.Nodup) {k : Nat} (hk : k < ps.length) :
    Memory.read (writeElem ps v s).mem (ps[k]).toNat = byteOf v k := by
  induction ps generalizing v s k with
  | nil => simp at hk
  | cons p ps ih =>
    have hp := h p (List.mem_cons_self ..)
    have hrest : ∀ q ∈ ps, physTarget (memWrite p (v.setWidth 8) s).cfg q = .ram := by
      intro q hq
      rw [memWrite_cfg]
      exact h q (List.mem_cons_of_mem _ hq)
    rw [List.nodup_cons] at hd
    cases k with
    | zero =>
      simp only [writeElem, List.getElem_cons_zero]
      rw [writeElem_other, memWrite_ram hp]
      · simp only [State.setMem_mem]
        rw [Memory.read_write_same hw]
        simp [byteOf]
      · intro q hq e
        exact hd.1 (by rw [BitVec.eq_of_toNat_eq e]; exact hq)
    | succ k =>
      simp only [writeElem, List.getElem_cons_succ]
      rw [ih hrest (memWrite_wf _ _ hw) hd.2 (by simpa using hk)]
      simp only [byteOf]
      rw [← BitVec.shiftRight_add]
      congr 2
      omega

/-! ### Ports -/

theorem portRead8_frame (p : Half) (s : State) : (portRead8 p s).2 = s.setIo (portRead8 p s).2.io := by
  unfold portRead8
  split
  · rfl
  · split <;> rfl

theorem portWrite8_frame (p : Half) (b : Byte) (s : State) :
    portWrite8 p b s = s.setIo (portWrite8 p b s).io := by
  unfold portWrite8
  split
  · rfl
  · split <;> rfl

theorem portReadBytes_frame (n : Nat) (p : Half) (s : State) :
    (portReadBytes n p s).2 = s.setIo (portReadBytes n p s).2.io := by
  induction n generalizing p s with
  | zero => rfl
  | succ n ih =>
    simp only [portReadBytes]
    rw [ih, portRead8_frame]; rfl

theorem portIn_frame (p : Half) (z : Size) (s : State) : (portIn p z s).2 = s.setIo (portIn p z s).2.io :=
  portReadBytes_frame _ _ _

theorem portWriteBytes_frame (n : Nat) (p : Half) (v : Word) (s : State) :
    portWriteBytes n p v s = s.setIo (portWriteBytes n p v s).io := by
  induction n generalizing p v s with
  | zero => rfl
  | succ n ih =>
    simp only [portWriteBytes]
    rw [ih, portWrite8_frame]; rfl

theorem portOut_frame (p : Half) (z : Size) (v : Word) (s : State) :
    portOut p z v s = s.setIo (portOut p z v s).io := portWriteBytes_frame _ _ _ _

@[simp] theorem portIn_cpu (p : Half) (z : Size) (s : State) : (portIn p z s).2.cpu = s.cpu := by
  rw [portIn_frame]; rfl
@[simp] theorem portIn_mem (p : Half) (z : Size) (s : State) : (portIn p z s).2.mem = s.mem := by
  rw [portIn_frame]; rfl
@[simp] theorem portIn_cfg (p : Half) (z : Size) (s : State) : (portIn p z s).2.cfg = s.cfg := by
  rw [portIn_frame]; rfl
@[simp] theorem portIn_agenda (p : Half) (z : Size) (s : State) : (portIn p z s).2.agenda = s.agenda := by
  rw [portIn_frame]; rfl
@[simp] theorem portOut_cpu (p : Half) (z : Size) (v : Word) (s : State) : (portOut p z v s).cpu = s.cpu := by
  rw [portOut_frame]; rfl
@[simp] theorem portOut_mem (p : Half) (z : Size) (v : Word) (s : State) : (portOut p z v s).mem = s.mem := by
  rw [portOut_frame]; rfl
@[simp] theorem portOut_cfg (p : Half) (z : Size) (v : Word) (s : State) : (portOut p z v s).cfg = s.cfg := by
  rw [portOut_frame]; rfl
@[simp] theorem portOut_agenda (p : Half) (z : Size) (v : Word) (s : State) :
    (portOut p z v s).agenda = s.agenda := by
  rw [portOut_frame]; rfl

/-! ### The abort check -/

@[simp] theorem Res.bind_ok {α β : Type} (a : α) (s : State) (f : α → State → Res β) :
    (Res.ok a s).bind f = f a s := rfl
@[simp] theorem Res.bind_abort {α β : Type} (k : Abort) (s : State) (f : α → State → Res β) :
    (Res.abort k s).bind f = .abort k s := rfl

theorem checkAbort_none {s : State} (h : s.cpu.abrt = none) : checkAbort s = .ok () s := by
  simp [checkAbort, h]

/-! ### Segmentation -/

/-- The segment check passes exactly when the access is allowed. -/
theorem segCheck_eq_none {seg : SegReg} {d : SegDesc} {off : Word} {n : Nat} {kind : AccessKind} (hn : 0 < n) :
    segCheck seg d off n kind = none ↔ SegAllows d off n kind := by
  unfold segCheck SegAllows
  constructor
  · intro h
    split at h
    · simp at h
    · split at h
      · simp at h
      · split at h
        · simp at h
        · dsimp only at h
          split at h
          · simp at h
          · next h1 h2 h3 h4 =>
            simp only [not_or, BitVec.not_lt, BitVec.le_def] at h4
            exact ⟨by simpa using h1, fun hk => by simpa [hk] using h2, fun hk => by simpa [hk] using h3,
              by omega, h4.2.1, by omega⟩
  · rintro ⟨h1, h2, h3, h4, h5, h6⟩
    rw [if_neg (by simp [h1]), if_neg (by rintro ⟨a, b⟩; simp [h2 a] at b), if_neg (by rintro ⟨a, b⟩; simp [h3 a] at b)]
    dsimp only
    rw [if_neg]
    simp only [not_or, BitVec.not_lt, BitVec.le_def]
    omega

/-! ### Translation with paging off -/

theorem pageTranslate_off (sys : Sys) (h : sys.pg = false) (lin : Word) (kind : AccessKind) (s : State) :
    pageTranslate sys lin kind s = .ok lin s := by
  unfold pageTranslate
  split <;> simp [pageTranslateI386, pageTranslateFree, h]

@[simp] theorem keepDraws_cpu (s t : State) : (keepDraws s t).cpu = s.cpu := rfl
@[simp] theorem keepDraws_mem (s t : State) : (keepDraws s t).mem = s.mem := rfl
@[simp] theorem keepDraws_cfg (s t : State) : (keepDraws s t).cfg = s.cfg := rfl
@[simp] theorem keepDraws_agenda (s t : State) : (keepDraws s t).agenda = s.agenda := rfl
@[simp] theorem keepDraws_self (s : State) : keepDraws s s = s := rfl

/-- With paging off a byte of the task state segment is a physical read that leaves nothing but its draws. -/
theorem sysByte_off (lin : Word) {s : State} (h : PagingOff s) :
    sysByte lin s = .ok (memRead lin s).1 (keepDraws s (memRead lin s).2) := by
  unfold sysByte
  rw [pageTranslate_off _ (by exact h)]

/-- The addresses of the bytes `i, i + 1, …` of an element. -/
def elemAddrs (d : SegDesc) (off : Word) (n i : Nat) : List Word :=
  (List.range' i n).map (linearAddr d off)

theorem translateFrom_off (d : SegDesc) (off : Word) (kind : AccessKind) (n i : Nat) {s : State} (h : PagingOff s) :
    translateFrom d off kind n i s = .ok (elemAddrs d off n i) s := by
  induction n generalizing i with
  | zero => rfl
  | succ n ih =>
    simp only [translateFrom]
    rw [pageTranslate_off _ h, Res.bind_ok, ih, Res.bind_ok]
    rfl

/-- With paging off, translation is the segment check and the identity. -/
theorem preTranslate_off (seg : SegReg) (off : Word) (n : Nat) (kind : AccessKind) {s : State} (h : PagingOff s) :
    preTranslate seg off n kind s = match segCheck seg (s.cpu.segs.get seg) off n kind with
      | some k => .abort k s
      | none => .ok (elemAddrs (s.cpu.segs.get seg) off n 0) s := by
  cases hs : segCheck seg (s.cpu.segs.get seg) off n kind <;>
    simp [preTranslate, hs, translateFrom_off _ _ _ _ _ h]

theorem elemAddrs_ram {s : State} {seg : SegReg} {off : Word} {n : Nat}
    (h : ∀ k, k < n → physTarget s.cfg (byteAddr s seg off k) = .ram) :
    ∀ p ∈ elemAddrs (s.cpu.segs.get seg) off n 0, physTarget s.cfg p = .ram := by
  intro p hp
  simp only [elemAddrs, List.mem_map, List.mem_range'_1] at hp
  obtain ⟨k, hk, rfl⟩ := hp
  exact h k (by omega)

@[simp] theorem elemAddrs_length (d : SegDesc) (off : Word) (n i : Nat) : (elemAddrs d off n i).length = n := by
  simp [elemAddrs]

theorem elemAddrs_getElem (d : SegDesc) (off : Word) (n : Nat) {k : Nat} (hk : k < (elemAddrs d off n 0).length) :
    (elemAddrs d off n 0)[k] = linearAddr d off k := by
  simp [elemAddrs]

theorem linearAddr_inj {d : SegDesc} {off : Word} {j k : Nat} (hj : j < 4) (hk : k < 4)
    (h : linearAddr d off j = linearAddr d off k) : j = k := by
  simp only [linearAddr] at h
  have := congrArg BitVec.toNat (add_left_cancel h)
  simp only [BitVec.toNat_ofNat] at this
  omega

theorem elemAddrs_nodup (d : SegDesc) (off : Word) {n : Nat} (hn : n ≤ 4) : (elemAddrs d off n 0).Nodup := by
  unfold elemAddrs
  refine List.Nodup.map_on ?_ List.nodup_range'
  intro j hj k hk h
  simp only [List.mem_range'_1] at hj hk
  exact linearAddr_inj (by omega) (by omega) h

theorem leValue_elemAddrs (s : State) (seg : SegReg) (off : Word) (n : Nat) :
    leValue ((elemAddrs (s.cpu.segs.get seg) off n 0).map (ramByte s)) = ramElem s seg off n := by
  simp only [elemAddrs, ramElem, List.map_map, List.range_eq_range']
  rfl

theorem Size.bytes_pos (z : Size) : 0 < z.bytes := by cases z <;> decide
theorem Size.bytes_le (z : Size) : z.bytes ≤ 4 := by cases z <;> decide

end Sys2Proof.Machine
end

