-- ==== Sys2Proof/Laws/Bus.lean ====
section
/-! SUPPORT. What a bus update can touch: the phase machine's own fields and the device table, and nothing of the
host registers or the bridge. -/
namespace Sys2Proof.Machine

/-- The fields of the SCSI core that only the host's accesses and the pump write. -/
def Ncr.host (n : Ncr) : DmaMode × List Byte × Bool :=
  (n.dmaMode, [n.outputData, n.icr, n.mode, n.tcr, n.ser, n.isr], n.irqState)

/-- The two records agree outside the phase machine's fields and the device table. -/
structure BusFrame (io io' : Io) : Prop where
  outside : { io' with ncr := io.ncr, scsiDevices := io.scsiDevices } = io
  host : io'.ncr.host = io.ncr.host

theorem BusFrame.refl (io : Io) : BusFrame io io := ⟨rfl, rfl⟩

theorem BusFrame.trans {a b c : Io} (h : BusFrame a b) (k : BusFrame b c) : BusFrame a c := by
  refine ⟨?_, k.host.trans h.host⟩
  rw [← h.outside, ← k.outside]

section
variable {io io' : Io}
theorem BusFrame.bridge (h : BusFrame io io') : io'.bridge = io.bridge := by rw [← h.outside]
theorem BusFrame.outputs (h : BusFrame io io') : io'.outputs = io.outputs := by rw [← h.outside]
theorem BusFrame.inputs (h : BusFrame io io') : io'.inputs = io.inputs := by rw [← h.outside]
theorem BusFrame.delays (h : BusFrame io io') : io'.delays = io.delays := by rw [← h.outside]
theorem BusFrame.drawn (h : BusFrame io io') : io'.drawn = io.drawn := by rw [← h.outside]
theorem BusFrame.dmaMode (h : BusFrame io io') : io'.ncr.dmaMode = io.ncr.dmaMode :=
  congrArg (fun x => x.1) h.host
theorem BusFrame.irqState (h : BusFrame io io') : io'.ncr.irqState = io.ncr.irqState :=
  congrArg (fun x => x.2.2) h.host
theorem BusFrame.regs (h : BusFrame io io') : io'.ncr.outputData = io.ncr.outputData ∧ io'.ncr.icr = io.ncr.icr ∧
    io'.ncr.mode = io.ncr.mode ∧ io'.ncr.tcr = io.ncr.tcr ∧ io'.ncr.ser = io.ncr.ser ∧
    io'.ncr.isr = io.ncr.isr := by
  simpa [Ncr.host] using congrArg (fun x => x.2.1) h.host
end

/-- A change of the phase machine's fields alone. -/
theorem BusFrame.mapNcr {f : Ncr → Ncr} {io : Io} (h : (f io.ncr).host = io.ncr.host) :
    BusFrame io (io.mapNcr f) := ⟨rfl, h⟩

theorem modifySelected_ncr (cfg : Cfg) (f : Fin 8 → Device → Device) (io : Io) :
    (modifySelected cfg f io).ncr = io.ncr := by
  unfold modifySelected
  split <;> rfl

theorem modifySelected_frame (cfg : Cfg) (f : Fin 8 → Device → Device) (io : Io) :
    BusFrame io (modifySelected cfg f io) := by
  unfold modifySelected
  split <;> exact ⟨rfl, rfl⟩

/-! ### The device table -/

/-- The selected device after a change of it, where the table holds its bus. -/
theorem deviceAt_setDeviceAt {cfg : Cfg} {io : Io} {id : Fin 8} {d : Device}
    (h : cfg.scsiBus < io.scsiDevices.length) : deviceAt cfg (setDeviceAt cfg io id d) id = d := by
  simp [deviceAt, setDeviceAt, h, Vector.get_eq_getElem]

/-- A device that is present stands in the table. -/
theorem bus_lt_of_present {cfg : Cfg} {io : Io} {id : Fin 8} (h : (deviceAt cfg io id).present = true) :
    cfg.scsiBus < io.scsiDevices.length := by
  by_contra hn
  rw [deviceAt, List.getElem?_eq_none (by omega)] at h
  simp [Device.absent] at h

theorem selected_some {cfg : Cfg} {io : Io} {id : Fin 8} (h : io.ncr.targetId = some id) :
    selected cfg io = some (deviceAt cfg io id) := by
  simp [selected, h]

@[simp] theorem selected_mapNcr {cfg : Cfg} {io : Io} {f : Ncr → Ncr}
    (h : (f io.ncr).targetId = io.ncr.targetId) : selected cfg (io.mapNcr f) = selected cfg io := by
  simp only [selected, Io.mapNcr, h]
  rfl

/-- The selected device's change, when a target is selected and the table holds its bus; with no row, there is no
device to change. -/
theorem selected_modifySelected {cfg : Cfg} {io : Io} {id : Fin 8} (f : Fin 8 → Device → Device)
    (h : io.ncr.targetId = some id) (hb : cfg.scsiBus < io.scsiDevices.length) :
    selected cfg (modifySelected cfg f io) = some (f id (deviceAt cfg io id)) := by
  have ht : (modifySelected cfg f io).ncr.targetId = some id := by rw [modifySelected_ncr, h]
  rw [selected_some ht]
  simp only [modifySelected, h]
  rw [deviceAt_setDeviceAt hb]

/-- A device procedure that keeps the buffer's length keeps `dev.buffer_length`. -/
theorem devBufferLength_modifySelected {cfg : Cfg} {io : Io} {f : Fin 8 → Device → Device}
    (h : ∀ id d, (f id d).buffer.length = d.buffer.length) :
    devBufferLength cfg (modifySelected cfg f io) = devBufferLength cfg io := by
  cases ht : io.ncr.targetId with
  | none => simp [modifySelected, ht]
  | some id =>
    by_cases hb : cfg.scsiBus < io.scsiDevices.length
    · simp only [devBufferLength, selected_modifySelected f ht hb, selected_some ht, h]
    · simp only [modifySelected, ht]
      have : setDeviceAt cfg io id (f id (deviceAt cfg io id)) = io := by
        simp only [setDeviceAt]
        rw [List.modify_eq_self (by omega)]
      rw [this]

/-! ### The whole update -/

theorem phaseEntry_frame (cfg : Cfg) (io : Io) : BusFrame io (phaseEntry cfg io) := by
  unfold phaseEntry
  split
  · exact .mapNcr rfl
  · extract_lets io1 p v io2
    have h1 : BusFrame io io1 := .mapNcr rfl
    have h2 : BusFrame io1 io2 := by
      simp only [io2]
      split <;> first | exact .mapNcr rfl | exact .refl _
    refine h1.trans (h2.trans ?_)
    split
    · exact .mapNcr (f := Ncr.raiseReqLine) rfl
    · exact .refl _

theorem tick_frame (cfg : Cfg) (io : Io) : BusFrame io (tick cfg io) := by
  have h1 : BusFrame io (io.mapNcr tickClearReq) := by
    refine .mapNcr ?_
    unfold tickClearReq
    split
    · split <;> rfl
    · rfl
  have h2 (io : Io) : BusFrame io (tickWaitData cfg io) := by
    unfold tickWaitData
    split
    · split
      · exact .trans (b := io.mapNcr fun n => { n with waitData := 0 }) (.mapNcr rfl) (phaseEntry_frame cfg _)
      · exact .mapNcr rfl
    · exact .refl _
  have h3 (io : Io) : BusFrame io (io.mapNcr tickWaitComplete) := by
    refine .mapNcr ?_
    unfold tickWaitComplete
    split
    · split
      · split <;> rfl
      · rfl
    · rfl
  exact h1.trans ((h2 _).trans (h3 _))

theorem finishData_frame (cfg : Cfg) (io : Io) : BusFrame io (finishData cfg io) :=
  .trans (b := io.mapNcr Ncr.clearReqLine) (.mapNcr rfl) (.trans (modifySelected_frame cfg _ _) (.mapNcr rfl))

theorem nextDataReq_host (cfg : Cfg) (p : Word) (n : Ncr) : (nextDataReq cfg p n).host = n.host := by
  unfold nextDataReq
  split <;> rfl

theorem dispatchIdle_frame (cfg : Cfg) (bus : Word) (io : Io) : BusFrame io (dispatchIdle cfg bus io) := by
  unfold dispatchIdle
  extract_lets io1 io2
  have h1 : BusFrame io io1 := .mapNcr rfl
  have h2 : BusFrame io1 io2 := .mapNcr rfl
  refine h1.trans ?_
  split
  · refine h2.trans ?_
    split <;> exact .mapNcr rfl
  · exact .refl _

theorem dispatchSelect_frame (cfg : Cfg) (bus : Word) (io : Io) : BusFrame io (dispatchSelect cfg bus io) := by
  unfold dispatchSelect
  split
  · exact .refl _
  · split
    · exact .mapNcr rfl
    · split <;> exact .mapNcr rfl

theorem dispatchCommand_frame (cfg : Cfg) (bus : Word) (io : Io) : BusFrame io (dispatchCommand cfg bus io) := by
  unfold dispatchCommand
  split
  · extract_lets io1 io2 io3
    have h1 : BusFrame io io1 := .mapNcr rfl
    have h2 : BusFrame io1 io2 := .mapNcr rfl
    have h3 : BusFrame io2 io3 := modifySelected_frame cfg _ _
    refine h1.trans ?_
    split
    · exact h2.trans (h3.trans (.mapNcr rfl))
    · exact .mapNcr rfl
  · exact .refl _

theorem dispatchDataIn_frame (cfg : Cfg) (bus : Word) (io : Io) : BusFrame io (dispatchDataIn cfg bus io) := by
  unfold dispatchDataIn
  split
  · split
    · exact finishData_frame cfg io
    · exact .mapNcr (nextDataReq_host ..)
  · exact .refl _

theorem dispatchDataOut_frame (cfg : Cfg) (bus : Word) (io : Io) : BusFrame io (dispatchDataOut cfg bus io) := by
  unfold dispatchDataOut
  split
  · extract_lets io1
    have h1 : BusFrame io io1 := .trans (modifySelected_frame cfg _ io) (.mapNcr rfl)
    refine h1.trans ?_
    split
    · exact finishData_frame cfg _
    · exact .mapNcr (nextDataReq_host ..)
  · exact .refl _

theorem dispatchStatus_frame (cfg : Cfg) (bus : Word) (io : Io) : BusFrame io (dispatchStatus cfg bus io) := by
  unfold dispatchStatus
  split
  · exact .trans (modifySelected_frame cfg _ io) (.mapNcr rfl)
  · exact .refl _

theorem dispatchMessageIn_frame (cfg : Cfg) (bus : Word) (io : Io) :
    BusFrame io (dispatchMessageIn cfg bus io) := by
  unfold dispatchMessageIn
  split
  · exact .mapNcr rfl
  · exact .refl _

theorem dispatchMessageOut_frame (cfg : Cfg) (bus : Word) (io : Io) :
    BusFrame io (dispatchMessageOut cfg bus io) := by
  unfold dispatchMessageOut
  split
  · refine .mapNcr ?_
    extract_lets n m0
    split <;> rfl
  · exact .refl _

theorem dispatchMessageId_frame (cfg : Cfg) (io : Io) : BusFrame io (dispatchMessageId cfg io) := by
  unfold dispatchMessageId
  split
  · exact .trans (modifySelected_frame cfg _ io) (.mapNcr rfl)
  · exact .refl _

theorem dispatch_frame (cfg : Cfg) (bus : Word) (io : Io) : BusFrame io (dispatch cfg bus io) := by
  unfold dispatch
  split
  · exact dispatchIdle_frame ..
  · exact dispatchSelect_frame ..
  · exact dispatchCommand_frame ..
  · exact dispatchDataIn_frame ..
  · exact dispatchDataOut_frame ..
  · exact dispatchStatus_frame ..
  · exact dispatchMessageIn_frame ..
  · exact dispatchMessageOut_frame ..
  · exact dispatchMessageId_frame ..

/-- A bus update leaves the host registers, the DMA mode, the bridge and the outputs alone. -/
theorem busUpdate_frame (cfg : Cfg) (bus : Word) (io : Io) : BusFrame io (busUpdate cfg bus io) := by
  unfold busUpdate
  extract_lets io1
  refine .trans (b := io1) ?_ (.mapNcr rfl)
  simp only [io1]
  split
  · exact .mapNcr rfl
  · exact .trans (tick_frame cfg io) (dispatch_frame cfg bus _)

theorem hostBus_frame {io io' : Io} (h : BusFrame io io') : hostBus io'.ncr = hostBus io.ncr := by
  obtain ⟨h1, h2, h3, h4, -, -⟩ := h.regs
  simp only [hostBus, h1, h2, h3, h4]

/-- With every countdown at 0, time does not pass. -/
theorem tick_quiet {cfg : Cfg} {io : Io} (h1 : io.ncr.waitData = 0) (h2 : io.ncr.clearReq = 0)
    (h3 : io.ncr.waitComplete = 0) : tick cfg io = io := by
  have e1 : tickClearReq io.ncr = io.ncr := by simp [tickClearReq, h2]
  have e3 : tickWaitComplete io.ncr = io.ncr := by simp [tickWaitComplete, h3]
  have e : io.mapNcr tickClearReq = io := by simp [Io.mapNcr, e1]
  rw [tick, e]
  have e2 : tickWaitData cfg io = io := by simp [tickWaitData, h1]
  rw [e2]
  simp [Io.mapNcr, e3]

/-- Without ARB and with every countdown at 0, an update is the rule of the state. -/
theorem busUpdate_quiet {cfg : Cfg} {bus : Word} {io : Io} (ha : hasLine bus busArb = false)
    (h1 : io.ncr.waitData = 0) (h2 : io.ncr.clearReq = 0) (h3 : io.ncr.waitComplete = 0) :
    busUpdate cfg bus io = (dispatch cfg bus io).mapNcr fun n => { n with busIn := bus } := by
  simp only [busUpdate, ha, tick_quiet h1 h2 h3]
  rfl

/-- A line of one bit is set exactly when that bit is. -/
theorem hasLine_bit (b : Word) (k : Nat) (h : k < 32) : hasLine b (1#32 <<< k) = b.getLsbD k := by
  have e : 1#32 <<< k = BitVec.twoPow 32 k := (BitVec.twoPow_eq 32 k).symm
  rw [Bool.eq_iff_iff, hasLine, decide_eq_true_eq, e, BitVec.and_twoPow]
  cases hb : b.getLsbD k
  · simp
  · simp only [if_true, iff_true, ne_eq]
    intro h0
    have := congrArg (fun x => x.getLsbD k) h0
    simp [h] at this

/-- The edge the states test is the edge of R253. -/
theorem ackRise_iff (bus : Word) (n : Ncr) : n.ackRise bus = true ↔ AckEdge bus n := by
  have h1 : hasLine bus busAck = bus.getLsbD 9 := hasLine_bit bus 9 (by decide)
  have h2 : hasLine n.busIn busAck = n.busIn.getLsbD 9 := hasLine_bit n.busIn 9 (by decide)
  have h3 : hasLine n.curBus busReq = n.curBus.getLsbD 5 := hasLine_bit n.curBus 5 (by decide)
  simp [Ncr.ackRise, AckEdge, h1, h2, h3, and_assoc]

/-- While REQ is asserted no countdown runs, but for the last of the invariant's states. -/
theorem ackRise_quiet {cfg : Cfg} {io : Io} (hi : BusInv cfg io) (hr : hasLine io.ncr.curBus busReq = true) :
    io.ncr.waitData = 0 ∧ io.ncr.clearReq = 0 := by
  obtain ⟨-, ⟨-, -, hc, hw⟩, -⟩ := hi
  constructor
  · by_contra hn
    simp [(hw (by omega)).1] at hr
  · by_contra hn
    simp [(hc (by omega)).2.2.1] at hr

end Sys2Proof.Machine
end

