-- ==== Sys2Proof/Laws/Decode.lean ====
section
/-! SUPPORT. The small facts of the encoding tables: the bytes of prefixes and opcodes, the prefix scan, and an
instruction as its prefixes around its handler. -/
namespace Sys2Proof

theorem Pfx.ofByte_code (p : Pfx) : Pfx.ofByte? p.code = some p := by cases p <;> rfl

theorem Pfx.eq_code_of_ofByte {b : Byte} {p : Pfx} (h : Pfx.ofByte? b = some p) : b = p.code := by
  revert h
  revert b p
  decide +revert

theorem ofByte_opcodeByte (f : Family) (z : Size) : Pfx.ofByte? (opcodeByte f z) = none := by
  cases f <;> cases z <;> rfl

theorem opcodeOf_opcodeByte (f : Family) (z : Size) :
    opcodeOf? (opcodeByte f z) = some (f, decide (z ≠ .byte)) := by
  cases f <;> cases z <;> rfl

/-- The opcode byte of a family, its width bit in bit 0. -/
theorem opcodeOf_some {b : Byte} {f : Family} {w : Bool} (h : opcodeOf? b = some (f, w)) :
    (∀ z : Size, decide (z ≠ .byte) = w → b = opcodeByte f z) ∧ b.getLsbD 0 = w := by
  have chk : ∀ b : Byte, (opcodeOf? b).all (fun x =>
      decide (b = opcodeByte x.1 (if x.2 then .word else .byte)) &&
      decide (b = opcodeByte x.1 (if x.2 then .dword else .byte)) && (b.getLsbD 0 == x.2)) = true := by
    decide +revert
  have := chk b
  rw [h] at this
  simp only [Option.all_some, Bool.and_eq_true, decide_eq_true_eq, beq_iff_eq] at this
  refine ⟨fun z hz => ?_, this.2⟩
  subst hz
  cases z
  · exact this.1.1
  · exact this.1.1
  · exact this.1.2

/-- The scan of a written-out prefix list stops at the opcode byte. -/
theorem scanPrefixes_map (ps : List Pfx) (op : Byte) (rest : List Byte) (h : Pfx.ofByte? op = none) :
    scanPrefixes (ps.map Pfx.code ++ op :: rest) = (ps, op :: rest) := by
  induction ps with
  | nil => simp [scanPrefixes, h]
  | cons p ps ih => simp [scanPrefixes, Pfx.ofByte_code, ih]

/-- The scan splits its bytes, and what follows the prefixes begins with no prefix. -/
theorem scanPrefixes_split (bs : List Byte) :
    bs = (scanPrefixes bs).1.map Pfx.code ++ (scanPrefixes bs).2 ∧
    (∀ op rest, (scanPrefixes bs).2 = op :: rest → Pfx.ofByte? op = none) := by
  induction bs with
  | nil => simp [scanPrefixes]
  | cons b bs ih =>
    simp only [scanPrefixes]
    split
    · next p hp =>
      refine ⟨?_, ih.2⟩
      simp only [List.map_cons, List.cons_append, ← Pfx.eq_code_of_ofByte hp, List.cons.injEq, true_and]
      exact ih.1
    · next hp =>
      refine ⟨rfl, ?_⟩
      rintro op rest h
      cases h
      exact hp

theorem Pfx.wrap_prefixes (p : Pfx) (i : Instr) : (p.wrap i).prefixes = p :: i.prefixes := by cases p <;> rfl
theorem Pfx.wrap_handler (p : Pfx) (i : Instr) : (p.wrap i).handler = i.handler := by cases p <;> rfl

theorem Handler.toInstr_prefixes (h : Handler) : h.toInstr.prefixes = [] := by
  rcases h with ⟨f, z, a⟩
  cases f <;> cases z <;> cases a <;> rfl

theorem Handler.toInstr_handler (h : Handler) : h.toInstr.handler = h := by
  rcases h with ⟨f, z, a⟩
  cases f <;> cases z <;> cases a <;> rfl

/-- An instruction is its handler inside its prefixes. -/
theorem Instr.wrap_rebuild (i : Instr) : i.prefixes.foldr Pfx.wrap i.handler.toInstr = i := by
  induction i <;> simp_all [Instr.prefixes, Instr.handler, Handler.toInstr, Pfx.wrap]

theorem foldr_wrap_prefixes (ps : List Pfx) (h : Handler) : (ps.foldr Pfx.wrap h.toInstr).prefixes = ps := by
  induction ps <;> simp_all [Handler.toInstr_prefixes, Pfx.wrap_prefixes]

theorem foldr_wrap_handler (ps : List Pfx) (h : Handler) : (ps.foldr Pfx.wrap h.toInstr).handler = h := by
  induction ps <;> simp_all [Handler.toInstr_handler, Pfx.wrap_handler]

theorem prefixes_le_of_good {ps : List Pfx} {f : Family} (h : badPrefixes ps f = false) : ps.length ≤ 4 := by
  simp only [badPrefixes, Bool.or_eq_false_iff, decide_eq_false_iff_not] at h
  omega

/-- What the decoder accepts: prefixes, an opcode byte of the fourteen, and the sizes they select. -/
theorem decode_ok {d32 : Bool} {bs rest : List Byte} {i : Instr} (h : decode d32 bs = .ok (i, rest)) :
    ∃ ps op f w, bs = ps.map Pfx.code ++ op :: rest ∧ opcodeOf? op = some (f, w) ∧ badPrefixes ps f = false ∧
      i.prefixes = ps ∧ i.handler =
        ⟨f, operandSize d32 (decide (.opSize ∈ ps)) w, addressSize d32 (decide (.addrSize ∈ ps))⟩ := by
  unfold decode at h
  dsimp only at h
  split at h
  · cases h
  · split at h
    · cases h
    · next op rest' hr =>
      split at h
      · cases h
      · next f w ho =>
        split at h
        · cases h
        · next hb =>
          cases h
          refine ⟨_, op, f, w, ?_, ho, by simpa using hb, foldr_wrap_prefixes _ _, foldr_wrap_handler _ _⟩
          conv_lhs => rw [(scanPrefixes_split bs).1, hr]

theorem Pfx.code_mem (ps : List Pfx) (p : Pfx) : p.code ∈ ps.map Pfx.code ↔ p ∈ ps := by
  refine List.mem_map_of_injective ?_
  intro a b h
  have := congrArg Pfx.ofByte? h
  simpa [Pfx.ofByte_code] using this

theorem encode_length (i : Instr) : (encode i).length = i.length := by
  simp [encode, Instr.length]

end Sys2Proof
end

