-- ==== Sys2Proof/Laws/Exec.lean ====
section
/-! SUPPORT. What executing an instruction can do: the step of a string instruction by cases, and each family's
iteration with paging off. -/
namespace Sys2Proof.Machine

/-- Every arm of the dispatch is one step of the string instruction the tree spells. -/
theorem exec_eq_stepString (i : Instr) (s : State) :
    exec i s = stepString i.prefixes i.handler (iterate i.handler) s := by
  cases i <;> rfl

theorem prefixes_length (i : Instr) : i.prefixes.length + 1 = i.length := rfl

/-- The segment the prefixes name is that of the instruction (R124). -/
theorem effectiveSeg_eq (i : Instr) : effectiveSeg i.prefixes = segOf i := by
  induction i <;> first | rfl | assumption

/-- An instruction with a LOCK prefix is refused. -/
theorem exec_lock {i : Instr} (h : Pfx.lock ∈ i.prefixes) (s : State) : exec i s = .refused .lock := by
  rw [exec_eq_stepString]
  simp [stepString, h]

/-- An instruction with a refused combination of prefixes is refused. -/
theorem exec_bad {i : Instr} (hl : Pfx.lock ∉ i.prefixes) (h : badPrefixes i.prefixes i.handler.fam = true)
    (s : State) : exec i s = .refused .prefixCombination := by
  rw [exec_eq_stepString]
  simp [stepString, h, hl]

/-- An admitted instruction takes a step. -/
theorem exec_admitted {i : Instr} (h : Admitted i) (s : State) :
    exec i s = .next (match repOf i with
      | none => stepPlain i.length (iterate i.handler (segOf i)) s
      | some kind => stepRepeat i.length i.handler.asz kind (iterate i.handler (segOf i)) s) := by
  rw [exec_eq_stepString]
  unfold stepString
  rw [if_neg h.1, if_neg (by simp [h.2])]
  simp only [repOf, effectiveSeg_eq, prefixes_length]
  cases repeatKind i.prefixes i.handler.fam <;> rfl

/-- A step never faults, and is refused only for the encoding. -/
theorem exec_next_iff (i : Instr) (s : State) : (∃ t, exec i s = .next t) ↔ Admitted i := by
  constructor
  · rintro ⟨t, h⟩
    by_contra hn
    simp only [not_and_or, not_not] at hn
    by_cases hl : Pfx.lock ∈ i.prefixes
    · rw [exec_lock hl] at h; cases h
    · rw [exec_bad hl (by rcases hn with hn | hn <;> simp_all)] at h; cases h
  · intro h
    exact ⟨_, exec_admitted h s⟩

/-- Count 0: nothing but `pc` moves. -/
theorem exec_count_zero {i : Instr} {s : State} (h : Admitted i) (hr : repOf i ≠ none) (hc : countOf i s = 0) :
    exec i s = .next (s.setPc (pcAfter s.cpu.default32 s.cpu.pc i.length)) := by
  rw [exec_admitted h]
  cases hk : repOf i with
  | none => exact absurd hk hr
  | some kind =>
    simp only [countOf] at hc
    simp [stepRepeat, hc, pcAdvance]

/-- An iteration that aborts: the abort is taken in the state the iteration leaves. -/
theorem exec_abort {i : Instr} {s u : State} {k : Abort} (h : Iterates i s)
    (hu : iterate i.handler (segOf i) s = .abort k u) : exec i s = .next (u.setAbrt (some k)) := by
  rw [exec_admitted h.1]
  cases hk : repOf i with
  | none => simp [stepPlain, hu, takeAbort]
  | some kind =>
    have hc := h.2.2 (by simp [hk])
    simp only [countOf] at hc
    simp only [stepRepeat, hc, if_false, hu, takeAbort]

/-- An iteration that completes. -/
theorem exec_ok {i : Instr} {s u : State} {r : Regs} {f : Word} (h : Iterates i s)
    (hu : iterate i.handler (segOf i) s = .ok () u)
    (hc : u.cpu = { s.cpu with regs := r, flags := f, cycles := s.cpu.cycles + cycleCost s.cfg i.handler }) :
    exec i s = .next { u with cpu := endCpu i s r f } := by
  rw [exec_admitted h.1]
  unfold endCpu endRegs endPc
  cases hk : repOf i with
  | none => simp [stepPlain, hu, pcAdvance, State.setPc, hc]
  | some kind =>
    have hz := h.2.2 (by simp [hk])
    unfold countOf at hz ⊢
    simp only [stepRepeat, hz, if_false, hu, repeatTail, State.setRegs_flags, hc]
    by_cases hq : idx s.cpu.regs .ecx i.handler.asz - 1 = 0 ∨ stopCondition kind f = true
    · simp only [if_pos hq, pcAdvance, State.setPc, State.setRegs, hc]
    · simp only [if_neg hq, State.setRegs, hc]

/-! ### The iterations with paging off -/

/-- The addresses of the source operand with paging off. -/
def srcAddrs (i : Instr) (s : State) : List Word :=
  elemAddrs (s.cpu.segs.get (segOf i)) (srcOff i s) (elemBytes i) 0

/-- The addresses of the operand at ES with paging off. -/
def dstAddrs (i : Instr) (s : State) : List Word := elemAddrs s.cpu.segs.es (dstOff i s) (elemBytes i) 0

theorem pgOff_setIo {s : State} (io : Io) (h : PagingOff s) : PagingOff (s.setIo io) := h

section
variable {i : Instr} {s : State} {z : Size} {a : AddrSize}

/-- The iteration of a family, by the first operand check that fails. -/
theorem movs_iterate (hi : i.handler = ⟨.movs, z, a⟩) (hp : PagingOff s) (ha : s.cpu.abrt = none) :
    iterate i.handler (segOf i) s = match firstAbort i s with
      | some k => .abort k s
      | none => .ok () (charge i.handler (advance .edi a z (advance .esi a z
          (writeElem (dstAddrs i s) (readElem (srcAddrs i s) s).1 (readElem (srcAddrs i s) s).2)))) := by
  simp only [hi, iterate, movsIter, firstAbort, operandChecks, dstAddrs, srcAddrs, dstOff, srcOff, elemBytes]
  rw [preTranslate_off _ _ _ _ hp]
  cases segCheck (segOf i) (s.cpu.segs.get (segOf i)) (idx s.cpu.regs .esi a) z.bytes .read with
  | some k => rfl
  | none =>
    simp only [Res.bind_ok]
    rw [preTranslate_off _ _ _ _ hp]
    simp only [SegRegs.get]
    cases segCheck .es s.cpu.segs.es (idx s.cpu.regs .edi a) z.bytes .write with
    | some k => rfl
    | none =>
      simp only [Res.bind_ok]
      rw [checkAbort_none (by simpa using ha), Res.bind_ok, checkAbort_none (by simpa using ha)]
      rfl

theorem stos_iterate (hi : i.handler = ⟨.stos, z, a⟩) (hp : PagingOff s) (ha : s.cpu.abrt = none) :
    iterate i.handler (segOf i) s = match firstAbort i s with
      | some k => .abort k s
      | none => .ok () (charge i.handler (advance .edi a z (writeElem (dstAddrs i s) (acc s.cpu.regs z) s))) := by
  simp only [hi, iterate, stosIter, firstAbort, operandChecks, dstAddrs, dstOff, elemBytes]
  rw [preTranslate_off _ _ _ _ hp]
  simp only [SegRegs.get]
  cases segCheck .es s.cpu.segs.es (idx s.cpu.regs .edi a) z.bytes .write with
  | some k => rfl
  | none =>
    simp only [Res.bind_ok]
    rw [checkAbort_none (by simpa using ha)]
    rfl

theorem lods_iterate (hi : i.handler = ⟨.lods, z, a⟩) (hp : PagingOff s) (ha : s.cpu.abrt = none) :
    iterate i.handler (segOf i) s = match firstAbort i s with
      | some k => .abort k s
      | none => .ok () (charge i.handler (advance .esi a z ((readElem (srcAddrs i s) s).2.setRegs
          (setAcc z (readElem (srcAddrs i s) s).1 s.cpu.regs)))) := by
  simp only [hi, iterate, lodsIter, firstAbort, operandChecks, srcAddrs, srcOff, elemBytes]
  rw [preTranslate_off _ _ _ _ hp]
  cases segCheck (segOf i) (s.cpu.segs.get (segOf i)) (idx s.cpu.regs .esi a) z.bytes .read with
  | some k => rfl
  | none =>
    simp only [Res.bind_ok]
    rw [checkAbort_none (by simpa using ha)]
    simp

theorem cmps_iterate (hi : i.handler = ⟨.cmps, z, a⟩) (hp : PagingOff s) (ha : s.cpu.abrt = none) :
    iterate i.handler (segOf i) s = match firstAbort i s with
      | some k => .abort k s
      | none =>
        let r1 := readElem (srcAddrs i s) s
        let r2 := readElem (dstAddrs i s) r1.2
        .ok () (charge i.handler (advance .edi a z (advance .esi a z
          (r2.2.setFlags (setSubElem z r1.1 r2.1 s.cpu.flags))))) := by
  simp only [hi, iterate, cmpsIter, firstAbort, operandChecks, dstAddrs, srcAddrs, dstOff, srcOff, elemBytes]
  rw [preTranslate_off _ _ _ _ hp]
  cases segCheck (segOf i) (s.cpu.segs.get (segOf i)) (idx s.cpu.regs .esi a) z.bytes .read with
  | some k => rfl
  | none =>
    simp only [Res.bind_ok]
    rw [preTranslate_off _ _ _ _ hp]
    simp only [SegRegs.get]
    cases segCheck .es s.cpu.segs.es (idx s.cpu.regs .edi a) z.bytes .read with
    | some k => rfl
    | none =>
      simp only [Res.bind_ok]
      rw [checkAbort_none (by simpa using ha), Res.bind_ok, checkAbort_none (by simpa using ha)]
      simp

theorem scas_iterate (hi : i.handler = ⟨.scas, z, a⟩) (hp : PagingOff s) (ha : s.cpu.abrt = none) :
    iterate i.handler (segOf i) s = match firstAbort i s with
      | some k => .abort k s
      | none =>
        let r := readElem (dstAddrs i s) s
        .ok () (charge i.handler (advance .edi a z
          (r.2.setFlags (setSubElem z (acc s.cpu.regs z) r.1 s.cpu.flags)))) := by
  simp only [hi, iterate, scasIter, firstAbort, operandChecks, dstAddrs, dstOff, elemBytes]
  rw [preTranslate_off _ _ _ _ hp]
  simp only [SegRegs.get]
  cases segCheck .es s.cpu.segs.es (idx s.cpu.regs .edi a) z.bytes .read with
  | some k => rfl
  | none =>
    simp only [Res.bind_ok]
    rw [checkAbort_none (by simpa using ha)]
    simp

/-- The ports are open where the reference rule says so. -/
theorem ioCheck_open {port : Half} (h : IoOpen s) : ioCheck port z s = .ok () s := by
  unfold ioCheck ioPermitted
  rw [h.1]
  simp only [ioPermittedI386]
  split
  · rfl
  · next hpe =>
    rw [if_pos (by simpa [hpe] using h.2)]
    rfl

/-- The iteration of INS, once the permission check has passed. -/
theorem ins_iterate (hi : i.handler = ⟨.ins, z, a⟩) (hp : PagingOff s) (ha : s.cpu.abrt = none)
    (ho : ioCheck (dx s.cpu.regs) z s = .ok () s) :
    iterate i.handler (segOf i) s = match firstAbort i s with
      | some k => .abort k s
      | none =>
        let r := portIn (dx s.cpu.regs) z s
        .ok () (charge i.handler (advance .edi a z (writeElem (dstAddrs i s) r.1 r.2))) := by
  simp only [hi, iterate, insIter, firstAbort, operandChecks, dstAddrs, dstOff, elemBytes]
  rw [ho, Res.bind_ok, preTranslate_off _ _ _ _ hp]
  simp only [SegRegs.get]
  cases segCheck .es s.cpu.segs.es (idx s.cpu.regs .edi a) z.bytes .write with
  | some k => rfl
  | none =>
    simp only [Res.bind_ok]
    rw [checkAbort_none (by simpa using ha), Res.bind_ok, checkAbort_none (by simpa using ha)]
    rfl

/-- The iteration of OUTS, once the permission check has passed. -/
theorem outs_iterate (hi : i.handler = ⟨.outs, z, a⟩) (hp : PagingOff s) (ha : s.cpu.abrt = none)
    (ho : ioCheck (dx s.cpu.regs) z s = .ok () s) :
    iterate i.handler (segOf i) s = match firstAbort i s with
      | some k => .abort k s
      | none =>
        let r := readElem (srcAddrs i s) s
        .ok () (charge i.handler (advance .esi a z (portOut (dx s.cpu.regs) z r.1 r.2))) := by
  simp only [hi, iterate, outsIter, firstAbort, operandChecks, srcAddrs, srcOff, elemBytes]
  rw [ho, Res.bind_ok, preTranslate_off _ _ _ _ hp]
  cases segCheck (segOf i) (s.cpu.segs.get (segOf i)) (idx s.cpu.regs .esi a) z.bytes .read with
  | some k => rfl
  | none =>
    simp only [Res.bind_ok]
    rw [checkAbort_none (by simpa using ha), Res.bind_ok, checkAbort_none (by simpa using ha)]
    rfl
end

/-! ### Executing an instruction whose operand checks pass

`u` below is the state the accesses of the iteration leave; the CPU context is the one `endCpu` describes. -/

theorem Regs.get_set_ne {r : Regs} {j k : Reg} (h : j ≠ k) (v : Word) : (r.set k v).get j = r.get j := by
  cases j <;> cases k <;> first | rfl | exact absurd rfl h

theorem Regs.get_set_same (r : Regs) (k : Reg) (v : Word) : (r.set k v).get k = v := by
  cases k <;> rfl

theorem setIdx_get_ne {r : Regs} {j k : Reg} (h : j ≠ k) (a : AddrSize) (v : Word) :
    (setIdx k a v r).get j = r.get j := Regs.get_set_ne h _

theorem elemBytes_pos (i : Instr) : 0 < elemBytes i := Size.bytes_pos _
theorem elemBytes_le (i : Instr) : elemBytes i ≤ 4 := Size.bytes_le _

/-- The CPU context after the index of one register moves and the cycles are charged. -/
theorem charge_advance_cpu {i : Instr} {s u : State} {k : Reg} (hr : u.cpu.regs.get k = s.cpu.regs.get k)
    (hf : u.cpu.flags.getLsbD 10 = s.cpu.flags.getLsbD 10) (hg : u.cfg = s.cfg) :
    (charge i.handler (advance k i.handler.asz i.handler.size u)).cpu =
      { u.cpu with regs := stepIndex k i s u.cpu.regs, cycles := u.cpu.cycles + cycleCost s.cfg i.handler } := by
  simp only [charge, advance, stepIndex, directionFlag, State.addCycles, State.setRegs, hr, hf, hg]

/-- The same for both index registers. -/
theorem charge_advance2_cpu {i : Instr} {s u : State} (hr : u.cpu.regs = s.cpu.regs)
    (hf : u.cpu.flags.getLsbD 10 = s.cpu.flags.getLsbD 10) (hg : u.cfg = s.cfg) :
    (charge i.handler (advance .edi i.handler.asz i.handler.size
        (advance .esi i.handler.asz i.handler.size u))).cpu =
      { u.cpu with regs := stepIndex .edi i s (stepIndex .esi i s s.cpu.regs),
                   cycles := u.cpu.cycles + cycleCost s.cfg i.handler } := by
  rw [charge_advance_cpu (s := s)]
  · simp only [advance, stepIndex, directionFlag, State.setRegs, hr, hf]
  · simp only [advance, State.setRegs_regs, hr]
    exact setIdx_get_ne (by decide) _ _
  · exact hf
  · exact hg

/-- The direction flag is no flag of a subtraction. -/
theorem setFlag_other {f : Flag} {k : Nat} (h : k ≠ f.pos) (b : Bool) (w : Word) :
    (setFlag f b w).getLsbD k = w.getLsbD k := by
  by_cases hk : k < 32
  · have hm : (1#32 <<< f.pos).getLsbD k = false := by
      simp only [BitVec.getLsbD_shiftLeft, BitVec.getLsbD_one]
      rcases Nat.lt_or_gt_of_ne h with h | h
      · simp [h]
      · simp [show k - f.pos ≠ 0 by omega]
    cases b
    · simp only [setFlag, BitVec.getLsbD_or, BitVec.getLsbD_and, BitVec.getLsbD_not, hm, hk]
      simp
    · simp only [setFlag, BitVec.getLsbD_or, BitVec.getLsbD_and, BitVec.getLsbD_not, hm, hk, if_true]
      simp
  · simp [BitVec.getLsbD_of_ge _ _ (by omega : 32 ≤ k)]

theorem setSub_other {n : Nat} (a b : BitVec n) {k : Nat} (h : k ∉ [0, 2, 4, 6, 7, 11]) (w : Word) :
    (setSub a b w).getLsbD k = w.getLsbD k := by
  simp only [List.mem_cons, List.not_mem_nil, or_false, not_or] at h
  simp only [setSub]
  rw [setFlag_other (by simp [Flag.pos]; omega), setFlag_other (by simp [Flag.pos]; omega),
    setFlag_other (by simp [Flag.pos]; omega), setFlag_other (by simp [Flag.pos]; omega),
    setFlag_other (by simp [Flag.pos]; omega), setFlag_other (by simp [Flag.pos]; omega)]

theorem setSubElem_other (z : Size) (a b : Word) {k : Nat} (h : k ∉ [0, 2, 4, 6, 7, 11]) (w : Word) :
    (setSubElem z a b w).getLsbD k = w.getLsbD k := by
  cases z <;> exact setSub_other _ _ h w

section
variable {i : Instr} {s : State}

theorem movs_exec (hf : i.handler.fam = .movs) (h : Iterates i s) (hp : PagingOff s) (hn : firstAbort i s = none) :
    let r := readElem (srcAddrs i s) s
    let u := writeElem (dstAddrs i s) r.1 r.2
    exec i s = .next { u with
      cpu := endCpu i s (stepIndex .edi i s (stepIndex .esi i s s.cpu.regs)) s.cpu.flags } := by
  intro r u
  have hi : i.handler = ⟨.movs, i.handler.size, i.handler.asz⟩ := by rw [← hf]
  have hit := movs_iterate hi hp h.2.1
  rw [hn] at hit
  dsimp only at hit
  refine Eq.trans (exec_ok (r := (stepIndex .edi i s (stepIndex .esi i s s.cpu.regs))) (f := s.cpu.flags) h hit ?_) rfl
  rw [charge_advance2_cpu (s := s)] <;> simp

theorem stos_exec (hf : i.handler.fam = .stos) (h : Iterates i s) (hp : PagingOff s) (hn : firstAbort i s = none) :
    let u := writeElem (dstAddrs i s) (acc s.cpu.regs i.handler.size) s
    exec i s = .next { u with cpu := endCpu i s (stepIndex .edi i s s.cpu.regs) s.cpu.flags } := by
  intro u
  have hi : i.handler = ⟨.stos, i.handler.size, i.handler.asz⟩ := by rw [← hf]
  have hit := stos_iterate hi hp h.2.1
  rw [hn] at hit
  dsimp only at hit
  refine Eq.trans (exec_ok (r := (stepIndex .edi i s s.cpu.regs)) (f := s.cpu.flags) h hit ?_) rfl
  rw [charge_advance_cpu (s := s)] <;> simp

theorem lods_exec (hf : i.handler.fam = .lods) (h : Iterates i s) (hp : PagingOff s) (hn : firstAbort i s = none) :
    let r := readElem (srcAddrs i s) s
    exec i s = .next { r.2 with
      cpu := endCpu i s (stepIndex .esi i s (setAcc i.handler.size r.1 s.cpu.regs)) s.cpu.flags } := by
  intro r
  have hi : i.handler = ⟨.lods, i.handler.size, i.handler.asz⟩ := by rw [← hf]
  have hit := lods_iterate hi hp h.2.1
  rw [hn] at hit
  dsimp only at hit
  refine Eq.trans (exec_ok (r := (stepIndex .esi i s (setAcc i.handler.size r.1 s.cpu.regs))) (f := s.cpu.flags) h hit ?_) rfl
  rw [charge_advance_cpu (s := s)]
  · simp [r]
  · cases i.handler.size <;> rfl
  · simp
  · simp

theorem cmps_exec (hf : i.handler.fam = .cmps) (h : Iterates i s) (hp : PagingOff s) (hn : firstAbort i s = none) :
    let r1 := readElem (srcAddrs i s) s
    let r2 := readElem (dstAddrs i s) r1.2
    exec i s = .next { r2.2 with
      cpu := endCpu i s (stepIndex .edi i s (stepIndex .esi i s s.cpu.regs))
        (setSubElem i.handler.size r1.1 r2.1 s.cpu.flags) } := by
  intro r1 r2
  have hi : i.handler = ⟨.cmps, i.handler.size, i.handler.asz⟩ := by rw [← hf]
  have hit := cmps_iterate hi hp h.2.1
  rw [hn] at hit
  dsimp only at hit
  refine Eq.trans (exec_ok (r := (stepIndex .edi i s (stepIndex .esi i s s.cpu.regs))) (f := (setSubElem i.handler.size r1.1 r2.1 s.cpu.flags)) h hit ?_) rfl
  rw [charge_advance2_cpu (s := s)]
  · simp [r1, r2]
  · simp
  · simp only [State.setFlags_flags]
    exact setSubElem_other _ _ _ (by decide) _
  · simp

theorem scas_exec (hf : i.handler.fam = .scas) (h : Iterates i s) (hp : PagingOff s) (hn : firstAbort i s = none) :
    let r := readElem (dstAddrs i s) s
    exec i s = .next { r.2 with
      cpu := endCpu i s (stepIndex .edi i s s.cpu.regs)
        (setSubElem i.handler.size (acc s.cpu.regs i.handler.size) r.1 s.cpu.flags) } := by
  intro r
  have hi : i.handler = ⟨.scas, i.handler.size, i.handler.asz⟩ := by rw [← hf]
  have hit := scas_iterate hi hp h.2.1
  rw [hn] at hit
  dsimp only at hit
  refine Eq.trans (exec_ok (r := (stepIndex .edi i s s.cpu.regs)) (f := (setSubElem i.handler.size (acc s.cpu.regs i.handler.size) r.1 s.cpu.flags)) h hit ?_) rfl
  rw [charge_advance_cpu (s := s)]
  · simp [r]
  · simp
  · simp only [State.setFlags_flags]
    exact setSubElem_other _ _ _ (by decide) _
  · simp

theorem ins_exec (hf : i.handler.fam = .ins) (h : Iterates i s) (hp : PagingOff s)
    (ho : ioCheck (dx s.cpu.regs) i.handler.size s = .ok () s) (hn : firstAbort i s = none) :
    let r := portIn (dx s.cpu.regs) i.handler.size s
    let u := writeElem (dstAddrs i s) r.1 r.2
    exec i s = .next { u with cpu := endCpu i s (stepIndex .edi i s s.cpu.regs) s.cpu.flags } := by
  intro r u
  have hi : i.handler = ⟨.ins, i.handler.size, i.handler.asz⟩ := by rw [← hf]
  have hit := ins_iterate hi hp h.2.1 ho
  rw [hn] at hit
  dsimp only at hit
  refine Eq.trans (exec_ok (r := (stepIndex .edi i s s.cpu.regs)) (f := s.cpu.flags) h hit ?_) rfl
  rw [charge_advance_cpu (s := s)] <;> simp

theorem outs_exec (hf : i.handler.fam = .outs) (h : Iterates i s) (hp : PagingOff s)
    (ho : ioCheck (dx s.cpu.regs) i.handler.size s = .ok () s) (hn : firstAbort i s = none) :
    let r := readElem (srcAddrs i s) s
    let u := portOut (dx s.cpu.regs) i.handler.size r.1 r.2
    exec i s = .next { u with cpu := endCpu i s (stepIndex .esi i s s.cpu.regs) s.cpu.flags } := by
  intro r u
  have hi : i.handler = ⟨.outs, i.handler.size, i.handler.asz⟩ := by rw [← hf]
  have hit := outs_iterate hi hp h.2.1 ho
  rw [hn] at hit
  dsimp only at hit
  refine Eq.trans (exec_ok (r := (stepIndex .esi i s s.cpu.regs)) (f := s.cpu.flags) h hit ?_) rfl
  rw [charge_advance_cpu (s := s)] <;> simp

/-! ### Operands in RAM -/

theorem segCheck_ram {seg : SegReg} {off : Word} {n : Nat} {kind : AccessKind} (h : RamOperand s seg off n kind)
    (hn : 0 < n) : segCheck seg (s.cpu.segs.get seg) off n kind = none := (segCheck_eq_none hn).2 h.1

theorem srcAddrs_ram (h : RamOperand s (segOf i) (srcOff i s) (elemBytes i) .read) :
    ∀ p ∈ srcAddrs i s, physTarget s.cfg p = .ram := elemAddrs_ram h.2

theorem dstAddrs_ram {kind : AccessKind} (h : RamOperand s .es (dstOff i s) (elemBytes i) kind) :
    ∀ p ∈ dstAddrs i s, physTarget s.cfg p = .ram := elemAddrs_ram (seg := .es) h.2

theorem readElem_src_ram (h : RamOperand s (segOf i) (srcOff i s) (elemBytes i) .read) :
    readElem (srcAddrs i s) s = (ramElem s (segOf i) (srcOff i s) (elemBytes i), s) := by
  rw [readElem_ram (srcAddrs_ram h), srcAddrs, leValue_elemAddrs]

theorem readElem_dst_ram {kind : AccessKind} (h : RamOperand s .es (dstOff i s) (elemBytes i) kind) :
    readElem (dstAddrs i s) s = (ramElem s .es (dstOff i s) (elemBytes i), s) := by
  rw [readElem_ram (dstAddrs_ram h), dstAddrs]
  exact congrArg (·, s) (leValue_elemAddrs s .es (dstOff i s) (elemBytes i))

/-- An element written to RAM at the destination operand. -/
theorem writeElem_dst_ram {u : State} (hm : u.mem = s.mem) (hg : u.cfg = s.cfg)
    (h : RamOperand s .es (dstOff i s) (elemBytes i) .write) (hw : Memory.wf s.mem = true) (v : Word) :
    let t := writeElem (dstAddrs i s) v u
    Memory.wf t.mem = true ∧ t.io = u.io ∧
      Stores s.mem t.mem (elemBytes i) (byteAddr s .es (dstOff i s)) (fun k => byteOf v k) := by
  intro t
  have hr : ∀ p ∈ dstAddrs i s, physTarget u.cfg p = .ram := by rw [hg]; exact dstAddrs_ram h
  refine ⟨writeElem_wf _ _ (by rw [hm]; exact hw), writeElem_ram_io hr, ?_, ?_⟩
  · intro k hk
    have hl : k < (dstAddrs i s).length := by simpa [dstAddrs] using hk
    have := writeElem_ram_read (v := v) hr (by rw [hm]; exact hw) (elemAddrs_nodup _ _ (elemBytes_le i)) hl
    simp only [dstAddrs, elemAddrs_getElem] at this
    exact this
  · intro a ha
    rw [writeElem_other, hm]
    intro p hp
    simp only [dstAddrs, elemAddrs, List.mem_map, List.mem_range'_1] at hp
    obtain ⟨k, hk, rfl⟩ := hp
    exact ha k (by omega)

/-- Byte `k` of a little-endian value is the byte at the `k`-th address. -/
theorem byteOf_leValue {bs : List Byte} {k : Nat} (hk : k < bs.length) (h4 : bs.length ≤ 4) :
    byteOf (leValue bs) k = bs[k] := by
  induction bs generalizing k with
  | nil => simp at hk
  | cons b bs ih =>
    simp only [List.length_cons] at hk h4
    cases k with
    | zero =>
      simp only [leValue, byteOf, List.getElem_cons_zero]
      ext j hj
      simp
    | succ k =>
      rw [List.getElem_cons_succ, ← ih (by omega) (by omega)]
      simp only [leValue, byteOf]
      ext j hj
      simp only [BitVec.getElem_setWidth, BitVec.getLsbD_ushiftRight, BitVec.getLsbD_or, BitVec.getLsbD_setWidth,
        BitVec.getLsbD_shiftLeft]
      rw [BitVec.getLsbD_of_ge b _ (by omega)]
      simp only [show 8 * (k + 1) + j < 32 by omega, show ¬ 8 * (k + 1) + j < 8 by omega, decide_true, decide_false,
        Bool.and_false, Bool.false_or, Bool.true_and, Bool.not_false]
      congr 1
      omega
end

end Sys2Proof.Machine
end

