-- ==== Sys2Proof/Laws/Step.lean ====
section
/-! SUPPORT. What a step of the machine can do, by whose turn it is, and the fetch from RAM with paging off. -/
namespace Sys2Proof.Machine

@[simp] theorem timerTick_cpu (s : State) : (timerTick s).cpu = s.cpu := by unfold timerTick; split <;> rfl
@[simp] theorem timerTick_mem (s : State) : (timerTick s).mem = s.mem := by unfold timerTick; split <;> rfl
@[simp] theorem timerTick_cfg (s : State) : (timerTick s).cfg = s.cfg := by unfold timerTick; split <;> rfl
@[simp] theorem timerTick_agenda (s : State) : (timerTick s).agenda = s.agenda := by
  unfold timerTick; split <;> rfl

/-- Without an event the step is an agent's, and the event slot is used up. -/
theorem step_agent {s : State} (h : ∀ e, s.agenda.head? ≠ some (some e)) :
    step s = agentStep (s.setAgenda s.agenda.tail) := by
  unfold step
  split
  · next e rest he => simp [he] at h
  · next rest he => simp [he]
  · next he =>
    have : s.setAgenda s.agenda.tail = s := by cases s; simp_all [State.setAgenda]
    rw [this]

/-- With no event, no timer due and no abort pending, the step is the CPU's. -/
theorem step_cpu {s : State} (h : ∀ e, s.agenda.head? ≠ some (some e)) (ht : timerDue s = false)
    (ha : s.cpu.abrt = none) : step s = cpuStep (timerTick (s.setAgenda s.agenda.tail)) := by
  rw [step_agent h, agentStep]
  have : timerDue (s.setAgenda s.agenda.tail) = false := ht
  simp only [this, cpuTurn, timerTick_cpu, State.setAgenda_cpu, ha]
  rfl

/-- One byte read from RAM. -/
theorem readMem_ram {s : State} {seg : SegReg} {off : Word} (hp : PagingOff s) (ha : s.cpu.abrt = none)
    (h : RamOperand s seg off 1 .read) :
    readMem seg off 1 s = .ok ((ramByte s (byteAddr s seg off 0)).setWidth 32) s := by
  unfold readMem
  rw [preTranslate_off _ _ _ _ hp, (segCheck_eq_none (by omega)).2 h.1, Res.bind_ok,
    readElem_ram (elemAddrs_ram h.2), checkAbort_none ha]
  simp [elemAddrs, leValue, byteAddr]

theorem readMem_abort {s : State} {seg : SegReg} {off : Word} {k : Abort} (hp : PagingOff s)
    (h : segCheck seg (s.cpu.segs.get seg) off 1 .read = some k) : readMem seg off 1 s = .abort k s := by
  unfold readMem
  rw [preTranslate_off _ _ _ _ hp, h]
  rfl

end Sys2Proof.Machine
end

