-- ==== Sys2Proof/Laws/Frame.lean ====
section
/-! SUPPORT. What the accesses of an instruction can change, with any paging and any I/O permission function: said
once (`Keeps`), for every shared operation, for every iteration and for `exec` by cases. -/
namespace Sys2Proof.Machine

/-- What the device side becomes by a sequence of the accesses a CPU step makes. -/
inductive IoReach (cfg : Cfg) : Io → Io → Prop where
  | refl (a : Io) : IoReach cfg a a
  | windowRead {a b : Io} (off : Nat) : IoReach cfg a b → IoReach cfg a (bridgeRead cfg off b).2
  | windowWrite {a b : Io} (off : Nat) (v : Byte) : IoReach cfg a b → IoReach cfg a (bridgeWrite cfg off v b)
  | regRead {a b : Io} (r : BitVec 3) : IoReach cfg a b → IoReach cfg a (regRead cfg r b).2
  | regWrite {a b : Io} (r : BitVec 3) (v : Byte) : IoReach cfg a b → IoReach cfg a (regWrite cfg r v b)
  | draw {a b : Io} : IoReach cfg a b → IoReach cfg a (drawByte b).2
  | emit {a b : Io} (o : Output) : IoReach cfg a b → IoReach cfg a (b.emit o)
  | supply {a b : Io} (inputs : List Byte) (drawn : Nat) :
    IoReach cfg a b → IoReach cfg a { b with inputs := inputs, drawn := drawn }

theorem IoReach.trans {cfg : Cfg} {a b c : Io} (h : IoReach cfg a b) (k : IoReach cfg b c) : IoReach cfg a c := by
  induction k with
  | refl => exact h
  | windowRead off _ ih => exact .windowRead off ih
  | windowWrite off v _ ih => exact .windowWrite off v ih
  | regRead r _ ih => exact .regRead r ih
  | regWrite r v _ ih => exact .regWrite r v ih
  | draw _ ih => exact .draw ih
  | emit o _ ih => exact .emit o ih
  | supply i d _ ih => exact .supply i d ih

/-- A property every single access keeps holds after any sequence of them. -/
theorem IoReach.induct {cfg : Cfg} {P : Io → Prop}
    (hr : ∀ off b, P b → P (bridgeRead cfg off b).2) (hw : ∀ off v b, P b → P (bridgeWrite cfg off v b))
    (rr : ∀ r b, P b → P (Machine.regRead cfg r b).2) (rw : ∀ r v b, P b → P (Machine.regWrite cfg r v b))
    (hd : ∀ b, P b → P (drawByte b).2) (he : ∀ o b, P b → P (b.emit o))
    (hs : ∀ i d b, P b → P { b with inputs := i, drawn := d })
    {a b : Io} (h : IoReach cfg a b) (ha : P a) : P b := by
  induction h with
  | refl => exact ha
  | windowRead off _ ih => exact hr off _ ih
  | windowWrite off v _ ih => exact hw off v _ ih
  | regRead r _ ih => exact rr r _ ih
  | regWrite r v _ ih => exact rw r v _ ih
  | draw _ ih => exact hd _ ih
  | emit o _ ih => exact he o _ ih
  | supply i d _ ih => exact hs i d _ ih

/-- What accesses leave: the CPU context but for `cr2`, the configuration, the events to come, the canonical form of
RAM; the device side moves by accesses. -/
structure Keeps (s t : State) : Prop where
  cpu : t.cpu = { s.cpu with sys := { s.cpu.sys with cr2 := t.cpu.sys.cr2 } }
  cfg : t.cfg = s.cfg
  agenda : t.agenda = s.agenda
  wf : Memory.wf s.mem = true → Memory.wf t.mem = true
  io : IoReach s.cfg s.io t.io

theorem Keeps.refl (s : State) : Keeps s s := ⟨rfl, rfl, rfl, id, .refl _⟩

theorem Keeps.trans {a b c : State} (h : Keeps a b) (k : Keeps b c) : Keeps a c := by
  refine ⟨?_, k.cfg.trans h.cfg, k.agenda.trans h.agenda, k.wf ∘ h.wf, h.io.trans (h.cfg ▸ k.io)⟩
  rw [k.cpu, h.cpu]

section
variable {s t : State}
theorem Keeps.regs (h : Keeps s t) : t.cpu.regs = s.cpu.regs := by rw [h.cpu]
theorem Keeps.flags (h : Keeps s t) : t.cpu.flags = s.cpu.flags := by rw [h.cpu]
theorem Keeps.abrt (h : Keeps s t) : t.cpu.abrt = s.cpu.abrt := by rw [h.cpu]
theorem Keeps.segs (h : Keeps s t) : t.cpu.segs = s.cpu.segs := by rw [h.cpu]
theorem Keeps.cycles (h : Keeps s t) : t.cpu.cycles = s.cpu.cycles := by rw [h.cpu]
theorem Keeps.pc (h : Keeps s t) : t.cpu.pc = s.cpu.pc := by rw [h.cpu]

theorem Keeps.setIo {io : Io} (h : IoReach s.cfg s.io io) : Keeps s (s.setIo io) := ⟨rfl, rfl, rfl, id, h⟩

theorem Keeps.setMem {m : List Host.Cell} (h : Memory.wf s.mem = true → Memory.wf m = true) :
    Keeps s (s.setMem m) := ⟨rfl, rfl, rfl, h, .refl _⟩

theorem Keeps.setCr2 (w : Word) : Keeps s (s.setCr2 w) := ⟨rfl, rfl, rfl, id, .refl _⟩
end

/-- A result whose state, however it ends, is kept. -/
def Res.Kept {α : Type} (s : State) : Res α → Prop
  | .ok _ t => Keeps s t
  | .abort _ t => Keeps s t

theorem Res.Kept.bind {α β : Type} {s : State} {r : Res α} {f : α → State → Res β} (h : r.Kept s)
    (hf : ∀ a t, (f a t).Kept t) : (r.bind f).Kept s := by
  cases r with
  | abort k t => exact h
  | ok a t =>
    have := hf a t
    simp only [Res.bind]
    cases hr : f a t <;> rw [hr] at this <;> exact Keeps.trans h this

theorem memRead_keeps (a : Word) (s : State) : Keeps s (memRead a s).2 := by
  unfold memRead
  split
  · exact .refl _
  · exact .setIo (.windowRead _ (.refl _))
  · exact .setIo (.draw (.refl _))
  · exact .refl _

theorem memWrite_keeps (a : Word) (b : Byte) (s : State) : Keeps s (memWrite a b s) := by
  unfold memWrite
  split
  · exact .setMem fun h => Memory.write_wf h _ _
  · exact .setIo (.windowWrite _ _ (.refl _))
  · exact .setIo (.emit _ (.refl _))
  · exact .refl _

theorem readElem_keeps (ps : List Word) (s : State) : Keeps s (readElem ps s).2 := by
  change Keeps s (readBytes ps s).2
  induction ps generalizing s with
  | nil => exact .refl _
  | cons p ps ih => exact (memRead_keeps p s).trans (ih _)

theorem writeElem_keeps (ps : List Word) (v : Word) (s : State) : Keeps s (writeElem ps v s) := by
  induction ps generalizing v s with
  | nil => exact .refl _
  | cons p ps ih => exact (memWrite_keeps p _ s).trans (ih _ _)

theorem portRead8_keeps (p : Half) (s : State) : Keeps s (portRead8 p s).2 := by
  unfold portRead8
  split
  · exact .setIo (.regRead _ (.refl _))
  · split
    · exact .setIo (.draw (.refl _))
    · exact .refl _

theorem portWrite8_keeps (p : Half) (b : Byte) (s : State) : Keeps s (portWrite8 p b s) := by
  unfold portWrite8
  split
  · exact .setIo (.regWrite _ _ (.refl _))
  · split
    · exact .setIo (.emit _ (.refl _))
    · exact .refl _

theorem portIn_keeps (p : Half) (z : Size) (s : State) : Keeps s (portIn p z s).2 := by
  change Keeps s (portReadBytes z.bytes p s).2
  induction z.bytes generalizing p s with
  | zero => exact .refl _
  | succ n ih => exact (portRead8_keeps p s).trans (ih _ _)

theorem portOut_keeps (p : Half) (z : Size) (v : Word) (s : State) : Keeps s (portOut p z v s) := by
  unfold portOut
  induction z.bytes generalizing p v s with
  | zero => exact .refl _
  | succ n ih => exact (portWrite8_keeps p _ s).trans (ih _ _ _)

theorem markEntry_keeps (keep : Bool) (a v : Word) (s : State) : Keeps s (markEntry keep a v s) := by
  unfold markEntry
  split
  · exact .refl _
  · exact writeElem_keeps _ _ _

theorem applyMarks_wf (l : List (Word × Byte)) {m : List Host.Cell} (h : Memory.wf m = true) :
    Memory.wf (applyMarks l m) = true := by
  induction l generalizing m with
  | nil => exact h
  | cons p l ih => exact ih (Memory.write_wf h _ _)

theorem pageTranslate_kept (sys : Sys) (lin : Word) (kind : AccessKind) (s : State) :
    (pageTranslate sys lin kind s).Kept s := by
  unfold pageTranslate
  split
  · unfold pageTranslateI386
    split
    · exact .refl _
    · extract_lets wr u pdeA
      have h1 : Keeps s (readEntry pdeA s).2 := readElem_keeps _ _
      generalize readEntry pdeA s = e1 at h1
      obtain ⟨pde, s1⟩ := e1
      dsimp only at h1 ⊢
      split
      · exact h1.trans (.setCr2 _)
      · generalize (pde &&& 4294963200 ||| (lin >>> 12 &&& 1023) <<< 2) = pteA
        have h2 : Keeps s1 (readEntry pteA s1).2 := readElem_keeps _ _
        generalize readEntry pteA s1 = e2 at h2
        obtain ⟨pte, s2⟩ := e2
        dsimp only at h2 ⊢
        split
        · exact (h1.trans h2).trans (.setCr2 _)
        · split
          · exact (h1.trans h2).trans (.setCr2 _)
          · exact (h1.trans h2).trans ((markEntry_keeps _ _ _ _).trans (markEntry_keeps _ _ _ _))
  · unfold pageTranslateFree
    split
    · exact .refl _
    · extract_lets r
      split
      · exact .setMem (applyMarks_wf _)
      · exact .refl _

theorem translateFrom_kept (d : SegDesc) (off : Word) (kind : AccessKind) (n i : Nat) (s : State) :
    (translateFrom d off kind n i s).Kept s := by
  induction n generalizing i s with
  | zero => exact .refl _
  | succ n ih =>
    exact (pageTranslate_kept _ _ _ s).bind fun p t => (ih (i + 1) t).bind fun ps u => .refl _

theorem preTranslate_kept (seg : SegReg) (off : Word) (n : Nat) (kind : AccessKind) (s : State) :
    (preTranslate seg off n kind s).Kept s := by
  unfold preTranslate
  split
  · exact .refl _
  · exact translateFrom_kept _ _ _ _ _ _

theorem checkAbort_kept {s t : State} (h : Keeps s t) : (checkAbort t).Kept s := by
  unfold checkAbort
  split <;> exact h

theorem readMem_kept (seg : SegReg) (off : Word) (n : Nat) (s : State) : (readMem seg off n s).Kept s := by
  unfold readMem
  exact (preTranslate_kept seg off n .read s).bind fun pa t =>
    (checkAbort_kept (readElem_keeps pa t)).bind fun _ u => Keeps.refl _

theorem fetchFrom_kept (n i : Nat) (s : State) : (fetchFrom n i s).Kept s := by
  induction n generalizing i s with
  | zero => exact .refl _
  | succ n ih =>
    refine (readMem_kept _ _ _ s).bind fun w t => ?_
    split
    · exact .refl _
    · exact (ih (i + 1) t).bind fun bs u => .refl _

theorem keepDraws_keeps (s t : State) : Keeps s (keepDraws s t) := .setIo (.supply _ _ (.refl _))

theorem fetchUndone_keeps {s t : State} (h : Keeps s t) : Keeps s (fetchUndone s t) :=
  (Keeps.setMem h.wf).trans (.setCr2 _)

theorem sysByte_kept (lin : Word) (s : State) : (sysByte lin s).Kept s := by
  unfold sysByte
  split
  · exact keepDraws_keeps _ _
  · exact (keepDraws_keeps _ _).trans (.setCr2 _)

theorem sysRead_kept (n : Nat) (lin : Word) (s : State) : (sysRead n lin s).Kept s := by
  induction n generalizing lin s with
  | zero => exact .refl _
  | succ n ih =>
    exact (sysByte_kept _ s).bind fun b t => (ih (lin + 1) t).bind fun bs u => .refl _

theorem ioCheck_kept (port : Half) (z : Size) (s : State) : (ioCheck port z s).Kept s := by
  have h : (ioPermitted port z s).Kept s := by
    unfold ioPermitted
    split
    · unfold ioPermittedI386
      extract_lets sys
      split
      · exact .refl _
      · split
        · exact .refl _
        · split
          · exact .refl _
          · refine (sysRead_kept _ _ s).bind fun m t => ?_
            dsimp only
            split
            · exact .refl _
            · exact (sysRead_kept _ _ t).bind fun b u => .refl _
    · exact .refl _
  refine h.bind fun ok t => ?_
  split <;> exact .refl _

/-! ### Iterations -/

/-- The registers an iteration that completes may leave; `v` is the element LODS loads. -/
def famRegs (i : Instr) (s : State) (v : Word) : Regs :=
  match i.handler.fam with
  | .movs | .cmps => stepIndex .edi i s (stepIndex .esi i s s.cpu.regs)
  | .stos | .scas | .ins => stepIndex .edi i s s.cpu.regs
  | .lods => stepIndex .esi i s (setAcc i.handler.size v s.cpu.regs)
  | .outs => stepIndex .esi i s s.cpu.regs

/-- The flags an iteration that completes may leave. -/
def FamFlags (i : Instr) (s : State) (f : Word) : Prop :=
  match i.handler.fam with
  | .cmps => ∃ a b, f = setSubElem i.handler.size a b s.cpu.flags
  | .scas => ∃ b, f = setSubElem i.handler.size (acc s.cpu.regs i.handler.size) b s.cpu.flags
  | .movs | .stos | .lods | .ins | .outs => f = s.cpu.flags

/-- How an iteration ends: with an abort and nothing committed, or with the family's registers and flags. -/
def IterEnds (i : Instr) (s : State) : Res Unit → Prop
  | .abort _ u => Keeps s u
  | .ok _ u => ∃ w v f, Keeps s w ∧ FamFlags i s f ∧ w.cpu.abrt = none ∧
      u = { w with cpu := { w.cpu with regs := famRegs i s v, flags := f,
                                       cycles := s.cpu.cycles + cycleCost s.cfg i.handler } }

theorem IterEnds.bind {α : Type} {i : Instr} {s : State} {r : Res α} {f : α → State → Res Unit} (h : r.Kept s)
    (hf : ∀ a t, Keeps s t → IterEnds i s (f a t)) : IterEnds i s (r.bind f) := by
  cases r with
  | abort k t => exact h
  | ok a t => exact hf a t h

theorem IterEnds.bindCheck {i : Instr} {s t : State} {f : Unit → State → Res Unit} (h : Keeps s t)
    (hf : t.cpu.abrt = none → IterEnds i s (f () t)) : IterEnds i s ((checkAbort t).bind f) := by
  unfold checkAbort
  split
  · exact h
  · next hn => exact hf hn

theorem Res.Kept.after {α : Type} {s t : State} {r : Res α} (h : Keeps s t) (k : r.Kept t) : r.Kept s := by
  cases r <;> exact h.trans k

/-- An iteration that completes, by the fields of its last state. -/
theorem IterEnds.done {i : Instr} {s w u : State} {v f : Word} (h : Keeps s w) (hn : w.cpu.abrt = none)
    (hf : FamFlags i s f)
    (hc : u.cpu = { w.cpu with regs := famRegs i s v, flags := f, cycles := w.cpu.cycles + cycleCost s.cfg i.handler })
    (hu : u = { w with cpu := u.cpu }) : IterEnds i s (.ok () u) := by
  refine ⟨w, v, f, h, hf, hn, ?_⟩
  rw [hu, hc, h.cycles]

/-- An iteration whose last step moves one index register. -/
theorem IterEnds.advance {i : Instr} {s w : State} {k : Reg} (h : Keeps s w) (hn : w.cpu.abrt = none)
    (hr : famRegs i s 0 = stepIndex k i s s.cpu.regs) (hf : FamFlags i s s.cpu.flags) :
    IterEnds i s (.ok () (charge i.handler (Machine.advance k i.handler.asz i.handler.size w))) := by
  refine .done (v := 0) h hn hf ?_ rfl
  rw [charge_advance_cpu (s := s) (by rw [h.regs]) (by rw [h.flags]) h.cfg, hr, h.regs, ← h.flags]

/-- Every iteration ends so. -/
theorem iterate_ends (i : Instr) (s : State) : IterEnds i s (iterate i.handler (segOf i) s) := by
  rcases hi : i.handler with ⟨f, z, a⟩
  unfold iterate
  cases f with
  | movs =>
    refine .bind (preTranslate_kept _ _ _ _ s) fun p1 t1 h1 => ?_
    refine .bind ((preTranslate_kept _ _ _ _ t1).after h1) fun p2 t2 h2 => ?_
    have h3 := h2.trans (readElem_keeps p1 t2)
    refine .bindCheck h3 fun _ => ?_
    have h4 := h3.trans (writeElem_keeps p2 (readElem p1 t2).1 _)
    refine .bindCheck h4 fun hn => .done (v := 0) h4 hn (f := s.cpu.flags) (by simp [FamFlags, hi]) ?_ rfl
    have e := charge_advance2_cpu (i := i) h4.regs (by rw [h4.flags]) h4.cfg
    simp only [hi] at e
    simp only [famRegs, hi, ← h4.flags]
    exact e
  | cmps =>
    refine .bind (preTranslate_kept _ _ _ _ s) fun p1 t1 h1 => ?_
    refine .bind ((preTranslate_kept _ _ _ _ t1).after h1) fun p2 t2 h2 => ?_
    have h3 := h2.trans (readElem_keeps p1 t2)
    refine .bindCheck h3 fun _ => ?_
    have h4 := h3.trans (readElem_keeps p2 _)
    refine .bindCheck h4 fun hn => .done (v := 0) h4 hn
      (f := setSubElem z (readElem p1 t2).1 (readElem p2 (readElem p1 t2).2).1 s.cpu.flags)
      (by simp only [FamFlags, hi]; exact ⟨_, _, rfl⟩) ?_ rfl
    have e := charge_advance2_cpu (i := i) (s := s)
      (u := (readElem p2 (readElem p1 t2).2).2.setFlags (setSubElem z (readElem p1 t2).1
        (readElem p2 (readElem p1 t2).2).1 s.cpu.flags)) h4.regs
      (by simp only [State.setFlags_flags]; exact setSubElem_other _ _ _ (by decide) _) h4.cfg
    simp only [hi] at e
    simp only [famRegs, hi, ← h4.flags] at e ⊢
    exact e
  | stos =>
    refine .bind (preTranslate_kept _ _ _ _ s) fun p1 t1 h1 => ?_
    have h4 := h1.trans (writeElem_keeps p1 (acc t1.cpu.regs z) _)
    refine .bindCheck h4 fun hn => ?_
    have e := IterEnds.advance (i := i) (k := .edi) h4 hn (by simp [famRegs, hi]) (by simp [FamFlags, hi])
    rw [hi] at e
    exact e
  | lods =>
    refine .bind (preTranslate_kept _ _ _ _ s) fun p1 t1 h1 => ?_
    have h4 := h1.trans (readElem_keeps p1 t1)
    refine .bindCheck h4 fun hn => .done (v := (readElem p1 t1).1) h4 hn (f := s.cpu.flags)
      (by simp [FamFlags, hi]) ?_ rfl
    have e := charge_advance_cpu (i := i) (k := .esi) (s := s)
      (u := (readElem p1 t1).2.setRegs (setAcc z (readElem p1 t1).1 (readElem p1 t1).2.cpu.regs))
      (by simp only [State.setRegs_regs, h4.regs]; cases z <;> rfl) (by simp only [State.setRegs_flags, h4.flags])
      h4.cfg
    simp only [hi] at e
    simp only [famRegs, hi, ← h4.flags, ← h4.regs]
    exact e
  | scas =>
    refine .bind (preTranslate_kept _ _ _ _ s) fun p1 t1 h1 => ?_
    have h4 := h1.trans (readElem_keeps p1 t1)
    refine .bindCheck h4 fun hn => .done (v := 0) h4 hn
      (f := setSubElem z (acc s.cpu.regs z) (readElem p1 t1).1 s.cpu.flags)
      (by simp only [FamFlags, hi]; exact ⟨_, rfl⟩) ?_ rfl
    have e := charge_advance_cpu (i := i) (s := s) (k := .edi)
      (u := (readElem p1 t1).2.setFlags (setSubElem z (acc s.cpu.regs z) (readElem p1 t1).1 s.cpu.flags))
      (by rw [State.setFlags_regs, h4.regs])
      (by simp only [State.setFlags_flags]; exact setSubElem_other _ _ _ (by decide) _) h4.cfg
    simp only [hi] at e
    simp only [famRegs, hi, ← h4.flags, ← h4.regs] at e ⊢
    exact e
  | ins =>
    refine .bind (ioCheck_kept _ _ s) fun _ t0 h0 => ?_
    refine .bind ((preTranslate_kept _ _ _ _ t0).after h0) fun p1 t1 h1 => ?_
    have h3 := h1.trans (portIn_keeps (dx s.cpu.regs) z t1)
    refine .bindCheck h3 fun _ => ?_
    have h4 := h3.trans (writeElem_keeps p1 (portIn (dx s.cpu.regs) z t1).1 _)
    refine .bindCheck h4 fun hn => ?_
    have e := IterEnds.advance (i := i) (k := .edi) h4 hn (by simp [famRegs, hi]) (by simp [FamFlags, hi])
    rw [hi] at e
    exact e
  | outs =>
    refine .bind (ioCheck_kept _ _ s) fun _ t0 h0 => ?_
    refine .bind ((preTranslate_kept _ _ _ _ t0).after h0) fun p1 t1 h1 => ?_
    have h3 := h1.trans (readElem_keeps p1 t1)
    refine .bindCheck h3 fun _ => ?_
    have h4 := h3.trans (portOut_keeps (dx s.cpu.regs) z (readElem p1 t1).1 _)
    refine .bindCheck h4 fun hn => ?_
    have e := IterEnds.advance (i := i) (k := .esi) h4 hn (by simp [famRegs, hi]) (by simp [FamFlags, hi])
    rw [hi] at e
    exact e

/-- How `exec` gives a next state: by a count of 0, by an abort with nothing committed, or by an iteration that
completes. -/
theorem exec_cases {i : Instr} {s t : State} (h : exec i s = .next t) :
    Admitted i ∧
    ((repOf i ≠ none ∧ countOf i s = 0 ∧ t = s.setPc (pcAfter s.cpu.default32 s.cpu.pc i.length)) ∨
    ((repOf i ≠ none → countOf i s ≠ 0) ∧ ∃ k u, Keeps s u ∧ iterate i.handler (segOf i) s = .abort k u ∧
      t = u.setAbrt (some k)) ∨
    ((repOf i ≠ none → countOf i s ≠ 0) ∧ s.cpu.abrt = none ∧ ∃ w v f u, Keeps s w ∧ FamFlags i s f ∧
      iterate i.handler (segOf i) s = .ok () u ∧ u = { w with cpu := u.cpu } ∧
      t = { w with cpu := { endCpu i s (famRegs i s v) f with sys := w.cpu.sys } })) := by
  have ha : Admitted i := (exec_next_iff i s).1 ⟨t, h⟩
  refine ⟨ha, ?_⟩
  by_cases hz : repOf i ≠ none ∧ countOf i s = 0
  · rw [exec_count_zero ha hz.1 hz.2] at h
    cases h
    exact .inl ⟨hz.1, hz.2, rfl⟩
  · have hz' : repOf i ≠ none → countOf i s ≠ 0 := fun a b => hz ⟨a, b⟩
    have he := iterate_ends i s
    right
    cases hu : iterate i.handler (segOf i) s with
    | abort k u =>
      rw [hu] at he
      refine .inl ⟨hz', k, u, he, rfl, ?_⟩
      rw [exec_admitted ha] at h
      cases hk : repOf i with
      | none =>
        simp only [hk, stepPlain, hu, takeAbort] at h
        cases h
        rfl
      | some kind =>
        have := hz' (by simp [hk])
        simp only [countOf] at this
        simp only [hk, stepRepeat, this, if_false, hu, takeAbort] at h
        cases h
        rfl
    | ok x u =>
      rw [hu] at he
      obtain ⟨w, v, f, hw, hf, hn, rfl⟩ := he
      refine .inr ⟨hz', hw.abrt ▸ hn, w, v, f, _, hw, hf, rfl, rfl, ?_⟩
      rw [exec_admitted ha] at h
      unfold endCpu endRegs endPc
      cases hk : repOf i with
      | none =>
        simp only [hk, stepPlain, hu, pcAdvance, State.setPc] at h
        cases h
        rw [hw.cpu]
      | some kind =>
        have := hz' (by simp [hk])
        unfold countOf at this ⊢
        simp only [hk, stepRepeat, this, if_false, hu, repeatTail, State.setRegs_flags] at h
        by_cases hq : idx s.cpu.regs .ecx i.handler.asz - 1 = 0 ∨ stopCondition kind f = true
        · simp only [hq, if_true, pcAdvance, State.setPc, State.setRegs] at h ⊢
          cases h
          rw [hw.cpu]
        · simp only [hq, if_false, State.setRegs] at h ⊢
          cases h
          rw [hw.cpu]

end Sys2Proof.Machine
end

