-- ==== Sys2Proof/Laws/PerInstr.lean ====
section
/-! SUPPORT. A family of per-instruction lemmas on the encoding: the length (R120), and the opcode byte that ends it
(R121). -/
namespace Sys2Proof.Laws.EncodingLength

/-- The encoding has the instruction's length, and ends in the opcode byte of its family and width (R120, R121). -/
def Statement (i : Instr) : Prop :=
  (encode i).length = i.length ∧
    ((encode i).getLast?.bind opcodeOf?) = some (i.handler.fam, decide (i.handler.size ≠ .byte))

theorem statement (i : Instr) : Statement i :=
  ⟨encode_length i, by simp [encode, opcodeOf_opcodeByte]⟩

theorem insbA16 : Statement .insbA16 := statement _
theorem insbA32 : Statement .insbA32 := statement _
theorem inswA16 : Statement .inswA16 := statement _
theorem inswA32 : Statement .inswA32 := statement _
theorem insdA16 : Statement .insdA16 := statement _
theorem insdA32 : Statement .insdA32 := statement _
theorem outsbA16 : Statement .outsbA16 := statement _
theorem outsbA32 : Statement .outsbA32 := statement _
theorem outswA16 : Statement .outswA16 := statement _
theorem outswA32 : Statement .outswA32 := statement _
theorem outsdA16 : Statement .outsdA16 := statement _
theorem outsdA32 : Statement .outsdA32 := statement _
theorem movsbA16 : Statement .movsbA16 := statement _
theorem movsbA32 : Statement .movsbA32 := statement _
theorem movswA16 : Statement .movswA16 := statement _
theorem movswA32 : Statement .movswA32 := statement _
theorem movsdA16 : Statement .movsdA16 := statement _
theorem movsdA32 : Statement .movsdA32 := statement _
theorem cmpsbA16 : Statement .cmpsbA16 := statement _
theorem cmpsbA32 : Statement .cmpsbA32 := statement _
theorem cmpswA16 : Statement .cmpswA16 := statement _
theorem cmpswA32 : Statement .cmpswA32 := statement _
theorem cmpsdA16 : Statement .cmpsdA16 := statement _
theorem cmpsdA32 : Statement .cmpsdA32 := statement _
theorem stosbA16 : Statement .stosbA16 := statement _
theorem stosbA32 : Statement .stosbA32 := statement _
theorem stoswA16 : Statement .stoswA16 := statement _
theorem stoswA32 : Statement .stoswA32 := statement _
theorem stosdA16 : Statement .stosdA16 := statement _
theorem stosdA32 : Statement .stosdA32 := statement _
theorem lodsbA16 : Statement .lodsbA16 := statement _
theorem lodsbA32 : Statement .lodsbA32 := statement _
theorem lodswA16 : Statement .lodswA16 := statement _
theorem lodswA32 : Statement .lodswA32 := statement _
theorem lodsdA16 : Statement .lodsdA16 := statement _
theorem lodsdA32 : Statement .lodsdA32 := statement _
theorem scasbA16 : Statement .scasbA16 := statement _
theorem scasbA32 : Statement .scasbA32 := statement _
theorem scaswA16 : Statement .scaswA16 := statement _
theorem scaswA32 : Statement .scaswA32 := statement _
theorem scasdA16 : Statement .scasdA16 := statement _
theorem scasdA32 : Statement .scasdA32 := statement _
theorem prefixES (rest : Instr) : Statement (.prefixES rest) := statement _
theorem prefixCS (rest : Instr) : Statement (.prefixCS rest) := statement _
theorem prefixSS (rest : Instr) : Statement (.prefixSS rest) := statement _
theorem prefixDS (rest : Instr) : Statement (.prefixDS rest) := statement _
theorem prefixFS (rest : Instr) : Statement (.prefixFS rest) := statement _
theorem prefixGS (rest : Instr) : Statement (.prefixGS rest) := statement _
theorem prefixOpSize (rest : Instr) : Statement (.prefixOpSize rest) := statement _
theorem prefixAddrSize (rest : Instr) : Statement (.prefixAddrSize rest) := statement _
theorem prefixRepne (rest : Instr) : Statement (.prefixRepne rest) := statement _
theorem prefixRep (rest : Instr) : Statement (.prefixRep rest) := statement _
theorem prefixLock (rest : Instr) : Statement (.prefixLock rest) := statement _

end Sys2Proof.Laws.EncodingLength
end

