-- ==== Sys2Proof/Tests/Slice0.lean ====
section
/-! SUPPORT. Tests: ill-formed terms that WellFormed refuses, words written out from the encoding tables, one step of
every instruction on a small state, and for every statement with hypotheses a state and operands that meet them. -/
set_option Elab.async false

namespace Sys2Proof.Machine

/-! ### WellFormed (R122, R123, R130) -/

theorem test_wf_five_prefixes :
    ¬ WellFormed false (.prefixES (.prefixOpSize (.prefixAddrSize (.prefixRep (.prefixLock .movsdA32))))) := by
  decide +kernel
theorem test_wf_prefix_twice : ¬ WellFormed false (.prefixRep (.prefixRep .movsbA16)) := by decide +kernel
theorem test_wf_two_segments : ¬ WellFormed false (.prefixES (.prefixCS .movsbA16)) := by decide +kernel
theorem test_wf_both_repeats : ¬ WellFormed false (.prefixRepne (.prefixRep .cmpsbA16)) := by decide +kernel
theorem test_wf_repne_movs : ¬ WellFormed false (.prefixRepne .movsbA16) := by decide +kernel
theorem test_wf_operand_size : ¬ WellFormed false .movsdA16 := by decide +kernel
theorem test_wf_address_size : ¬ WellFormed false .movsbA32 := by decide +kernel
theorem test_wf_size_prefix_unused : ¬ WellFormed false (.prefixOpSize .movswA16) := by decide +kernel
theorem test_wf_accepts : WellFormed false (.prefixES (.prefixOpSize (.prefixAddrSize (.prefixRep .movsdA32)))) ∧
    WellFormed true .movsdA32 ∧ WellFormed false (.prefixOpSize .movsbA16) := by decide +kernel

/-! ### Words written out from the encoding tables (R121 to R126, R130) -/

theorem test_decode_ins :
    decode false [0x6C] = .ok (.insbA16, []) ∧ decode true [0x6C] = .ok (.insbA32, []) ∧
    decode false [0x6D] = .ok (.inswA16, []) ∧ decode true [0x6D] = .ok (.insdA32, []) ∧
    decode false [0x66, 0x6D] = .ok (.prefixOpSize .insdA16, []) ∧
    decode true [0x66, 0x6D] = .ok (.prefixOpSize .inswA32, []) := ⟨rfl, rfl, rfl, rfl, rfl, rfl⟩

theorem test_decode_outs :
    decode false [0x6E] = .ok (.outsbA16, []) ∧ decode true [0x6E] = .ok (.outsbA32, []) ∧
    decode false [0x6F] = .ok (.outswA16, []) ∧ decode true [0x6F] = .ok (.outsdA32, []) ∧
    decode false [0x66, 0x6F] = .ok (.prefixOpSize .outsdA16, []) ∧
    decode true [0x66, 0x6F] = .ok (.prefixOpSize .outswA32, []) := ⟨rfl, rfl, rfl, rfl, rfl, rfl⟩

theorem test_decode_movs :
    decode false [0xA4] = .ok (.movsbA16, []) ∧ decode true [0xA4] = .ok (.movsbA32, []) ∧
    decode false [0xA5] = .ok (.movswA16, []) ∧ decode true [0xA5] = .ok (.movsdA32, []) ∧
    decode false [0x66, 0xA5] = .ok (.prefixOpSize .movsdA16, []) ∧
    decode true [0x66, 0xA5] = .ok (.prefixOpSize .movswA32, []) := ⟨rfl, rfl, rfl, rfl, rfl, rfl⟩

theorem test_decode_cmps :
    decode false [0xA6] = .ok (.cmpsbA16, []) ∧ decode true [0xA6] = .ok (.cmpsbA32, []) ∧
    decode false [0xA7] = .ok (.cmpswA16, []) ∧ decode true [0xA7] = .ok (.cmpsdA32, []) ∧
    decode false [0x66, 0xA7] = .ok (.prefixOpSize .cmpsdA16, []) ∧
    decode true [0x66, 0xA7] = .ok (.prefixOpSize .cmpswA32, []) := ⟨rfl, rfl, rfl, rfl, rfl, rfl⟩

theorem test_decode_stos :
    decode false [0xAA] = .ok (.stosbA16, []) ∧ decode true [0xAA] = .ok (.stosbA32, []) ∧
    decode false [0xAB] = .ok (.stoswA16, []) ∧ decode true [0xAB] = .ok (.stosdA32, []) ∧
    decode false [0x66, 0xAB] = .ok (.prefixOpSize .stosdA16, []) ∧
    decode true [0x66, 0xAB] = .ok (.prefixOpSize .stoswA32, []) := ⟨rfl, rfl, rfl, rfl, rfl, rfl⟩

theorem test_decode_lods :
    decode false [0xAC] = .ok (.lodsbA16, []) ∧ decode true [0xAC] = .ok (.lodsbA32, []) ∧
    decode false [0xAD] = .ok (.lodswA16, []) ∧ decode true [0xAD] = .ok (.lodsdA32, []) ∧
    decode false [0x66, 0xAD] = .ok (.prefixOpSize .lodsdA16, []) ∧
    decode true [0x66, 0xAD] = .ok (.prefixOpSize .lodswA32, []) := ⟨rfl, rfl, rfl, rfl, rfl, rfl⟩

theorem test_decode_scas :
    decode false [0xAE] = .ok (.scasbA16, []) ∧ decode true [0xAE] = .ok (.scasbA32, []) ∧
    decode false [0xAF] = .ok (.scaswA16, []) ∧ decode true [0xAF] = .ok (.scasdA32, []) ∧
    decode false [0x66, 0xAF] = .ok (.prefixOpSize .scasdA16, []) ∧
    decode true [0x66, 0xAF] = .ok (.prefixOpSize .scaswA32, []) := ⟨rfl, rfl, rfl, rfl, rfl, rfl⟩

theorem test_decode_segments :
    decode false [0x26, 0xAC] = .ok (.prefixES .lodsbA16, []) ∧
    decode false [0x2E, 0xAC] = .ok (.prefixCS .lodsbA16, []) ∧
    decode false [0x36, 0xAC] = .ok (.prefixSS .lodsbA16, []) ∧
    decode false [0x3E, 0xAC] = .ok (.prefixDS .lodsbA16, []) ∧
    decode false [0x64, 0xAC] = .ok (.prefixFS .lodsbA16, []) ∧
    decode false [0x65, 0xAC] = .ok (.prefixGS .lodsbA16, []) := ⟨rfl, rfl, rfl, rfl, rfl, rfl⟩

theorem test_decode_prefixes :
    decode false [0x67, 0xAC] = .ok (.prefixAddrSize .lodsbA32, []) ∧
    decode true [0x67, 0xAC] = .ok (.prefixAddrSize .lodsbA16, []) ∧
    decode false [0xF2, 0xA6] = .ok (.prefixRepne .cmpsbA16, []) ∧
    decode false [0xF3, 0xA4] = .ok (.prefixRep .movsbA16, []) ∧
    decode false [0xF0, 0xA4] = .ok (.prefixLock .movsbA16, []) := ⟨rfl, rfl, rfl, rfl, rfl⟩

/-- V20: the refused encodings, and an opcode outside the fourteen. -/
theorem test_decode_refused :
    decode false [0xF2, 0xA4] = .error .prefixCombination ∧
    decode false [0xF3, 0xF3, 0xA4] = .error .prefixCombination ∧
    decode false [0x26, 0x2E, 0xA4] = .error .prefixCombination ∧
    decode false [0xF2, 0xF3, 0xA6] = .error .prefixCombination ∧
    decode false [0x26, 0x66, 0x67, 0xF3, 0xF2, 0xA6] = .error .prefixCombination ∧
    decode false [0xF3, 0x90] = .error .outOfScope := ⟨rfl, rfl, rfl, rfl, rfl, rfl⟩

theorem test_decodeTableWord :
    decodeTableWord 8 0xA4 = some .movsbA16 ∧ decodeTableWord 8 0xAF = some .scaswA16 ∧
    decodeTableWord 16 0xA4F3 = some (.prefixRep .movsbA16) ∧ decodeTableWord 8 0xF3 = none :=
  ⟨rfl, rfl, rfl, rfl⟩

/-! ### One step of every instruction -/

/-- RAM with bytes from an address on. -/
def putBytes (m : List Host.Cell) (a : Nat) : List Byte → List Host.Cell
  | [] => m
  | b :: bs => putBytes (Memory.write m a b) (a + 1) bs

/-- The state of the tests: source bytes at 0x100, destination bytes at 0x200, ports 0x300 to 0x303 outside. -/
def testState (esi edi : Word) : State :=
  { State.reset with
    cpu := { State.reset.cpu with regs := { Regs.zero with
      eax := 0xAABBCCDD, ecx := 3, edx := 0x300, esi := esi, edi := edi } },
    mem := putBytes (putBytes [] 0x100 [0x11, 0x22, 0x33, 0x44]) 0x200 [0x12, 0x22, 0x33, 0x44],
    io := { State.reset.io with inputs := [0x5A, 0x6B, 0x7C, 0x8D], outputs := [] },
    cfg := { Cfg.standard with outsidePorts := [0x300, 0x301, 0x302, 0x303] } }

/-- Index registers whose high halves an address size of 16 leaves alone (R11). -/
def test16 : State := testState 0xABCD0100 0x12340200
/-- The same offsets with an address size of 32. -/
def test32 : State := testState 0x100 0x200
/-- With the direction flag set. -/
def testDown (s : State) : State := s.setFlags 0x402

/-- Something of the next state, if there is one. -/
def nextOf {α : Type} (o : Host.Outcome State Fault Refusal) (f : State → α) : Option α :=
  match o with
  | .next t => some (f t)
  | .fault _ | .refused _ => none

/-- ESI, EDI, `pc` and four bytes of RAM at 0x200. -/
def moved (t : State) : List Word × List Byte :=
  ([t.cpu.regs.esi, t.cpu.regs.edi, t.cpu.pc], (List.range 4).map fun k => Memory.read t.mem (0x200 + k))

/-- ESI, EDI, EAX and the flags. -/
def loaded (t : State) : List Word := [t.cpu.regs.esi, t.cpu.regs.edi, t.cpu.regs.eax, t.cpu.flags]

/-! #### MOVS (R171 to R174) -/

theorem test_movsbA16 : nextOf (exec .movsbA16 test16) moved =
    some ([0xABCD0101, 0x12340201, 0xFFF1], [0x11, 0x22, 0x33, 0x44]) := by decide +kernel
theorem test_movsbA32 : nextOf (exec .movsbA32 test32) moved =
    some ([0x00000101, 0x00000201, 0xFFF1], [0x11, 0x22, 0x33, 0x44]) := by decide +kernel
theorem test_movswA16 : nextOf (exec .movswA16 (testDown test16)) moved =
    some ([0xABCD00FE, 0x123401FE, 0xFFF1], [0x11, 0x22, 0x33, 0x44]) := by decide +kernel
theorem test_movswA32 : nextOf (exec .movswA32 (testDown test32)) moved =
    some ([0x000000FE, 0x000001FE, 0xFFF1], [0x11, 0x22, 0x33, 0x44]) := by decide +kernel
theorem test_movsdA16 : nextOf (exec .movsdA16 test16) moved =
    some ([0xABCD0104, 0x12340204, 0xFFF1], [0x11, 0x22, 0x33, 0x44]) := by decide +kernel
theorem test_movsdA32 : nextOf (exec .movsdA32 test32) moved =
    some ([0x00000104, 0x00000204, 0xFFF1], [0x11, 0x22, 0x33, 0x44]) := by decide +kernel

/-! #### STOS (R175 to R177) -/

theorem test_stosbA16 : nextOf (exec .stosbA16 test16) moved =
    some ([0xABCD0100, 0x12340201, 0xFFF1], [0xDD, 0x22, 0x33, 0x44]) := by decide +kernel
theorem test_stosbA32 : nextOf (exec .stosbA32 test32) moved =
    some ([0x00000100, 0x00000201, 0xFFF1], [0xDD, 0x22, 0x33, 0x44]) := by decide +kernel
theorem test_stoswA16 : nextOf (exec .stoswA16 (testDown test16)) moved =
    some ([0xABCD0100, 0x123401FE, 0xFFF1], [0xDD, 0xCC, 0x33, 0x44]) := by decide +kernel
theorem test_stoswA32 : nextOf (exec .stoswA32 (testDown test32)) moved =
    some ([0x00000100, 0x000001FE, 0xFFF1], [0xDD, 0xCC, 0x33, 0x44]) := by decide +kernel
theorem test_stosdA16 : nextOf (exec .stosdA16 test16) moved =
    some ([0xABCD0100, 0x12340204, 0xFFF1], [0xDD, 0xCC, 0xBB, 0xAA]) := by decide +kernel
theorem test_stosdA32 : nextOf (exec .stosdA32 test32) moved =
    some ([0x00000100, 0x00000204, 0xFFF1], [0xDD, 0xCC, 0xBB, 0xAA]) := by decide +kernel

/-! #### LODS (R179 to R181) -/

theorem test_lodsbA16 : nextOf (exec .lodsbA16 test16) loaded =
    some [0xABCD0101, 0x12340200, 0xAABBCC11, 0x2] := by decide +kernel
theorem test_lodsbA32 : nextOf (exec .lodsbA32 test32) loaded =
    some [0x00000101, 0x00000200, 0xAABBCC11, 0x2] := by decide +kernel
theorem test_lodswA16 : nextOf (exec .lodswA16 (testDown test16)) loaded =
    some [0xABCD00FE, 0x12340200, 0xAABB2211, 0x402] := by decide +kernel
theorem test_lodswA32 : nextOf (exec .lodswA32 (testDown test32)) loaded =
    some [0x000000FE, 0x00000200, 0xAABB2211, 0x402] := by decide +kernel
theorem test_lodsdA16 : nextOf (exec .lodsdA16 test16) loaded =
    some [0xABCD0104, 0x12340200, 0x44332211, 0x2] := by decide +kernel
theorem test_lodsdA32 : nextOf (exec .lodsdA32 test32) loaded =
    some [0x00000104, 0x00000200, 0x44332211, 0x2] := by decide +kernel

/-! #### CMPS (R190, R193 to R195) -/

theorem test_cmpsbA16 : nextOf (exec .cmpsbA16 test16) loaded =
    some [0xABCD0101, 0x12340201, 0xAABBCCDD, 0x97] := by decide +kernel
theorem test_cmpsbA32 : nextOf (exec .cmpsbA32 test32) loaded =
    some [0x00000101, 0x00000201, 0xAABBCCDD, 0x97] := by decide +kernel
theorem test_cmpswA16 : nextOf (exec .cmpswA16 (testDown test16)) loaded =
    some [0xABCD00FE, 0x123401FE, 0xAABBCCDD, 0x497] := by decide +kernel
theorem test_cmpswA32 : nextOf (exec .cmpswA32 (testDown test32)) loaded =
    some [0x000000FE, 0x000001FE, 0xAABBCCDD, 0x497] := by decide +kernel
theorem test_cmpsdA16 : nextOf (exec .cmpsdA16 test16) loaded =
    some [0xABCD0104, 0x12340204, 0xAABBCCDD, 0x97] := by decide +kernel
theorem test_cmpsdA32 : nextOf (exec .cmpsdA32 test32) loaded =
    some [0x00000104, 0x00000204, 0xAABBCCDD, 0x97] := by decide +kernel

/-! #### SCAS (R190, R197 to R199) -/

theorem test_scasbA16 : nextOf (exec .scasbA16 test16) loaded =
    some [0xABCD0100, 0x12340201, 0xAABBCCDD, 0x82] := by decide +kernel
theorem test_scasbA32 : nextOf (exec .scasbA32 test32) loaded =
    some [0x00000100, 0x00000201, 0xAABBCCDD, 0x82] := by decide +kernel
theorem test_scaswA16 : nextOf (exec .scaswA16 (testDown test16)) loaded =
    some [0xABCD0100, 0x123401FE, 0xAABBCCDD, 0x482] := by decide +kernel
theorem test_scaswA32 : nextOf (exec .scaswA32 (testDown test32)) loaded =
    some [0x00000100, 0x000001FE, 0xAABBCCDD, 0x482] := by decide +kernel
theorem test_scasdA16 : nextOf (exec .scasdA16 test16) loaded =
    some [0xABCD0100, 0x12340204, 0xAABBCCDD, 0x802] := by decide +kernel
theorem test_scasdA32 : nextOf (exec .scasdA32 test32) loaded =
    some [0x00000100, 0x00000204, 0xAABBCCDD, 0x802] := by decide +kernel

/-! #### INS (R215 to R217) -/

theorem test_insbA16 : nextOf (exec .insbA16 test16) moved =
    some ([0xABCD0100, 0x12340201, 0xFFF1], [0x5A, 0x22, 0x33, 0x44]) := by decide +kernel
theorem test_insbA32 : nextOf (exec .insbA32 test32) moved =
    some ([0x00000100, 0x00000201, 0xFFF1], [0x5A, 0x22, 0x33, 0x44]) := by decide +kernel
theorem test_inswA16 : nextOf (exec .inswA16 (testDown test16)) moved =
    some ([0xABCD0100, 0x123401FE, 0xFFF1], [0x5A, 0x6B, 0x33, 0x44]) := by decide +kernel
theorem test_inswA32 : nextOf (exec .inswA32 (testDown test32)) moved =
    some ([0x00000100, 0x000001FE, 0xFFF1], [0x5A, 0x6B, 0x33, 0x44]) := by decide +kernel
theorem test_insdA16 : nextOf (exec .insdA16 test16) moved =
    some ([0xABCD0100, 0x12340204, 0xFFF1], [0x5A, 0x6B, 0x7C, 0x8D]) := by decide +kernel
theorem test_insdA32 : nextOf (exec .insdA32 test32) moved =
    some ([0x00000100, 0x00000204, 0xFFF1], [0x5A, 0x6B, 0x7C, 0x8D]) := by decide +kernel

/-! #### OUTS (R219 to R221) -/

theorem test_outsbA16 : nextOf (exec .outsbA16 test16) (fun t => (loaded t, t.io.outputs)) =
    some ([0xABCD0101, 0x12340200, 0xAABBCCDD, 0x2], [.portWrite 0x300 0x11]) := by decide +kernel
theorem test_outsbA32 : nextOf (exec .outsbA32 test32) (fun t => (loaded t, t.io.outputs)) =
    some ([0x00000101, 0x00000200, 0xAABBCCDD, 0x2], [.portWrite 0x300 0x11]) := by decide +kernel
theorem test_outswA16 : nextOf (exec .outswA16 (testDown test16)) (fun t => (loaded t, t.io.outputs)) =
    some ([0xABCD00FE, 0x12340200, 0xAABBCCDD, 0x402], [.portWrite 0x301 0x22, .portWrite 0x300 0x11]) := by
  decide +kernel
theorem test_outswA32 : nextOf (exec .outswA32 (testDown test32)) (fun t => (loaded t, t.io.outputs)) =
    some ([0x000000FE, 0x00000200, 0xAABBCCDD, 0x402], [.portWrite 0x301 0x22, .portWrite 0x300 0x11]) := by
  decide +kernel
theorem test_outsdA16 : nextOf (exec .outsdA16 test16) (fun t => (loaded t, t.io.outputs)) =
    some ([0xABCD0104, 0x12340200, 0xAABBCCDD, 0x2],
      [.portWrite 0x303 0x44, .portWrite 0x302 0x33, .portWrite 0x301 0x22, .portWrite 0x300 0x11]) := by
  decide +kernel
theorem test_outsdA32 : nextOf (exec .outsdA32 test32) (fun t => (loaded t, t.io.outputs)) =
    some ([0x00000104, 0x00000200, 0xAABBCCDD, 0x2],
      [.portWrite 0x303 0x44, .portWrite 0x302 0x33, .portWrite 0x301 0x22, .portWrite 0x300 0x11]) := by
  decide +kernel

/-! #### Prefixes (R124 to R126, R130, R234) -/

/-- A byte of its own at offset 0x100 of each segment. -/
def testSegs : State :=
  let d (b : Word) : SegDesc := .afterReset b false
  { test16 with
    cpu := { test16.cpu with segs :=
      { es := d 0x10000, cs := d 0x20000, ss := d 0x30000, ds := d 0x40000, fs := d 0x50000, gs := d 0x60000 } },
    mem := [(0x10100, 0xE5), (0x20100, 0xC5), (0x30100, 0x55), (0x40100, 0xD5), (0x50100, 0xF5), (0x60100, 0x65)] }

theorem test_prefixES : nextOf (exec (.prefixES .lodsbA16) testSegs) (fun t => (t.cpu.regs.eax, t.cpu.pc)) =
    some (0xAABBCCE5, 0xFFF2) := by decide +kernel
theorem test_prefixCS : nextOf (exec (.prefixCS .lodsbA16) testSegs) (fun t => (t.cpu.regs.eax, t.cpu.pc)) =
    some (0xAABBCCC5, 0xFFF2) := by decide +kernel
theorem test_prefixSS : nextOf (exec (.prefixSS .lodsbA16) testSegs) (fun t => (t.cpu.regs.eax, t.cpu.pc)) =
    some (0xAABBCC55, 0xFFF2) := by decide +kernel
theorem test_prefixDS : nextOf (exec (.prefixDS .lodsbA16) testSegs) (fun t => (t.cpu.regs.eax, t.cpu.pc)) =
    some (0xAABBCCD5, 0xFFF2) := by decide +kernel
theorem test_prefixFS : nextOf (exec (.prefixFS .lodsbA16) testSegs) (fun t => (t.cpu.regs.eax, t.cpu.pc)) =
    some (0xAABBCCF5, 0xFFF2) := by decide +kernel
theorem test_prefixGS : nextOf (exec (.prefixGS .lodsbA16) testSegs) (fun t => (t.cpu.regs.eax, t.cpu.pc)) =
    some (0xAABBCC65, 0xFFF2) := by decide +kernel
theorem test_prefixOpSize : nextOf (exec (.prefixOpSize .stosdA16) test16) moved =
    some ([0xABCD0100, 0x12340204, 0xFFF2], [0xDD, 0xCC, 0xBB, 0xAA]) := by decide +kernel
theorem test_prefixAddrSize : nextOf (exec (.prefixAddrSize .stosbA32) test32) moved =
    some ([0x100, 0x201, 0xFFF2], [0xDD, 0x22, 0x33, 0x44]) := by decide +kernel
/-- V18: the count goes down and `pc` stays while it is not used up. -/
theorem test_prefixRep_goes_on : nextOf (exec (.prefixRep .stosbA16) test16) (fun t => (t.cpu.regs.ecx, moved t)) =
    some (2, [0xABCD0100, 0x12340201, 0xFFF0], [0xDD, 0x22, 0x33, 0x44]) := by decide +kernel
/-- V18: REPE stops at the first difference. -/
theorem test_prefixRep_repe_stops : nextOf (exec (.prefixRep .cmpsbA16) test16) (fun t => (t.cpu.regs.ecx, t.cpu.pc)) =
    some (2, 0xFFF2) := by decide +kernel
/-- V18: REPNE goes on while the bytes differ. -/
theorem test_prefixRepne : nextOf (exec (.prefixRepne .scasbA16) test16) (fun t => (t.cpu.regs.ecx, t.cpu.pc)) =
    some (2, 0xFFF0) := by decide +kernel
theorem test_prefixLock : exec (.prefixLock .movsbA16) test16 = .refused .lock := rfl

/-! #### The machine -/

/-- A whole step from reset with REP STOSB placed where the fetch reads. -/
theorem test_step_withFetchWord :
    nextOf (step ((State.reset.withFetchWord 16 0xA4F3).setRegs { Regs.zero with ecx := 2 }))
      (fun t => (t.cpu.regs.ecx, t.cpu.pc)) = some (1, 0xFFF0) := by decide +kernel
/-- V19: an element past the limit is an abort that commits nothing. -/
theorem test_abort : nextOf (exec .stosdA16 (testState 0 0xFFFD)) (fun t => (t.cpu.abrt, t.cpu.regs.edi, t.cpu.pc)) =
    some (some (.segLimit .es), 0xFFFD, 0xFFF0) := by decide +kernel

/-! ### What meets the hypotheses of each statement -/

/-- No event stands at this step boundary, no timer is due and no abort is pending. -/
abbrev CpuMoves (s : State) : Prop :=
  (∀ e, s.agenda.head? ≠ some (some e)) ∧ timerDue s = false ∧ s.cpu.abrt = none

/-- What an operation answers, if it did not abort. -/
def okOf {α : Type} (r : Res α) : Option α :=
  match r with
  | .ok a _ => some a
  | .abort _ _ => none

theorem ok_of_okOf {α : Type} {r : Res α} {a : α} (h : okOf r = some a) : ∃ s, r = .ok a s := by
  cases r with
  | ok b s => exact ⟨s, by simpa [okOf] using h⟩
  | abort k s => simp [okOf] at h

theorem abort_of_okOf {α : Type} {r : Res α} (h : okOf r = none) : ∃ k s, r = .abort k s := by
  cases r with
  | ok b s => simp [okOf] at h
  | abort k s => exact ⟨k, s, rfl⟩

theorem next_of_nextOf {α : Type} {o : Host.Outcome State Fault Refusal} {f : State → α} {v : α}
    (h : nextOf o f = some v) : ∃ t, o = .next t ∧ f t = v := by
  cases o with
  | next t => exact ⟨t, rfl, by simpa [nextOf] using h⟩
  | fault e => simp [nextOf] at h
  | refused e => simp [nextOf] at h

theorem runs_of_nextOf {o : Host.Outcome State Fault Refusal} (h : (nextOf o fun _ => true) = some true) :
    ∃ t, o = .next t := (next_of_nextOf h).imp fun _ ht => ht.1

theorem forall_of_all {α : Type} {l : List α} {P : α → Prop} [DecidablePred P]
    (h : (l.all fun a => decide (P a)) = true) : ∀ a ∈ l, P a := by simpa using h

theorem noEvent {s : State} (h : s.agenda.head?.join = none) : ∀ e, s.agenda.head? ≠ some (some e) := by
  intro e he
  simp [he] at h

/-- The longest instruction, and its bytes. -/
def longest : Instr := .prefixES (.prefixOpSize (.prefixAddrSize (.prefixRep .movsdA32)))
def longestBytes : List Byte := [0x26, 0x66, 0x67, 0xF3, 0xA5]

theorem witness_DecodeEncode : WellFormed false longest ∧ encode longest = longestBytes ∧
    WellFormed true (.prefixAddrSize .scasdA16) := by decide +kernel

theorem witness_DecodeSound : decode false (longestBytes ++ [0x90]) = .ok (longest, [0x90]) ∧
    decode true [0x66, 0xAB] = .ok (.prefixOpSize .stoswA32, []) := ⟨rfl, rfl⟩

theorem witness_DecodeRefusals_scope :
    ([Pfx.es, .opSize, .addrSize, .rep].length ≤ 4 ∧ Pfx.ofByte? 0x90 = none) ∧
    (0x90#8) ∉ [0x6C#8, 0x6D, 0x6E, 0x6F, 0xA4, 0xA5, 0xA6, 0xA7, 0xAA, 0xAB, 0xAC, 0xAD, 0xAE, 0xAF] := by
  decide +kernel
theorem witness_DecodeRefusals_prefixes :
    4 < [Pfx.es, .opSize, .addrSize, .rep, .lock].length ∧ ¬ [Pfx.rep, .rep].Nodup ∧
    (∃ p ∈ [Pfx.es, .cs], ∃ q ∈ [Pfx.es, .cs], p ≠ q ∧ p.seg?.isSome ∧ q.seg?.isSome) ∧
    (Pfx.rep ∈ [Pfx.rep, .repne] ∧ Pfx.repne ∈ [Pfx.rep, .repne]) ∧
    (Pfx.repne ∈ [Pfx.repne] ∧ Family.stos.compares = false) := by decide +kernel

/-- State.reset with the longest instruction placed at its first fetch. -/
def placed : State := State.reset.withFetchWord 40 0xA5F3676626

theorem witness_StepRunsDecoded : CpuMoves placed ∧
    ∃ bytes s1 i rest, fetch (timerTick (placed.setAgenda placed.agenda.tail)) = .ok bytes s1 ∧
      decode placed.cpu.default32 bytes = .ok (i, rest) :=
  ⟨⟨noEvent (by decide +kernel), by decide +kernel, by decide +kernel⟩, longestBytes,
    (ok_of_okOf (a := longestBytes) (by decide +kernel)).imp fun _ h => ⟨longest, [], h, rfl⟩⟩

/-- A byte that is no opcode of the block, and one prefix byte more than an instruction may have. -/
theorem witness_StepRunsDecoded_refused :
    ∀ e ∈ [(8, 0x90, [0x90#8], DecodeReject.outOfScope), (48, 0xA5F367662626, [0x26, 0x26, 0x66, 0x67, 0xF3, 0xA5],
      .prefixCombination)], let s := placeFrom (bytesOfNat 6 e.2.1) 0 State.reset
    timerDue s = false ∧ s.cpu.abrt = none ∧ okOf (fetch (timerTick (s.setAgenda s.agenda.tail))) = some e.2.2.1 ∧
      decode s.cpu.default32 e.2.2.1 = .error e.2.2.2 := by decide +kernel
theorem witness_StepRunsEncodedInRam_longest : CpuMoves placed ∧ PagingOff placed ∧
    WellFormed placed.cpu.default32 longest ∧
    (∀ k, k < longest.length → RamOperand placed .cs (fetchOffset placed.cpu k) 1 .read ∧
      (encode longest)[k]? = some (ramByte placed (byteAddr placed .cs (fetchOffset placed.cpu k) 0))) :=
  ⟨⟨noEvent (by decide +kernel), by decide +kernel, by decide +kernel⟩, by decide +kernel, by decide +kernel,
    by decide +kernel⟩
theorem witness_StepRunsEncodedInRam_shortest : let s := State.reset.withFetchWord 8 0xAE
    CpuMoves s ∧ PagingOff s ∧ WellFormed s.cpu.default32 .scasbA16 ∧
    (∀ k, k < Instr.length .scasbA16 → RamOperand s .cs (fetchOffset s.cpu k) 1 .read ∧
      (encode .scasbA16)[k]? = some (ramByte s (byteAddr s .cs (fetchOffset s.cpu k) 0))) :=
  ⟨⟨noEvent (by decide +kernel), by decide +kernel, by decide +kernel⟩, by decide +kernel, by decide +kernel,
    by decide +kernel⟩

/-- Code that runs into the limit of CS: `pc` is 0x10, seven prefixes stand there. -/
def nearLimit (limit : Word) : State :=
  { State.reset with
    cpu := { State.reset.cpu with pc := 0x10, segs := { SegRegs.afterReset with
      cs := { SegDesc.afterReset 0 false with limitHi := limit } } },
    mem := putBytes [] 0x10 [0x26, 0x66, 0x67, 0xF3, 0x2E, 0xF0, 0x26] }

theorem witness_FetchAborts_first : CpuMoves (nearLimit 0xF) ∧ PagingOff (nearLimit 0xF) ∧
    segCheck .cs (nearLimit 0xF).cpu.segs.cs (fetchOffset (nearLimit 0xF).cpu 0) 1 .read =
      some (.segLimit .cs) := ⟨⟨noEvent (by decide +kernel), by decide +kernel, by decide +kernel⟩, by decide +kernel, by decide +kernel⟩
theorem witness_FetchAborts_prefixes : let s := nearLimit 0x16
    CpuMoves s ∧ PagingOff s ∧ 7 < codeTurn s.cpu.default32 ∧
    (∀ n, n < 7 → RamOperand s .cs (fetchOffset s.cpu n) 1 .read ∧
      Pfx.ofByte? (ramByte s (byteAddr s .cs (fetchOffset s.cpu n) 0)) ≠ none) ∧
    segCheck .cs s.cpu.segs.cs (fetchOffset s.cpu 7) 1 .read = some (.segLimit .cs) :=
  ⟨⟨noEvent (by decide +kernel), by decide +kernel, by decide +kernel⟩, by decide +kernel, by decide +kernel,
    by decide +kernel, by decide +kernel⟩

/-- A fetch whose first byte, a prefix, lies outside, with an answer supplied and the next byte past the limit. -/
def prefixOutside : State :=
  { nearLimit 0x10 with
    io := { (nearLimit 0x10).io with inputs := [0x26, 0x27] },
    cfg := { Cfg.standard with physMap := [⟨0x10, 0x10, .outside⟩, ⟨0x11, 0x20, .ram⟩] } }

/-- The answer is supplied again (R232, log 27). -/
theorem witness_FetchAborts_outside : CpuMoves prefixOutside ∧ PagingOff prefixOutside ∧
    (∃ k t, fetch (timerTick (prefixOutside.setAgenda prefixOutside.agenda.tail)) = .abort k t) ∧
    nextOf (step prefixOutside) (fun t => (t.io.inputs, t.io.drawn, t.cpu.abrt)) =
      some (prefixOutside.io.inputs, prefixOutside.io.drawn, some (.segLimit .cs)) :=
  ⟨⟨noEvent (by decide +kernel), by decide +kernel, by decide +kernel⟩, by decide +kernel,
    abort_of_okOf (by decide +kernel), by decide +kernel⟩

theorem witness_AbortDelivery_stops : let s := State.reset.setAbrt (some (.segLimit .es))
    (∀ e, s.agenda.head? ≠ some (some e)) ∧ s.cpu.abrt = some (.segLimit .es) ∧
      s.io.bridge.timerArmed = false := ⟨noEvent (by decide +kernel), by decide +kernel, by decide +kernel⟩
theorem witness_AbortDelivery_delivers : ∃ s : State, ∃ c rest,
    s.agenda = some (.deliver [] c) :: rest ∧ s.cpu.abrt ≠ none :=
  ⟨(test16.setAbrt (some (.segLimit .es))).setAgenda [some (.deliver [] test16.cpu)], _, _, rfl, nofun⟩

/-- A stopped CPU and an armed timer. -/
def timerArmedFor (n : Nat) : State :=
  (State.reset.setAbrt (some (.segLimit .es))).setIo
    (State.reset.io.mapBridge fun b => { b with timerArmed := true, timerWait := n })

theorem witness_TimerFires : ∀ n ∈ [0, 3], (timerArmedFor n).agenda = [] ∧
    (timerArmedFor n).cpu.abrt = some (.segLimit .es) ∧ (timerArmedFor n).io.bridge.timerArmed = true ∧
    (timerArmedFor n).io.bridge.timerWait = n := by decide +kernel

/-- A timer that is due, with the CPU running. -/
theorem witness_TimerFires_running : let s := (timerArmedFor 0).setAbrt none
    (∀ e, s.agenda.head? ≠ some (some e)) ∧ s.cpu.abrt = none ∧ s.io.bridge.timerArmed = true ∧
      s.io.bridge.timerWait = 0 := ⟨noEvent (by decide +kernel), by decide +kernel, by decide +kernel, by decide +kernel⟩

theorem witness_CpuResetEvent : (test16.setAgenda [some .cpuReset, none]).agenda = some .cpuReset :: [none] ∧
    (test16.setAgenda [some .adapterReset]).agenda = some .adapterReset :: [] := ⟨rfl, rfl⟩

/-! #### The families -/

/-- The same state in protected mode at privilege level 3 with IOPL 3. -/
def protectedMode (s : State) : State :=
  { s with cpu := { s.cpu with flags := 0x3002, sys := { s.cpu.sys with pe := true, cpl := 3 } } }

/-- Operands that end at the last byte the segments hold. -/
def atLimit : State := testState 0xFFFC 0xFFFC

/-- The conditions the family statements share. -/
abbrev Ready (i : Instr) (s : State) : Prop := Iterates i s ∧ PagingOff s ∧ Memory.wf s.mem = true

theorem witness_MovsResult :
    (Ready .movsdA16 atLimit ∧ RamOperand atLimit (segOf .movsdA16) (srcOff .movsdA16 atLimit) 4 .read ∧
      RamOperand atLimit .es (dstOff .movsdA16 atLimit) 4 .write) ∧
    (Ready longest test32 ∧ RamOperand test32 (segOf longest) (srcOff longest test32) (elemBytes longest) .read ∧
      RamOperand test32 .es (dstOff longest test32) (elemBytes longest) .write) :=
  ⟨by decide +kernel, by decide +kernel⟩
theorem witness_StosResult :
    (Ready .stosdA16 atLimit ∧ RamOperand atLimit .es (dstOff .stosdA16 atLimit) 4 .write) ∧
    (Ready (.prefixRep .stosbA16) test16 ∧ RamOperand test16 .es (dstOff .stosbA16 test16) 1 .write) := by
  decide +kernel
theorem witness_LodsResult :
    (Ready .lodsdA16 atLimit ∧ RamOperand atLimit (segOf .lodsdA16) (srcOff .lodsdA16 atLimit) 4 .read) ∧
    (Ready (.prefixGS (.prefixRep .lodswA16)) test16 ∧ RamOperand test16 .gs (srcOff .lodswA16 test16) 2 .read) := by
  decide +kernel
theorem witness_CmpsResult :
    (Ready .cmpsdA16 atLimit ∧ RamOperand atLimit (segOf .cmpsdA16) (srcOff .cmpsdA16 atLimit) 4 .read ∧
      RamOperand atLimit .es (dstOff .cmpsdA16 atLimit) 4 .read) ∧
    (Ready (.prefixRepne .cmpsbA16) test16 ∧ RamOperand test16 .ds (srcOff .cmpsbA16 test16) 1 .read ∧
      RamOperand test16 .es (dstOff .cmpsbA16 test16) 1 .read) :=
  ⟨by decide +kernel, by decide +kernel⟩
theorem witness_ScasResult :
    (Ready .scasdA16 atLimit ∧ RamOperand atLimit .es (dstOff .scasdA16 atLimit) 4 .read) ∧
    (Ready (.prefixRep .scaswA16) test16 ∧ RamOperand test16 .es (dstOff .scaswA16 test16) 2 .read) := by
  decide +kernel
theorem witness_InsResult :
    (Ready .insdA16 atLimit ∧ IoOpen atLimit ∧ RamOperand atLimit .es (dstOff .insdA16 atLimit) 4 .write) ∧
    (Ready (.prefixRep .insbA16) (protectedMode test16) ∧ IoOpen (protectedMode test16) ∧
      RamOperand (protectedMode test16) .es (dstOff .insbA16 test16) 1 .write) := by decide +kernel
theorem witness_OutsResult :
    (Ready .outsdA16 atLimit ∧ IoOpen atLimit ∧ RamOperand atLimit .ds (srcOff .outsdA16 atLimit) 4 .read) ∧
    (Ready (.prefixRep .outsbA16) (protectedMode test16) ∧ IoOpen (protectedMode test16) ∧
      RamOperand (protectedMode test16) .ds (srcOff .outsbA16 test16) 1 .read) := by decide +kernel

/-- The port-mapped register file at 0x300, the destination at 0x200, DS over the bridge window. -/
def withDevices (edx esi : Word) : State :=
  { test16 with
    cpu := { test16.cpu with
      regs := { test16.cpu.regs with edx := edx, esi := esi },
      segs := { SegRegs.afterReset with ds := .afterReset 0x000DC000 false } },
    cfg := { Cfg.standard with ncrPortBase := some 0x300 } }

theorem witness_DeviceBytesStored_port : ∀ n ∈ [0#3, 7#3], let s := withDevices (0x300 + n.setWidth 32) 0
    s.cpu.abrt = none ∧ PagingOff s ∧ Memory.wf s.mem = true ∧ RamOperand s .es (dstOff .insbA16 s) 1 .write ∧
    IoOpen s ∧ s.cfg.ncrPortBase = some 0x300 ∧ dx s.cpu.regs = 0x300 + n.setWidth 16 := by decide +kernel
theorem witness_DeviceBytesStored_window : ∀ off ∈ [0x1E00, 0x1FFF], let s := withDevices 0 (BitVec.ofNat 32 off)
    s.cpu.abrt = none ∧ PagingOff s ∧ Memory.wf s.mem = true ∧ RamOperand s .es (dstOff .movsbA16 s) 1 .write ∧
    s.cfg.t128Map = .standard ∧ SegAllows s.cpu.segs.ds (srcOff .movsbA16 s) 1 .read ∧
    physTarget s.cfg (byteAddr s .ds (srcOff .movsbA16 s) 0) = .t128 off := by decide +kernel

/-- DS over RAM, ES over the bridge window. -/
def toDevices (edx edi : Word) : State :=
  { withDevices edx 0x100 with
    cpu := { test16.cpu with
      regs := { test16.cpu.regs with edx := edx, esi := 0x100, edi := edi },
      segs := { SegRegs.afterReset with es := .afterReset 0x000DC000 false } } }

theorem witness_DeviceBytesStored_portOut : let s := toDevices 0x304 0
    s.cpu.abrt = none ∧ PagingOff s ∧ Memory.wf s.mem = true ∧ RamOperand s .ds (srcOff .outsbA16 s) 1 .read ∧
    IoOpen s ∧ s.cfg.ncrPortBase = some 0x300 ∧ dx s.cpu.regs = 0x300 + (4#3).setWidth 16 := by decide +kernel
theorem witness_DeviceBytesStored_windowOut : ∀ off ∈ [0x1E00, 0x1FFF], let s := toDevices 0 (BitVec.ofNat 32 off)
    s.cpu.abrt = none ∧ PagingOff s ∧ Memory.wf s.mem = true ∧ RamOperand s .ds (srcOff .movsbA16 s) 1 .read ∧
    s.cfg.t128Map = .standard ∧ SegAllows s.cpu.segs.es (dstOff .movsbA16 s) 1 .write ∧
    physTarget s.cfg (byteAddr s .es (dstOff .movsbA16 s) 0) = .t128 off := by decide +kernel
/-- Addresses at both ends of each region of the window, an address where nothing is mapped, and ports beside the
register file. -/
theorem witness_DeviceBytesStored_regions :
    (∀ off ∈ [0, 0x1BFF, 0x1C00, 0x1C1F, 0x1C20, 0x1C3F, 0x1C40, 0x1CFF, 0x1D00, 0x1DFF, 0x1E00, 0x1FFF, 0x2000,
      0x3FFF], physTarget test16.cfg (0x000DC000 + BitVec.ofNat 32 off) = .t128 off) ∧
    test16.cfg.t128Map = .standard ∧ physTarget { Cfg.standard with physMap := [] } 0 = .unmapped ∧
    (∀ port ∈ [0x2FF, 0x308], let s := withDevices 0 0
      (s.cfg.ncrPortBase.all fun base => 8 ≤ (BitVec.ofNat 16 port - base).toNat) = true ∧
        BitVec.ofNat 16 port ∉ s.cfg.outsidePorts) := by decide +kernel

/-- Regions that share an address, of either kind first, with nothing from 0x11 to 0xFFF. -/
def overlapping (first second : RegionKind) : Cfg :=
  { Cfg.standard with physMap := [⟨0x0, 0xF, first⟩, ⟨0xF, 0x10, second⟩, ⟨0x1000, 0xFFFFFFFF, .ram⟩] }

/-- R72, R160, log 21: both ends of the T128 window and of each region, and the address two regions share. -/
theorem test_physTarget : let c := overlapping .ram .outside
    [0x0, 0xF, 0x10, 0x11, 0xFFF, 0x1000, 0xDBFFF, 0xDC000, 0xDFFFF, 0xE0000, 0xFFFFFFFF].map (physTarget c) =
      [.ram, .ram, .outside, .unmapped, .unmapped, .ram, .ram, .t128 0, .t128 0x3FFF, .ram, .ram] ∧
    physTarget (overlapping .outside .ram) 0xF = .outside := by decide +kernel

theorem witness_DeviceBytesStored_map : let c := overlapping .ram .outside
    let holds (a : Word) (r : Region) : Prop := r.lo.toNat ≤ a.toNat ∧ a.toNat ≤ r.hi.toNat
    (∀ a ∈ [0xDC000, 0xDFFFF], (BitVec.ofNat 32 a - c.t128Base).toNat < 0x4000) ∧
    (∀ a ∈ [0xF, 0x10, 0x11, 0xDBFFF, 0xE0000], 0x4000 ≤ (BitVec.ofNat 32 a - c.t128Base).toNat) ∧
    (∃ before r after, c.physMap = before ++ r :: after ∧ (∀ q ∈ before, ¬ holds 0x10 q) ∧ holds 0x10 r ∧
      r.kind = .outside) ∧
    (∃ r after, c.physMap = r :: after ∧ holds 0xF r ∧ r.kind = .ram ∧ ∃ q ∈ after, holds 0xF q) ∧
    (∀ q ∈ c.physMap, ¬ holds 0x11 q) :=
  ⟨by decide +kernel, by decide +kernel, ⟨[⟨0x0, 0xF, .ram⟩], ⟨0xF, 0x10, .outside⟩, [⟨0x1000, 0xFFFFFFFF, .ram⟩],
    by decide +kernel⟩, ⟨⟨0x0, 0xF, .ram⟩, [⟨0xF, 0x10, .outside⟩, ⟨0x1000, 0xFFFFFFFF, .ram⟩], by decide +kernel⟩,
    by decide +kernel⟩

/-- An outside port beside the register file and an outside address, an answer supplied. -/
theorem witness_DeviceBytesStored_outside :
    (∀ port ∈ [0x300, 0x303], (test16.cfg.ncrPortBase.all fun base => 8 ≤ (BitVec.ofNat 16 port - base).toNat) = true ∧
      BitVec.ofNat 16 port ∈ test16.cfg.outsidePorts) ∧ test16.io.inputs ≠ [] ∧
    physTarget (overlapping .ram .outside) 0x10 = .outside := by decide +kernel

/-- Paging on: page 0 lies at 0x3000, with the bits given in the entry of the directory and in that of the table. -/
def paged (pde pte : Byte) : State :=
  { test16 with
    cpu := { test16.cpu with sys := { test16.cpu.sys with pe := true, pg := true, cr3 := 0x1000, cpl := 3 } },
    mem := putBytes (putBytes [] 0x1000 [pde, 0x20]) 0x2000 [pte, 0x30] }

/-- Paging on, a prefix at the end of page 0 and no page 1: the walk of the first byte leaves its marks, that of the
second its address (R366). -/
theorem witness_FetchAborts_paged :
    let p := paged 7 7
    let s := { p with
      cpu := { p.cpu with pc := 0xFFF, segs := { p.cpu.segs with cs := .afterReset 0 false } },
      mem := Memory.write p.mem 0x3FFF 0x26 }
    CpuMoves s ∧ s.cfg.paging = .reference ∧ Memory.wf s.mem = true ∧
    (∃ k t, fetch (timerTick (s.setAgenda s.agenda.tail)) = .abort k t) ∧
    nextOf (step s) (fun t => (t.cpu.abrt, t.cpu.sys.cr2, Memory.read t.mem 0x1000, Memory.read t.mem 0x2000)) =
      some (some (.pageFault 0x1000 .read), 0x1000, 0x27, 0x27) :=
  ⟨⟨noEvent (by decide +kernel), by decide +kernel, by decide +kernel⟩, by decide +kernel, by decide +kernel,
    abort_of_okOf (by decide +kernel), by decide +kernel⟩

/-- Protected mode at privilege level 3 with IOPL 0, and a task state segment of a limit. -/
def ioGuarded (limit : Word) : State :=
  { test16 with
    cpu := { test16.cpu with sys := { test16.cpu.sys with
      pe := true, cpl := 3, tssBase := 0x5000, tssLimit := limit } },
    mem := putBytes [(0x5066, 0x68)] 0x50C8 [0x10] }

theorem witness_TranslatedOperands :
    (∀ p ∈ [0x3100#32, 0x3101, 0x3200, 0x3201], physTarget (paged 7 7).cfg p = .ram) ∧
    (∀ i ∈ [Instr.lodswA16, .scaswA16, .stoswA16, .movswA16, .prefixRep .cmpswA16, .inswA16, .outswA16],
      Iterates i (paged 7 7)) ∧ Memory.wf (paged 7 7).mem = true ∧ [0x3200#32, 0x3201].Nodup :=
  ⟨forall_of_all (by decide +kernel), forall_of_all (by decide +kernel), by decide +kernel, by decide +kernel⟩
/-- What each family's operands translate to, with the ports open. -/
theorem witness_TranslatedOperands_translate :
    let s := (paged 7 7).setFlags 0x3002
    let src : List Word := [0x3100, 0x3101]
    let dst : List Word := [0x3200, 0x3201]
    (∃ w, translateOperands .lodswA16 s = .ok (src, []) w) ∧ (∃ w, translateOperands .scaswA16 s = .ok ([], dst) w) ∧
    (∃ w, translateOperands .stoswA16 s = .ok ([], dst) w) ∧ (∃ w, translateOperands .movswA16 s = .ok (src, dst) w) ∧
    (∃ w, translateOperands (.prefixRep .cmpswA16) s = .ok (src, dst) w) ∧
    (∃ w, translateOperands .inswA16 s = .ok ([], dst) w) ∧ (∃ w, translateOperands .outswA16 s = .ok (src, []) w) :=
  ⟨ok_of_okOf (by decide +kernel), ok_of_okOf (by decide +kernel), ok_of_okOf (by decide +kernel),
    ok_of_okOf (by decide +kernel), ok_of_okOf (by decide +kernel), ok_of_okOf (by decide +kernel),
    ok_of_okOf (by decide +kernel)⟩
/-- Pages that do not admit the write, and a port that is denied. -/
theorem witness_TranslatedOperands_abort :
    (Iterates .movswA16 (paged 5 5) ∧ ∃ k w, translateOperands .movswA16 (paged 5 5) = .abort k w) ∧
    (Iterates .insbA16 (ioGuarded 0x66) ∧ ∃ k w, translateOperands .insbA16 (ioGuarded 0x66) = .abort k w) :=
  ⟨⟨by decide +kernel, abort_of_okOf (by decide +kernel)⟩, ⟨by decide +kernel, abort_of_okOf (by decide +kernel)⟩⟩

/-- V19g: a doubleword over two pages of which the second is not writable: no byte of it is written. -/
theorem test_V19g :
    let s := { testState 0 0x1FFE with
      cpu := { (testState 0 0x1FFE).cpu with sys := { sysAfterReset with pe := true, pg := true, cr3 := 0x8000, cpl := 3 } },
      mem := putBytes (putBytes [] 0x8000 [7, 0x90]) 0x9004 [7, 0x10, 0, 0, 5, 0x20] }
    nextOf (exec (.prefixOpSize .stosdA16) s) (fun t => (t.cpu.abrt, t.cpu.regs.edi,
      (List.range 4).map fun k => Memory.read t.mem (0x1FFE + k))) =
    some (some (.pageFault 0x2000 .write), 0x1FFE, [0, 0, 0, 0]) := by decide +kernel

/-! #### All instructions -/

/-- The source in the bridge window and the destination where nothing answers. -/
def oddPlaces : State :=
  { withDevices 0x300 0x1E00 with
    cfg := { Cfg.standard with physMap := [] } }

theorem witness_IterationCompletes :
    (Iterates .movsdA16 oddPlaces ∧ PagingOff oddPlaces ∧ firstAbort .movsdA16 oddPlaces = none) ∧
    (Iterates (.prefixRep .outsbA16) oddPlaces ∧ IoOpen oddPlaces ∧
      firstAbort (.prefixRep .outsbA16) oddPlaces = none) := by decide +kernel

/-- The source's segment is not readable, and the destination ends one byte past its limit. -/
def badOperands : State :=
  { testState 0 0xFFFD with
    cpu := { (testState 0 0xFFFD).cpu with segs := { SegRegs.afterReset with
      ds := { SegDesc.afterReset 0 false with readable := false } } } }

theorem witness_FirstAbortTaken :
    (Iterates .movsdA16 badOperands ∧ PagingOff badOperands ∧
      firstAbort .movsdA16 badOperands = some (.segAccess .ds .read)) ∧
    (Iterates (.prefixRep .insdA16) badOperands ∧ IoOpen badOperands ∧
      firstAbort (.prefixRep .insdA16) badOperands = some (.segLimit .es)) := by decide +kernel

theorem witness_IoDenied : ∀ i ∈ [.insdA16, .prefixRep .outsbA16], let s := ioGuarded 0x66
    Iterates i s ∧ Family.isIo i.handler.fam = true ∧ s.cfg.ioPolicy = .reference ∧ s.cpu.sys.pe = true ∧
    iopl s.cpu.flags < s.cpu.sys.cpl ∧ s.cpu.sys.tssLimit < 0x67 := by decide +kernel

theorem witness_IoBitmap : ∀ limit ∈ [0x67, 0xC8, 0xC9], let s := ioGuarded (BitVec.ofNat 32 limit)
    s.cfg.ioPolicy = .reference ∧ s.cpu.sys.pe = true ∧ iopl s.cpu.flags < s.cpu.sys.cpl ∧
    ¬ s.cpu.sys.tssLimit < 0x67 ∧ PagingOff s ∧ physTarget s.cfg 0x5066 = .ram ∧ physTarget s.cfg 0x5067 = .ram ∧
    (0x300#16).toNat / 8 + (ramByte s 0x5066).toNat + 256 * (ramByte s 0x5067).toNat = 0xC8 := by decide +kernel
theorem witness_IoBitmap_clauses : let s := ioGuarded 0xC9
    (ioGuarded 0xC8).cpu.sys.tssLimit.toNat < 0xC8 + 1 ∧ 0xC8 + 1 ≤ s.cpu.sys.tssLimit.toNat ∧
    physTarget s.cfg 0x50C8 = .ram ∧ physTarget s.cfg 0x50C9 = .ram ∧
    (ramByte s 0x50C8).setWidth 16 ||| ((ramByte s 0x50C9).setWidth 16 <<< 8) = (0x0010 : Half) ∧
    (∀ k, k < Size.bytes .dword → (0x0010 : Half).getLsbD ((0x300#16).toNat % 8 + k) = false) ∧
    (∃ k ∈ List.range 4, (0x0010 : Half).getLsbD ((0x301#16).toNat % 8 + k) = true) := by decide +kernel

/-- The check passes, fails, and meets a page fault. -/
theorem witness_IoBitmap_pure :
    (∃ t, ioCheck 0x300 .dword (ioGuarded 0xC9) = .ok () t) ∧
    (∃ k t, ioCheck 0x301 .dword (ioGuarded 0xC9) = .abort k t) ∧
    (∃ k t, ioCheck 0x300 .byte { ioGuarded 0xC9 with
      cpu := { (ioGuarded 0xC9).cpu with sys := { (ioGuarded 0xC9).cpu.sys with pg := true } } } = .abort k t) :=
  ⟨(ok_of_okOf (by decide +kernel)), abort_of_okOf (by decide +kernel), abort_of_okOf (by decide +kernel)⟩

/-- The bitmap in a window outside the block: two bytes to draw. -/
theorem witness_IoBitmap_draws :
    let s := { ioGuarded 0xC9 with
      cfg := { Cfg.standard with physMap := [⟨0x5000, 0x5FFF, .outside⟩] },
      io := { State.reset.io with inputs := [0x68, 0x00] } }
    PagingOff s ∧ physTarget s.cfg 0x5066 = .outside ∧ physTarget s.cfg (0x5066 + 1) = .outside ∧
    s.io.inputs = 0x68 :: 0x00 :: [] ∧ okOf (sysRead 2 0x5066 s) = some [0x68, 0x00] := by decide +kernel

/-- For every family, a form of it that takes a step. -/
theorem witness_RegisterFrame_FlagsFrame_MemoryFrame :
    (∃ t, exec .movsdA32 test32 = .next t) ∧ (∃ t, exec (.prefixRep .stosbA16) test16 = .next t) ∧
    (∃ t, exec (.prefixGS .lodswA16) test16 = .next t) ∧ (∃ t, exec (.prefixRepne .cmpsbA16) test16 = .next t) ∧
    (∃ t, exec .scaswA16 test16 = .next t) ∧ (∃ t, exec .insbA16 test16 = .next t) ∧
    (∃ t, exec .outsdA16 test16 = .next t) ∧ PagingOff test16 ∧ PagingOff test32 :=
  ⟨runs_of_nextOf (by decide +kernel), runs_of_nextOf (by decide +kernel), runs_of_nextOf (by decide +kernel),
    runs_of_nextOf (by decide +kernel), runs_of_nextOf (by decide +kernel), runs_of_nextOf (by decide +kernel),
    runs_of_nextOf (by decide +kernel), rfl, rfl⟩

theorem witness_AbortIsPrecise : (badOperands.cpu.abrt = none ∧ PagingOff badOperands ∧
      ∃ t, exec .insdA16 badOperands = .next t ∧ t.cpu.abrt = some (.segLimit .es)) ∧
    ((paged 7 6).cpu.abrt = none ∧ (paged 7 6).cfg.paging = .reference ∧ Memory.wf (paged 7 6).mem = true ∧
      ∃ t, exec .stosbA16 (paged 7 6) = .next t ∧ t.cpu.abrt = some (.pageFault 0x200 .write)) :=
  ⟨⟨rfl, rfl, next_of_nextOf (by decide +kernel)⟩,
    ⟨rfl, rfl, by decide +kernel, next_of_nextOf (by decide +kernel)⟩⟩
theorem witness_AbortIsPrecise_unspecified :
    let s := { (paged 7 7).setRegs { Regs.zero with edi := 0xFFFF } with cfg := { Cfg.standard with paging := .unspecified } }
    s.cpu.abrt = none ∧ s.cfg.paging = .unspecified ∧
      ∃ t, exec .stoswA16 s = .next t ∧ t.cpu.abrt = some (.segLimit .es) :=
  ⟨rfl, rfl, next_of_nextOf (by decide +kernel)⟩

theorem witness_PrivilegeBlind : Family.isIo .movs = false ∧ test16.cpu.abrt = none ∧ PagingOff test16 ∧
    (protectedMode test16).cpu.sys.pg = false ∧ ∃ t, exec .movswA16 test16 = .next t :=
  ⟨rfl, rfl, rfl, rfl, runs_of_nextOf (by decide +kernel)⟩

theorem witness_RefusedEncodings : Admitted longest ∧ Pfx.lock ∈ Instr.prefixes (.prefixES (.prefixLock .stosbA16)) ∧
    (Pfx.lock ∉ Instr.prefixes (.prefixRepne .stosbA16) ∧ badPrefixes [.repne] .stos = true) := by decide +kernel

theorem witness_RepeatCountZero : let s := test16.setRegs { Regs.zero with ecx := 0xABCD0000 }
    Admitted (.prefixRep .movsbA16) ∧ repOf (.prefixRep .movsbA16) ≠ none ∧ countOf (.prefixRep .movsbA16) s = 0 := by
  decide +kernel

theorem witness_RepeatIsPlainThenCount :
    (Iterates (.prefixRep .movsbA16) test16 ∧ repOf .movsbA16 = none) ∧
    (Iterates (.prefixRep (.prefixES .cmpsbA16)) (test16.setRegs { Regs.zero with ecx := 1 }) ∧
      repOf (.prefixES .cmpsbA16) = none) ∧
    (Iterates (.prefixRepne .scaswA16) test16 ∧ repOf .scaswA16 = none) ∧
    Iterates (.prefixRep .insdA16) badOperands := by decide +kernel

/-- The steps of REP STOSB with a count. -/
def repSteps (c : Nat) : Nat → State
  | 0 => test16.setRegs { Regs.zero with ecx := BitVec.ofNat 32 c, edi := 0x200 }
  | n + 1 => (nextOf (exec (.prefixRep .stosbA16) (repSteps c n)) id).getD test16

theorem repSteps_next (c k : Nat)
    (h : nextOf (exec (.prefixRep .stosbA16) (repSteps c k)) (fun t => t.cpu.abrt) = some none) :
    exec (.prefixRep .stosbA16) (repSteps c k) = .next (repSteps c (k + 1)) ∧
      (repSteps c (k + 1)).cpu.abrt = none := by
  obtain ⟨t, ht, ha⟩ := next_of_nextOf h
  simp [repSteps, nextOf, ht, ha]

theorem witness_RepRunsCountTimes : ∀ c ∈ [1, 2],
    Admitted (.prefixRep .stosbA16) ∧ repOf (.prefixRep .stosbA16) = some .rep ∧ (repSteps c 0).cpu.abrt = none ∧
    (countOf (.prefixRep .stosbA16) (repSteps c 0)).toNat = c ∧ 0 < c ∧
    ∀ k, k < c → exec (.prefixRep .stosbA16) (repSteps c k) = .next (repSteps c (k + 1)) ∧
      (repSteps c (k + 1)).cpu.abrt = none := by
  have h : ∀ c ∈ [1, 2], Admitted (.prefixRep .stosbA16) ∧ repOf (.prefixRep .stosbA16) = some .rep ∧
      (repSteps c 0).cpu.abrt = none ∧ (countOf (.prefixRep .stosbA16) (repSteps c 0)).toNat = c ∧ 0 < c ∧
      ∀ k, k < c → nextOf (exec (.prefixRep .stosbA16) (repSteps c k)) (fun t => t.cpu.abrt) = some none := by
    decide +kernel
  intro c hc
  obtain ⟨h1, h2, h3, h4, h5, h6⟩ := h c hc
  exact ⟨h1, h2, h3, h4, h5, fun k hk => repSteps_next c k (h6 k hk)⟩

/-! #### The shared operations -/

/-- Each clause of the segment check, the last at the limit, past it, below the lower limit and at the wrap. -/
theorem witness_SegCheckRule : let d := SegDesc.afterReset 0 false
    ({ d with valid := false } : SegDesc).valid = false ∧ ({ d with readable := false } : SegDesc).readable = false ∧
    ({ d with writable := false } : SegDesc).writable = false ∧
    (d.valid = true ∧ d.readable = true ∧ d.writable = true) ∧
    segCheck .ds d 0xFFFC 4 .read = none ∧ segCheck .ds d 0xFFFD 4 .read = some (.segLimit .ds) ∧
    segCheck .ds { d with limitLo := 2 } 1 1 .write = some (.segLimit .ds) ∧
    segCheck .ds { d with limitHi := 0xFFFFFFFF } 0xFFFFFFFF 1 .read = none ∧
    segCheck .ds { d with limitHi := 0xFFFFFFFF } 0xFFFFFFFF 2 .read = some (.segLimit .ds) ∧
    segCheck .ds (badOperands.cpu.segs.get .ds) 0 4 .read = some (.segAccess .ds .read) := by decide +kernel

theorem witness_ElementRoundTrip : ∀ z ∈ [Size.byte, .word, .dword],
    let pa := ((List.range z.bytes).map fun k => 0xFFFFFFFE#32 + BitVec.ofNat 32 k)
    Memory.wf test16.mem = true ∧ pa.length = z.bytes ∧ pa.Nodup ∧
    (pa.all fun p => physTarget test16.cfg p = .ram) = true := by decide +kernel

/-- V14, R190: CF, PF, AF, ZF, SF and OF of a subtraction. -/
def sixFlags (f : Word) : List Bool := [0, 2, 4, 6, 7, 11].map fun k => f.getLsbD k

theorem test_setSub :
    sixFlags (setSub 0x41#8 0x42#8 0) = [true, true, true, false, true, false] ∧
    sixFlags (setSub 0x80#8 0x01#8 0) = [false, false, true, false, false, true] ∧
    sixFlags (setSub 0x7F#8 0xFF#8 0) = [true, false, false, false, true, true] ∧
    sixFlags (setSub 0x8000#16 0x0001#16 0) = [false, true, true, false, false, true] ∧
    sixFlags (setSub 0x80000000#32 0x7FFFFFFF#32 0) = [false, false, true, false, false, true] ∧
    sixFlags (setSub 0x7FFFFFFF#32 0x80000000#32 0) = [true, true, false, false, true, true] := by decide +kernel

theorem witness_SetSubRule : (8 = 8 ∨ 8 = 16 ∨ 8 = 32) ∧ (16 = 8 ∨ 16 = 16 ∨ 16 = 32) ∧
    (32 = 8 ∨ 32 = 16 ∨ 32 = 32) := by decide +kernel

/-- The entry addresses of the walk for linear address 0x200 in `paged`, and what stands there: an absent entry in
the directory, one in the table, a page of the system's, and a user's page without and with its marks. -/
theorem witness_PageWalk : ∀ e ∈ [(6, 7), (7, 6), (7, 3), (0x67, 0x67), (7, 7)],
    let s := paged (BitVec.ofNat 8 e.1) (BitVec.ofNat 8 e.2)
    let pde := leValue ((dwordAddrs 0x1000).map (ramByte s))
    let pte := leValue ((dwordAddrs 0x2000).map (ramByte s))
    s.cfg.paging = .reference ∧ s.cpu.sys.pg = true ∧ Memory.wf s.mem = true ∧ s.cpu.sys.cpl = 3 ∧
    ((dwordAddrs 0x1000).all fun p => physTarget s.cfg p = .ram) = true ∧
    ((dwordAddrs 0x2000).all fun p => physTarget s.cfg p = .ram) = true ∧
    ((dwordAddrs 0x1000).all fun p => p ∉ dwordAddrs 0x2000) = true ∧
    pde = BitVec.ofNat 32 (0x2000 + e.1) ∧ pte = BitVec.ofNat 32 (0x3000 + e.2) := by decide +kernel

theorem witness_PageWalk_fault :
    ∃ k t, pageTranslate (paged 7 6).cpu.sys 0x200 .write (paged 7 6) = .abort k t := abort_of_okOf (by decide +kernel)

/-! #### Tables of the SCSI core (V21 to V23, V33) -/

/-- V21 (R146). -/
theorem test_cmdLen : [0x00, 0x28, 0x43, 0x60, 0x88, 0xA8, 0xC0, 0xFF].map (fun c => cmdLen (BitVec.ofNat 8 c)) =
    [6, 10, 10, 6, 16, 12, 10, 6] := by decide
/-- V23 (R144). -/
theorem test_targetOf : targetOf 0x08 = some 3 ∧ targetOf 0x88 = some 3 ∧ targetOf 0x00 = none := by decide
/-- V22 (R148): one byte, two bytes, and an extended message whose second byte is its length. -/
theorem test_getMsgLen : getMsgLen 0x00 0 1 = 1 ∧ getMsgLen 0xC2 0 1 = 1 ∧ getMsgLen 0x20 0 1 = 2 ∧
    getMsgLen 0x01 0 1 = 2 ∧ getMsgLen 0x01 3 2 = 3 ∧ getMsgLen 0x7F 5 2 = 5 ∧ getMsgLen 0x01 0 2 = 0 := by decide

/-- A device that answers the next command with data to send, and its final status. -/
def testDevice (buf : List Byte) : Device :=
  { Device.absent with
    present := true, buffer := buf, status := 0x02, replies := [⟨phaseDataIn, 0x00, [0xDE, 0xAD]⟩],
    finals := [0x00] }

/-- The SCSI core with the target 3 selected and its device present. -/
def testIo (n : Ncr) (buf : List Byte) : Io :=
  { State.reset.io with
    ncr := n, scsiDevices := [(Vector.replicate 8 Device.absent).set 3 (testDevice buf)], outputs := [],
    delays := [2, 3] }

/-- A state of the phase machine with REQ and BSY asserted in a phase. -/
def inPhase (st : BusState) (phase : Word) : Ncr :=
  { Ncr.afterReset with state := st, targetId := some 3, curBus := busBsy ||| busReq ||| phase }

/-- `BusInv` as a value. -/
def busInvHolds (io : Io) : Bool :=
  decide (BusLines io.ncr) && decide (BusCountdowns io.ncr (devBufferLength Cfg.standard io)) &&
    decide (BusPositions io.ncr (devBufferLength Cfg.standard io))

theorem busInv_of {io : Io} (h : busInvHolds io = true) : BusInv Cfg.standard io := by
  simpa only [busInvHolds, Bool.and_eq_true, decide_eq_true_eq, and_assoc] using h

/-- The target 3 is selected and present, and the invariant holds. -/
def selectedOk (io : Io) : Bool :=
  busInvHolds io && decide (io.ncr.targetId = some 3) && decide ((deviceAt Cfg.standard io 3).present = true)

/-- An ACK edge with the data byte 0x28, and no arbitration. -/
def ackBus : Word := 0x00280200

/-- V33: selection of an absent target, and of two ids. -/
theorem test_selection :
    let look (io : Io) := (io.ncr.targetId, io.ncr.state, io.ncr.curBus)
    look (busUpdate .standard 0x00100002 (testIo .afterReset [])) = (some 4, .idle, 0) ∧
    look (busUpdate .standard 0x00180002 (testIo .afterReset [])) = (some 3, .select, 0x40) := by decide +kernel

/-! #### The SCSI statements -/

theorem witness_BusUpdateKeepsInv : Cfg.wf .standard ∧ BusInv .standard (testIo (inPhase .dataOut phaseDataOut) [1]) :=
  ⟨by decide, busInv_of (by decide +kernel)⟩

/-- The test state meets the invariant of the machine, and takes a step. -/
theorem witness_StepKeepsInv : (MachineInv test16 ∧ ∃ t, step (State.withFetchWord test16 8 0xAA) = .next t) ∧
    Memory.wf (State.withFetchWord test16 8 0xAA).mem = true :=
  ⟨⟨⟨by decide +kernel, by decide, busInv_of (by decide +kernel), by decide +kernel, by decide +kernel⟩,
    runs_of_nextOf (by decide +kernel)⟩, by decide +kernel⟩

theorem witness_ArbitrationOverride : (0x00008000#32).getLsbD 15 = true := by decide

theorem witness_Selection : let io := testIo .afterReset []
    BusInv .standard io ∧ io.ncr.state = .idle ∧ hasLine 0x00180002 busArb = false ∧
    hasLine 0x00180002 busSel = true ∧ hasLine 0x00180002 busBsy = false ∧
    ((busGetData 0x00180002).getLsbD 3 = true ∧ (∀ j : Fin 8, j < 3 → (busGetData 0x00180002).getLsbD j = false) ∧
      (deviceAt .standard io 3).present = true) ∧
    ((busGetData 0x00800002).getLsbD 7 = true ∧ (∀ j : Fin 8, j < 7 → (busGetData 0x00800002).getLsbD j = false) ∧
      (deviceAt .standard io 7).present = false) ∧
    busGetData 0x00000002 = 0 ∧ hasLine 0x00000042 busBsy = true := by
  refine ⟨busInv_of (by decide +kernel), ?_⟩
  decide +kernel

theorem witness_SelectRelease :
    let io (id : Fin 8) := testIo { Ncr.afterReset with state := .select, targetId := some id, curBus := busBsy } []
    (∀ id : Fin 8, busInvHolds (io id) = true ∧ (io id).ncr.state = .select ∧
      targetPresent .standard (io id) = decide (id = 3)) ∧
    hasLine 0x00000002 busSel = true ∧ (hasLine 0x00000100 busSel = false ∧ hasLine 0x00000100 busAtn = true) ∧
    (hasLine 0 busSel = false ∧ hasLine 0 busAtn = false) := by decide +kernel

/-- COMMAND before its second byte and before its last (0x28 is 10 bytes long). -/
theorem witness_CommandByte : ∀ p ∈ [0, 1, 9],
    let io := testIo { inPhase .command phaseCommand with
      command := (Vector.replicate 16 0).set 0 0x28, commandPos := p } []
    selectedOk io = true ∧ io.ncr.state = .command ∧ hasLine ackBus busArb = false ∧ AckEdge ackBus io.ncr ∧
    (p + 1 = cmdLen ((io.ncr.command.setIfInBounds p (busGetData ackBus)).get 0) ↔ p = 9) := by decide +kernel

/-- DATAIN with a byte left and with none, in a DMA mode and without. -/
theorem witness_DataInByte : ∀ m ∈ [DmaMode.idle, .inTxBus], ∀ p ∈ [1, 2],
    let io := testIo { inPhase .dataIn phaseDataIn with dataPos := p, dmaMode := m } [0x11, 0x22]
    selectedOk io = true ∧ io.ncr.state = .dataIn ∧ hasLine ackBus busArb = false ∧ AckEdge ackBus io.ncr ∧
    (deviceAt .standard io 3).buffer[p]? = (if p = 1 then some 0x22 else none) := by decide +kernel

/-- DATAOUT before a byte in the middle and before the last. -/
theorem witness_DataOutByte : ∀ m ∈ [DmaMode.idle, .outTxBus], ∀ p ∈ [0, 1],
    let io := testIo { inPhase .dataOut phaseDataOut with dataPos := p, dmaMode := m } [0x11, 0x22]
    selectedOk io = true ∧ io.ncr.state = .dataOut ∧ hasLine ackBus busArb = false ∧ AckEdge ackBus io.ncr ∧
    (p + 1 < ((deviceAt .standard io 3).putByte p (busGetData ackBus)).buffer.length ↔ p = 0) := by decide +kernel

theorem witness_StatusAndMessageIn :
    ∀ st ∈ [(BusState.status, phaseStatus), (.messageIn, phaseMessageIn)], let io := testIo (inPhase st.1 st.2) []
    selectedOk io = true ∧ io.ncr.state = st.1 ∧ hasLine ackBus busArb = false ∧ AckEdge ackBus io.ncr := by
  decide +kernel

/-- No ACK edge in each of the six states: ACK low, ACK held, REQ low. -/
theorem witness_noAckEdge :
    ∀ st ∈ [(BusState.command, phaseCommand), (.dataIn, phaseDataIn), (.dataOut, phaseDataOut),
      (.status, phaseStatus), (.messageIn, phaseMessageIn), (.messageOut, phaseMessageOut)],
    ∀ e ∈ [(0x20, 0, 0), (0x20, 0x200, 0x200), (0, 0, 0x200)],
      let io := testIo { inPhase st.1 st.2 with
        curBus := busBsy ||| st.2 ||| BitVec.ofNat 32 e.1, busIn := BitVec.ofNat 32 e.2.1,
        dataPos := if st.1 = .dataIn then 1 else 0 } [0x11, 0x22]
      let bus : Word := BitVec.ofNat 32 e.2.2
      selectedOk io = true ∧ io.ncr.state = st.1 ∧ hasLine bus busArb = false ∧ NoCountdown io.ncr ∧
        ¬ AckEdge bus io.ncr := by decide +kernel

/-- MESSAGEOUT at the first byte of an IDENTIFY message (done), of an extended message (not done), at its second byte
(not done) and third (done). -/
theorem witness_MessageOut_bytes :
    ∀ e ∈ [(0, 0x80, 0, true), (0, 0x01, 0, false), (1, 0x01, 3, false), (2, 0x01, 3, true), (1, 0x20, 9, true)],
    let io := testIo { inPhase .messageOut phaseMessageOut with
      msgout := ((Vector.replicate 256 0).set 0 (BitVec.ofNat 8 e.2.1)).set 1 (BitVec.ofNat 8 e.2.2.1),
      msgoutPos := e.1 } []
    let bus : Word := 0x00000200 ||| (BitVec.ofNat 32 (if e.1 = 0 then e.2.1 else if e.1 = 1 then e.2.2.1 else 7) <<< 16)
    let p := io.ncr.msgoutPos + 1
    let m := io.ncr.msgout.setIfInBounds io.ncr.msgoutPos (busGetData bus)
    let m0 := (m.get 0).toNat
    busInvHolds io = true ∧ hasLine bus busArb = false ∧ io.ncr.state = .messageOut ∧ AckEdge bus io.ncr ∧
    (((m0 = 0 ∨ (2 ≤ m0 ∧ m0 ≤ 0x1F) ∨ 0x80 ≤ m0) ∨ (2 ≤ p ∧ 0x20 ≤ m0 ∧ m0 ≤ 0x2F) ∨
      (2 ≤ p ∧ (m0 = 1 ∨ (0x30 ≤ m0 ∧ m0 ≤ 0x7F)) ∧ (m.get 1).toNat ≤ p)) ↔ e.2.2.2 = true) := by decide +kernel
theorem witness_MessageOut_id :
    let io := testIo { inPhase .messageId phaseMessageOut with msglun := some 2 } []
    selectedOk io = true ∧ io.ncr.state = .messageId ∧ hasLine 0 busArb = false := by decide +kernel

/-- Each phase armed, with a countdown of one call and of several, with and without `wait_complete` after it. -/
theorem witness_PhaseEntered :
    ∀ e ∈ [(BusState.messageIn, busIdleMark), (.command, phaseStatus), (.status, phaseMessageIn),
      (.command, phaseDataIn), (.command, phaseDataOut)],
    ∀ w ∈ [1, 4], let io := testIo { inPhase e.1 phaseCommand with
        curBus := busBsy ||| phaseCommand, commandPos := 6, newPhase := e.2, waitData := w,
        waitComplete := if e.1 = .status then 8 else 0 } [0x11, 0x22]
      busInvHolds io = true ∧ 0 < io.ncr.waitData ∧ (List.replicate w (0 : Word)).length = io.ncr.waitData ∧
      io.ncr.newPhase = e.2 := by decide +kernel
theorem witness_PhaseEntered_quiet :
    hasLine 0 busArb = false ∧ hasLine 0 busAck = false ∧ hasLine 0 busSel = false := by decide

theorem witness_ReqReturns :
    ∀ c ∈ [1, 3], let io := testIo { inPhase .dataIn phaseDataIn with
        curBus := busBsy ||| phaseDataIn, newPhase := phaseDataIn, clearReq := c, dataPos := 1 } [0x11, 0x22]
      busInvHolds io = true ∧ 0 < io.ncr.clearReq ∧ (List.replicate c (0 : Word)).length = io.ncr.clearReq := by
  decide +kernel

/-- BusInv and RegInv hold with REQ asserted in a DMA mode and the interrupt pending. -/
theorem witness_RegisterReads : let io := testIo { inPhase .dataIn phaseDataIn with
      dataPos := 1, dmaMode := .inTxBus, icr := 0x01, tcr := 0x81, isr := 0x94, irqState := true, mode := 0x0A } [1]
    Cfg.wf .standard ∧ BusInv .standard io ∧ RegInv io.ncr :=
  ⟨by decide, busInv_of (by decide +kernel), by decide +kernel⟩

theorem witness_SoftReset : (0x80#8).getLsbD 7 = true ∧ (0x11#8).getLsbD 7 = false := by decide

theorem witness_DmaStartAndEnd : (0x0D#8).getLsbD 1 = false ∧
    (testIo { Ncr.afterReset with mode := 0x02 } []).ncr.mode.getLsbD 1 = true ∧
    (testIo .afterReset []).ncr.mode.getLsbD 1 = false := by decide +kernel

/-- A transfer of `len` bytes in a DMA mode. -/
def transfer (n : Ncr) (len : Nat) (hostPos : Nat) (pumpDone : Bool) : Io :=
  let io := testIo n ((List.range len).map fun k => BitVec.ofNat 8 (k + 1))
  { io with
    bridge := { Bridge.afterReset (Vector.ofFn fun k => BitVec.ofNat 8 (k.val + 0x40)) with
      hostPos := hostPos, status := 0x04, pumpDone := pumpDone } }

/-- A prefix fetched from the data port, the next byte past the limit: the read is taken back (R232). -/
theorem test_fetchAbort_device :
    let io := transfer { inPhase .dataIn phaseDataIn with dmaMode := .inTxBus, dataPos := 1 } 64 0x26 false
    let s := { State.reset with
      io := io,
      cpu := { State.reset.cpu with pc := 0x1FFF, segs := { SegRegs.afterReset with
        cs := { SegDesc.afterReset 0x000DC000 false with limitHi := 0x1FFF } } } }
    (dataPortRead s.cfg io).1 = 0x66 ∧ (dataPortRead s.cfg io).2.bridge.hostPos = 0x27 ∧
    nextOf (step s) (fun t => (t.io.bridge.hostPos, t.cpu.abrt)) = some (0x26, some (.segLimit .cs)) := by
  decide +kernel

/-- One byte, and more than the buffer holds; the pump done and not. -/
theorem witness_ChunkReadOut : ∀ len ∈ [1, 600], ∀ done ∈ [false, true],
    let io := transfer { inPhase .dataIn phaseDataIn with dmaMode := .inTxBus, dataPos := 1 } len 0 done
    io.ncr.dmaMode = .inTxBus ∧ io.bridge.hostPos = 0 ∧ io.bridge.status &&& Cfg.standard.busyBit ≠ 0 ∧
    0 < chunk .standard io ∧ io.bridge.pumpDone = done := by
  decide +kernel
theorem witness_ChunkWrittenIn : ∀ len ∈ [1, 600],
    let io := transfer { inPhase .dataOut phaseDataOut with dmaMode := .outTxBus } len 0 false
    io.ncr.dmaMode = .outTxBus ∧ io.bridge.hostPos = 0 ∧ io.bridge.status &&& Cfg.standard.busyBit ≠ 0 ∧
    (List.replicate (min len 512) (7 : Byte)).length = chunk .standard io ∧ 0 < chunk .standard io := by
  decide +kernel
/-- Within the chunk, in each mode, with the busy bit clear: R426's case alone. -/
theorem witness_ChunkReadOut_ChunkWrittenIn_rejected : ∀ m ∈ [DmaMode.inTxBus, .outTxBus],
    let io := (transfer { inPhase .dataIn phaseDataIn with dmaMode := m, dataPos := 1 } 4 0 false).mapBridge
      fun b => { b with status := 0xFB }
    io.ncr.dmaMode = m ∧ io.bridge.hostPos < chunk .standard io ∧
    io.bridge.status &&& Cfg.standard.busyBit = 0 := by decide +kernel

/-- A transfer of `len` bytes with `total` moved, at `pos` of the chunk. -/
def transferAt (n : Ncr) (len pos total : Nat) : Io :=
  (transfer n len (min len 512) false).mapBridge fun b => { b with pos := pos, total := total }

/-- A receive of one byte, of a whole buffer, in the middle of a chunk, of the first and the last chunk of a longer
transfer; with the interrupt enabled and not. -/
theorem witness_CallbackReceives : ∀ e ∈ [(1, 0, 0), (512, 0, 0), (4, 2, 2), (600, 0, 0), (600, 0, 512)],
    ∀ ena ∈ [false, true],
    let io := transferAt { inPhase .dataIn phaseDataIn with
      curBus := busBsy ||| busReq ||| phaseDataIn ||| busSetData (BitVec.ofNat 8 (e.2.2 + 1)), dmaMode := .inTxBus,
      dataPos := e.2.2 + 1, mode := if ena then 0x0A else 0x02 } e.1 e.2.1 e.2.2
    Cfg.wf .standard ∧ DataPhase .standard io 3 .dataIn phaseDataIn ∧ HostQuiet io.ncr ∧
    (deviceAt .standard io 3).buffer[io.bridge.total]? = some (busGetData io.ncr.curBus) ∧
    io.ncr.dmaMode = .inTxBus ∧ io.ncr.dataPos = io.bridge.total + 1 ∧ io.bridge.pumpDone = false ∧
    io.bridge.hostPos = chunk .standard io ∧ io.bridge.pos < chunk .standard io ∧ io.ncr.mode.getLsbD 3 = ena := by
  decide +kernel
theorem witness_CallbackSends : ∀ e ∈ [(1, 0, 0), (512, 0, 0), (4, 2, 2), (600, 0, 0), (600, 0, 512)],
    ∀ ena ∈ [false, true],
    let io := transferAt { inPhase .dataOut phaseDataOut with
      dmaMode := .outTxBus, dataPos := e.2.2, mode := if ena then 0x0A else 0x02 } e.1 e.2.1 e.2.2
    DataPhase .standard io 3 .dataOut phaseDataOut ∧ HostQuiet io.ncr ∧ io.ncr.dmaMode = .outTxBus ∧
    io.ncr.dataPos = io.bridge.total ∧ io.bridge.total < (deviceAt .standard io 3).buffer.length ∧
    io.bridge.hostPos = chunk .standard io ∧ io.bridge.pos < chunk .standard io ∧ io.ncr.mode.getLsbD 3 = ena := by
  decide +kernel
/-- The target stands in STATUS: REQ, but not of the phase. -/
theorem witness_CallbackReceives_CallbackSends_poll : ∀ e ∈ [(DmaMode.inTxBus, phaseDataIn), (.outTxBus, phaseDataOut)],
    let io := transferAt { inPhase .status phaseStatus with dmaMode := e.1, mode := 0x06 } 4 2 2
    io.ncr.dmaMode = e.1 ∧ io.bridge.pumpDone = false ∧ io.bridge.hostPos = chunk .standard io ∧
    io.bridge.pos < chunk .standard io ∧ hasLine io.ncr.curBus busBsy = true ∧ NoReq .standard io e.2 := by
  decide +kernel

theorem witness_BusyLossAborts :
    let io := transfer { Ncr.afterReset with mode := 0x06, dmaMode := .inTxBus } 4 4 false
    io.ncr.mode.getLsbD 2 = true ∧ hasLine io.ncr.curBus busBsy = false ∧ io.ncr.dmaMode ≠ .idle := by decide +kernel

/-- DMA idle, a chunk the host has not exhausted, and a receive whose pump is done; MONITOR_BUSY clear, or BSY there. -/
theorem witness_BusyLossAborts_disarms :
    ∀ e ∈ [(DmaMode.idle, 4, false), (.outTxBus, 3, false), (.inTxBus, 4, true)], ∀ mon ∈ [false, true],
    let io := transfer { inPhase .dataIn phaseDataIn with dmaMode := e.1, mode := if mon then 0x06 else 0x02 } 4 e.2.1
      e.2.2
    (io.ncr.mode.getLsbD 2 = false ∨ hasLine io.ncr.curBus busBsy = true ∨ io.ncr.dmaMode = .idle) ∧
    (io.ncr.dmaMode = .idle ∨ io.bridge.hostPos ≠ chunk .standard io ∨
      (io.ncr.dmaMode = .inTxBus ∧ io.bridge.pumpDone = true)) := by decide +kernel

theorem witness_InterruptLine : ∀ ena ∈ [false, true],
    (testIo { Ncr.afterReset with mode := if ena then 0x08 else 0 } []).ncr.mode.getLsbD 3 = ena := by decide +kernel

end Sys2Proof.Machine
end

section
/-! The state's frame and its reset values: which fields and registers an instruction may change (R20 to R29), and
what `State.reset` holds (R60 to R62). -/
namespace Sys2Proof.Machine

/-! ### The register views (R21) -/

/-- A word whose low part was replaced keeps the bits above it: the mask is all ones there, the new part is 0. -/
theorem masked_or_ushiftRight (v : Word) {m w : Word} {n : Nat} (hm : m >>> n = BitVec.allOnes 32 >>> n)
    (hw : w >>> n = 0#32) : ((v &&& m) ||| w) >>> n = v >>> n := by
  rw [BitVec.ushiftRight_or_distrib, BitVec.ushiftRight_and_distrib, hm, ← BitVec.ushiftRight_and_distrib, hw,
    BitVec.and_allOnes, BitVec.or_zero]

theorem setWidth_ushiftRight_self {n : Nat} (b : BitVec n) : (b.setWidth 32 : Word) >>> n = 0#32 := by
  ext k hk
  simp

theorem setLow8_ushiftRight (v : Word) (b : Byte) : setLow8 v b >>> 8 = v >>> 8 :=
  masked_or_ushiftRight v (by decide) (setWidth_ushiftRight_self b)

theorem setLow16_ushiftRight (v : Word) (h : Half) : setLow16 v h >>> 16 = v >>> 16 :=
  masked_or_ushiftRight v (by decide) (setWidth_ushiftRight_self h)

/-! ### What the register writes of an iteration leave -/

/-- A write of a 16-bit index view keeps bits 31:16 of every register (R21). -/
theorem setIdx_a16_ushiftRight (j k : Reg) (v : Word) (r : Regs) :
    (setIdx k .a16 v r).get j >>> 16 = r.get j >>> 16 := by
  by_cases h : j = k
  · subst h
    rw [setIdx, Regs.get_set_same]
    exact setLow16_ushiftRight _ _
  · rw [setIdx_get_ne h]

theorem setAcc_get_ne {j : Reg} (h : j ≠ .eax) (z : Size) (v : Word) (r : Regs) :
    (setAcc z v r).get j = r.get j := by
  cases z <;> exact Regs.get_set_ne h _

/-- A write of the accumulator keeps the bits of EAX above the element (R21). -/
theorem setAcc_eax_ushiftRight (z : Size) (v : Word) (r : Regs) :
    (setAcc z v r).eax >>> (8 * z.bytes) = r.eax >>> (8 * z.bytes) := by
  cases z with
  | byte => exact setLow8_ushiftRight _ _
  | word => exact setLow16_ushiftRight _ _
  | dword => simp [Size.bytes, BitVec.ushiftRight_eq_zero]

theorem stepIndex_get_ne {j k : Reg} (h : j ≠ k) (i : Instr) (s : State) (r : Regs) :
    (stepIndex k i s r).get j = r.get j := setIdx_get_ne h _ _

theorem stepIndex_a16_ushiftRight {i : Instr} (h : i.handler.asz = .a16) (j k : Reg) (s : State) (r : Regs) :
    (stepIndex k i s r).get j >>> 16 = r.get j >>> 16 := by
  rw [stepIndex, h]
  exact setIdx_a16_ushiftRight j k _ r

/-- The registers an iteration of a family may write: its index registers, and EAX in LODS. -/
def familyRegs : Family → List Reg
  | .movs | .cmps => [.esi, .edi]
  | .stos | .scas | .ins => [.edi]
  | .lods => [.eax, .esi]
  | .outs => [.esi]

/-- No family writes EBX, ECX, EDX, ESP or EBP. -/
theorem notMem_familyRegs {j : Reg} (h : j ∉ [Reg.eax, .esi, .edi]) (f : Family) : j ∉ familyRegs f := by
  cases f <;> simp_all [familyRegs]

theorem esi_notMem_familyRegs {f : Family} (h : f ∈ [Family.stos, .scas, .ins]) : Reg.esi ∉ familyRegs f := by
  cases f <;> simp_all [familyRegs]

theorem edi_notMem_familyRegs {f : Family} (h : f ∈ [Family.lods, .outs]) : Reg.edi ∉ familyRegs f := by
  cases f <;> simp_all [familyRegs]

theorem eax_notMem_familyRegs {f : Family} (h : f ≠ .lods) : Reg.eax ∉ familyRegs f := by
  cases f <;> simp_all [familyRegs]

section
variable {i : Instr} {s t : State} {v : Word} {j : Reg}

theorem famRegs_get_of_notMem (h : j ∉ familyRegs i.handler.fam) :
    (famRegs i s v).get j = s.cpu.regs.get j := by
  unfold famRegs
  cases hf : i.handler.fam <;> simp only [hf, familyRegs, List.mem_cons, List.not_mem_nil, or_false, not_or] at h
  case movs | cmps => exact (stepIndex_get_ne h.2 _ _ _).trans (stepIndex_get_ne h.1 _ _ _)
  case stos | scas | ins | outs => exact stepIndex_get_ne h _ _ _
  case lods => exact (stepIndex_get_ne h.2 _ _ _).trans (setAcc_get_ne h.1 _ _ _)

theorem famRegs_a16_ushiftRight (h : i.handler.asz = .a16) (hj : j ≠ .eax) :
    (famRegs i s v).get j >>> 16 = s.cpu.regs.get j >>> 16 := by
  unfold famRegs
  cases i.handler.fam
  case movs | cmps => rw [stepIndex_a16_ushiftRight h, stepIndex_a16_ushiftRight h]
  case stos | scas | ins | outs => exact stepIndex_a16_ushiftRight h _ _ _ _
  case lods => rw [stepIndex_a16_ushiftRight h, setAcc_get_ne hj]

/-- LODS alone writes EAX, and there the element alone. -/
theorem famRegs_eax_ushiftRight :
    (famRegs i s v).eax >>> (8 * i.handler.size.bytes) = s.cpu.regs.eax >>> (8 * i.handler.size.bytes) := by
  by_cases hf : i.handler.fam = .lods
  · rw [famRegs, hf]
    exact setAcc_eax_ushiftRight _ _ _
  · have h : (famRegs i s v).eax = s.cpu.regs.eax := famRegs_get_of_notMem (j := .eax) (eax_notMem_familyRegs hf)
    rw [h]

/-- The repeat loop writes ECX alone, and in a repeated form alone (R234). -/
theorem endRegs_get (h : j = .ecx → repOf i = none) (r : Regs) : (endRegs i s r).get j = r.get j := by
  unfold endRegs
  split
  · rfl
  · next hk => exact setIdx_get_ne (fun hj => by simp [h hj] at hk) _ _

theorem endRegs_a16_ushiftRight (h : i.handler.asz = .a16) (r : Regs) :
    (endRegs i s r).get j >>> 16 = r.get j >>> 16 := by
  unfold endRegs
  split
  · rfl
  · rw [h, setIdx_a16_ushiftRight]

/-! ### What a next state of `exec` keeps -/

/-- An instruction writes the general registers, `pc`, the flags, `abrt`, the cycle counter and `cr2` of the CPU context
and nothing else of it; the configuration and the events to come stay. -/
theorem exec_keeps_context (h : exec i s = .next t) :
    t.cpu = { s.cpu with
      regs := t.cpu.regs, pc := t.cpu.pc, flags := t.cpu.flags, abrt := t.cpu.abrt, cycles := t.cpu.cycles,
      sys := { s.cpu.sys with cr2 := t.cpu.sys.cr2 } } ∧
    t.cfg = s.cfg ∧ t.agenda = s.agenda := by
  obtain ⟨-, ⟨-, -, rfl⟩ | ⟨-, k, u, hu, -, rfl⟩ | ⟨-, -, w, v, f, u, hw, -, -, -, rfl⟩⟩ := exec_cases h
  · exact ⟨rfl, rfl, rfl⟩
  · refine ⟨?_, hu.cfg, hu.agenda⟩
    simp only [State.setAbrt]
    rw [hu.cpu]
  · refine ⟨?_, hw.cfg, hw.agenda⟩
    simp only [endCpu]
    rw [hw.cpu]

/-- The general registers of a next state: as they were, or those of a completed iteration. -/
theorem exec_regs (h : exec i s = .next t) :
    t.cpu.regs = s.cpu.regs ∨ ∃ v, t.cpu.regs = endRegs i s (famRegs i s v) := by
  obtain ⟨-, ⟨-, -, rfl⟩ | ⟨-, k, u, hu, -, rfl⟩ | ⟨-, -, w, v, f, u, -, -, -, -, rfl⟩⟩ := exec_cases h
  · exact .inl rfl
  · exact .inl hu.regs
  · exact .inr ⟨v, rfl⟩

/-- The flags of a next state: as they were, or those the family's iteration leaves. -/
theorem exec_flags (h : exec i s = .next t) : t.cpu.flags = s.cpu.flags ∨ FamFlags i s t.cpu.flags := by
  obtain ⟨-, ⟨-, -, rfl⟩ | ⟨-, k, u, hu, -, rfl⟩ | ⟨-, -, w, v, f, u, -, hf, -, -, rfl⟩⟩ := exec_cases h
  · exact .inl rfl
  · exact .inl hu.flags
  · exact .inr hf

/-- A register that neither the family nor the repeat loop writes stays. -/
theorem exec_get_of_notMem (h : exec i s = .next t) (hj : j ∉ familyRegs i.handler.fam)
    (hc : j = .ecx → repOf i = none) : t.cpu.regs.get j = s.cpu.regs.get j := by
  obtain hr | ⟨v, hr⟩ := exec_regs h
  · rw [hr]
  · rw [hr, endRegs_get hc, famRegs_get_of_notMem hj]

/-- At address size 16 bits 31:16 of every register but EAX stay. -/
theorem exec_a16_ushiftRight (h : exec i s = .next t) (ha : i.handler.asz = .a16) (hj : j ≠ .eax) :
    t.cpu.regs.get j >>> 16 = s.cpu.regs.get j >>> 16 := by
  obtain hr | ⟨v, hr⟩ := exec_regs h
  · rw [hr]
  · rw [hr, endRegs_a16_ushiftRight ha, famRegs_a16_ushiftRight ha hj]

/-- The bits of EAX above the element stay. -/
theorem exec_eax_ushiftRight (h : exec i s = .next t) :
    t.cpu.regs.eax >>> (8 * i.handler.size.bytes) = s.cpu.regs.eax >>> (8 * i.handler.size.bytes) := by
  obtain hr | ⟨v, hr⟩ := exec_regs h
  · rw [hr]
  · have he : (endRegs i s (famRegs i s v)).eax = (famRegs i s v).eax := endRegs_get (j := .eax) nofun _
    rw [hr, he, famRegs_eax_ushiftRight]

/-! ### The flags an iteration may leave -/

theorem FamFlags.eq_of_not_compares {f : Word} (h : FamFlags i s f) (hf : i.handler.fam ∉ [Family.cmps, .scas]) :
    f = s.cpu.flags := by
  unfold FamFlags at h
  cases hk : i.handler.fam <;> simp_all

/-- No family writes a flag outside CF, PF, AF, ZF, SF and OF (R26, R190). -/
theorem FamFlags.getLsbD_other {f : Word} (h : FamFlags i s f) {k : Nat} (hk : k ∉ [0, 2, 4, 6, 7, 11]) :
    f.getLsbD k = s.cpu.flags.getLsbD k := by
  unfold FamFlags at h
  split at h
  · obtain ⟨a, b, rfl⟩ := h
    exact setSubElem_other _ _ _ hk _
  · obtain ⟨b, rfl⟩ := h
    exact setSubElem_other _ _ _ hk _
  all_goals rw [h]

end

/-- Settles O25, from the cases of `exec` (`exec_cases`): what the family and the repeat loop do not write stays. -/
theorem registerFrame : Obligations.RegisterFrame := by
  unfold Obligations.RegisterFrame
  intro i s t h
  obtain ⟨hcpu, hcfg, hagenda⟩ := exec_keeps_context h
  have keeps {j : Reg} (hj : j ∉ familyRegs i.handler.fam) (hc : j = .ecx → repOf i = none) :
      t.cpu.regs.get j = s.cpu.regs.get j := exec_get_of_notMem h hj hc
  have unused {j : Reg} (hj : j ∉ [Reg.eax, .esi, .edi]) := keeps (notMem_familyRegs hj i.handler.fam)
  have high {j : Reg} (ha : i.handler.asz = .a16) := exec_a16_ushiftRight (j := j) h ha
  have eax := exec_eax_ushiftRight h
  exact ⟨by rw [hcpu], by rw [hcpu], by rw [hcpu], by rw [hcpu], hcfg, hagenda,
    unused (j := .ebx) (by decide) nofun, unused (j := .edx) (by decide) nofun,
    unused (j := .esp) (by decide) nofun, unused (j := .ebp) (by decide) nofun,
    fun hf => keeps (j := .esi) (esi_notMem_familyRegs hf) nofun,
    fun hf => keeps (j := .edi) (edi_notMem_familyRegs hf) nofun,
    fun hf => keeps (j := .eax) (eax_notMem_familyRegs hf) nofun,
    fun hr => unused (j := .ecx) (by decide) fun _ => hr,
    fun ha => ⟨high (j := .esi) ha nofun, high (j := .edi) ha nofun, high (j := .ecx) ha nofun⟩,
    fun hz => by rwa [hz] at eax, fun hz => by rwa [hz] at eax⟩

/-- Settles O26: the flags of a next state are the old ones or those of the family's iteration. -/
theorem flagsFrame : Obligations.FlagsFrame := by
  unfold Obligations.FlagsFrame
  intro i s t h
  obtain he | hf := exec_flags h
  · exact ⟨fun _ => he, fun k _ => by rw [he]⟩
  · exact ⟨hf.eq_of_not_compares, fun k hk => hf.getLsbD_other hk⟩

/-! ### Reset (R60 to R62) -/

/-- Every descriptor after reset, as R60 gives it; only CS has a base other than 0. -/
theorem segRegs_afterReset_get (seg : SegReg) :
    SegRegs.afterReset.get seg =
      .afterReset (if seg = .cs then 0xFFFF0000 else 0) (decide (seg = .ss)) := by
  cases seg <;> rfl

/-- R290 for a SCSI core right after reset, whatever device stands behind it. -/
theorem busInv_afterReset {cfg : Cfg} {io : Io} (h : io.ncr = .afterReset) : BusInv cfg io := by
  have lines : BusLines .afterReset := by decide
  have countdowns (len : Nat) : BusCountdowns .afterReset len := by simp [BusCountdowns, Ncr.afterReset]
  have positions (len : Nat) : BusPositions .afterReset len := by simp [BusPositions, Ncr.afterReset]
  unfold BusInv
  rw [h]
  exact ⟨lines, countdowns _, positions _⟩

theorem regInv_afterReset : RegInv .afterReset := by decide

theorem bridgeInv_afterReset (buffer : Vector Byte 512) : BridgeInv (.afterReset buffer) := by
  simp [Bridge.afterReset]

/-- Settles O11: each value stands in the definition of the reset state; the descriptors by segment. -/
theorem resetValues : Obligations.ResetValues := by
  unfold Obligations.ResetValues
  have segs (seg : SegReg) : let d := SegRegs.afterReset.get seg
      d.limitLo = 0 ∧ d.limitHi = 0xFFFF ∧ d.valid = true ∧ d.readable = true ∧ d.writable = true ∧
        (seg ≠ .cs → d.base = 0) := by
    rw [segRegs_afterReset_get]
    exact ⟨rfl, rfl, rfl, rfl, rfl, fun h => if_neg h⟩
  have lowered : Output.irqLower State.reset.cfg.irqLine ∈ State.reset.io.outputs := List.mem_singleton.2 rfl
  exact ⟨rfl, by decide, rfl, rfl, rfl, rfl, rfl, rfl, rfl, rfl, segs, rfl, rfl, rfl, rfl, rfl, rfl, rfl, rfl, rfl,
    rfl, rfl, rfl, rfl, rfl, rfl, rfl, rfl, rfl, rfl, rfl, rfl, rfl, rfl, lowered, rfl, rfl, rfl, rfl, rfl, rfl, rfl⟩

/-- Settles O39: the invariant's parts, each of a part of the reset state. -/
theorem resetMeetsInv : Obligations.ResetMeetsInv :=
  ⟨Memory.reset_wf, by decide, busInv_afterReset rfl, regInv_afterReset, bridgeInv_afterReset _⟩

end Sys2Proof.Machine
end

section
/-! Memory: the segment check (R82), elements in RAM (R75, R89, R90), the page walk (R84, R86), what an instruction
writes (R171, R175, R219), its translated operands (R88, R170, R364), and what an address or a port reaches (R72,
R73). -/
namespace Sys2Proof.Machine

/-! ### The segment check (R82) -/

/-- A failed segment check ends the pre-translation before any byte is translated (R88). -/
theorem preTranslate_of_segCheck {seg : SegReg} {off : Word} {n : Nat} {kind : AccessKind} {s : State} {k : Abort}
    (h : segCheck seg (s.cpu.segs.get seg) off n kind = some k) : preTranslate seg off n kind s = .abort k s := by
  unfold preTranslate
  rw [h]

section
variable {seg : SegReg} {d : SegDesc} {off : Word} {n : Nat} {kind : AccessKind}

theorem segCheck_notValid (hv : d.valid = false) : segCheck seg d off n kind = some (.segNotValid seg) := if_pos hv

theorem segCheck_notReadable (hv : d.valid = true) (hr : d.readable = false) :
    segCheck seg d off n .read = some (.segAccess seg .read) := by
  simp [segCheck, hv, hr]

theorem segCheck_notWritable (hv : d.valid = true) (hw : d.writable = false) :
    segCheck seg d off n .write = some (.segAccess seg .write) := by
  simp [segCheck, hv, hw]

/-- Past the tests of validity and access, the limits decide. -/
theorem segCheck_limits (hv : d.valid = true) (hr : kind = .read → d.readable = true)
    (hw : kind = .write → d.writable = true) :
    segCheck seg d off n kind =
      let last := off.toNat + (n - 1)
      if 2 ^ 32 ≤ last ∨ off.toNat < d.limitLo.toNat ∨ d.limitHi.toNat < last then some (.segLimit seg) else none := by
  cases kind with
  | read => simp [segCheck, hv, hr rfl, BitVec.lt_def]
  | write => simp [segCheck, hv, hw rfl, BitVec.lt_def]

end

/-- Settles O36: the four tests, each where the ones before it pass. -/
theorem segCheckRule : Obligations.SegCheckRule := by
  unfold Obligations.SegCheckRule
  intro seg s off n kind _
  refine ⟨fun k => preTranslate_of_segCheck, segCheck_notValid, ?_, ?_, segCheck_limits⟩
  · rintro hv rfl hr
    exact segCheck_notReadable hv hr
  · rintro hv rfl hw
    exact segCheck_notWritable hv hw

/-! ### Elements in RAM (R75, R89, R90) -/

theorem byteOf_succ (v : Word) (k : Nat) : byteOf v (k + 1) = byteOf (v >>> 8) k := by
  simp only [byteOf, ← BitVec.shiftRight_add]
  congr 2
  omega

/-- The bytes of a value, put together again, are its low bits. -/
theorem leValue_byteOf (v : Word) (n : Nat) :
    leValue ((List.range n).map (byteOf v)) = (v.setWidth (8 * n)).setWidth 32 := by
  induction n generalizing v with
  | zero => ext j; simp [leValue]
  | succ n ih =>
    have htail : (List.range n).map (byteOf v ∘ Nat.succ) = (List.range n).map (byteOf (v >>> 8)) :=
      List.map_congr_left fun k _ => byteOf_succ v k
    rw [List.range_succ_eq_map, List.map_cons, List.map_map, htail, leValue, ih]
    ext j hj
    by_cases h8 : j < 8
    · simp [byteOf, h8, show j < 8 * (n + 1) by omega]
    · have hn : j - 8 < 8 * n ↔ j < 8 * (n + 1) := by omega
      simp [byteOf, h8, hj, hn, show 8 + (j - 8) = j by omega, show j - 8 < 32 by omega]

/-- The element written to distinct addresses of RAM, read back: the low `ps.length` bytes of the value. -/
theorem leValue_writeElem {ps : List Word} {v : Word} {s : State} (h : ∀ p ∈ ps, physTarget s.cfg p = .ram)
    (hw : Memory.wf s.mem = true) (hd : ps.Nodup) :
    leValue (ps.map (ramByte (writeElem ps v s))) = (v.setWidth (8 * ps.length)).setWidth 32 := by
  rw [← leValue_byteOf]
  congr 1
  refine List.ext_getElem (by simp) fun k hk _ => ?_
  simp only [List.getElem_map, List.getElem_range]
  exact writeElem_ram_read h hw hd (by simpa using hk)

/-- An element written to RAM changes RAM alone. -/
theorem writeElem_ram_eq_setMem {ps : List Word} {v : Word} {s : State} (h : ∀ p ∈ ps, physTarget s.cfg p = .ram) :
    writeElem ps v s = s.setMem (writeElem ps v s).mem := by
  have hframe := writeElem_frame ps v s
  rw [writeElem_ram_io h] at hframe
  exact hframe

/-- Settles O37, from the bytes an element write leaves (`writeElem_ram_read`). -/
theorem elementRoundTrip : Obligations.ElementRoundTrip := by
  unfold Obligations.ElementRoundTrip
  intro s pa z v hw hlen hd hram
  constructor
  · rw [readElem_ram (by simpa using hram), leValue_writeElem hram hw hd, hlen]
    cases z with
    | byte => rfl
    | word => rfl
    | dword => exact BitVec.setWidth_eq v
  · cases pa with
    | nil => simp
    | cons p ps =>
      rintro q ⟨⟩
      exact (writeElem_ram_read (k := 0) hram hw hd (by simp)).trans (by simp [byteOf])

/-! ### The page walk (R84, R86) -/

/-- Setting a bit that is set changes nothing. -/
theorem or_bit_of_getLsbD {w : Word} {k : Nat} (h : w.getLsbD k = true) : w ||| (1#32 <<< k) = w := by
  ext j hj
  by_cases hjk : j = k
  · subst hjk
    simp [← BitVec.getLsbD_eq_getElem hj, h]
  · have hbit : (1#32 <<< k)[j] = false := by
      rw [BitVec.getElem_shiftLeft]
      grind
    simp [hbit]

theorem dwordAddrs_nodup (a : Word) : (dwordAddrs a).Nodup := by
  simp [dwordAddrs]

/-- The page-table entry that stands in RAM at `a`. -/
def entryAt (s : State) (a : Word) : Word := leValue ((dwordAddrs a).map (ramByte s))

theorem readEntry_ram {a : Word} {s : State} (h : ∀ p ∈ dwordAddrs a, physTarget s.cfg p = .ram) :
    readEntry a s = (entryAt s a, s) := readElem_ram h

theorem entryAt_congr {a : Word} {s t : State} (h : ∀ p ∈ dwordAddrs a, ramByte t p = ramByte s p) :
    entryAt t a = entryAt s a := congrArg leValue (List.map_congr_left h)

section
variable {keep : Bool} {a v : Word} {s : State}

/-- A mark leaves every byte outside its entry. -/
theorem markEntry_other {c : Nat} (h : ∀ p ∈ dwordAddrs a, c ≠ p.toNat) :
    Memory.read (markEntry keep a v s).mem c = Memory.read s.mem c := by
  cases keep with
  | true => rfl
  | false => exact writeElem_other h v s

/-- A mark of an entry in RAM changes RAM alone. -/
theorem markEntry_eq_setMem (h : ∀ p ∈ dwordAddrs a, physTarget s.cfg p = .ram) :
    markEntry keep a v s = s.setMem (markEntry keep a v s).mem := by
  cases keep with
  | true => rfl
  | false => exact writeElem_ram_eq_setMem h

/-- The entry holds the marked value afterwards, when one that is kept held it before. -/
theorem entryAt_markEntry (h : ∀ p ∈ dwordAddrs a, physTarget s.cfg p = .ram) (hw : Memory.wf s.mem = true)
    (hk : keep = true → entryAt s a = v) : entryAt (markEntry keep a v s) a = v := by
  cases keep with
  | true => exact hk rfl
  | false => exact (leValue_writeElem h hw (dwordAddrs_nodup a)).trans (BitVec.setWidth_eq v)

end

/-- The address of the directory entry of a linear address (R86). -/
def pdeAddr (s : State) (lin : Word) : Word := (s.cpu.sys.cr3 &&& 0xFFFFF000) ||| ((lin >>> 22) <<< 2)

/-- The directory entry of a linear address, in RAM (R86). -/
def walkPde (s : State) (lin : Word) : Word := entryAt s (pdeAddr s lin)

/-- The address of the table entry of a linear address (R86). -/
def pteAddr (s : State) (lin : Word) : Word :=
  (walkPde s lin &&& 0xFFFFF000) ||| (((lin >>> 12) &&& 0x3FF) <<< 2)

/-- The table entry of a linear address, in RAM (R86). -/
def walkPte (s : State) (lin : Word) : Word := entryAt s (pteAddr s lin)

/-- The directory entry's mark (R86). -/
def markPde (s : State) (lin : Word) : State :=
  markEntry ((walkPde s lin).getLsbD 5) (pdeAddr s lin) (walkPde s lin ||| 0x20) s

/-- The marks of the walk in their order: the directory entry's, then the table entry's (R86). -/
def walkMarks (s : State) (lin : Word) (kind : AccessKind) : State :=
  markEntry ((walkPte s lin).getLsbD 5 && (!decide (kind = .write) || (walkPte s lin).getLsbD 6)) (pteAddr s lin)
    (walkPte s lin ||| 0x20 ||| (if kind = .write then 0x40 else 0)) (markPde s lin)

/-- The protection test as R86 words it. -/
theorem pageDenied_iff {sys : Sys} {pde pte : Word} {kind : AccessKind} :
    pageDenied sys pde pte (decide (sys.cpl = 3)) (decide (kind = .write)) = true ↔
      (sys.cpl = 3 ∧ (pde.getLsbD 2 = false ∨ pte.getLsbD 2 = false)) ∨
        (kind = .write ∧ (pde.getLsbD 1 = false ∨ pte.getLsbD 1 = false) ∧ (sys.cpl = 3 ∨ sys.wp = true)) := by
  simp only [pageDenied, Bool.or_eq_true, Bool.and_eq_true, decide_eq_true_eq, Bool.not_eq_true', Bool.and_eq_false_iff,
    and_assoc]

theorem pageTranslateI386_abort {s t : State} {sys : Sys} {lin : Word} {kind : AccessKind} {k : Abort}
    (h : pageTranslateI386 sys lin kind s = .abort k t) :
    k = .pageFault lin kind ∧ t.mem = s.mem ∧ t.cpu = { s.cpu with sys := { s.cpu.sys with cr2 := lin } } := by
  have raised {a b : Word} : raisePageFault lin kind (readEntry b (readEntry a s).2).2 = .abort k t →
      k = .pageFault lin kind ∧ t.mem = s.mem ∧ t.cpu = { s.cpu with sys := { s.cpu.sys with cr2 := lin } } := by
    rintro ⟨⟩
    simp [State.setCr2, readEntry]
  unfold pageTranslateI386 at h
  split at h
  · cases h
  · dsimp only at h
    split at h
    · cases h
      simp [State.setCr2, readEntry]
    · split at h
      · exact raised h
      · split at h
        · exact raised h
        · cases h

theorem pageTranslateFree_abort {s t : State} {sys : Sys} {lin : Word} {kind : AccessKind} {k : Abort}
    (h : pageTranslateFree sys lin kind s = .abort k t) : k = .pageFault lin kind ∧ t = s := by
  unfold pageTranslateFree at h
  split at h
  · cases h
  · dsimp only at h
    split at h
    · cases h
    · cases h
      exact ⟨rfl, rfl⟩

/-- With any paging function a fault names the byte and the access, and leaves RAM and the CPU context but `cr2` (R84,
R366). -/
theorem pageTranslate_abort {s t : State} {sys : Sys} {lin : Word} {kind : AccessKind} {k : Abort}
    (h : pageTranslate sys lin kind s = .abort k t) :
    k = .pageFault lin kind ∧ t.mem = s.mem ∧
      t.cpu = { s.cpu with sys := { s.cpu.sys with cr2 := t.cpu.sys.cr2 } } := by
  unfold pageTranslate at h
  split at h
  · obtain ⟨hk, hmem, hcpu⟩ := pageTranslateI386_abort h
    exact ⟨hk, hmem, by rw [hcpu]⟩
  · obtain ⟨hk, rfl⟩ := pageTranslateFree_abort h
    exact ⟨hk, rfl, rfl⟩

section
variable {s : State} {lin : Word} {kind : AccessKind}

/-- The walk with its directory entry in RAM ends with a fault where that entry is absent (R86). -/
theorem pageTranslate_pde_absent (href : s.cfg.paging = .reference) (hpg : s.cpu.sys.pg = true)
    (hpde : ∀ p ∈ dwordAddrs (pdeAddr s lin), physTarget s.cfg p = .ram) (habsent : (walkPde s lin).getLsbD 0 = false) :
    pageTranslate s.cpu.sys lin kind s = raisePageFault lin kind s := by
  have hread : readEntry (pdeAddr s lin) s = (walkPde s lin, s) := readEntry_ram hpde
  unfold pdeAddr at hread
  simp only [pageTranslate, href, pageTranslateI386, hpg, hread, habsent, Bool.true_eq_false, if_false, if_true]

section
variable (hpde : ∀ p ∈ dwordAddrs (pdeAddr s lin), physTarget s.cfg p = .ram)
  (hpte : ∀ p ∈ dwordAddrs (pteAddr s lin), physTarget s.cfg p = .ram)
include hpde hpte

/-- The walk with both entries in RAM and the directory entry present (R86). -/
theorem pageTranslate_pde_present (href : s.cfg.paging = .reference) (hpg : s.cpu.sys.pg = true)
    (hpresent : (walkPde s lin).getLsbD 0 = true) :
    pageTranslate s.cpu.sys lin kind s =
      if (walkPte s lin).getLsbD 0 = false then raisePageFault lin kind s
      else if pageDenied s.cpu.sys (walkPde s lin) (walkPte s lin) (decide (s.cpu.sys.cpl = 3))
          (decide (kind = .write)) then
        raisePageFault lin kind s
      else .ok ((walkPte s lin &&& 0xFFFFF000) ||| (lin &&& 0xFFF)) (walkMarks s lin kind) := by
  have hread : readEntry (pdeAddr s lin) s = (walkPde s lin, s) := readEntry_ram hpde
  have hread' : readEntry (pteAddr s lin) s = (walkPte s lin, s) := readEntry_ram hpte
  unfold pdeAddr at hread
  unfold pteAddr at hread'
  simp only [pageTranslate, href, pageTranslateI386, hpg, hread, hread', hpresent, Bool.true_eq_false, if_false,
    decide_eq_true_eq]
  rfl

/-- The marks change RAM alone. -/
theorem walkMarks_eq_setMem : walkMarks s lin kind = s.setMem (walkMarks s lin kind).mem := by
  have hfirst : markPde s lin = s.setMem (markPde s lin).mem := markEntry_eq_setMem hpde
  have hpte' : ∀ p ∈ dwordAddrs (pteAddr s lin), physTarget (markPde s lin).cfg p = .ram := by
    rw [hfirst]
    exact hpte
  have hsecond := markEntry_eq_setMem
    (keep := (walkPte s lin).getLsbD 5 && (!decide (kind = .write) || (walkPte s lin).getLsbD 6))
    (v := walkPte s lin ||| 0x20 ||| (if kind = .write then 0x40 else 0)) hpte'
  calc walkMarks s lin kind
      = (markPde s lin).setMem (walkMarks s lin kind).mem := hsecond
    _ = (s.setMem (markPde s lin).mem).setMem (walkMarks s lin kind).mem :=
        congrArg (State.setMem (walkMarks s lin kind).mem) hfirst
    _ = s.setMem (walkMarks s lin kind).mem := rfl

end

theorem walkMarks_other {a : Nat} (h : ∀ p ∈ dwordAddrs (pdeAddr s lin) ++ dwordAddrs (pteAddr s lin), a ≠ p.toNat) :
    Memory.read (walkMarks s lin kind).mem a = Memory.read s.mem a :=
  (markEntry_other fun p hp => h p (List.mem_append_right _ hp)).trans
    (markEntry_other fun p hp => h p (List.mem_append_left _ hp))

/-- Nothing is written when both entries bear their marks. -/
theorem walkMarks_of_marked (hpde : (walkPde s lin).getLsbD 5 = true) (hpte : (walkPte s lin).getLsbD 5 = true)
    (hdirty : kind = .write → (walkPte s lin).getLsbD 6 = true) : walkMarks s lin kind = s := by
  cases kind with
  | read => simp [walkMarks, markPde, markEntry, hpde, hpte]
  | write => simp [walkMarks, markPde, markEntry, hpde, hpte, hdirty rfl]

section
variable (hw : Memory.wf s.mem = true) (hd : ∀ p ∈ dwordAddrs (pdeAddr s lin), p ∉ dwordAddrs (pteAddr s lin))
include hw hd

/-- The directory entry is marked accessed, where the table entry does not overlap it. -/
theorem entryAt_walkMarks_pde (hpde : ∀ p ∈ dwordAddrs (pdeAddr s lin), physTarget s.cfg p = .ram) :
    entryAt (walkMarks s lin kind) (pdeAddr s lin) = walkPde s lin ||| 0x20 := by
  have hmark : entryAt (markPde s lin) (pdeAddr s lin) = walkPde s lin ||| 0x20 :=
    entryAt_markEntry hpde hw fun hmarked => (or_bit_of_getLsbD hmarked).symm
  refine (entryAt_congr fun p hp => ?_).trans hmark
  exact markEntry_other fun q hq he => hd p hp (BitVec.eq_of_toNat_eq he ▸ hq)

/-- The table entry is marked accessed, and dirty on a write, where it does not overlap the directory entry. -/
theorem entryAt_walkMarks_pte (hpte : ∀ p ∈ dwordAddrs (pteAddr s lin), physTarget s.cfg p = .ram) :
    entryAt (walkMarks s lin kind) (pteAddr s lin) =
      walkPte s lin ||| 0x20 ||| (if kind = .write then 0x40 else 0) := by
  have hkeeps : Keeps s (markPde s lin) := markEntry_keeps _ _ _ s
  have hunmarked : entryAt (markPde s lin) (pteAddr s lin) = walkPte s lin :=
    entryAt_congr fun p hp => markEntry_other fun q hq he => hd q hq (BitVec.eq_of_toNat_eq he ▸ hp)
  refine entryAt_markEntry (hkeeps.cfg ▸ hpte) (hkeeps.wf hw) fun hmarked => ?_
  rw [hunmarked]
  simp only [Bool.and_eq_true, Bool.or_eq_true] at hmarked
  obtain ⟨haccessed, hdirty⟩ := hmarked
  have h5 : walkPte s lin ||| 0x20 = walkPte s lin := or_bit_of_getLsbD haccessed
  rw [h5]
  cases kind with
  | read => simp
  | write => exact (or_bit_of_getLsbD (hdirty.resolve_left nofun)).symm

end
end

/-- Settles O38: the walk by its tests, and its two marks one after the other (`walkMarks`). -/
theorem pageWalk : Obligations.PageWalk := by
  unfold Obligations.PageWalk
  intro s lin kind
  refine ⟨fun k t => pageTranslate_abort, ?_⟩
  intro href hpg pdeA pde pteA pte fault denied hpde
  refine ⟨fun habsent => ?_, fun hpresent hpte => ?_⟩
  · exact pageTranslate_pde_absent href hpg hpde habsent
  have hwalk := pageTranslate_pde_present (kind := kind) hpde hpte href hpg hpresent
  refine ⟨fun habsent => hwalk.trans (if_pos habsent), fun hp hdenied => ?_, fun hp hpermits hw => ?_⟩
  · have hp' : ¬ pte.getLsbD 0 = false := by simp [hp]
    exact hwalk.trans ((if_neg hp').trans (if_pos (pageDenied_iff.2 hdenied)))
  · have hp' : ¬ pte.getLsbD 0 = false := by simp [hp]
    have hset := walkMarks_eq_setMem (kind := kind) hpde hpte
    refine ⟨(walkMarks s lin kind).mem, ?_, fun a => walkMarks_other, fun h5 h5' h6 => ?_, fun hd => ?_⟩
    · rw [← hset]
      exact hwalk.trans ((if_neg hp').trans (if_neg (mt pageDenied_iff.1 hpermits)))
    · rw [walkMarks_of_marked h5 h5' h6]
    · rw [← hset]
      exact ⟨entryAt_walkMarks_pde hw hd hpde, entryAt_walkMarks_pte hw hd hpte⟩

/-! ### An iteration as its translations and its accesses (R170, R364) -/

theorem Res.bind_assoc {α β γ : Type} (r : Res α) (f : α → State → Res β) (g : β → State → Res γ) :
    (r.bind f).bind g = r.bind fun a t => (f a t).bind g := by
  cases r <;> rfl

/-- What an iteration does once the check of the ports and the translations of its operands are through: `pa` and `pb`
are the physical addresses of the source and of the operand at ES, `w` the state they left. -/
def accessOperands (i : Instr) (s : State) (pa pb : List Word) (w : State) : Res Unit :=
  let z := i.handler.size
  let a := i.handler.asz
  let read (ps : List Word) (u : State) (k : Word → State → Res Unit) : Res Unit :=
    (checkAbort (readElem ps u).2).bind fun _ t => k (readElem ps u).1 t
  let done (u : State) : Res Unit := .ok () (charge i.handler u)
  match i.handler.fam with
  | .movs => read pa w fun v u => (checkAbort (writeElem pb v u)).bind fun _ t =>
      done (advance .edi a z (advance .esi a z t))
  | .stos => (checkAbort (writeElem pb (acc w.cpu.regs z) w)).bind fun _ t => done (advance .edi a z t)
  | .lods => read pa w fun v t => done (advance .esi a z (t.setRegs (setAcc z v t.cpu.regs)))
  | .cmps => read pa w fun v u => read pb u fun v' t =>
      done (advance .edi a z (advance .esi a z (t.setFlags (setSubElem z v v' t.cpu.flags))))
  | .scas => read pb w fun v t =>
      done (advance .edi a z (t.setFlags (setSubElem z (acc t.cpu.regs z) v t.cpu.flags)))
  | .ins => (checkAbort (portIn (dx s.cpu.regs) z w).2).bind fun _ u =>
      (checkAbort (writeElem pb (portIn (dx s.cpu.regs) z w).1 u)).bind fun _ t => done (advance .edi a z t)
  | .outs => read pa w fun v u => (checkAbort (portOut (dx s.cpu.regs) z v u)).bind fun _ t =>
      done (advance .esi a z t)

/-- Every access comes after the check of the ports and both translations (R170, R364). -/
theorem iterate_eq_translate_access (i : Instr) (s : State) :
    iterate i.handler (segOf i) s =
      (translateOperands i s).bind fun p w => accessOperands i s p.1 p.2 w := by
  rcases hi : i.handler with ⟨f, z, a⟩
  unfold translateOperands accessOperands srcOff dstOff elemBytes
  cases f
  case movs => simp only [hi, iterate, movsIter, Res.bind_assoc, Res.bind_ok]
  case stos => simp only [hi, iterate, stosIter, Res.bind_assoc, Res.bind_ok]
  case lods => simp only [hi, iterate, lodsIter, Res.bind_assoc, Res.bind_ok]
  case cmps => simp only [hi, iterate, cmpsIter, Res.bind_assoc, Res.bind_ok]
  case scas => simp only [hi, iterate, scasIter, Res.bind_assoc, Res.bind_ok]
  case ins => simp only [hi, iterate, insIter, Res.bind_assoc, Res.bind_ok]
  case outs => simp only [hi, iterate, outsIter, Res.bind_assoc, Res.bind_ok]

/-! ### What an instruction writes to RAM with paging off (R171, R175, R219) -/

/-- Whether the state of a result, however it ends, has a property. -/
def Res.All {α : Type} (P : State → Prop) : Res α → Prop
  | .ok _ t => P t
  | .abort _ t => P t

theorem Res.All.bind {α β : Type} {P : State → Prop} {r : Res α} {f : α → State → Res β} (h : r.All P)
    (hf : ∀ a t, r = .ok a t → P t → (f a t).All P) : (r.bind f).All P := by
  cases r with
  | abort k t => exact h
  | ok a t => exact hf a t rfl h

theorem Res.All.bindCheck {β : Type} {P : State → Prop} {t : State} {f : Unit → State → Res β} (h : P t)
    (hf : (f () t).All P) : ((checkAbort t).bind f).All P := by
  unfold checkAbort
  split
  · exact h
  · exact hf

/-! The permission check (R211) -/

theorem sysByte_all_mem (lin : Word) (s : State) : (sysByte lin s).All (·.mem = s.mem) := by
  unfold sysByte
  split <;> simp [Res.All]

theorem sysRead_all_mem (n : Nat) (lin : Word) (s : State) : (sysRead n lin s).All (·.mem = s.mem) := by
  induction n generalizing lin s with
  | zero => rfl
  | succ n ih =>
    refine (sysByte_all_mem lin s).bind fun b t _ ht => ?_
    have hrest := ih (lin + 1) t
    rw [ht] at hrest
    exact hrest.bind fun bs u _ hu => hu

theorem ioPermittedI386_all_mem (port : Half) (z : Size) (s : State) :
    (ioPermittedI386 port z s).All (·.mem = s.mem) := by
  unfold ioPermittedI386
  extract_lets sys
  split_ifs
  · rfl
  · rfl
  · rfl
  · refine (sysRead_all_mem _ _ s).bind fun map t _ ht => ?_
    extract_lets at'
    split_ifs
    · exact ht
    · have hbits := sysRead_all_mem 2 (sys.tssBase + BitVec.ofNat 32 at') t
      rw [ht] at hbits
      exact hbits.bind fun bits u _ hu => hu

/-- The permission check leaves RAM as it is, with any paging and any permission function. -/
theorem ioCheck_all_mem (port : Half) (z : Size) (s : State) : (ioCheck port z s).All (·.mem = s.mem) := by
  have hpermitted : (ioPermitted port z s).All (·.mem = s.mem) := by
    unfold ioPermitted
    split
    · exact ioPermittedI386_all_mem port z s
    · rfl
  refine hpermitted.bind fun ok t _ ht => ?_
  split_ifs <;> exact ht

/-! The translations -/

/-- The check of the ports, which only the I/O families make (R211). -/
def portCheck (i : Instr) (s : State) : Res Unit :=
  if Family.isIo i.handler.fam = true then ioCheck (dx s.cpu.regs) i.handler.size s else .ok () s

theorem portCheck_kept (i : Instr) (s : State) : (portCheck i s).Kept s := by
  unfold portCheck
  split
  · exact ioCheck_kept _ _ s
  · exact Keeps.refl s

theorem portCheck_all_mem (i : Instr) (s : State) : (portCheck i s).All (·.mem = s.mem) := by
  unfold portCheck
  split
  · exact ioCheck_all_mem _ _ s
  · rfl

/-- With paging off a state reached from `s` translates an operand as `s` does. -/
theorem preTranslate_off_of_keeps {s u : State} (hp : PagingOff s) (hu : Keeps s u) (seg : SegReg) (off : Word)
    (n : Nat) (kind : AccessKind) :
    preTranslate seg off n kind u = match segCheck seg (s.cpu.segs.get seg) off n kind with
      | some k => .abort k u
      | none => .ok (elemAddrs (s.cpu.segs.get seg) off n 0) u := by
  have hpu : PagingOff u := by
    unfold PagingOff
    rw [hu.cpu]
    exact hp
  have hoff := preTranslate_off seg off n kind hpu
  rw [hu.segs] at hoff
  exact hoff

/-- The physical addresses an iteration uses with paging off: of the source, and of the operand at ES. -/
def operandAddrs (i : Instr) (s : State) : List Word × List Word :=
  match i.handler.fam with
  | .movs | .cmps => (srcAddrs i s, dstAddrs i s)
  | .stos | .scas | .ins => ([], dstAddrs i s)
  | .lods | .outs => (srcAddrs i s, [])

theorem operandAddrs_snd_subset (i : Instr) (s : State) : ∀ p ∈ (operandAddrs i s).2, p ∈ dstAddrs i s := by
  unfold operandAddrs
  split <;> simp

/-- With paging off the translations are the operand checks and the identity. -/
theorem translateOperands_off (i : Instr) {s : State} (hp : PagingOff s) :
    translateOperands i s = (portCheck i s).bind fun _ u =>
      match firstAbort i s with
      | some k => .abort k u
      | none => .ok (operandAddrs i s) u := by
  have hkept := portCheck_kept i s
  have src {u : State} (hu : Keeps s u) := preTranslate_off_of_keeps hp hu (segOf i) (srcOff i s) (elemBytes i) .read
  have dst {u : State} (hu : Keeps s u) := preTranslate_off_of_keeps hp hu .es (dstOff i s) (elemBytes i)
  have hes : s.cpu.segs.get .es = s.cpu.segs.es := rfl
  unfold translateOperands firstAbort operandChecks operandAddrs srcAddrs dstAddrs
  unfold portCheck at hkept ⊢
  cases hf : i.handler.fam <;>
    simp only [hf, Family.isIo, Bool.false_eq_true, if_false, if_true, Res.bind_ok] at hkept ⊢
  case movs | cmps =>
    rw [src (.refl s)]
    cases segCheck (segOf i) (s.cpu.segs.get (segOf i)) (srcOff i s) (elemBytes i) .read with
    | some k => rfl
    | none =>
      simp only [Res.bind_ok]
      rw [dst (.refl s), hes]
      cases segCheck .es s.cpu.segs.es (dstOff i s) (elemBytes i) _ <;> rfl
  case stos | scas =>
    rw [dst (.refl s), hes]
    cases segCheck .es s.cpu.segs.es (dstOff i s) (elemBytes i) _ <;> rfl
  case lods =>
    rw [src (.refl s)]
    cases segCheck (segOf i) (s.cpu.segs.get (segOf i)) (srcOff i s) (elemBytes i) .read <;> rfl
  case ins =>
    cases hio : ioCheck (dx s.cpu.regs) i.handler.size s with
    | abort k u => rfl
    | ok _ u =>
      rw [hio] at hkept
      simp only [Res.bind_ok]
      rw [dst hkept, hes]
      cases segCheck .es s.cpu.segs.es (dstOff i s) (elemBytes i) .write <;> rfl
  case outs =>
    cases hio : ioCheck (dx s.cpu.regs) i.handler.size s with
    | abort k u => rfl
    | ok _ u =>
      rw [hio] at hkept
      simp only [Res.bind_ok]
      rw [src hkept]
      cases segCheck (segOf i) (s.cpu.segs.get (segOf i)) (srcOff i s) (elemBytes i) .read <;> rfl

/-! The accesses -/

/-- RAM `m'` is RAM `m` but for bytes at the addresses `pb`, and all of it in the families that store nothing. -/
def StoresAt (i : Instr) (pb : List Word) (m m' : List Host.Cell) : Prop :=
  (i.handler.fam ∈ [Family.cmps, .scas, .lods, .outs] → m' = m) ∧
    ∀ a, (∀ p ∈ pb, a ≠ p.toNat) → Memory.read m' a = Memory.read m a

theorem StoresAt.of_eq {i : Instr} {pb : List Word} {m m' : List Host.Cell} (h : m' = m) : StoresAt i pb m m' :=
  ⟨fun _ => h, fun _ _ => by rw [h]⟩

theorem storesAt_writeElem {i : Instr} {s u : State} (hf : i.handler.fam ∈ [Family.movs, .stos, .ins])
    (hu : u.mem = s.mem) (pb : List Word) (v : Word) : StoresAt i pb s.mem (writeElem pb v u).mem := by
  refine ⟨fun hno => ?_, fun a ha => ?_⟩
  · cases hfam : i.handler.fam <;> simp_all
  · rw [writeElem_other ha, hu]

/-- The accesses store at `pb` alone, and only in MOVS, STOS and INS. -/
theorem accessOperands_all_storesAt (i : Instr) (s : State) (pa pb : List Word) (w : State) :
    (accessOperands i s pa pb w).All (StoresAt i pb w.mem ·.mem) := by
  unfold accessOperands
  cases hf : i.handler.fam with
  | movs =>
    have hstores := storesAt_writeElem (i := i) (by simp [hf]) (readElem_mem pa w) pb (readElem pa w).1
    exact .bindCheck (.of_eq (readElem_mem pa w)) (.bindCheck hstores hstores)
  | stos =>
    have hstores := storesAt_writeElem (i := i) (s := w) (by simp [hf]) rfl pb (acc w.cpu.regs i.handler.size)
    exact .bindCheck hstores hstores
  | lods => exact .bindCheck (.of_eq (readElem_mem pa w)) (.of_eq (readElem_mem pa w))
  | cmps =>
    have hsecond : (readElem pb (readElem pa w).2).2.mem = w.mem := (readElem_mem _ _).trans (readElem_mem pa w)
    exact .bindCheck (.of_eq (readElem_mem pa w)) (.bindCheck (.of_eq hsecond) (.of_eq hsecond))
  | scas => exact .bindCheck (.of_eq (readElem_mem pb w)) (.of_eq (readElem_mem pb w))
  | ins =>
    have hport := portIn_mem (dx s.cpu.regs) i.handler.size w
    have hstores := storesAt_writeElem (i := i) (by simp [hf]) hport pb (portIn (dx s.cpu.regs) i.handler.size w).1
    exact .bindCheck (.of_eq hport) (.bindCheck hstores hstores)
  | outs =>
    have hport : (portOut (dx s.cpu.regs) i.handler.size (readElem pa w).1 (readElem pa w).2).mem = w.mem :=
      (portOut_mem _ _ _ _).trans (readElem_mem pa w)
    exact .bindCheck (.of_eq (readElem_mem pa w)) (.bindCheck (.of_eq hport) (.of_eq hport))

/-- With paging off an iteration, however it ends, stores at its destination alone. -/
theorem iterate_off_all_storesAt (i : Instr) {s : State} (hp : PagingOff s) :
    (iterate i.handler (segOf i) s).All (StoresAt i (operandAddrs i s).2 s.mem ·.mem) := by
  rw [iterate_eq_translate_access, translateOperands_off i hp, Res.bind_assoc]
  have hcheck := portCheck_all_mem i s
  cases hio : portCheck i s with
  | abort k u =>
    rw [hio] at hcheck
    exact .of_eq hcheck
  | ok _ u =>
    rw [hio] at hcheck
    simp only [Res.bind_ok]
    cases firstAbort i s with
    | some k => exact StoresAt.of_eq hcheck
    | none =>
      have haccess := accessOperands_all_storesAt i s (operandAddrs i s).1 (operandAddrs i s).2 u
      rw [show u.mem = s.mem from hcheck] at haccess
      exact haccess

/-- Settles O28: a next state has the RAM of the iteration's last state, or no iteration has run. -/
theorem memoryFrame : Obligations.MemoryFrame := by
  unfold Obligations.MemoryFrame
  intro i s t hp h
  have hiter := iterate_off_all_storesAt i hp
  have hstores : StoresAt i (operandAddrs i s).2 s.mem t.mem := by
    obtain ⟨-, ⟨-, -, rfl⟩ | ⟨-, k, u, -, hu, rfl⟩ | ⟨-, -, w, v, f, u, -, -, hu, hw, rfl⟩⟩ := exec_cases h
    · exact .of_eq rfl
    · rw [hu] at hiter
      exact hiter
    · rw [hu, hw] at hiter
      exact hiter
  obtain ⟨hnone, hother⟩ := hstores
  refine ⟨hnone, fun a ha => hother a fun p hpb => ?_⟩
  have hdst := operandAddrs_snd_subset i s p hpb
  simp only [dstAddrs, elemAddrs, List.mem_map, List.mem_range'_1] at hdst
  obtain ⟨k, hk, rfl⟩ := hdst
  exact ha k (by omega)

/-! ### Translated operands in RAM (R88, R170, R364) -/

/-- The check of the ports and the translations leave the CPU context but for `cr2`. -/
theorem translateOperands_kept (i : Instr) (s : State) : (translateOperands i s).Kept s := by
  have src (u : State) := preTranslate_kept (segOf i) (srcOff i s) (elemBytes i) .read u
  have dst (kind : AccessKind) (u : State) := preTranslate_kept .es (dstOff i s) (elemBytes i) kind u
  have hports := ioCheck_kept (dx s.cpu.regs) i.handler.size s
  have last {α : Type} (f : List Word → α) {r : Res (List Word)} {u : State} (hr : r.Kept u) :
      (r.bind fun ps t => .ok (f ps) t).Kept u := hr.bind fun _ t => Keeps.refl t
  unfold translateOperands
  cases i.handler.fam with
  | movs => exact (src s).bind fun pa u => last _ (dst .write u)
  | cmps => exact (src s).bind fun pa u => last _ (dst .read u)
  | stos => exact last _ (dst .write s)
  | scas => exact last _ (dst .read s)
  | lods => exact last _ (src s)
  | ins => exact hports.bind fun _ u => last _ (dst .write u)
  | outs => exact hports.bind fun _ u => last _ (src u)

/-- An abort of the check of the ports or of a translation is all that happens (R366). -/
theorem exec_translate_abort {i : Instr} {s w : State} {k : Abort} (h : Iterates i s)
    (ht : translateOperands i s = .abort k w) : exec i s = .next (w.setAbrt (some k)) := by
  refine exec_abort h ?_
  rw [iterate_eq_translate_access, ht]
  rfl

/-- A completed iteration whose translations left `sys`: `exec_ok` for any system context. -/
theorem exec_ok_sys {i : Instr} {s u : State} {r : Regs} {f : Word} {y : Sys} (h : Iterates i s)
    (hu : iterate i.handler (segOf i) s = .ok () u)
    (hc : u.cpu = { s.cpu with
      regs := r, flags := f, sys := y, cycles := s.cpu.cycles + cycleCost s.cfg i.handler }) :
    exec i s = .next { u with cpu := { endCpu i s r f with sys := y } } := by
  obtain ⟨hadm, -, hcount⟩ := h
  rw [exec_admitted hadm]
  unfold endCpu endRegs endPc
  cases hk : repOf i with
  | none => simp [stepPlain, hu, pcAdvance, State.setPc, hc]
  | some kind =>
    have hz := hcount (by simp [hk])
    unfold countOf at hz ⊢
    simp only [stepRepeat, hz, if_false, hu, repeatTail, State.setRegs_flags, hc]
    split_ifs <;> simp only [pcAdvance, State.setPc, State.setRegs, hc]

/-- The state an iteration leaves whose translations left `w` and whose accesses changed nothing of it. -/
def endState (i : Instr) (s w : State) (r : Regs) (f : Word) : State :=
  { w with cpu := { endCpu i s r f with sys := w.cpu.sys } }

section
variable {i : Instr} {s w : State} {pa pb : List Word}

theorem writeElem_stores {v : Word} (hram : ∀ p ∈ pb, physTarget w.cfg p = .ram) (hw : Memory.wf w.mem = true)
    (hd : pb.Nodup) :
    (∀ k, (h : k < pb.length) → Memory.read (writeElem pb v w).mem (pb[k]).toNat = byteOf v k) ∧
      ∀ a, (∀ p ∈ pb, a ≠ p.toNat) → Memory.read (writeElem pb v w).mem a = Memory.read w.mem a :=
  ⟨fun _ hk => writeElem_ram_read hram hw hd hk, fun _ ha => writeElem_other ha v w⟩

variable (h : Iterates i s) (ht : translateOperands i s = .ok (pa, pb) w)
include ht

theorem translateOperands_keeps : Keeps s w := by
  have hkept := translateOperands_kept i s
  rw [ht] at hkept
  exact hkept

/-- The translations leave the registers and the flags. -/
theorem cpu_of_translate : w.cpu = { w.cpu with regs := s.cpu.regs, flags := s.cpu.flags } := by
  have hkeeps := translateOperands_keeps ht
  rw [← hkeeps.regs, ← hkeeps.flags]

include h

/-- `exec` by what the accesses leave. -/
theorem exec_of_access {u : State} {r : Regs} {f : Word} (hacc : accessOperands i s pa pb w = .ok () u)
    (hc : u.cpu = { w.cpu with
      regs := r, flags := f, cycles := w.cpu.cycles + cycleCost s.cfg i.handler }) :
    exec i s = .next { u with cpu := (endState i s w r f).cpu } := by
  have hiter : iterate i.handler (segOf i) s = .ok () u := by
    rw [iterate_eq_translate_access, ht]
    exact hacc
  refine exec_ok_sys h hiter (hc.trans ?_)
  rw [(translateOperands_keeps ht).cpu]

/-- The same, when one index register moves after the accesses. -/
theorem exec_of_access_advance {u : State} {k : Reg} {r : Regs} {f : Word}
    (hacc : accessOperands i s pa pb w = .ok () (charge i.handler (advance k i.handler.asz i.handler.size u)))
    (hcpu : u.cpu = { w.cpu with regs := r, flags := f }) (hcfg : u.cfg = w.cfg)
    (hr : r.get k = s.cpu.regs.get k) (hdf : f.getLsbD 10 = s.cpu.flags.getLsbD 10) :
    exec i s = .next { u with cpu := (endState i s w (stepIndex k i s r) f).cpu } := by
  refine exec_of_access (u := charge i.handler (advance k i.handler.asz i.handler.size u)) h ht hacc ?_
  rw [charge_advance_cpu (s := s) (by rw [hcpu]; exact hr) (by rw [hcpu]; exact hdf)
    (hcfg.trans (translateOperands_keeps ht).cfg), hcpu]

/-- The same, when both index registers move after the accesses. -/
theorem exec_of_access_advance_both {u : State} {f : Word}
    (hacc : accessOperands i s pa pb w = .ok () (charge i.handler
      (advance .edi i.handler.asz i.handler.size (advance .esi i.handler.asz i.handler.size u))))
    (hcpu : u.cpu = { w.cpu with flags := f }) (hcfg : u.cfg = w.cfg)
    (hdf : f.getLsbD 10 = s.cpu.flags.getLsbD 10) :
    exec i s = .next { u with
      cpu := (endState i s w (stepIndex .edi i s (stepIndex .esi i s s.cpu.regs)) f).cpu } := by
  have hkeeps := translateOperands_keeps ht
  refine exec_of_access (u := charge i.handler
    (advance .edi i.handler.asz i.handler.size (advance .esi i.handler.asz i.handler.size u))) h ht hacc ?_
  rw [charge_advance2_cpu (s := s) (by rw [hcpu]; exact hkeeps.regs) (by rw [hcpu]; exact hdf)
    (hcfg.trans hkeeps.cfg), hcpu]

/-- No abort is pending after the translations, nor after an access, which leaves the CPU context. -/
theorem checkAbort_of_translate {u : State} (hu : u.cpu = w.cpu) : checkAbort u = .ok () u := by
  obtain ⟨-, hnone, -⟩ := h
  refine checkAbort_none ?_
  rw [hu, (translateOperands_keeps ht).abrt, hnone]

section
variable (hpa : ∀ p ∈ pa, physTarget w.cfg p = .ram)
include hpa

theorem lods_exec_translated (hf : i.handler.fam = .lods) :
    exec i s = .next (endState i s w (stepIndex .esi i s
      (setAcc i.handler.size (leValue (pa.map (ramByte w))) s.cpu.regs)) s.cpu.flags) := by
  have hkeeps := translateOperands_keeps ht
  refine exec_of_access_advance h ht (k := .esi)
    (u := w.setRegs (setAcc i.handler.size (leValue (pa.map (ramByte w))) s.cpu.regs)) ?_ ?_ rfl
    (setAcc_get_ne (by decide) _ _ _) rfl
  · simp only [accessOperands, hf, readElem_ram hpa, checkAbort_of_translate h ht rfl, Res.bind_ok, hkeeps.regs]
  · rw [← hkeeps.flags]
    rfl

theorem outs_exec_translated (hf : i.handler.fam = .outs) :
    exec i s = .next { endState i s w (stepIndex .esi i s s.cpu.regs) s.cpu.flags with
      io := (portOut (dx s.cpu.regs) i.handler.size (leValue (pa.map (ramByte w))) w).io } := by
  refine exec_of_access_advance h ht (k := .esi)
    (u := w.setIo (portOut (dx s.cpu.regs) i.handler.size (leValue (pa.map (ramByte w))) w).io) ?_
    (cpu_of_translate (w := w) ht) rfl rfl rfl
  simp only [accessOperands, hf, readElem_ram hpa, checkAbort_of_translate h ht rfl, Res.bind_ok]
  rw [checkAbort_of_translate h ht (portOut_cpu _ _ _ _), Res.bind_ok, ← portOut_frame]

end

section
variable (hpb : ∀ p ∈ pb, physTarget w.cfg p = .ram)
include hpb

theorem scas_exec_translated (hf : i.handler.fam = .scas) :
    exec i s = .next (endState i s w (stepIndex .edi i s s.cpu.regs)
      (setSubElem i.handler.size (acc s.cpu.regs i.handler.size) (leValue (pb.map (ramByte w))) s.cpu.flags)) := by
  have hkeeps := translateOperands_keeps ht
  refine exec_of_access_advance h ht (k := .edi) (u := w.setFlags (setSubElem i.handler.size
    (acc s.cpu.regs i.handler.size) (leValue (pb.map (ramByte w))) s.cpu.flags)) ?_
    (by rw [← hkeeps.regs]; rfl) rfl rfl (setSubElem_other _ _ _ (by decide) _)
  simp only [accessOperands, hf, readElem_ram hpb, checkAbort_of_translate h ht rfl, Res.bind_ok, hkeeps.regs,
    hkeeps.flags]

theorem stos_exec_translated (hf : i.handler.fam = .stos) :
    exec i s = .next { endState i s w (stepIndex .edi i s s.cpu.regs) s.cpu.flags with
      mem := (writeElem pb (acc s.cpu.regs i.handler.size) w).mem } := by
  refine exec_of_access_advance h ht (k := .edi)
    (u := w.setMem (writeElem pb (acc s.cpu.regs i.handler.size) w).mem) ?_ (cpu_of_translate (w := w) ht) rfl rfl rfl
  simp only [accessOperands, hf, (translateOperands_keeps ht).regs]
  rw [checkAbort_of_translate h ht (writeElem_cpu _ _ _), Res.bind_ok, ← writeElem_ram_eq_setMem hpb]

theorem ins_exec_translated (hf : i.handler.fam = .ins) :
    exec i s = .next { endState i s w (stepIndex .edi i s s.cpu.regs) s.cpu.flags with
      mem := (writeElem pb (portIn (dx s.cpu.regs) i.handler.size w).1 (portIn (dx s.cpu.regs) i.handler.size w).2).mem,
      io := (portIn (dx s.cpu.regs) i.handler.size w).2.io } := by
  have hram : ∀ p ∈ pb, physTarget (portIn (dx s.cpu.regs) i.handler.size w).2.cfg p = .ram := by
    rw [portIn_cfg]
    exact hpb
  refine exec_of_access_advance h ht (k := .edi)
    (u := (w.setIo (portIn (dx s.cpu.regs) i.handler.size w).2.io).setMem (writeElem pb
      (portIn (dx s.cpu.regs) i.handler.size w).1 (portIn (dx s.cpu.regs) i.handler.size w).2).mem) ?_
    (cpu_of_translate (w := w) ht) rfl rfl rfl
  simp only [accessOperands, hf]
  rw [checkAbort_of_translate h ht (portIn_cpu _ _ _), Res.bind_ok,
    checkAbort_of_translate h ht ((writeElem_cpu _ _ _).trans (portIn_cpu _ _ _)), Res.bind_ok, ← portIn_frame,
    ← writeElem_ram_eq_setMem hram]

end

section
variable (hpa : ∀ p ∈ pa, physTarget w.cfg p = .ram) (hpb : ∀ p ∈ pb, physTarget w.cfg p = .ram)
include hpa hpb

theorem cmps_exec_translated (hf : i.handler.fam = .cmps) :
    exec i s = .next (endState i s w (stepIndex .edi i s (stepIndex .esi i s s.cpu.regs))
      (setSubElem i.handler.size (leValue (pa.map (ramByte w))) (leValue (pb.map (ramByte w))) s.cpu.flags)) := by
  refine exec_of_access_advance_both h ht (u := w.setFlags (setSubElem i.handler.size
    (leValue (pa.map (ramByte w))) (leValue (pb.map (ramByte w))) s.cpu.flags)) ?_ rfl rfl
    (setSubElem_other _ _ _ (by decide) _)
  simp only [accessOperands, hf, readElem_ram hpa, readElem_ram hpb, checkAbort_of_translate h ht rfl, Res.bind_ok,
    (translateOperands_keeps ht).flags]

theorem movs_exec_translated (hf : i.handler.fam = .movs) :
    exec i s = .next { endState i s w (stepIndex .edi i s (stepIndex .esi i s s.cpu.regs)) s.cpu.flags with
      mem := (writeElem pb (leValue (pa.map (ramByte w))) w).mem } := by
  refine exec_of_access_advance_both h ht (u := w.setMem (writeElem pb (leValue (pa.map (ramByte w))) w).mem) ?_
    (by rw [← (translateOperands_keeps ht).flags]; rfl) rfl rfl
  simp only [accessOperands, hf, readElem_ram hpa, checkAbort_of_translate h ht rfl, Res.bind_ok]
  rw [checkAbort_of_translate h ht (writeElem_cpu _ _ _), Res.bind_ok, ← writeElem_ram_eq_setMem hpb]

end
end

/-- Settles O20: the iteration is its translations and then its accesses (`iterate_eq_translate_access`). -/
theorem translatedOperands : Obligations.TranslatedOperands := by
  unfold Obligations.TranslatedOperands
  intro i s w h
  refine ⟨fun k => exec_translate_abort h, fun pa pb ht hram => ?_⟩
  have hkeeps := translateOperands_keeps ht
  rw [← hkeeps.cfg] at hram
  obtain ⟨hpa, hpb⟩ := List.forall_mem_append.1 hram
  refine ⟨lods_exec_translated h ht hpa, scas_exec_translated h ht hpb, cmps_exec_translated h ht hpa hpb,
    outs_exec_translated h ht hpa, fun hwf hd => ?_⟩
  have hw := hkeeps.wf hwf
  refine ⟨fun hf => ⟨_, writeElem_stores hpb hw hd, stos_exec_translated h ht hpb hf⟩,
    fun hf => ⟨_, writeElem_stores hpb hw hd, movs_exec_translated h ht hpa hpb hf⟩,
    fun hf => ⟨_, ?_, ins_exec_translated h ht hpb hf⟩⟩
  have hstores := writeElem_stores (v := (portIn (dx s.cpu.regs) i.handler.size w).1)
    (w := (portIn (dx s.cpu.regs) i.handler.size w).2) (by rwa [portIn_cfg]) (by rwa [portIn_mem]) hd
  rwa [portIn_mem] at hstores

/-! ### Port elements: bytes at ascending ports (R75, R95) -/

theorem leValue_single (b : Byte) : leValue [b] = b.setWidth 32 := by simp [leValue]

/-- A doubleword is the concatenation of its bytes, the first in bits 7:0. -/
theorem leValue_four (b₀ b₁ b₂ b₃ : Byte) : leValue [b₀, b₁, b₂, b₃] = b₃ ++ b₂ ++ b₁ ++ b₀ := by
  ext j hj
  simp only [leValue, BitVec.getElem_or, BitVec.getElem_shiftLeft, BitVec.getElem_setWidth]
  grind

theorem leValue_two (b₀ b₁ : Byte) : leValue [b₀, b₁] = (b₁ ++ b₀).setWidth 32 := by
  ext j hj
  simp only [leValue, BitVec.getElem_or, BitVec.getElem_shiftLeft, BitVec.getElem_setWidth, BitVec.getLsbD_append]
  grind

theorem setWidth_ushiftRight_eq_extractLsb' (v : Word) (n : Nat) : (v >>> n).setWidth 8 = v.extractLsb' n 8 := by
  ext j hj
  simp

section
variable (port : Half) (v : Word) (s : State)

theorem portIn_byte : portIn port .byte s = ((portRead8 port s).1.setWidth 32, (portRead8 port s).2) := by
  simp only [portIn, Size.bytes, portReadBytes, leValue_single]

theorem portIn_word :
    let r₀ := portRead8 port s
    let r₁ := portRead8 (port + 1) r₀.2
    portIn port .word s = ((r₁.1 ++ r₀.1).setWidth 32, r₁.2) := by
  simp only [portIn, Size.bytes, portReadBytes, leValue_two]

theorem portIn_dword :
    let r₀ := portRead8 port s
    let r₁ := portRead8 (port + 1) r₀.2
    let r₂ := portRead8 (port + 2) r₁.2
    let r₃ := portRead8 (port + 3) r₂.2
    portIn port .dword s = (r₃.1 ++ r₂.1 ++ r₁.1 ++ r₀.1, r₃.2) := by
  have h2 : port + 1 + 1 = port + 2 := BitVec.add_assoc port 1 1
  have h3 : port + 2 + 1 = port + 3 := BitVec.add_assoc port 2 1
  simp only [portIn, Size.bytes, portReadBytes, leValue_four, h2, h3]

theorem portOut_byte : portOut port .byte v s = portWrite8 port (v.extractLsb' 0 8) s := by
  simp only [portOut, Size.bytes, portWriteBytes, ← setWidth_ushiftRight_eq_extractLsb', BitVec.ushiftRight_zero]

theorem portOut_word :
    portOut port .word v s = portWrite8 (port + 1) (v.extractLsb' 8 8) (portWrite8 port (v.extractLsb' 0 8) s) := by
  simp only [portOut, Size.bytes, portWriteBytes, ← setWidth_ushiftRight_eq_extractLsb', BitVec.ushiftRight_zero]

theorem portOut_dword :
    portOut port .dword v s = portWrite8 (port + 3) (v.extractLsb' 24 8) (portWrite8 (port + 2) (v.extractLsb' 16 8)
      (portWrite8 (port + 1) (v.extractLsb' 8 8) (portWrite8 port (v.extractLsb' 0 8) s))) := by
  have h2 : port + 1 + 1 = port + 2 := BitVec.add_assoc port 1 1
  have h3 : port + 2 + 1 = port + 3 := BitVec.add_assoc port 2 1
  simp only [portOut, Size.bytes, portWriteBytes, ← setWidth_ushiftRight_eq_extractLsb', BitVec.ushiftRight_zero,
    ← BitVec.shiftRight_add, h2, h3, Nat.reduceAdd]

end

/-! ### What a port reaches (R73, R162, R213) -/

theorem portReg_base {cfg : Cfg} {base : Half} (h : cfg.ncrPortBase = some base) (n : BitVec 3) :
    portReg cfg (base + n.setWidth 16) = some n := by
  have hdist : base + n.setWidth 16 - base = n.setWidth 16 := by simp
  have hn : n.toNat < 8 := n.isLt
  simp [portReg, h, hdist, Nat.mod_eq_of_lt (show n.toNat < 65536 by omega), hn]

theorem portReg_none {cfg : Cfg} {port : Half}
    (h : ∀ base, cfg.ncrPortBase = some base → 8 ≤ (port - base).toNat) : portReg cfg port = none := by
  unfold portReg
  split
  · next base hb => exact if_neg (by have := h base hb; omega)
  · rfl

section
variable {port : Half} {s : State} {b : Byte}

theorem portRead8_reg {n : BitVec 3} (h : portReg s.cfg port = some n) :
    portRead8 port s = ((regRead s.cfg n s.io).1, s.setIo (regRead s.cfg n s.io).2) := by
  simp [portRead8, h]

theorem portWrite8_reg {n : BitVec 3} (h : portReg s.cfg port = some n) :
    portWrite8 port b s = s.setIo (regWrite s.cfg n b s.io) := by
  simp [portWrite8, h]

/-- A port without a handler floats (R73). -/
theorem portRead8_unmapped (h : portReg s.cfg port = none) (ho : port ∉ s.cfg.outsidePorts) :
    portRead8 port s = (0xFF, s) := by
  simp [portRead8, h, ho]

theorem portWrite8_unmapped (h : portReg s.cfg port = none) (ho : port ∉ s.cfg.outsidePorts) :
    portWrite8 port b s = s := by
  simp [portWrite8, h, ho]

/-- The next byte the outside world is set to supply is the one drawn (log 9). -/
theorem drawByte_supplied {io : Io} {v : Byte} {rest : List Byte} (h : io.inputs = v :: rest) :
    drawByte io = (v, { io with inputs := rest }) := by
  simp [drawByte, h]

theorem portRead8_outside (h : portReg s.cfg port = none) (ho : port ∈ s.cfg.outsidePorts) {v : Byte} {rest : List Byte}
    (hin : s.io.inputs = v :: rest) : portRead8 port s = (v, s.setIo { s.io with inputs := rest }) := by
  simp [portRead8, h, ho, drawByte_supplied hin]

theorem portWrite8_outside (h : portReg s.cfg port = none) (ho : port ∈ s.cfg.outsidePorts) :
    portWrite8 port b s = s.setIo { s.io with outputs := .portWrite port b :: s.io.outputs } := by
  simp [portWrite8, h, ho, Io.emit]

end

/-! ### What an address reaches (R72, R160) -/

section
variable {cfg : Cfg} {a : Word}

theorem physTarget_window (h : (a - cfg.t128Base).toNat < 0x4000) :
    physTarget cfg a = .t128 (a - cfg.t128Base).toNat := if_pos h

/-- Outside the window the first region that holds the address decides. -/
theorem physTarget_region {before after : List Region} {r : Region} (h : 0x4000 ≤ (a - cfg.t128Base).toNat)
    (hmap : cfg.physMap = before ++ r :: after)
    (hbefore : ∀ q ∈ before, ¬ (q.lo.toNat ≤ a.toNat ∧ a.toNat ≤ q.hi.toNat))
    (hr : r.lo.toNat ≤ a.toNat ∧ a.toNat ≤ r.hi.toNat) :
    (r.kind = .ram → physTarget cfg a = .ram) ∧ (r.kind = .outside → physTarget cfg a = .outside) := by
  have hfind : cfg.physMap.find? (fun r => decide (r.lo ≤ a ∧ a ≤ r.hi)) = some r := by
    refine List.find?_eq_some_iff_append.2 ⟨by simpa [BitVec.le_def] using hr, before, after, hmap, fun q hq => ?_⟩
    simpa only [BitVec.le_def, Bool.not_eq_true', decide_eq_false_iff_not] using hbefore q hq
  unfold physTarget
  dsimp only
  rw [if_neg (by omega), hfind]
  exact ⟨fun hk => by simp only [hk], fun hk => by simp only [hk]⟩

theorem physTarget_unmapped (h : 0x4000 ≤ (a - cfg.t128Base).toNat)
    (hnone : ∀ q ∈ cfg.physMap, ¬ (q.lo.toNat ≤ a.toNat ∧ a.toNat ≤ q.hi.toNat)) : physTarget cfg a = .unmapped := by
  have hfind : cfg.physMap.find? (fun r => decide (r.lo ≤ a ∧ a ≤ r.hi)) = none := by
    refine List.find?_eq_none.2 fun q hq => ?_
    simpa only [BitVec.le_def, decide_eq_true_eq] using hnone q hq
  unfold physTarget
  dsimp only
  rw [if_neg (by omega), hfind]

end

/-! ### The bytes outside RAM (R72, R332, R333) -/

section
variable {a : Word} {s : State} {b : Byte}

theorem memRead_outside (h : physTarget s.cfg a = .outside) {v : Byte} {rest : List Byte}
    (hin : s.io.inputs = v :: rest) : memRead a s = (v, s.setIo { s.io with inputs := rest }) := by
  simp [memRead, h, drawByte_supplied hin]

theorem memWrite_outside (h : physTarget s.cfg a = .outside) :
    memWrite a b s = s.setIo { s.io with outputs := .windowWrite a b :: s.io.outputs } := by
  simp [memWrite, h, Io.emit]

theorem memRead_unmapped (h : physTarget s.cfg a = .unmapped) : memRead a s = (0xFF, s) := by simp [memRead, h]

theorem memWrite_unmapped (h : physTarget s.cfg a = .unmapped) : memWrite a b s = s := by simp [memWrite, h]

/-- A window byte read, by what the bridge answers there. -/
theorem memRead_t128 {off : Nat} (h : physTarget s.cfg a = .t128 off) {r : Byte × Io}
    (hr : bridgeRead s.cfg off s.io = r) : memRead a s = (r.1, s.setIo r.2) := by
  simp [memRead, h, hr]

/-- A window byte write, by what the bridge makes of it. -/
theorem memWrite_t128 {off : Nat} (h : physTarget s.cfg a = .t128 off) {io : Io}
    (hio : bridgeWrite s.cfg off b s.io = io) : memWrite a b s = s.setIo io := by
  simp [memWrite, h, hio]

end

/-- The NCR5380 registers repeat every 32 bytes of their region (R160). -/
theorem windowReg_standard (off : Nat) : windowReg .standard off = BitVec.ofNat 3 ((off - 0x1D00) / 32) :=
  congrArg (BitVec.ofNat 3) (Nat.shiftRight_eq_div_pow _ 5)

section
variable {cfg : Cfg} {off : Nat} (hm : cfg.t128Map = .standard) (b : Byte) (io : Io)
include hm

/-- Reads of the standard window by region (R332). -/
theorem bridgeRead_standard :
    bridgeRead cfg off io =
      if off ≤ 0x1BFF then (Config.t128Rom off, io)
      else if 0x1C00 ≤ off ∧ off ≤ 0x1C1F then (io.bridge.ctrl, io)
      else if 0x1C20 ≤ off ∧ off ≤ 0x1C3F then (io.bridge.status, io)
      else if 0x1D00 ≤ off ∧ off ≤ 0x1DFF then regRead cfg (BitVec.ofNat 3 ((off - 0x1D00) / 32)) io
      else if 0x1E00 ≤ off ∧ off ≤ 0x1FFF then dataPortRead cfg io
      else (0xFF, io) := by
  have hreg := windowReg_standard off
  unfold T128Map.standard at hreg
  simp only [bridgeRead, hm, hreg, Span.holds, T128Map.standard, decide_eq_true_eq, Nat.zero_le, true_and]

/-- Writes of the standard window by region (R333). -/
theorem bridgeWrite_standard :
    bridgeWrite cfg off b io =
      if 0x1C00 ≤ off ∧ off ≤ 0x1C1F then { io with bridge := { io.bridge with ctrl := b } }
      else if 0x1D00 ≤ off ∧ off ≤ 0x1DFF then regWrite cfg (BitVec.ofNat 3 ((off - 0x1D00) / 32)) b io
      else if 0x1E00 ≤ off ∧ off ≤ 0x1FFF then dataPortWrite cfg b io
      else io := by
  have hreg := windowReg_standard off
  unfold T128Map.standard at hreg
  simp only [bridgeWrite, hm, hreg, Span.holds, T128Map.standard, decide_eq_true_eq, Io.mapBridge]

end

/-! The standard window by region (R332, R333) -/

section
variable {a : Word} {s : State} {off : Nat} (h : physTarget s.cfg a = .t128 off) (hm : s.cfg.t128Map = .standard)
  (b : Byte)
include h hm

theorem window_rom (hoff : off ≤ 0x1BFF) : memRead a s = (Config.t128Rom off, s) ∧ memWrite a b s = s := by
  refine ⟨memRead_t128 (r := (Config.t128Rom off, s.io)) h ?_, memWrite_t128 (io := s.io) h ?_⟩
  · rw [bridgeRead_standard hm, if_pos hoff]
  · rw [bridgeWrite_standard hm, if_neg (by omega), if_neg (by omega), if_neg (by omega)]

theorem window_ctrl (hlo : 0x1C00 ≤ off) (hhi : off ≤ 0x1C1F) :
    memRead a s = (s.io.bridge.ctrl, s) ∧
      memWrite a b s = s.setIo { s.io with bridge := { s.io.bridge with ctrl := b } } := by
  refine ⟨memRead_t128 (r := (s.io.bridge.ctrl, s.io)) h ?_, memWrite_t128 h ?_⟩
  · rw [bridgeRead_standard hm, if_neg (by omega), if_pos ⟨hlo, hhi⟩]
  · rw [bridgeWrite_standard hm, if_pos ⟨hlo, hhi⟩]

theorem window_status (hlo : 0x1C20 ≤ off) (hhi : off ≤ 0x1C3F) :
    memRead a s = (s.io.bridge.status, s) ∧ memWrite a b s = s := by
  refine ⟨memRead_t128 (r := (s.io.bridge.status, s.io)) h ?_, memWrite_t128 (io := s.io) h ?_⟩
  · rw [bridgeRead_standard hm, if_neg (by omega), if_neg (by omega), if_pos ⟨hlo, hhi⟩]
  · rw [bridgeWrite_standard hm, if_neg (by omega), if_neg (by omega), if_neg (by omega)]

theorem window_ncr (hlo : 0x1D00 ≤ off) (hhi : off ≤ 0x1DFF) :
    let n := BitVec.ofNat 3 ((off - 0x1D00) / 32)
    memRead a s = ((regRead s.cfg n s.io).1, s.setIo (regRead s.cfg n s.io).2) ∧
      memWrite a b s = s.setIo (regWrite s.cfg n b s.io) := by
  refine ⟨memRead_t128 h ?_, memWrite_t128 h ?_⟩
  · rw [bridgeRead_standard hm, if_neg (by omega), if_neg (by omega), if_neg (by omega), if_pos ⟨hlo, hhi⟩]
  · rw [bridgeWrite_standard hm, if_neg (by omega), if_pos ⟨hlo, hhi⟩]

theorem window_data (hlo : 0x1E00 ≤ off) (hhi : off ≤ 0x1FFF) :
    memRead a s = ((dataPortRead s.cfg s.io).1, s.setIo (dataPortRead s.cfg s.io).2) ∧
      memWrite a b s = s.setIo (dataPortWrite s.cfg b s.io) := by
  refine ⟨memRead_t128 h ?_, memWrite_t128 h ?_⟩
  · rw [bridgeRead_standard hm, if_neg (by omega), if_neg (by omega), if_neg (by omega), if_neg (by omega),
      if_pos ⟨hlo, hhi⟩]
  · rw [bridgeWrite_standard hm, if_neg (by omega), if_neg (by omega), if_pos ⟨hlo, hhi⟩]

theorem window_hole (hoff : (0x1C40 ≤ off ∧ off ≤ 0x1CFF) ∨ 0x2000 ≤ off) :
    memRead a s = (0xFF, s) ∧ memWrite a b s = s := by
  refine ⟨memRead_t128 (r := (0xFF, s.io)) h ?_, memWrite_t128 (io := s.io) h ?_⟩
  · rw [bridgeRead_standard hm, if_neg (by omega), if_neg (by omega), if_neg (by omega), if_neg (by omega),
      if_neg (by omega)]
  · rw [bridgeWrite_standard hm, if_neg (by omega), if_neg (by omega), if_neg (by omega)]

end

/-! ### Device bytes moved by INSB, OUTSB and MOVSB (R184, R213, R336, R337) -/

section
variable {i : Instr} {s : State} (hz : i.handler.size = .byte)
include hz

theorem elemBytes_byte : elemBytes i = 1 := congrArg Size.bytes hz

theorem srcAddrs_byte : srcAddrs i s = [byteAddr s (segOf i) (srcOff i s) 0] := by
  rw [srcAddrs, elemBytes_byte hz]
  rfl

theorem dstAddrs_byte : dstAddrs i s = [byteAddr s .es (dstOff i s) 0] := by
  rw [dstAddrs, elemBytes_byte hz]
  rfl

theorem readElem_src_byte : readElem (srcAddrs i s) s =
    ((memRead (byteAddr s (segOf i) (srcOff i s) 0) s).1.setWidth 32,
      (memRead (byteAddr s (segOf i) (srcOff i s) 0) s).2) := by
  rw [srcAddrs_byte hz]
  simp only [readElem, readBytes, leValue_single]

theorem writeElem_dst_byte (b : Byte) (u : State) :
    writeElem (dstAddrs i s) (b.setWidth 32) u = memWrite (byteAddr s .es (dstOff i s) 0) b u := by
  rw [dstAddrs_byte hz]
  simp [writeElem]

/-- A byte stored at the destination in RAM is read back there, and no device notices. -/
theorem memWrite_dst_byte {b : Byte} {u : State} (hm : u.mem = s.mem) (hg : u.cfg = s.cfg) (hw : Memory.wf s.mem = true)
    (hd : RamOperand s .es (dstOff i s) 1 .write) :
    let t := writeElem (dstAddrs i s) (b.setWidth 32) u
    t.io = u.io ∧ Memory.read t.mem (byteAddr s .es (dstOff i s) 0).toNat = b := by
  rw [← elemBytes_byte hz] at hd
  obtain ⟨-, hio, hread, -⟩ := writeElem_dst_ram hm hg hd hw (b.setWidth 32)
  refine ⟨hio, (hread 0 (elemBytes_pos i)).trans ?_⟩
  simp [byteOf]

theorem segCheck_byte {seg : SegReg} {off : Word} {kind : AccessKind}
    (h : SegAllows (s.cpu.segs.get seg) off 1 kind) :
    segCheck seg (s.cpu.segs.get seg) off (elemBytes i) kind = none := by
  rw [elemBytes_byte hz]
  exact (segCheck_eq_none Nat.one_pos).2 h

variable (h : Iterates i s) (hp : PagingOff s)
include h hp

theorem insb_exec_register (hf : i.handler.fam = .ins) (ho : IoOpen s) (hw : Memory.wf s.mem = true) {n : BitVec 3}
    (hn : portReg s.cfg (dx s.cpu.regs) = some n) (hd : RamOperand s .es (dstOff i s) 1 .write) :
    ∃ t, exec i s = .next t ∧ t.io = (regRead s.cfg n s.io).2 ∧
      Memory.read t.mem (byteAddr s .es (dstOff i s) 0).toNat = (regRead s.cfg n s.io).1 := by
  have hcheck : segCheck .es s.cpu.segs.es (dstOff i s) (elemBytes i) .write = none := segCheck_byte hz hd.1
  have hexec := ins_exec hf h hp (ioCheck_open ho) (by simp [firstAbort, operandChecks, hf, hcheck])
  have hport : portIn (dx s.cpu.regs) i.handler.size s =
      ((regRead s.cfg n s.io).1.setWidth 32, s.setIo (regRead s.cfg n s.io).2) := by
    rw [hz, portIn_byte, portRead8_reg hn]
  rw [hport] at hexec
  exact ⟨_, hexec, memWrite_dst_byte hz (u := s.setIo _) rfl rfl hw hd⟩

theorem outsb_exec_register (hf : i.handler.fam = .outs) (ho : IoOpen s) {n : BitVec 3}
    (hn : portReg s.cfg (dx s.cpu.regs) = some n) (hs : RamOperand s (segOf i) (srcOff i s) 1 .read) :
    ∃ t, exec i s = .next t ∧ t.mem = s.mem ∧
      t.io = regWrite s.cfg n (ramByte s (byteAddr s (segOf i) (srcOff i s) 0)) s.io := by
  have hcheck := segCheck_byte hz hs.1
  have hexec := outs_exec hf h hp (ioCheck_open ho) (by simp [firstAbort, operandChecks, hf, hcheck])
  rw [readElem_src_byte hz, memRead_ram (hs.2 0 Nat.one_pos)] at hexec
  have hport (b : Byte) : portOut (dx s.cpu.regs) i.handler.size (b.setWidth 32) s =
      s.setIo (regWrite s.cfg n b s.io) := by
    have hbyte : (b.setWidth 32 : Word).extractLsb' 0 8 = b := by
      rw [← setWidth_ushiftRight_eq_extractLsb']
      simp
    rw [hz, portOut_byte, hbyte, portWrite8_reg hn]
  dsimp only at hexec
  rw [hport] at hexec
  exact ⟨_, hexec, rfl, rfl⟩

variable (hf : i.handler.fam = .movs) (hm : s.cfg.t128Map = .standard) {off : Nat} (hlo : 0x1E00 ≤ off)
  (hhi : off ≤ 0x1FFF)
include hf hm hlo hhi

theorem movsb_exec_from_data_port (hw : Memory.wf s.mem = true) (hd : RamOperand s .es (dstOff i s) 1 .write)
    (hs : SegAllows (s.cpu.segs.get (segOf i)) (srcOff i s) 1 .read)
    (hsrc : physTarget s.cfg (byteAddr s (segOf i) (srcOff i s) 0) = .t128 off) :
    ∃ t, exec i s = .next t ∧ t.io = (dataPortRead s.cfg s.io).2 ∧
      Memory.read t.mem (byteAddr s .es (dstOff i s) 0).toNat = (dataPortRead s.cfg s.io).1 := by
  have hsrcCheck := segCheck_byte hz hs
  have hdstCheck : segCheck .es s.cpu.segs.es (dstOff i s) (elemBytes i) .write = none := segCheck_byte hz hd.1
  have hexec := movs_exec hf h hp (by simp [firstAbort, operandChecks, hf, hsrcCheck, hdstCheck])
  rw [readElem_src_byte hz, (window_data hsrc hm 0 hlo hhi).1] at hexec
  exact ⟨_, hexec, memWrite_dst_byte hz (u := s.setIo _) rfl rfl hw hd⟩

theorem movsb_exec_to_data_port (hs : RamOperand s (segOf i) (srcOff i s) 1 .read)
    (hd : SegAllows s.cpu.segs.es (dstOff i s) 1 .write)
    (hdst : physTarget s.cfg (byteAddr s .es (dstOff i s) 0) = .t128 off) :
    ∃ t, exec i s = .next t ∧ t.mem = s.mem ∧
      t.io = dataPortWrite s.cfg (ramByte s (byteAddr s (segOf i) (srcOff i s) 0)) s.io := by
  have hsrcCheck := segCheck_byte hz hs.1
  have hdstCheck : segCheck .es s.cpu.segs.es (dstOff i s) (elemBytes i) .write = none :=
    segCheck_byte (seg := .es) hz hd
  have hexec := movs_exec hf h hp (by simp [firstAbort, operandChecks, hf, hsrcCheck, hdstCheck])
  rw [readElem_src_byte hz, memRead_ram (hs.2 0 Nat.one_pos)] at hexec
  dsimp only at hexec
  rw [writeElem_dst_byte hz, (window_data hdst hm _ hlo hhi).2] at hexec
  exact ⟨_, hexec, rfl, rfl⟩

end

/-- An opcode alone iterates whenever no abort is pending (R130, R230). -/
theorem iterates_of_prefixes_nil {i : Instr} {s : State} (hi : i.prefixes = []) (ha : s.cpu.abrt = none) :
    Iterates i s := by
  have hbad : badPrefixes [] i.handler.fam = false := by cases i.handler.fam <;> rfl
  have hrep : repOf i = none := by
    rw [repOf, hi]
    rfl
  refine ⟨⟨?_, ?_⟩, ha, fun hr => absurd hrep hr⟩
  · rw [hi]
    exact List.not_mem_nil
  · rw [hi]
    exact hbad

/-- Settles O19, place by place: the ports of an element, a port, an address, a byte there, and the bytes INSB, OUTSB
and MOVSB move. -/
theorem deviceBytesStored : Obligations.DeviceBytesStored := by
  unfold Obligations.DeviceBytesStored
  intro i s b
  refine ⟨fun port v => ?_, fun port => ⟨?_, ?_, ?_⟩, fun a => ?_, fun a => ⟨?_, ?_, ?_, ?_⟩, fun ha hp hw => ⟨?_, ?_⟩⟩
  · exact ⟨portIn_byte port s, portOut_byte port v s, portIn_word port s, portOut_word port v s, portIn_dword port s,
      portOut_dword port v s⟩
  · rintro base n hbase rfl
    exact ⟨portRead8_reg (portReg_base hbase n), portWrite8_reg (portReg_base hbase n)⟩
  · intro hfar ho
    exact ⟨portRead8_unmapped (portReg_none hfar) ho, portWrite8_unmapped (portReg_none hfar) ho⟩
  · intro hfar ho
    exact ⟨fun v rest => portRead8_outside (portReg_none hfar) ho, portWrite8_outside (portReg_none hfar) ho⟩
  · exact ⟨physTarget_window, fun before r after => physTarget_region, physTarget_unmapped⟩
  · exact fun h => ⟨memRead_ram h, memWrite_ram h⟩
  · exact fun h => ⟨fun v rest => memRead_outside h, memWrite_outside h⟩
  · exact fun h => ⟨memRead_unmapped h, memWrite_unmapped h⟩
  · exact fun off h hm => ⟨window_rom h hm b, window_ctrl h hm b, window_status h hm b, window_ncr h hm b,
      window_data h hm b, window_hole h hm b⟩
  · intro base n ho hbase hdx
    have hn : portReg s.cfg (dx s.cpu.regs) = some n := by
      rw [hdx]
      exact portReg_base hbase n
    refine ⟨fun hi => ?_, fun hi => ?_⟩
    · rcases hi with rfl | rfl <;> exact insb_exec_register rfl (iterates_of_prefixes_nil rfl ha) hp rfl ho hw hn
    · rcases hi with rfl | rfl
      · exact outsb_exec_register (i := .outsbA16) rfl (iterates_of_prefixes_nil rfl ha) hp rfl ho hn
      · exact outsb_exec_register (i := .outsbA32) rfl (iterates_of_prefixes_nil rfl ha) hp rfl ho hn
  · intro off hi hm hlo hhi
    refine ⟨?_, ?_⟩
    · rcases hi with rfl | rfl <;>
        exact movsb_exec_from_data_port rfl (iterates_of_prefixes_nil rfl ha) hp rfl hm hlo hhi hw
    · rcases hi with rfl | rfl
      · exact movsb_exec_to_data_port (i := .movsbA16) rfl (iterates_of_prefixes_nil rfl ha) hp rfl hm hlo hhi
      · exact movsb_exec_to_data_port (i := .movsbA32) rfl (iterates_of_prefixes_nil rfl ha) hp rfl hm hlo hhi

end Sys2Proof.Machine
end

section
/-! Encoding: what the decoder answers for written-out prefixes and an opcode byte (R121, R130, R133), the decode
context as the bytes before the opcode spell it (R124, R125), and decoder and encoder as inverses of each other
(R120). -/
namespace Sys2Proof

/-! ### The decoder on written-out prefixes (R133) -/

section
variable {d32 : Bool} {ps : List Pfx} {f : Family} {z : Size} {op : Byte} {rest : List Byte}

/-- Admitted prefixes before one of the fourteen opcodes are accepted, as the handler they select (R122, R123). -/
theorem decode_of_goodPrefixes (h : badPrefixes ps f = false) :
    decode d32 (ps.map Pfx.code ++ opcodeByte f z :: rest) =
      .ok (ps.foldr Pfx.wrap (Handler.toInstr ⟨f, operandSize d32 (decide (.opSize ∈ ps)) (decide (z ≠ .byte)),
        addressSize d32 (decide (.addrSize ∈ ps))⟩), rest) := by
  have hlen := prefixes_le_of_good h
  simp [decode, scanPrefixes_map, ofByte_opcodeByte, opcodeOf_opcodeByte, h, hlen]

/-- The combinations of R130 (c) are refused before each of the fourteen opcodes; five prefixes are refused before
the opcode is looked at (log 12). -/
theorem decode_of_badPrefixes (h : badPrefixes ps f = true) :
    decode d32 (ps.map Pfx.code ++ opcodeByte f z :: rest) = .error .prefixCombination := by
  simp [decode, scanPrefixes_map, ofByte_opcodeByte, opcodeOf_opcodeByte, h]

/-- Another opcode is out of scope whatever its prefixes are, if they are at most four (R130 (a), log 12). -/
theorem decode_of_otherOpcode (hlen : ps.length ≤ 4) (hp : Pfx.ofByte? op = none) (ho : opcodeOf? op = none) :
    decode d32 (ps.map Pfx.code ++ op :: rest) = .error .outOfScope := by
  simp [decode, scanPrefixes_map, hp, ho, hlen]

end

/-! ### The fourteen opcodes (R121, R122) -/

theorem opcodeByte_mem (f : Family) (z : Size) :
    opcodeByte f z ∈ [0x6C#8, 0x6D, 0x6E, 0x6F, 0xA4, 0xA5, 0xA6, 0xA7, 0xAA, 0xAB, 0xAC, 0xAD, 0xAE, 0xAF] := by
  cases f <;> cases z <;> decide

/-- The width bit can be read back from the size it selects. -/
theorem operandSize_ne_byte (d32 has66 w : Bool) : decide (operandSize d32 has66 w ≠ .byte) = w := by
  cases w <;> cases d32 <;> cases has66 <;> rfl

/-- What names a family is the opcode byte of that family and of a size of its width. -/
theorem opcodeOf_none_of_notMem {op : Byte}
    (h : op ∉ [0x6C#8, 0x6D, 0x6E, 0x6F, 0xA4, 0xA5, 0xA6, 0xA7, 0xAA, 0xAB, 0xAC, 0xAD, 0xAE, 0xAF]) :
    opcodeOf? op = none := by
  by_contra hne
  obtain ⟨⟨f, w⟩, hop⟩ := Option.ne_none_iff_exists'.1 hne
  exact h ((opcodeOf_some hop).1 _ (operandSize_ne_byte false false w) ▸ opcodeByte_mem f _)

/-- Bit 0 of an opcode byte is its width bit. -/
theorem opcodeByte_bit0 (f : Family) (z : Size) : (opcodeByte f z).getLsbD 0 = decide (z ≠ .byte) :=
  (opcodeOf_some (opcodeOf_opcodeByte f z)).2

/-! ### The segment prefixes (R124) -/

theorem Pfx.seg_injective {p q : Pfx} {g : SegReg} (hp : p.seg? = some g) (hq : q.seg? = some g) : p = q := by
  cases p <;> cases hp <;> cases q <;> cases hq <;> rfl

section
variable {ps : List Pfx} {p q : Pfx} {g : SegReg}

/-- Where at most one segment override stands, one that stands there is the only one. -/
theorem filterMap_seg_eq (h : (ps.filterMap Pfx.seg?).length ≤ 1) (hp : p ∈ ps) (hg : p.seg? = some g) :
    ps.filterMap Pfx.seg? = [g] := by
  have hmem : g ∈ ps.filterMap Pfx.seg? := List.mem_filterMap.2 ⟨p, hp, hg⟩
  obtain ⟨g', hg'⟩ := List.length_eq_one_iff.1 (h.antisymm (List.length_pos_of_mem hmem))
  simp_all

theorem one_lt_segs_of_ne (hp : p ∈ ps) (hq : q ∈ ps) (hne : p ≠ q) (hps : p.seg?.isSome) (hqs : q.seg?.isSome) :
    1 < (ps.filterMap Pfx.seg?).length := by
  obtain ⟨g, hg⟩ := Option.isSome_iff_exists.1 hps
  obtain ⟨g', hg'⟩ := Option.isSome_iff_exists.1 hqs
  by_contra hle
  have heq : [g] = [g'] :=
    (filterMap_seg_eq (not_lt.1 hle) hp hg).symm.trans (filterMap_seg_eq (not_lt.1 hle) hq hg')
  cases heq
  exact hne (Pfx.seg_injective hg hg')

theorem effectiveSeg_of_mem (h : (ps.filterMap Pfx.seg?).length ≤ 1) (hp : p ∈ ps) (hg : p.seg? = some g) :
    effectiveSeg ps = g := by
  rw [effectiveSeg, ← List.head?_filterMap, filterMap_seg_eq h hp hg]
  rfl

end

theorem effectiveSeg_of_none {ps : List Pfx} (h : ∀ p ∈ ps, p.seg? = none) : effectiveSeg ps = .ds := by
  rw [effectiveSeg, List.findSome?_eq_none_iff.2 h]
  rfl

theorem segs_le_one_of_good {ps : List Pfx} {f : Family} (h : badPrefixes ps f = false) :
    (ps.filterMap Pfx.seg?).length ≤ 1 := by
  simp only [badPrefixes, Bool.or_eq_false_iff, decide_eq_false_iff_not] at h
  omega

/-- The segment by the bytes of the prefixes: of at most one override, the order of the tests is of no
matter. -/
theorem effectiveSeg_eq_byCode {ps : List Pfx} (h : (ps.filterMap Pfx.seg?).length ≤ 1) :
    let bs := ps.map Pfx.code
    effectiveSeg ps = if 0x26#8 ∈ bs then .es else if 0x2E#8 ∈ bs then .cs else if 0x36#8 ∈ bs then .ss
      else if 0x3E#8 ∈ bs then .ds else if 0x64#8 ∈ bs then .fs else if 0x65#8 ∈ bs then .gs else .ds := by
  have named {p : Pfx} {g : SegReg} (hp : p.code ∈ ps.map Pfx.code) (hg : p.seg? = some g) : effectiveSeg ps = g :=
    effectiveSeg_of_mem h ((Pfx.code_mem ps p).1 hp) hg
  intro bs
  split_ifs with hes hcs hss hds hfs hgs
  · exact named (p := .es) hes rfl
  · exact named (p := .cs) hcs rfl
  · exact named (p := .ss) hss rfl
  · exact named (p := .ds) hds rfl
  · exact named (p := .fs) hfs rfl
  · exact named (p := .gs) hgs rfl
  · refine effectiveSeg_of_none fun p hp => ?_
    have hcode : p.code ∈ bs := List.mem_map_of_mem hp
    cases p with
    | es => exact absurd hcode hes
    | cs => exact absurd hcode hcs
    | ss => exact absurd hcode hss
    | ds => exact absurd hcode hds
    | fs => exact absurd hcode hfs
    | gs => exact absurd hcode hgs
    | opSize | addrSize | repne | rep | lock => rfl

/-! ### The repeat prefixes (R125) -/

theorem Family.compares_iff (f : Family) : f.compares = true ↔ f ∈ [Family.cmps, .scas] := by
  cases f <;> decide

/-- The repeat kind by the bytes of the prefixes. -/
theorem repeatKind_eq_byCode (ps : List Pfx) (f : Family) :
    let bs := ps.map Pfx.code
    repeatKind ps f = if 0xF3#8 ∈ bs then some (if f ∈ [Family.cmps, .scas] then .repe else .rep)
      else if 0xF2#8 ∈ bs then some .repne else none := by
  have hrep : 0xF3#8 ∈ ps.map Pfx.code ↔ .rep ∈ ps := Pfx.code_mem ps .rep
  have hrepne : 0xF2#8 ∈ ps.map Pfx.code ↔ .repne ∈ ps := Pfx.code_mem ps .repne
  simp only [repeatKind, hrep, hrepne, Family.compares_iff]

/-! ### The refused combinations (R130 (c)) -/

theorem badPrefixes_of_combination {ps : List Pfx} {f : Family}
    (h : 4 < ps.length ∨ ¬ ps.Nodup ∨ (∃ p ∈ ps, ∃ q ∈ ps, p ≠ q ∧ p.seg?.isSome ∧ q.seg?.isSome) ∨
      (.rep ∈ ps ∧ .repne ∈ ps) ∨ (.repne ∈ ps ∧ f.compares = false)) : badPrefixes ps f = true := by
  obtain hlong | htwice | ⟨p, hp, q, hq, hne, hps, hqs⟩ | ⟨hrep, hrepne⟩ | ⟨hrepne, hf⟩ := h
  · simp [badPrefixes, hlong]
  · simp [badPrefixes, htwice]
  · simp [badPrefixes, one_lt_segs_of_ne hp hq hne hps hqs]
  · simp [badPrefixes, hrep, hrepne]
  · simp [badPrefixes, hrepne, hf]

/-! ### Decoder and encoder (R120) -/

theorem encode_append (i : Instr) (rest : List Byte) :
    encode i ++ rest = i.prefixes.map Pfx.code ++ opcodeByte i.handler.fam i.handler.size :: rest := by
  simp [encode]

/-- What the decoder accepts as an instruction, it took from that instruction's encoding, and its handler's sizes are
those its prefixes select. -/
theorem decode_ok_wellFormed {d32 : Bool} {bs rest : List Byte} {i : Instr} (h : decode d32 bs = .ok (i, rest)) :
    WellFormed d32 i ∧ bs = encode i ++ rest := by
  obtain ⟨ps, op, f, w, rfl, hop, hgood, rfl, hh⟩ := decode_ok h
  have hw := operandSize_ne_byte d32 (decide (.opSize ∈ i.prefixes)) w
  rw [encode_append, (opcodeOf_some hop).1 _ hw]
  unfold WellFormed SizesAgree
  rw [hh]
  exact ⟨⟨hgood, by rw [hw], rfl⟩, rfl⟩

end Sys2Proof

namespace Sys2Proof.Machine

/-- Settles O1: the scan of the encoding gives the prefixes back, and the handler's sizes are those they select. -/
theorem decodeEncode : Obligations.DecodeEncode := by
  unfold Obligations.DecodeEncode
  rintro d32 i rest ⟨hgood, hsize, hasz⟩
  rw [encode_append, decode_of_goodPrefixes hgood, ← hsize, ← hasz, Instr.wrap_rebuild]

/-- Settles O2: the bytes taken are the encoding of a well-formed instruction, so the bytes before its opcode are the
codes of its prefixes. -/
theorem decodeSound : Obligations.DecodeSound := by
  unfold Obligations.DecodeSound
  intro d32 bs rest i h
  obtain ⟨hwf, rfl⟩ := decode_ok_wellFormed h
  obtain ⟨hgood, hsize, hasz⟩ := hwf
  have hlen : i.length - 1 = (i.prefixes.map Pfx.code).length := by simp [Instr.length]
  have hbefore : (encode i ++ rest).take (i.length - 1) = i.prefixes.map Pfx.code := by
    rw [encode_append, hlen, List.take_left]
  have hop : (encode i ++ rest)[i.length - 1]? = some (opcodeByte i.handler.fam i.handler.size) := by
    simp [encode_append, hlen]
  have h66 : 0x66#8 ∈ i.prefixes.map Pfx.code ↔ .opSize ∈ i.prefixes := Pfx.code_mem _ .opSize
  have h67 : 0x67#8 ∈ i.prefixes.map Pfx.code ↔ .addrSize ∈ i.prefixes := Pfx.code_mem _ .addrSize
  rw [hbefore]
  refine ⟨⟨hgood, hsize, hasz⟩, rfl, ⟨_, hop, fun hbit => ?_, fun hbit => ?_, ?_⟩, ?_, repeatKind_eq_byCode _ _⟩
  · simpa only [opcodeByte_bit0, decide_eq_false_iff_not, not_not] using hbit
  · rw [opcodeByte_bit0] at hbit
    rw [hsize, hbit, operandSize, if_pos rfl]
    simp only [h66]
  · simpa only [h67, addressSize] using hasz
  · rw [← effectiveSeg_eq]
    exact effectiveSeg_eq_byCode (segs_le_one_of_good hgood)

/-- Settles O3: another opcode byte names no family, and each listed combination is a refused one. Which reason wins
where several apply is the model's choice (log 12). -/
theorem decodeRefusals : Obligations.DecodeRefusals := by
  unfold Obligations.DecodeRefusals
  intro d32 ps rest
  exact ⟨fun op hlen hp ho => decode_of_otherOpcode hlen hp (opcodeOf_none_of_notMem ho),
    fun f z h => decode_of_badPrefixes (badPrefixes_of_combination h)⟩

/-- Settles O30, by the cases of `exec` (`exec_next_iff`, `exec_lock`, `exec_bad`). That LOCK is named before a refused
combination is the model's choice (log 12). -/
theorem refusedEncodings : Obligations.RefusedEncodings := by
  unfold Obligations.RefusedEncodings
  intro i s
  have hlock : Pfx.lock ∈ (Instr.prefixLock i).prefixes := List.mem_cons_self
  exact ⟨(exec_next_iff i s).2, fun hl => exec_lock hl s, exec_lock hlock s, fun hl hb => exec_bad hl hb s⟩

/-- Settles O4: the decoder evaluated on each of the ten words. -/
theorem decodeWords : Obligations.DecodeWords :=
  ⟨rfl, rfl, rfl, rfl, rfl, rfl, rfl, rfl, rfl, rfl⟩

end Sys2Proof.Machine
end

section
/-! The string moves: how an index advances (R168), what MOVS, STOS and LODS do with operands in RAM (R171 to R181),
and that an iteration whose operand checks pass completes (R170, R238). -/
namespace Sys2Proof.Machine

/-! ### The index advance (R168) -/

theorem low16_setLow16 (v : Word) (h : Half) : low16 (setLow16 v h) = h := by
  simp [low16, setLow16, BitVec.setWidth_or, BitVec.setWidth_and]

/-- The low 16 bits of an index advanced at address size 16 move by S, modulo 2^16. -/
theorem low16_advanced_a16 (df : Bool) (z : Size) (v : Word) :
    low16 (advanced df .a16 z v) =
      if df then low16 v - BitVec.ofNat 16 z.bytes else low16 v + BitVec.ofNat 16 z.bytes := by
  have hlow : low16 (indexView .a16 v) = low16 v := by simp [indexView, low16]
  have hstep : low16 (BitVec.ofNat 32 z.bytes) = BitVec.ofNat 16 z.bytes := by cases z <;> rfl
  rw [← hlow, ← hstep]
  cases df with
  | false => exact BitVec.setWidth_add _ _ (by decide)
  | true =>
    simp only [advanced, if_true, low16, BitVec.sub_eq_add_neg]
    rw [BitVec.setWidth_add _ _ (by decide), BitVec.setWidth_neg_of_le (by decide)]

theorem advance_get_same (k : Reg) (a : AddrSize) (z : Size) (s : State) :
    (advance k a z s).cpu.regs.get k = withIndexView a (s.cpu.regs.get k)
      (advanced (directionFlag s.cpu.flags) a z (s.cpu.regs.get k)) :=
  Regs.get_set_same _ _ _

theorem advance_get_ne {j k : Reg} (h : j ≠ k) (a : AddrSize) (z : Size) (s : State) :
    (advance k a z s).cpu.regs.get j = s.cpu.regs.get j := setIdx_get_ne h _ _

/-- Settles O34: the written index view at each address size, and the register write's frame. -/
theorem advanceRule : Obligations.AdvanceRule := by
  unfold Obligations.AdvanceRule
  intro k a z s
  dsimp only
  refine ⟨?_, ?_, fun r hr => advance_get_ne hr a z s⟩
  · rintro rfl
    exact ⟨(congrArg low16 (advance_get_same k .a16 z s)).trans
        ((low16_setLow16 _ _).trans (low16_advanced_a16 _ z _)),
      setIdx_a16_ushiftRight k k _ s.cpu.regs⟩
  · rintro rfl
    exact advance_get_same k .a32 z s

/-! ### Operands in RAM pass the checks (R82, R364) -/

section
variable {i : Instr} {s : State}

/-- With every operand a family uses in RAM, its checks pass. -/
theorem firstAbort_ram
    (hsrc : i.handler.fam ∈ [Family.movs, .cmps, .lods, .outs] →
      RamOperand s (segOf i) (srcOff i s) (elemBytes i) .read)
    (hwrite : i.handler.fam ∈ [Family.movs, .stos, .ins] → RamOperand s .es (dstOff i s) (elemBytes i) .write)
    (hread : i.handler.fam ∈ [Family.cmps, .scas] → RamOperand s .es (dstOff i s) (elemBytes i) .read) :
    firstAbort i s = none := by
  have pass {seg : SegReg} {off : Word} {kind : AccessKind} (h : RamOperand s seg off (elemBytes i) kind) :
      segCheck seg (s.cpu.segs.get seg) off (elemBytes i) kind = none := segCheck_ram h (elemBytes_pos i)
  have passEs {kind : AccessKind} (h : RamOperand s .es (dstOff i s) (elemBytes i) kind) :
      segCheck .es s.cpu.segs.es (dstOff i s) (elemBytes i) kind = none := pass h
  unfold firstAbort operandChecks
  cases hf : i.handler.fam <;> rw [hf] at hsrc hwrite hread
  case movs => simp [pass (hsrc (by decide)), passEs (hwrite (by decide))]
  case cmps => simp [pass (hsrc (by decide)), passEs (hread (by decide))]
  case lods | outs => simp [pass (hsrc (by decide))]
  case stos | ins => simp [passEs (hwrite (by decide))]
  case scas => simp [passEs (hread (by decide))]

/-! ### The element stored (R75, R89) -/

/-- Byte `k` of the element in RAM at an operand is the byte at the operand's `k`-th address. -/
theorem byteOf_ramElem {seg : SegReg} {off : Word} {n k : Nat} (hk : k < n) (hn : n ≤ 4) :
    byteOf (ramElem s seg off n) k = ramByte s (byteAddr s seg off k) := by
  rw [ramElem, byteOf_leValue (by simpa using hk) (by simpa using hn)]
  simp

theorem Stores.congr {m m' : List Host.Cell} {n : Nat} {addr : Nat → Word} {v w : Nat → Byte}
    (h : Stores m m' n addr v) (hv : ∀ k, k < n → v k = w k) : Stores m m' n addr w := by
  obtain ⟨hat, hother⟩ := h
  exact ⟨fun k hk => (hat k hk).trans (hv k hk), hother⟩

/-- A step whose one access is a store of `v` to a destination operand in RAM: RAM holds the bytes of `v` there, and
nothing but the CPU context and RAM moves. -/
theorem exec_of_store_ram {v : Word} {c : Cpu} (hw : Memory.wf s.mem = true)
    (hd : RamOperand s .es (dstOff i s) (elemBytes i) .write)
    (he : exec i s = .next { writeElem (dstAddrs i s) v s with cpu := c }) :
    ∃ m, exec i s = .next { s with cpu := c, mem := m } ∧ Memory.wf m = true ∧
      Stores s.mem m (elemBytes i) (byteAddr s .es (dstOff i s)) (fun k => byteOf v k) := by
  obtain ⟨hwf, -, hstores⟩ := writeElem_dst_ram (u := s) rfl rfl hd hw v
  rw [writeElem_ram_eq_setMem (dstAddrs_ram hd)] at he
  exact ⟨_, he, hwf, hstores⟩

end

/-! ### The families (R171 to R181) -/

/-- Settles O12: the source element is read from RAM and stored at ES:EDI byte by byte. -/
theorem movsResult : Obligations.MovsResult := by
  unfold Obligations.MovsResult
  intro i s hf h hp hw hs hd
  have he := movs_exec hf h hp (firstAbort_ram (fun _ => hs) (fun _ => hd) (by simp [hf]))
  rw [readElem_src_ram hs] at he
  obtain ⟨m, hexec, hwf, hstores⟩ := exec_of_store_ram hw hd he
  exact ⟨m, hexec, hwf, Stores.congr hstores fun k hk => byteOf_ramElem hk (elemBytes_le i)⟩

/-- Settles O13: the accumulator is stored at ES:EDI. -/
theorem stosResult : Obligations.StosResult := by
  unfold Obligations.StosResult
  intro i s hf h hp hw hd
  exact exec_of_store_ram hw hd (stos_exec hf h hp (firstAbort_ram (by simp [hf]) (fun _ => hd) (by simp [hf])))

/-- Settles O14: the accumulator takes the source element, and a read of RAM changes nothing. -/
theorem lodsResult : Obligations.LodsResult := by
  unfold Obligations.LodsResult
  intro i s hf h hp hs
  have he := lods_exec hf h hp (firstAbort_ram (fun _ => hs) (by simp [hf]) (by simp [hf]))
  rw [readElem_src_ram hs] at he
  exact he

/-! ### Every iteration whose checks pass completes (R170, R238) -/

/-- The CPU context, configuration and events to come after an iteration that completes with paging off. -/
theorem exec_completes {i : Instr} {s : State} (h : Iterates i s) (hp : PagingOff s)
    (hopen : Family.isIo i.handler.fam = true → IoOpen s) (hn : firstAbort i s = none) :
    ∃ t v f, exec i s = .next t ∧ t.cpu = endCpu i s (famRegs i s v) f ∧ t.cfg = s.cfg ∧ t.agenda = s.agenda := by
  have ports (hio : Family.isIo i.handler.fam = true) :
      ioCheck (dx s.cpu.regs) i.handler.size s = .ok () s := ioCheck_open (hopen hio)
  unfold famRegs
  cases hf : i.handler.fam with
  | movs => exact ⟨_, 0, _, movs_exec hf h hp hn, rfl, by simp, by simp⟩
  | cmps => exact ⟨_, 0, _, cmps_exec hf h hp hn, rfl, by simp, by simp⟩
  | stos => exact ⟨_, 0, _, stos_exec hf h hp hn, rfl, by simp, by simp⟩
  | scas => exact ⟨_, 0, _, scas_exec hf h hp hn, rfl, by simp, by simp⟩
  | lods => exact ⟨_, _, _, lods_exec hf h hp hn, rfl, by simp, by simp⟩
  | ins => exact ⟨_, 0, _, ins_exec hf h hp (ports (by rw [hf]; rfl)) hn, rfl, by simp, by simp⟩
  | outs => exact ⟨_, 0, _, outs_exec hf h hp (ports (by rw [hf]; rfl)) hn, rfl, by simp, by simp⟩

/-- Settles O21: the registers the statement names are those of `famRegs`. -/
theorem iterationCompletes : Obligations.IterationCompletes := by
  unfold Obligations.IterationCompletes
  intro i s h hp hopen hn
  exact exec_completes h hp hopen hn

end Sys2Proof.Machine
end

section
/-! The string compares: the flags a subtraction writes (R190), the accumulator (R11), and what CMPS and SCAS do with
operands in RAM (R191 to R199). -/
namespace Sys2Proof.Machine

/-! ### A flag read after a flag write (R26) -/

theorem Flag.pos_injective : Function.Injective Flag.pos := by
  intro f g
  cases f <;> cases g <;> decide

theorem getFlag_setFlag (f g : Flag) (b : Bool) (w : Word) :
    getFlag g (setFlag f b w) = if g = f then b else getFlag g w := by
  split
  next h =>
    have hbit : (1#32 <<< f.pos).getLsbD f.pos = true := by cases f <;> rfl
    rw [h, getFlag, setFlag, BitVec.getLsbD_or, BitVec.getLsbD_and, BitVec.getLsbD_not, hbit]
    cases b <;> simp [hbit]
  next h => exact setFlag_other (Flag.pos_injective.ne h) b w

/-! ### The six flags of a subtraction (R190) -/

section
variable {n : Nat} (a b : BitVec n) (w : Word)

theorem getFlag_cf_setSub : getFlag .cf (setSub a b w) = a.ult b := by simp [setSub, getFlag_setFlag]

theorem getFlag_zf_setSub : getFlag .zf (setSub a b w) = decide (a - b = 0) := by simp [setSub, getFlag_setFlag]

theorem getFlag_sf_setSub : getFlag .sf (setSub a b w) = (a - b).msb := by simp [setSub, getFlag_setFlag]

theorem getFlag_pf_setSub : getFlag .pf (setSub a b w) = evenParity ((a - b).setWidth 8) := by
  simp [setSub, getFlag_setFlag]

theorem getFlag_af_setSub : getFlag .af (setSub a b w) = (a.setWidth 4).ult (b.setWidth 4) := by
  simp [setSub, getFlag_setFlag]

theorem getFlag_ovf_setSub : getFlag .ovf (setSub a b w) = ((a ^^^ b) &&& (a ^^^ (a - b))).msb := by
  simp [setSub, getFlag_setFlag]

end

/-- The parity of how many of `n` positions hold, one position at a time. -/
theorem even_filter_range_succ (p : Nat → Bool) (n : Nat) :
    decide (((List.range (n + 1)).filter p).length % 2 = 0) =
      (decide (((List.range n).filter p).length % 2 = 0) ^^ p n) := by
  rw [List.range_succ, List.filter_append, List.length_append]
  cases hp : p n with
  | false => simp [hp]
  | true =>
    simp only [hp, List.filter_cons_of_pos, List.filter_nil, List.length_singleton, Bool.xor_true, ← decide_not]
    exact decide_eq_decide.2 (by omega)

theorem evenParity_setWidth {n : Nat} (r : BitVec n) : evenParity (r.setWidth 8) =
    decide (((List.range 8).filter fun k => r.getLsbD k).length % 2 = 0) := by
  have hnone : decide (((List.range 0).filter fun k => r.getLsbD k).length % 2 = 0) = true := rfl
  simp only [even_filter_range_succ, hnone, evenParity, BitVec.getLsbD_setWidth]
  simp

/-- The borrow into bit `k` of a subtraction shows in that bit of the operands and the difference. -/
theorem getLsbD_xor_xor_sub {n k : Nat} (hk : k < n) (a b : BitVec n) :
    (a ^^^ b ^^^ (a - b)).getLsbD k = decide (a.toNat % 2 ^ k < b.toNat % 2 ^ k) := by
  have hsum : a - b + b = a := BitVec.sub_add_cancel a b
  have hbit : a.getLsbD k = ((a - b).getLsbD k ^^ (b.getLsbD k ^^ BitVec.carry k (a - b) b false)) := by
    rw [← BitVec.getLsbD_add hk, hsum]
  have hmod : a.toNat % 2 ^ k = ((a - b).toNat + b.toNat) % 2 ^ k := by
    rw [← Nat.mod_mod_of_dvd (_ + _) (Nat.pow_dvd_pow 2 hk.le), ← BitVec.toNat_add, hsum]
  have hcarry : BitVec.carry k (a - b) b false = decide (a.toNat % 2 ^ k < b.toNat % 2 ^ k) := by
    have hr : (a - b).toNat % 2 ^ k < 2 ^ k := Nat.mod_lt _ (Nat.two_pow_pos k)
    rw [hmod, Nat.add_mod_eq_ite]
    refine decide_eq_decide.2 ?_
    split <;> simp only [Bool.toNat_false] <;> omega
  rw [BitVec.getLsbD_xor, BitVec.getLsbD_xor, hbit, ← hcarry]
  generalize (a - b).getLsbD k = x, b.getLsbD k = y, BitVec.carry k (a - b) b false = c
  revert x y c
  decide

/-! ### The accumulator's views (R11, R21) -/

/-- A word whose low part was replaced is the bits above it before the new part. -/
theorem masked_or_eq_append {m n : Nat} (hi : BitVec m) (lo b : BitVec n) :
    ((hi ++ lo) &&& (BitVec.allOnes m ++ 0#n)) ||| (0#m ++ b) = hi ++ b := by
  simp

theorem setLow8_eq_append (v : Word) (b : Byte) : setLow8 v b = v.extractLsb' 8 24 ++ b := by
  have hv : v.extractLsb' 8 24 ++ v.extractLsb' 0 8 = v := BitVec.extractLsb'_append_extractLsb'
  have hb : (b.setWidth 32 : Word) = 0#24 ++ b := BitVec.setWidth_eq_append (by decide)
  rw [← masked_or_eq_append _ (v.extractLsb' 0 8), hv, ← hb]
  rfl

theorem setLow16_eq_append (v : Word) (h : Half) : setLow16 v h = v.extractLsb' 16 16 ++ h := by
  have hv : v.extractLsb' 16 16 ++ v.extractLsb' 0 16 = v := BitVec.extractLsb'_append_extractLsb'
  have hh : (h.setWidth 32 : Word) = 0#16 ++ h := BitVec.setWidth_eq_append (by decide)
  rw [← masked_or_eq_append _ (v.extractLsb' 0 16), hv, ← hh]
  rfl

theorem low8_eq_extractLsb' (v : Word) : low8 v = v.extractLsb' 0 8 := BitVec.setWidth_eq_extractLsb' (by decide)

theorem low16_eq_extractLsb' (v : Word) : low16 v = v.extractLsb' 0 16 := BitVec.setWidth_eq_extractLsb' (by decide)

/-- Settles O35, flag by flag; AF's second form is the borrow into bit 4. An element and the accumulator at a width
are the low bits of their word. -/
theorem setSubRule : Obligations.SetSubRule := by
  unfold Obligations.SetSubRule
  refine ⟨fun n a b f hn => ?_, fun a b f => ?_, fun r v => ?_⟩
  · have hn4 : 4 < n := by omega
    have haf : (setSub a b f).getLsbD 4 = decide (a.toNat % 16 < b.toNat % 16) := by
      refine (getFlag_af_setSub a b f).trans ?_
      rw [BitVec.ult_eq_decide, BitVec.toNat_setWidth, BitVec.toNat_setWidth]
    refine ⟨?_, ?_, ?_, ?_, haf, ?_, ?_, fun k hk => setSub_other a b hk f⟩
    · exact (getFlag_cf_setSub a b f).trans BitVec.ult_eq_decide
    · exact (getFlag_zf_setSub a b f).trans (decide_eq_decide.2 BitVec.toNat_eq)
    · exact (getFlag_sf_setSub a b f).trans (BitVec.msb_eq_getLsbD_last _)
    · exact (getFlag_pf_setSub a b f).trans (evenParity_setWidth _)
    · exact haf.trans (getLsbD_xor_xor_sub hn4 a b).symm
    · exact (getFlag_ovf_setSub a b f).trans (BitVec.msb_eq_getLsbD_last _)
  · simp only [← low8_eq_extractLsb', ← low16_eq_extractLsb']
    exact ⟨rfl, rfl, rfl⟩
  · simp only [← low8_eq_extractLsb', ← low16_eq_extractLsb', ← setLow8_eq_append, ← setLow16_eq_append]
    exact ⟨rfl, rfl, rfl, rfl, rfl, rfl, fun z k hk => setAcc_get_ne hk z v r⟩

/-! ### The families (R191 to R199) -/

/-- Settles O15: both elements are read from RAM, which changes nothing, and only the flags take their difference. -/
theorem cmpsResult : Obligations.CmpsResult := by
  unfold Obligations.CmpsResult
  intro i s hf h hp hs hd
  have he := cmps_exec hf h hp (firstAbort_ram (fun _ => hs) (by simp [hf]) (fun _ => hd))
  simp only [readElem_src_ram hs, readElem_dst_ram hd] at he
  exact he

/-- Settles O16: the accumulator is compared with the element read from RAM at ES:EDI. -/
theorem scasResult : Obligations.ScasResult := by
  unfold Obligations.ScasResult
  intro i s hf h hp hd
  have he := scas_exec hf h hp (firstAbort_ram (by simp [hf]) (by simp [hf]) (fun _ => hd))
  rw [readElem_dst_ram hd] at he
  exact he

end Sys2Proof.Machine
end

section
/-! String I/O: what INS and OUTS do with operands in RAM and the ports open (R210 to R221), that the permission check
has no side effect (R211), and what the I/O bitmap decides (R212). -/
namespace Sys2Proof.Machine

/-! ### The families (R210 to R221) -/

/-- With paging off, the ports open and every operand check passed, the operands are where the segments put them, and
the state is as before. -/
theorem translateOperands_open {i : Instr} {s : State} (hp : PagingOff s) (ho : IoOpen s)
    (hn : firstAbort i s = none) : translateOperands i s = .ok (operandAddrs i s) s := by
  have hports : portCheck i s = .ok () s := by rw [portCheck, ioCheck_open ho, ite_self]
  rw [translateOperands_off i hp, hports, hn]
  rfl

/-- Settles O17: the element the ports gave is stored at ES:EDI in RAM, so the device side is the one the port reads
left. -/
theorem insResult : Obligations.InsResult := by
  unfold Obligations.InsResult
  intro i s hf h hp hw ho hd
  have ht := translateOperands_open hp ho (firstAbort_ram (i := i) (by simp [hf]) (fun _ => hd) (by simp [hf]))
  simp only [operandAddrs, hf] at ht
  obtain ⟨hwf, -, hstores⟩ := writeElem_dst_ram (portIn_mem _ _ s) (portIn_cfg _ _ s) hd hw
    (portIn (dx s.cpu.regs) i.handler.size s).1
  exact ⟨_, ins_exec_translated h ht (dstAddrs_ram hd) hf, hwf, hstores⟩

/-- Settles O18: the element is read from RAM, which changes nothing, and the ports take it. -/
theorem outsResult : Obligations.OutsResult := by
  unfold Obligations.OutsResult
  intro i s hf h hp ho hs
  have ht := translateOperands_open hp ho (firstAbort_ram (i := i) (fun _ => hs) (by simp [hf]) (by simp [hf]))
  simp only [operandAddrs, hf] at ht
  have he := outs_exec_translated h ht (srcAddrs_ram hs) hf
  rw [srcAddrs, leValue_elemAddrs] at he
  exact he

/-! ### The permission check has no side effect (R211) -/

/-- What a read for the permission check leaves: it answers with nothing but its draws, or it meets a page fault, which
records `cr2` (log 16). -/
def Res.OnlyDraws {α : Type} (s : State) : Res α → Prop
  | .ok _ t => t = keepDraws s t
  | .abort k t => t = (keepDraws s t).setCr2 t.cpu.sys.cr2 ∧ ∃ lin, k = .pageFault lin .read

theorem Res.OnlyDraws.bind {α β : Type} {s : State} {r : Res α} {f : α → State → Res β} (h : r.OnlyDraws s)
    (hf : ∀ a t, (f a t).OnlyDraws t) : (r.bind f).OnlyDraws s := by
  cases r with
  | abort k t => exact h
  | ok a t =>
    have hrest := hf a t
    have ht : t = keepDraws s t := h
    rw [Res.bind_ok]
    cases hr : f a t with
    | ok b u =>
      rw [hr] at hrest
      have hu : u = keepDraws t u := hrest
      rw [ht] at hu
      exact hu
    | abort k u =>
      rw [hr] at hrest
      obtain ⟨hu, hk⟩ := hrest
      rw [ht] at hu
      exact ⟨hu, hk⟩

theorem sysByte_onlyDraws (lin : Word) (s : State) : (sysByte lin s).OnlyDraws s := by
  unfold sysByte
  cases ht : pageTranslate { s.cpu.sys with cpl := 0 } lin .read s with
  | ok p t => rfl
  | abort k t => exact ⟨rfl, lin, (pageTranslate_abort ht).1⟩

theorem sysRead_onlyDraws (n : Nat) (lin : Word) (s : State) : (sysRead n lin s).OnlyDraws s := by
  induction n generalizing lin s with
  | zero => rfl
  | succ n ih => exact (sysByte_onlyDraws lin s).bind fun b t => (ih (lin + 1) t).bind fun bs u => rfl

/-- What the I/O bitmap says, where the task state segment has room for one: the last part of R212. -/
def bitmapPermits (port : Half) (z : Size) (s : State) : Res Bool :=
  let sys := s.cpu.sys
  (sysRead 2 (sys.tssBase + 0x66) s).bind fun mapBytes t =>
    let at' := (leValue mapBytes).toNat + port.toNat / 8
    if sys.tssLimit.toNat < at' + 1 then .ok false t
    else
      (sysRead 2 (sys.tssBase + BitVec.ofNat 32 at') t).bind fun bits u =>
        .ok (decide (leValue bits &&& (((1#32 <<< z.bytes) - 1) <<< (port.toNat % 8)) = 0)) u

/-- The reference permission function by its tests (R212). -/
theorem ioPermittedI386_eq (port : Half) (z : Size) (s : State) :
    ioPermittedI386 port z s =
      if s.cpu.sys.pe = false then .ok true s
      else if vmFlag s.cpu.flags = false ∧ s.cpu.sys.cpl ≤ iopl s.cpu.flags then .ok true s
      else if s.cpu.sys.tssLimit < 0x67 then .ok false s
      else bitmapPermits port z s := rfl

theorem bitmapPermits_onlyDraws (port : Half) (z : Size) (s : State) : (bitmapPermits port z s).OnlyDraws s := by
  refine (sysRead_onlyDraws 2 _ s).bind fun map t => ?_
  dsimp only
  split
  · rfl
  · exact (sysRead_onlyDraws 2 _ t).bind fun bits u => rfl

theorem ioPermitted_onlyDraws (port : Half) (z : Size) (s : State) : (ioPermitted port z s).OnlyDraws s := by
  unfold ioPermitted
  cases s.cfg.ioPolicy with
  | unspecified => rfl
  | reference =>
    simp only [ioPermittedI386_eq]
    split_ifs
    · rfl
    · rfl
    · rfl
    · exact bitmapPermits_onlyDraws port z s

/-- What the permission check can do: pass or deny with nothing but its draws left, or report a page fault. -/
theorem ioCheck_cases (port : Half) (z : Size) (s : State) :
    (∃ t, ioCheck port z s = .ok () t ∧ t = keepDraws s t) ∨
    (∃ t, ioCheck port z s = .abort (.ioPermFault port z) t ∧ t = keepDraws s t) ∨
    ∃ lin t, ioCheck port z s = .abort (.pageFault lin .read) t ∧ t = (keepDraws s t).setCr2 t.cpu.sys.cr2 := by
  have hdraws := ioPermitted_onlyDraws port z s
  unfold ioCheck
  cases hr : ioPermitted port z s <;> rw [hr] at hdraws
  case ok permitted t =>
    cases permitted with
    | true => exact .inl ⟨t, rfl, hdraws⟩
    | false => exact .inr (.inl ⟨t, rfl, hdraws⟩)
  case abort k t =>
    obtain ⟨ht, lin, rfl⟩ := hdraws
    exact .inr (.inr ⟨lin, t, rfl, ht⟩)

theorem ioCheck_ok {port : Half} {z : Size} {s t : State} (h : ioCheck port z s = .ok () t) : t = keepDraws s t := by
  obtain ⟨u, hu, hkeep⟩ | ⟨u, hu, -⟩ | ⟨lin, u, hu, -⟩ := ioCheck_cases port z s <;> cases h.symm.trans hu
  exact hkeep

theorem ioCheck_abort {port : Half} {z : Size} {s t : State} {k : Abort} (h : ioCheck port z s = .abort k t) :
    t = (keepDraws s t).setCr2 t.cpu.sys.cr2 ∧ (k = .ioPermFault port z → t = keepDraws s t) := by
  obtain ⟨u, hu, -⟩ | ⟨u, hu, hkeep⟩ | ⟨lin, u, hu, hkeep⟩ := ioCheck_cases port z s <;> cases h.symm.trans hu
  · have hcr2 : t.cpu.sys.cr2 = s.cpu.sys.cr2 := congrArg (·.cpu.sys.cr2) hkeep
    refine ⟨?_, fun _ => hkeep⟩
    rw [hcr2]
    exact hkeep
  · exact ⟨hkeep, nofun⟩

/-! ### Bytes of the task state segment with paging off (R72, R212) -/

section
variable {s : State} {lin : Word}

theorem sysRead_ram (h : PagingOff s) (h₀ : physTarget s.cfg lin = .ram) (h₁ : physTarget s.cfg (lin + 1) = .ram) :
    sysRead 2 lin s = .ok [ramByte s lin, ramByte s (lin + 1)] s := by
  simp only [sysRead, sysByte_off _ h, memRead_ram h₀, memRead_ram h₁, keepDraws_self, Res.bind_ok]

/-- A byte of an outside window is drawn, and the draw stays (log 9). -/
theorem sysByte_outside {b : Byte} {rest : List Byte} (h : PagingOff s) (ha : physTarget s.cfg lin = .outside)
    (hin : s.io.inputs = b :: rest) : sysByte lin s = .ok b (s.setIo { s.io with inputs := rest }) := by
  rw [sysByte_off _ h, memRead_outside ha hin]
  rfl

/-- Each of two bytes of an outside window is a draw of its own. -/
theorem sysRead_outside {b₀ b₁ : Byte} {rest : List Byte} (h : PagingOff s) (h₀ : physTarget s.cfg lin = .outside)
    (h₁ : physTarget s.cfg (lin + 1) = .outside) (hin : s.io.inputs = b₀ :: b₁ :: rest) :
    sysRead 2 lin s = .ok [b₀, b₁] { s with io := { s.io with inputs := rest } } := by
  have hsecond := sysByte_outside (s := s.setIo { s.io with inputs := b₁ :: rest }) (pgOff_setIo _ h) h₁ rfl
  simp only [sysRead, sysByte_outside h h₀ hin, hsecond, Res.bind_ok]
  rfl

end

/-! ### The bits of the bitmap (R212) -/

/-- Two bytes as a 16-bit word, the first in bits 7:0. -/
theorem setWidth_or_shiftLeft_eq_append (b₀ b₁ : Byte) :
    ((b₀.setWidth 16 : Half) ||| (b₁.setWidth 16 <<< 8)) = b₁ ++ b₀ := by
  ext j hj
  simp only [BitVec.getElem_or, BitVec.getElem_shiftLeft, BitVec.getElem_setWidth]
  grind

theorem toNat_leValue_two (b₀ b₁ : Byte) : (leValue [b₀, b₁]).toNat = b₀.toNat + 256 * b₁.toNat := by
  have h₀ : b₀.toNat < 2 ^ 8 := b₀.isLt
  have h₁ : b₁.toNat < 2 ^ 8 := b₁.isLt
  rw [leValue_two, BitVec.toNat_setWidth, BitVec.toNat_append, ← Nat.shiftLeft_add_eq_or_of_lt h₀, Nat.shiftLeft_eq]
  omega

/-- `n` ones: bit `j` is set exactly when `j < n`. -/
theorem getLsbD_ones {w n j : Nat} (hj : j < w) : ((1#w <<< n) - 1).getLsbD j = decide (j < n) := by
  have hshift : 1#w <<< n = BitVec.ofNat w (2 ^ n) := by
    refine BitVec.eq_of_toNat_eq ?_
    rw [BitVec.toNat_shiftLeft, BitVec.toNat_ofNat, BitVec.toNat_ofNat, Nat.one_mod_two_pow (by omega),
      Nat.one_shiftLeft]
  have hval : (1#w <<< n) - 1 = BitVec.ofNat w (2 ^ n - 1) := by
    rw [hshift, ← BitVec.ofNat_sub_ofNat_of_le _ _ (Nat.one_lt_two_pow (by omega)) Nat.one_le_two_pow]
    rfl
  rw [hval, BitVec.getLsbD_ofNat, Nat.testBit_two_pow_sub_one]
  simp [hj]

theorem getLsbD_ones_shiftLeft {w n q j : Nat} (hj : j < w) :
    (((1#w <<< n) - 1) <<< q).getLsbD j = decide (q ≤ j ∧ j < q + n) := by
  rw [BitVec.getLsbD_shiftLeft, getLsbD_ones (by omega)]
  grind

/-- A mask of `n` ones from bit `q` on picks these bits and no others. -/
theorem and_ones_eq_zero_iff {w n q : Nat} (h : q + n ≤ w) (v : BitVec w) :
    v &&& (((1#w <<< n) - 1) <<< q) = 0 ↔ ∀ k, k < n → v.getLsbD (q + k) = false := by
  constructor
  · intro hz k hk
    have hbit := congrArg (·.getLsbD (q + k)) hz
    rw [BitVec.getLsbD_and, getLsbD_ones_shiftLeft (by omega)] at hbit
    simpa [hk] using hbit
  · intro hclear
    refine BitVec.eq_of_getLsbD_eq fun j hj => ?_
    rw [BitVec.getLsbD_and, getLsbD_ones_shiftLeft hj]
    by_cases hin : q ≤ j ∧ j < q + n
    · have hbit := hclear (j - q) (by omega)
      rw [Nat.add_sub_cancel' hin.1] at hbit
      simp [hbit]
    · simp [hin]

/-- The bits of an element's ports lie in the two bytes that are read. -/
theorem portBits_clear_iff (port : Half) (z : Size) (b₀ b₁ : Byte) :
    leValue [b₀, b₁] &&& (((1#32 <<< z.bytes) - 1) <<< (port.toNat % 8)) = 0 ↔
      ∀ k, k < z.bytes →
        ((b₀.setWidth 16 : Half) ||| (b₁.setWidth 16 <<< 8)).getLsbD (port.toNat % 8 + k) = false := by
  have hz := Size.bytes_le z
  have hq : port.toNat % 8 < 8 := Nat.mod_lt _ (by decide)
  rw [and_ones_eq_zero_iff (by omega), leValue_two, setWidth_or_shiftLeft_eq_append]
  refine forall₂_congr fun k hk => ?_
  rw [BitVec.getLsbD_setWidth, decide_eq_true (by omega : port.toNat % 8 + k < 32), Bool.true_and]

/-! ### What the bitmap decides (R212) -/

section
variable {port : Half} {z : Size} {s : State}

section
variable {at' : Nat} (hp : PagingOff s) (hmap₀ : physTarget s.cfg (s.cpu.sys.tssBase + 0x66) = .ram)
  (hmap₁ : physTarget s.cfg (s.cpu.sys.tssBase + 0x66 + 1) = .ram)
  (hat : at' = (ramByte s (s.cpu.sys.tssBase + 0x66)).toNat +
    256 * (ramByte s (s.cpu.sys.tssBase + 0x66 + 1)).toNat + port.toNat / 8)
include hp hmap₀ hmap₁ hat

/-- A bitmap byte past the limit of the task state segment denies. -/
theorem bitmapPermits_beyond (hbeyond : s.cpu.sys.tssLimit.toNat < at' + 1) :
    bitmapPermits port z s = .ok false s := by
  simp only [bitmapPermits, sysRead_ram hp hmap₀ hmap₁, Res.bind_ok, toNat_leValue_two, ← hat, if_pos hbeyond]

/-- Within the limit the bits of the element's ports decide. -/
theorem bitmapPermits_within (hwithin : at' + 1 ≤ s.cpu.sys.tssLimit.toNat)
    (h₀ : physTarget s.cfg (s.cpu.sys.tssBase + BitVec.ofNat 32 at') = .ram)
    (h₁ : physTarget s.cfg (s.cpu.sys.tssBase + BitVec.ofNat 32 at' + 1) = .ram) :
    let b₀ := ramByte s (s.cpu.sys.tssBase + BitVec.ofNat 32 at')
    let b₁ := ramByte s (s.cpu.sys.tssBase + BitVec.ofNat 32 at' + 1)
    bitmapPermits port z s = .ok (decide (∀ k, k < z.bytes →
      ((b₀.setWidth 16 : Half) ||| (b₁.setWidth 16 <<< 8)).getLsbD (port.toNat % 8 + k) = false)) s := by
  have hlimit : ¬ s.cpu.sys.tssLimit.toNat < at' + 1 := by omega
  simp only [bitmapPermits, sysRead_ram hp hmap₀ hmap₁, Res.bind_ok, toNat_leValue_two, ← hat, if_neg hlimit,
    sysRead_ram hp h₀ h₁, portBits_clear_iff]

end

variable (href : s.cfg.ioPolicy = .reference) (hpe : s.cpu.sys.pe = true)
  (hlevel : vmFlag s.cpu.flags = true ∨ iopl s.cpu.flags < s.cpu.sys.cpl)
include href hpe hlevel

/-- Where IOPL does not open the ports, the task state segment decides (R212). -/
theorem ioPermitted_guarded :
    ioPermitted port z s =
      if s.cpu.sys.tssLimit < 0x67 then .ok false s else bitmapPermits port z s := by
  have hprotected : ¬ s.cpu.sys.pe = false := by simp [hpe]
  have hdenied : ¬ (vmFlag s.cpu.flags = false ∧ s.cpu.sys.cpl ≤ iopl s.cpu.flags) := by
    rintro ⟨hvm, hle⟩
    rcases hlevel with h | h
    · simp [hvm] at h
    · exact absurd hle (BitVec.not_le.2 h)
  simp only [ioPermitted, href, ioPermittedI386_eq, if_neg hprotected, if_neg hdenied]

/-- Without room for a bitmap every port is denied. -/
theorem ioCheck_noBitmap (hlimit : s.cpu.sys.tssLimit < 0x67) :
    ioCheck port z s = .abort (.ioPermFault port z) s := by
  rw [ioCheck, ioPermitted_guarded href hpe hlevel, if_pos hlimit]
  rfl

theorem ioCheck_bitmap (hlimit : ¬ s.cpu.sys.tssLimit < 0x67) {permitted : Bool}
    (h : bitmapPermits port z s = .ok permitted s) :
    ioCheck port z s = if permitted then .ok () s else .abort (.ioPermFault port z) s := by
  rw [ioCheck, ioPermitted_guarded href hpe hlevel, if_neg hlimit, h]
  rfl

end

/-- A denied port is the abort of the translations, which it precedes (R211, R364). -/
theorem translateOperands_of_ioCheck_abort {i : Instr} {s t : State} {k : Abort}
    (hio : Family.isIo i.handler.fam = true) (h : ioCheck (dx s.cpu.regs) i.handler.size s = .abort k t) :
    translateOperands i s = .abort k t := by
  unfold translateOperands
  cases hf : i.handler.fam <;> rw [hf] at hio
  case ins | outs => simp only [h, Res.bind_abort]
  case movs | cmps | stos | lods | scas => cases hio

/-- Settles O23: the check denies the ports, and that ends the iteration before its operands are looked at. -/
theorem ioDenied : Obligations.IoDenied := by
  unfold Obligations.IoDenied
  intro i s h hio href hpe hlevel hlimit
  exact exec_translate_abort h (translateOperands_of_ioCheck_abort hio (ioCheck_noBitmap href hpe hlevel hlimit))

/-- Settles O24: every read of the check leaves its draws alone (`ioCheck_cases`), and the mask of R212 picks the bits
of the element's ports (`portBits_clear_iff`). -/
theorem ioBitmap : Obligations.IoBitmap := by
  unfold Obligations.IoBitmap
  intro s port z at'
  refine ⟨fun t => ioCheck_ok, fun k t => ioCheck_abort, fun t => rfl, fun lin b₀ b₁ rest => sysRead_outside, ?_⟩
  intro href hpe hlevel hlimit hp tss a hmap₀ hmap₁ hat
  have check {permitted : Bool} (h : bitmapPermits port z s = .ok permitted s) :=
    ioCheck_bitmap href hpe hlevel hlimit h
  refine ⟨fun hbeyond => check (bitmapPermits_beyond hp hmap₀ hmap₁ hat hbeyond), fun hwithin h₀ h₁ => ?_⟩
  have hbits := check (bitmapPermits_within (z := z) hp hmap₀ hmap₁ hat hwithin h₀ h₁)
  refine ⟨fun hclear => hbits.trans (if_pos (decide_eq_true hclear)), fun ⟨k, hk, hset⟩ => ?_⟩
  exact hbits.trans (if_neg fun hall => Bool.false_ne_true ((of_decide_eq_true hall k hk).symm.trans hset))

end Sys2Proof.Machine
end

section
/-! One step of the CPU (R230 to R233): where the bytes of an instruction lie and how they are read, what a fetch that
aborts leaves, and the instruction a step runs. -/
namespace Sys2Proof.Machine

/-! ### The step, by what the fetch answers (R230, R232, R233) -/

/-- Where the CPU's turn begins: the event slot used up and the armed timer's delay down by one (logs 7, 8). -/
def cpuTurnState (s : State) : State := timerTick (s.setAgenda s.agenda.tail)

/-- The way to the CPU's turn changes the adapter and the events to come alone. -/
theorem cpuTurnState_eq (s : State) :
    cpuTurnState s = { s with io := (cpuTurnState s).io, agenda := s.agenda.tail } := by
  unfold cpuTurnState timerTick
  split <;> rfl

theorem cpuTurnState_default32 (s : State) : (cpuTurnState s).cpu.default32 = s.cpu.default32 :=
  congrArg (·.cpu.default32) (cpuTurnState_eq s)

section
variable {s t : State} (he : ∀ e, s.agenda.head? ≠ some (some e)) (ht : timerDue s = false)
  (ha : s.cpu.abrt = none)
include he ht ha

/-- A fetch that answers bytes: the step is the CPU's, on what the decoder makes of them. -/
theorem step_of_decode_ok {bytes rest : List Byte} {i : Instr} (hf : fetch (cpuTurnState s) = .ok bytes t)
    (hd : decode s.cpu.default32 bytes = .ok (i, rest)) : step s = exec i t := by
  have hstep : step s = cpuStep (cpuTurnState s) := step_cpu he ht ha
  simp only [hstep, cpuStep, hf, cpuTurnState_default32, hd]

theorem step_of_decode_error {bytes : List Byte} {r : DecodeReject} (hf : fetch (cpuTurnState s) = .ok bytes t)
    (hd : decode s.cpu.default32 bytes = .error r) : step s = .refused (refusalOf r) := by
  have hstep : step s = cpuStep (cpuTurnState s) := step_cpu he ht ha
  simp only [hstep, cpuStep, hf, cpuTurnState_default32, hd]

theorem step_of_fetch_abort {k : Abort} (hf : fetch (cpuTurnState s) = .abort k t) :
    step s = .next (takeAbort k (fetchUndone (cpuTurnState s) t)) := by
  have hstep : step s = cpuStep (cpuTurnState s) := step_cpu he ht ha
  simp only [hstep, cpuStep, hf]

end

/-- Settles O5: the step by the decoder's answer. -/
theorem stepRunsDecoded : Obligations.StepRunsDecoded := by
  unfold Obligations.StepRunsDecoded
  intro s s1 bytes he ht ha hf
  exact ⟨fun i rest => step_of_decode_ok he ht ha hf, step_of_decode_error he ht ha hf,
    step_of_decode_error he ht ha hf⟩

/-! ### The bytes at `pc` (R23, R80, R133, R232) -/

/-- Byte `n` at CS:pc can be read, and lies in RAM. -/
abbrev CodeInRam (s : State) (n : Nat) : Prop := RamOperand s .cs (fetchOffset s.cpu n) 1 .read

/-- Byte `n` at CS:pc, from RAM. -/
def codeByte (s : State) (n : Nat) : Byte := ramByte s (byteAddr s .cs (fetchOffset s.cpu n) 0)

section
variable {s : State} (hp : PagingOff s) (ha : s.cpu.abrt = none)

theorem low8_setWidth (b : Byte) : low8 (b.setWidth 32) = b := by simp [low8]

include hp ha

/-- One of the prefixes in RAM is taken, and the fetch goes on behind it. -/
theorem fetchFrom_prefix {i : Nat} (hram : CodeInRam s i) (hpfx : Pfx.ofByte? (codeByte s i) ≠ none) (n : Nat) :
    fetchFrom (n + 1) i s = (fetchFrom n (i + 1) s).bind fun bs u => .ok (codeByte s i :: bs) u := by
  obtain ⟨p, hbyte⟩ := Option.ne_none_iff_exists'.1 hpfx
  unfold codeByte at hbyte ⊢
  rw [fetchFrom, readMem_ram hp ha hram, Res.bind_ok, low8_setWidth, hbyte]

/-- Any other byte in RAM ends the fetch. -/
theorem fetchFrom_opcode {i : Nat} (hram : CodeInRam s i) (hop : Pfx.ofByte? (codeByte s i) = none) (n : Nat) :
    fetchFrom (n + 1) i s = .ok [codeByte s i] s := by
  unfold codeByte at hop ⊢
  rw [fetchFrom, readMem_ram hp ha hram, Res.bind_ok, low8_setWidth, hop]

/-- The fetch takes the prefixes in RAM, however many, and goes on behind them. -/
theorem fetchFrom_prefixes (j : Nat) {i : Nat}
    (hpre : ∀ n, n < j → CodeInRam s (i + n) ∧ Pfx.ofByte? (codeByte s (i + n)) ≠ none) (n : Nat) :
    fetchFrom (j + n) i s = (fetchFrom n (i + j) s).bind fun bs u =>
      .ok ((List.range' i j).map (codeByte s) ++ bs) u := by
  induction j generalizing i with
  | zero =>
    rw [Nat.zero_add, Nat.add_zero]
    cases fetchFrom n i s <;> rfl
  | succ j ih =>
    obtain ⟨hram, hpfx⟩ : CodeInRam s i ∧ Pfx.ofByte? (codeByte s i) ≠ none := hpre 0 (by omega)
    have hrest : ∀ m, m < j → CodeInRam s (i + 1 + m) ∧ Pfx.ofByte? (codeByte s (i + 1 + m)) ≠ none := fun m hm => by
      rw [Nat.add_assoc, Nat.add_comm 1 m]
      exact hpre (m + 1) (by omega)
    rw [Nat.add_right_comm, fetchFrom_prefix hp ha hram hpfx, ih hrest, Res.bind_assoc, Nat.add_assoc i 1 j,
      Nat.add_comm 1 j]
    rfl

section
variable {j : Nat} (hj : j < codeTurn s.cpu.default32)
  (hpre : ∀ n, n < j → CodeInRam s n ∧ Pfx.ofByte? (codeByte s n) ≠ none)
include hj hpre

/-- Prefixes in RAM, fewer than a turn of the code segment: what stands behind them decides the fetch. -/
theorem fetch_prefixes : ∃ n, fetch s = (fetchFrom (n + 1) j s).bind fun bs u =>
    .ok ((List.range j).map (codeByte s) ++ bs) u := by
  obtain ⟨n, hn⟩ := Nat.exists_eq_add_of_lt hj
  refine ⟨n, ?_⟩
  rw [fetch, hn, Nat.add_assoc, fetchFrom_prefixes hp ha j (by simpa using hpre), Nat.zero_add,
    ← List.range_eq_range']

/-- Prefixes in RAM and an opcode byte behind them are the bytes the fetch answers. -/
theorem fetch_ram (hram : CodeInRam s j) (hop : Pfx.ofByte? (codeByte s j) = none) :
    fetch s = .ok ((List.range (j + 1)).map (codeByte s)) s := by
  obtain ⟨n, hn⟩ := fetch_prefixes hp ha hj hpre
  rw [hn, fetchFrom_opcode hp ha hram hop, Res.bind_ok, List.range_succ, List.map_append]
  rfl

/-- Prefixes in RAM and a byte behind them that fails its segment check: the fetch aborts with that check's abort. -/
theorem fetch_segCheck {k : Abort}
    (hk : segCheck .cs s.cpu.segs.cs (fetchOffset s.cpu j) 1 .read = some k) : fetch s = .abort k s := by
  obtain ⟨n, hn⟩ := fetch_prefixes hp ha hj hpre
  rw [hn, fetchFrom, readMem_abort hp hk]
  rfl

end

end

/-! ### The instruction whose bytes stand in RAM (R230, R233) -/

theorem toNat_pcAfter (d32 : Bool) (pc : Word) (n : Nat) :
    (pcAfter d32 pc n).toNat = (pc.toNat + n) % (if d32 then 2 ^ 32 else 2 ^ 16) := by
  cases d32 with
  | true => simp [pcAfter, BitVec.toNat_add]
  | false =>
    simp only [pcAfter, low16, Bool.false_eq_true, if_false, BitVec.toNat_setWidth, BitVec.toNat_add,
      BitVec.toNat_ofNat]
    omega

theorem toNat_linearAddr (d : SegDesc) (off : Word) (k : Nat) :
    (linearAddr d off k).toNat = (d.base.toNat + off.toNat + k) % 2 ^ 32 := by
  simp [linearAddr, BitVec.toNat_add]

theorem maxFetch_lt_codeTurn (d32 : Bool) : maxFetch < codeTurn d32 := by cases d32 <;> decide

section
variable {s : State} {i : Instr}
  (hbytes : ∀ k, k < i.length → CodeInRam s k ∧ (encode i)[k]? = some (codeByte s k))
include hbytes

/-- The bytes of an encoding that stands at CS:pc are those of the encoding. -/
theorem codeBytes_eq_encode : (List.range i.length).map (codeByte s) = encode i := by
  refine List.ext_getElem? fun k => ?_
  by_cases hk : k < i.length
  · simp [hk, (hbytes k hk).2]
  · rw [List.getElem?_eq_none (by simpa using hk), List.getElem?_eq_none (by simpa [encode_length] using hk)]

/-- The bytes before the opcode byte are the prefixes' codes. -/
theorem codeByte_prefix {k : Nat} (hk : k < i.prefixes.length) : Pfx.ofByte? (codeByte s k) ≠ none := by
  have hbyte := (hbytes k (Nat.lt_succ_of_lt hk)).2
  rw [encode, List.getElem?_append_left (by simpa using hk), List.getElem?_map, List.getElem?_eq_getElem hk] at hbyte
  rw [← Option.some.inj hbyte, Pfx.ofByte_code]
  nofun

theorem codeByte_opcode : Pfx.ofByte? (codeByte s i.prefixes.length) = none := by
  have hbyte := (hbytes i.prefixes.length (Nat.lt_succ_self _)).2
  have hop : (encode i)[i.prefixes.length]? = some (opcodeByte i.handler.fam i.handler.size) := by simp [encode]
  rw [← Option.some.inj (hop.symm.trans hbyte)]
  exact ofByte_opcodeByte _ _

/-- A well-formed instruction that stands in RAM at CS:pc is fetched whole, and nothing changes. -/
theorem fetch_encoded (hp : PagingOff s) (ha : s.cpu.abrt = none) (hwf : WellFormed s.cpu.default32 i) :
    fetch s = .ok (encode i) s := by
  have hshort : i.prefixes.length < codeTurn s.cpu.default32 :=
    (Nat.lt_succ_of_le (prefixes_le_of_good hwf.1)).trans (maxFetch_lt_codeTurn _)
  have hpre : ∀ n, n < i.prefixes.length → CodeInRam s n ∧ Pfx.ofByte? (codeByte s n) ≠ none := fun n hn =>
    ⟨(hbytes n (Nat.lt_succ_of_lt hn)).1, codeByte_prefix hbytes hn⟩
  rw [fetch_ram hp ha hshort hpre (hbytes _ (Nat.lt_succ_self _)).1 (codeByte_opcode hbytes)]
  exact congrArg (Res.ok · s) (codeBytes_eq_encode hbytes)

end

/-- Settles O6: the fetch answers the encoding (`fetch_encoded`), and the decoder gives the instruction back. -/
theorem stepRunsEncodedInRam : Obligations.StepRunsEncodedInRam := by
  unfold Obligations.StepRunsEncodedInRam
  intro s i
  refine ⟨toNat_pcAfter, fun k => toNat_pcAfter _ _ k, toNat_linearAddr, fun _ _ _ => rfl, ?_⟩
  intro he ht ha hp hwf hbytes
  have hfetch : fetch (cpuTurnState s) = .ok (encode i) (cpuTurnState s) := by
    rw [cpuTurnState_eq]
    exact fetch_encoded hbytes hp ha hwf
  have hdecode : decode s.cpu.default32 (encode i) = .ok (i, []) := by
    simpa using decodeEncode s.cpu.default32 i [] hwf
  exact step_of_decode_ok he ht ha hfetch hdecode

/-! ### What a fetch leaves (R232, R366) -/

/-- Whatever every read of a code byte keeps, the fetch keeps. -/
theorem fetchFrom_all {P : State → Prop} (hread : ∀ off u, P u → (readMem .cs off 1 u).All P) (n i : Nat) {s : State}
    (h : P s) : (fetchFrom n i s).All P := by
  induction n generalizing i s with
  | zero => exact h
  | succ n ih =>
    rw [fetchFrom]
    refine (hread _ s h).bind fun w t _ ht => ?_
    cases Pfx.ofByte? (low8 w) with
    | none => exact ht
    | some p => exact (ih (i + 1) ht).bind fun bs u _ hu => hu

/-- With paging off a read leaves RAM and the CPU context as they are, whatever the byte lies in. -/
theorem readMem_off_all {s u : State} (hp : PagingOff s) (seg : SegReg) (off : Word) (n : Nat)
    (h : u.mem = s.mem ∧ u.cpu = s.cpu) : (readMem seg off n u).All fun t => t.mem = s.mem ∧ t.cpu = s.cpu := by
  have hpu : PagingOff u := by
    unfold PagingOff
    rw [h.2]
    exact hp
  unfold readMem
  rw [preTranslate_off _ _ _ _ hpu]
  cases segCheck seg (u.cpu.segs.get seg) off n .read with
  | some k => exact h
  | none =>
    rw [Res.bind_ok]
    refine Res.All.bindCheck ?_ ?_ <;> simpa [Res.All] using h

/-! #### The marks of the reference paging function (R86) -/

/-- With the reference paging function, a state reached from `s` whose RAM differs in accessed and dirty bits (bits 5
and 6 of a byte) at most. -/
structure OnlyMarks (s u : State) : Prop where
  paging : u.cfg.paging = .reference
  cfg : u.cfg = s.cfg
  wf : Memory.wf u.mem = true
  ram : ∀ a, Memory.read u.mem a &&& 0x9F = Memory.read s.mem a &&& 0x9F

/-- A value whose bytes are those of `s` at the addresses `ps`, but for marks; nothing is said of bytes outside RAM. -/
def MarkedElem (s : State) (ps : List Word) (v : Word) : Prop :=
  ∀ k (hk : k < ps.length), physTarget s.cfg ps[k] = .ram → byteOf v k &&& 0x9F = ramByte s ps[k] &&& 0x9F

section
variable {s u : State} {ps : List Word} {v : Word}

theorem OnlyMarks.of_mem_eq {t : State} (h : OnlyMarks s u) (hm : t.mem = u.mem) (hc : t.cfg = u.cfg) :
    OnlyMarks s t :=
  ⟨hc ▸ h.paging, hc.trans h.cfg, hm ▸ h.wf, hm ▸ h.ram⟩

theorem OnlyMarks.readElem (h : OnlyMarks s u) (ps : List Word) : OnlyMarks s (readElem ps u).2 :=
  h.of_mem_eq (readElem_mem ps u) (readElem_cfg ps u)

theorem OnlyMarks.memWrite (h : OnlyMarks s u) {p : Word} {b : Byte}
    (hb : physTarget s.cfg p = .ram → b &&& 0x9F = ramByte s p &&& 0x9F) : OnlyMarks s (memWrite p b u) := by
  by_cases hram : physTarget u.cfg p = .ram
  · rw [memWrite_ram hram]
    refine ⟨h.paging, h.cfg, Memory.write_wf h.wf _ _, fun a => ?_⟩
    by_cases ha : a = p.toNat
    · rw [ha, State.setMem_mem, Memory.read_write_same h.wf]
      exact hb (h.cfg ▸ hram)
    · rw [State.setMem_mem, Memory.read_write_other ha]
      exact h.ram a
  · refine h.of_mem_eq ?_ (memWrite_cfg p b u)
    unfold Machine.memWrite
    split
    · next hr => exact absurd hr hram
    all_goals rfl

/-- Writing back an element but for marks changes marks at most. -/
theorem OnlyMarks.writeElem (h : OnlyMarks s u) (hv : MarkedElem s ps v) : OnlyMarks s (writeElem ps v u) := by
  induction ps generalizing v u with
  | nil => exact h
  | cons p ps ih =>
    refine ih (h.memWrite (hv 0 (Nat.zero_lt_succ _))) fun k hk hram => ?_
    rw [← byteOf_succ]
    exact hv (k + 1) (by simpa using hk) hram

theorem OnlyMarks.markEntry (h : OnlyMarks s u) {keep : Bool} {a : Word} (hv : MarkedElem s (dwordAddrs a) v) :
    OnlyMarks s (markEntry keep a v u) := by
  cases keep with
  | true => exact h
  | false => exact h.writeElem hv

@[simp] theorem readBytes_length (ps : List Word) (s : State) : (readBytes ps s).1.length = ps.length := by
  induction ps generalizing s with
  | nil => rfl
  | cons p ps ih => exact congrArg (· + 1) (ih _)

/-- A byte read at an address in RAM is RAM's, whatever the reads before it did to a device. -/
theorem readBytes_getElem {k : Nat} (hk : k < ps.length) (hram : physTarget s.cfg ps[k] = .ram) :
    (readBytes ps s).1[k]'(by simpa using hk) = ramByte s ps[k] := by
  induction ps generalizing s k with
  | nil => exact absurd hk (Nat.not_lt_zero k)
  | cons p ps ih =>
    cases k with
    | zero => exact congrArg Prod.fst (memRead_ram hram)
    | succ k =>
      have hbyte := ih (s := (memRead p s).2) (k := k) (by simpa using hk) (by simpa using hram)
      rw [ramByte, memRead_mem] at hbyte
      exact hbyte

/-- What is read at `ps` are the bytes of `s` but for marks. -/
theorem OnlyMarks.markedElem_readElem (h : OnlyMarks s u) (hlen : ps.length ≤ 4) :
    MarkedElem s ps (Machine.readElem ps u).1 := by
  intro k hk hram
  have hbyte : byteOf (Machine.readElem ps u).1 k = ramByte u ps[k] :=
    (byteOf_leValue (by simpa using hk) (by simpa using hlen)).trans (readBytes_getElem hk (h.cfg ▸ hram))
  rw [hbyte]
  exact h.ram _

/-- Setting bits 5 and 6 of the low byte alone is a mark. -/
theorem MarkedElem.or_mark (h : MarkedElem s ps v) {m : Word} (hhigh : m >>> 8 = 0)
    (hlow : m.setWidth 8 &&& 0x9F#8 = 0) : MarkedElem s ps (v ||| m) := by
  intro k hk hram
  have hor : byteOf (v ||| m) k = byteOf v k ||| byteOf m k := by
    simp [byteOf, BitVec.ushiftRight_or_distrib, BitVec.setWidth_or]
  have hmark : byteOf m k &&& 0x9F = 0 := by
    cases k with
    | zero => exact hlow
    | succ k =>
      rw [byteOf_succ, hhigh]
      simp [byteOf]
  rw [hor, ← h k hk hram, BitVec.and_comm, BitVec.and_or_distrib_left, BitVec.and_comm 0x9F (byteOf m k), hmark]
  simp [BitVec.and_comm]

theorem OnlyMarks.readEntry (h : OnlyMarks s u) (a : Word) :
    OnlyMarks s (readEntry a u).2 ∧ MarkedElem s (dwordAddrs a) (readEntry a u).1 :=
  ⟨h.readElem _, h.markedElem_readElem le_rfl⟩

/-- The page walk writes back what it read but for marks. -/
theorem pageTranslateI386_all_onlyMarks (h : OnlyMarks s u) (sys : Sys) (lin : Word) (kind : AccessKind) :
    (pageTranslateI386 sys lin kind u).All (OnlyMarks s) := by
  unfold pageTranslateI386
  split
  · exact h
  · extract_lets wr user pdeA
    obtain ⟨h₁, hpde⟩ := h.readEntry pdeA
    generalize readEntry pdeA u = entry₁ at h₁ hpde
    obtain ⟨pde, u₁⟩ := entry₁
    dsimp only at h₁ hpde ⊢
    generalize (pde &&& 0xFFFFF000) ||| (((lin >>> 12) &&& 0x3FF) <<< 2) = pteA
    obtain ⟨h₂, hpte⟩ := h₁.readEntry pteA
    generalize readEntry pteA u₁ = entry₂ at h₂ hpte
    obtain ⟨pte, u₂⟩ := entry₂
    dsimp only at h₂ hpte ⊢
    have hpde' : MarkedElem s (dwordAddrs pdeA) (pde ||| 0x20) := hpde.or_mark (by decide) (by decide)
    have hpte' : MarkedElem s (dwordAddrs pteA) (pte ||| 0x20 ||| (if wr then 0x40 else 0)) :=
      (hpte.or_mark (by decide) (by decide)).or_mark (by cases wr <;> decide) (by cases wr <;> decide)
    split
    · exact h₁.of_mem_eq rfl rfl
    · split
      · exact h₂.of_mem_eq rfl rfl
      · split
        · exact h₂.of_mem_eq rfl rfl
        · exact (h₂.markEntry hpde').markEntry hpte'

theorem pageTranslate_all_onlyMarks (h : OnlyMarks s u) (sys : Sys) (lin : Word) (kind : AccessKind) :
    (pageTranslate sys lin kind u).All (OnlyMarks s) := by
  rw [pageTranslate, h.paging]
  exact pageTranslateI386_all_onlyMarks h sys lin kind

theorem translateFrom_all_onlyMarks (h : OnlyMarks s u) (d : SegDesc) (off : Word) (kind : AccessKind) (n i : Nat) :
    (translateFrom d off kind n i u).All (OnlyMarks s) := by
  induction n generalizing i u with
  | zero => exact h
  | succ n ih =>
    refine (pageTranslate_all_onlyMarks h _ _ kind).bind fun p t _ ht => ?_
    exact (ih ht (i + 1)).bind fun ps w _ hw => hw

/-- With the reference paging function an operand's translations change marks at most (R86, R366). -/
theorem preTranslate_all_onlyMarks (h : OnlyMarks s u) (seg : SegReg) (off : Word) (n : Nat) (kind : AccessKind) :
    (preTranslate seg off n kind u).All (OnlyMarks s) := by
  unfold preTranslate
  split
  · exact h
  · exact translateFrom_all_onlyMarks h _ off kind n 0

theorem readMem_all_onlyMarks (h : OnlyMarks s u) (seg : SegReg) (off : Word) (n : Nat) :
    (readMem seg off n u).All (OnlyMarks s) := by
  refine (preTranslate_all_onlyMarks h seg off n .read).bind fun pa t _ ht => ?_
  exact Res.All.bindCheck (ht.readElem pa) (ht.readElem pa)

end

/-! #### The fetch that aborts -/

section
variable {s t : State} {k : Abort}

theorem fetch_abort_off (hp : PagingOff s) (h : fetch s = .abort k t) :
    t.mem = s.mem ∧ t.cpu.sys.cr2 = s.cpu.sys.cr2 := by
  have hall := fetchFrom_all (fun off u hu => readMem_off_all hp .cs off 1 hu) (codeTurn s.cpu.default32) 0
    (⟨rfl, rfl⟩ : s.mem = s.mem ∧ s.cpu = s.cpu)
  change (fetch s).All _ at hall
  rw [h] at hall
  obtain ⟨hmem, hcpu⟩ := hall
  exact ⟨hmem, congrArg (·.sys.cr2) hcpu⟩

theorem fetch_abort_marks (href : s.cfg.paging = .reference) (hw : Memory.wf s.mem = true)
    (h : fetch s = .abort k t) : ∀ a, Memory.read t.mem a &&& 0x9F = Memory.read s.mem a &&& 0x9F := by
  have hall := fetchFrom_all (fun off u hu => readMem_all_onlyMarks hu .cs off 1) (codeTurn s.cpu.default32) 0
    (⟨href, rfl, hw, fun _ => rfl⟩ : OnlyMarks s s)
  change (fetch s).All _ at hall
  rw [h] at hall
  exact hall.ram

end

/-- Settles O7: what is left of an aborted fetch is its RAM and `cr2` (`fetchUndone`), which paging off leaves alone and
the reference paging function marks; behind prefixes in RAM the failing segment check is the abort
(`fetch_segCheck`). -/
theorem fetchAborts : Obligations.FetchAborts := by
  unfold Obligations.FetchAborts
  intro s k he ht ha s0
  obtain ⟨io, hs0⟩ : ∃ io, s0 = { s with io := io, agenda := s.agenda.tail } := ⟨_, cpuTurnState_eq s⟩
  have habort {t : State} (hf : fetch s0 = .abort k t) : step s = .next (takeAbort k (fetchUndone s0 t)) :=
    step_of_fetch_abort he ht ha hf
  clear_value s0
  subst hs0
  refine ⟨fun t hf => ⟨t.mem, t.cpu.sys.cr2, habort hf, fun hp => ?_, fun href hw => ?_⟩, fun j hp hj hpre hk => ?_⟩
  · exact fetch_abort_off (s := { s with io := io, agenda := s.agenda.tail }) hp hf
  · exact fetch_abort_marks (s := { s with io := io, agenda := s.agenda.tail }) href hw hf
  · have hf := fetch_segCheck (s := { s with io := io, agenda := s.agenda.tail }) hp ha hj hpre hk
    exact (habort hf :)

end Sys2Proof.Machine
end

section
/-! The repeat loop (R234 to R241): what the repeat prefixes add to the plain step, and how often REP runs it. -/
namespace Sys2Proof.Machine

/-! ### Count 0 (R234) -/

/-- Settles O31. -/
theorem repeatCountZero : Obligations.RepeatCountZero := by
  unfold Obligations.RepeatCountZero
  exact fun i s hadm hrep hcount => exec_count_zero hadm hrep hcount

/-! ### One more of the prefixes in front (R125, R130) -/

/-- What is no refused combination with one more of the prefixes in front is none without it. -/
theorem badPrefixes_tail {p : Pfx} {ps : List Pfx} {f : Family} (h : badPrefixes (p :: ps) f = false) :
    badPrefixes ps f = false := by
  simp only [badPrefixes, Bool.or_eq_false_iff, decide_eq_false_iff_not, Bool.not_eq_false', decide_eq_true_eq,
    Bool.and_eq_false_iff, List.length_cons, List.nodup_cons, List.mem_cons, not_or] at h ⊢
  obtain ⟨⟨⟨⟨hlen, -, hnodup⟩, hseg⟩, hboth⟩, hrepne⟩ := h
  have hmono : (ps.filterMap Pfx.seg?).length ≤ ((p :: ps).filterMap Pfx.seg?).length :=
    ((List.sublist_cons_self p ps).filterMap _).length_le
  exact ⟨⟨⟨⟨by omega, hnodup⟩, by omega⟩, hboth.imp And.right And.right⟩, hrepne.imp_left And.right⟩

theorem admitted_of_wrap {p : Pfx} {j : Instr} (h : Admitted (p.wrap j)) : Admitted j := by
  unfold Admitted at h ⊢
  rw [Pfx.wrap_prefixes, Pfx.wrap_handler] at h
  obtain ⟨hlock, hgood⟩ := h
  exact ⟨fun hmem => hlock (List.mem_cons_of_mem p hmem), badPrefixes_tail hgood⟩

/-- 0xF3 repeats until ZF is clear in the families that compare, and unconditionally in the others. -/
theorem repOf_prefixRep (j : Instr) :
    repOf (.prefixRep j) = some (if j.handler.fam.compares then .repe else .rep) := by
  have hrep : Pfx.rep ∈ (Instr.prefixRep j).prefixes := List.mem_cons_self
  rw [repOf, repeatKind, if_pos hrep]
  rfl

theorem rep_notMem_of_repOf_none {j : Instr} (h : repOf j = none) : Pfx.rep ∉ j.prefixes := fun hmem =>
  nomatch (if_pos hmem).symm.trans h

theorem repOf_prefixRepne {j : Instr} (h : repOf j = none) : repOf (.prefixRepne j) = some .repne := by
  have hrep : Pfx.rep ∉ (Instr.prefixRepne j).prefixes := by
    simpa [Instr.prefixes] using rep_notMem_of_repOf_none h
  have hrepne : Pfx.repne ∈ (Instr.prefixRepne j).prefixes := List.mem_cons_self
  rw [repOf, repeatKind, if_neg hrep, if_pos hrepne]

/-- 0xF2 is admitted before the families that compare alone (R130 (c)). -/
theorem compares_of_admitted_prefixRepne {j : Instr} (h : Admitted (.prefixRepne j)) :
    j.handler.fam.compares = true := by
  by_contra hf
  have hbad : badPrefixes (Instr.prefixRepne j).prefixes j.handler.fam = true :=
    badPrefixes_of_combination (.inr (.inr (.inr (.inr ⟨List.mem_cons_self, by simpa using hf⟩))))
  exact Bool.false_ne_true (h.2.symm.trans hbad)

/-! ### A repeated step (R234 to R237) -/

section
variable {i j : Instr} {s : State}

/-- The flag condition of 0xF3 or 0xF2 in front, by that byte: it is made in CMPS and SCAS alone (R235). -/
theorem stopCondition_iff (hi : i = .prefixRep j ∨ i = .prefixRepne j) (hadm : Admitted i) (hj : repOf j = none) :
    ∃ kind, repOf i = some kind ∧ ∀ f, stopCondition kind f = true ↔
      i.handler.fam ∈ [Family.cmps, .scas] ∧
        ((i = .prefixRep j ∧ f.getLsbD 6 = false) ∨ (i = .prefixRepne j ∧ f.getLsbD 6 = true)) := by
  rcases hi with rfl | rfl
  · refine ⟨_, repOf_prefixRep j, fun f => ?_⟩
    rw [← Family.compares_iff, show (Instr.prefixRep j).handler = j.handler from rfl]
    cases j.handler.fam.compares <;> simp [stopCondition, getFlag, Flag.pos]
  · refine ⟨_, repOf_prefixRepne hj, fun f => ?_⟩
    rw [← Family.compares_iff, show (Instr.prefixRepne j).handler = j.handler from rfl,
      compares_of_admitted_prefixRepne hadm]
    simp [stopCondition, getFlag, Flag.pos]

/-- What 0xF3 or 0xF2 in front adds to a completed iteration: the count goes down, and `pc` moves past the longer
instruction at the end of the loop and stays before it. -/
theorem endCpu_repeat (hi : i = .prefixRep j ∨ i = .prefixRepne j) (hadm : Admitted i) (hj : repOf j = none)
    (r : Regs) (f : Word) :
    endCpu i s r f = { endCpu j s r f with
      regs := setIdx .ecx i.handler.asz (countOf i s - 1) r,
      pc := if countOf i s = 1 ∨ (i.handler.fam ∈ [Family.cmps, .scas] ∧
          ((i = .prefixRep j ∧ f.getLsbD 6 = false) ∨ (i = .prefixRepne j ∧ f.getLsbD 6 = true)))
        then pcAfter s.cpu.default32 s.cpu.pc (j.length + 1) else s.cpu.pc } := by
  obtain ⟨kind, hkind, hstop⟩ := stopCondition_iff hi hadm hj
  have hlen : i.length = j.length + 1 := by rcases hi with rfl | rfl <;> rfl
  have hhandler : i.handler = j.handler := by rcases hi with rfl | rfl <;> rfl
  simp only [endCpu, endRegs, endPc, hkind, hstop, hlen, sub_eq_zero, hhandler]

/-- Settles O32: both forms run the same iteration, and its end differs as `endCpu_repeat` says. -/
theorem repeatIsPlainThenCount : Obligations.RepeatIsPlainThenCount := by
  unfold Obligations.RepeatIsPlainThenCount
  intro i j s hi h hj
  obtain ⟨hadm, habrt, hcount⟩ := h
  have hiter : iterate i.handler (segOf i) s = iterate j.handler (segOf j) s := by rcases hi with rfl | rfl <;> rfl
  have hadm' : Admitted j := by
    rcases hi with rfl | rfl
    · exact admitted_of_wrap (p := .rep) hadm
    · exact admitted_of_wrap (p := .repne) hadm
  have hplain : Iterates j s := ⟨hadm', habrt, fun hrep => absurd hj hrep⟩
  have hends := iterate_ends j s
  cases hu : iterate j.handler (segOf j) s with
  | abort k u =>
    refine ⟨_, exec_abort hplain hu, ?_⟩
    rw [if_neg nofun]
    exact exec_abort ⟨hadm, habrt, hcount⟩ (hiter.trans hu)
  | ok x u =>
    rw [hu] at hends
    obtain ⟨w, v, f, hw, -, -, hend⟩ := hends
    have hcpu : u.cpu = { s.cpu with regs := famRegs j s v, flags := f, sys := w.cpu.sys,
                                     cycles := s.cpu.cycles + cycleCost s.cfg j.handler } := by
      rw [hend, hw.cpu]
    have hhandler : i.handler = j.handler := by rcases hi with rfl | rfl <;> rfl
    refine ⟨_, exec_ok_sys hplain hu hcpu, ?_⟩
    refine (exec_ok_sys ⟨hadm, habrt, hcount⟩ (hiter.trans hu) (hhandler ▸ hcpu)).trans ?_
    refine congrArg Host.Outcome.next (Eq.trans ?_ (if_pos habrt).symm)
    rw [endCpu_repeat hi hadm hj]
    simp only [endCpu, endRegs, hj]

end

/-! ### A run of REP (R241) -/

/-- A count that is not 0, less one, is within its view. -/
theorem indexView_idx_sub_one {r : Regs} {k : Reg} {a : AddrSize} (h : idx r k a ≠ 0) :
    indexView a (idx r k a - 1) = idx r k a - 1 := by
  cases a with
  | a32 => rfl
  | a16 =>
    have hview : idx r k .a16 = (low16 (r.get k)).setWidth 32 := rfl
    generalize low16 (r.get k) = v at hview
    simp only [indexView, low16, hview] at h ⊢
    bv_omega

theorem idx_setIdx_same (k : Reg) (a : AddrSize) (v : Word) (r : Regs) :
    idx (setIdx k a v r) k a = indexView a v := by
  rw [idx, setIdx, Regs.get_set_same]
  cases a with
  | a32 => rfl
  | a16 => exact congrArg (BitVec.setWidth 32) (low16_setLow16 _ _)

/-- One step of REP without an abort: the count goes down by one, and `pc` moves with the last one alone. -/
theorem exec_rep_step {i : Instr} {s t : State} (hrep : repOf i = some .rep) (hcount : countOf i s ≠ 0)
    (h : exec i s = .next t) (ha : t.cpu.abrt = none) :
    countOf i t = countOf i s - 1 ∧ t.cpu.default32 = s.cpu.default32 ∧
      t.cpu.pc = if countOf i s = 1 then pcAfter s.cpu.default32 s.cpu.pc i.length else s.cpu.pc := by
  obtain ⟨-, ⟨-, hzero, -⟩ | ⟨-, k, u, -, -, rfl⟩ | ⟨-, -, w, v, f, u, -, -, -, -, rfl⟩⟩ := exec_cases h
  · exact absurd hzero hcount
  · exact nomatch (ha : some k = none)
  · refine ⟨?_, rfl, ?_⟩
    · simp only [countOf, endCpu, endRegs, hrep, idx_setIdx_same]
      exact indexView_idx_sub_one hcount
    · simp only [endCpu, endPc, hrep, stopCondition, sub_eq_zero, Bool.false_eq_true, or_false]

section
variable {i : Instr} {n : Nat} {t : Nat → State}

/-- Along the run: the count after `k` steps, and `pc` before the last of them. -/
theorem rep_run_prefix (hrep : repOf i = some .rep) (hn : (countOf i (t 0)).toNat = n)
    (hrun : ∀ k, k < n → exec i (t k) = .next (t (k + 1)) ∧ (t (k + 1)).cpu.abrt = none) (k : Nat) (hk : k ≤ n) :
    (countOf i (t k)).toNat = n - k ∧ (t k).cpu.default32 = (t 0).cpu.default32 ∧
      (k < n → (t k).cpu.pc = (t 0).cpu.pc) := by
  induction k with
  | zero => exact ⟨hn, rfl, fun _ => rfl⟩
  | succ k ih =>
    obtain ⟨hc, hd, hpc⟩ := ih (by omega)
    obtain ⟨hexec, habrt⟩ := hrun k hk
    have hne : countOf i (t k) ≠ 0 := fun hz => by
      rw [hz] at hc
      simp at hc
      omega
    obtain ⟨hc', hd', hpc'⟩ := exec_rep_step hrep hne hexec habrt
    refine ⟨?_, hd'.trans hd, fun hlt => ?_⟩
    · rw [hc', BitVec.toNat_sub_of_le (by bv_omega), hc]
      exact Nat.sub_sub n k 1
    · have hmore : countOf i (t k) ≠ 1 := fun hone => by
        rw [hone] at hc
        simp at hc
        omega
      rw [hpc', if_neg hmore, hpc (by omega)]

/-- The last step of the run finds the count 1 and moves `pc`. -/
theorem rep_run_last (hrep : repOf i = some .rep) (hn : (countOf i (t 0)).toNat = n) (hpos : 0 < n)
    (hrun : ∀ k, k < n → exec i (t k) = .next (t (k + 1)) ∧ (t (k + 1)).cpu.abrt = none) :
    (t n).cpu.pc = pcAfter (t 0).cpu.default32 (t 0).cpu.pc i.length := by
  obtain ⟨m, rfl⟩ : ∃ m, n = m + 1 := ⟨n - 1, by omega⟩
  obtain ⟨hc, hd, hpc⟩ := rep_run_prefix hrep hn hrun m (by omega)
  obtain ⟨hexec, habrt⟩ := hrun m (by omega)
  have hone : countOf i (t m) = 1 := BitVec.eq_of_toNat_eq (hc.trans (Nat.add_sub_cancel_left m 1))
  obtain ⟨-, -, hlast⟩ := exec_rep_step hrep (hone ▸ by decide) hexec habrt
  rw [hlast, if_pos hone, hd, hpc (by omega)]

end

/-- Settles O33, by induction on the steps of the run (`rep_run_prefix`). -/
theorem repRunsCountTimes : Obligations.RepRunsCountTimes := by
  unfold Obligations.RepRunsCountTimes
  intro i n t _ hrep _ hn hpos hrun
  refine ⟨fun k hk => ?_, fun k hk => ?_, rep_run_last hrep hn hpos hrun⟩
  · obtain ⟨hcount, -, -⟩ := rep_run_prefix hrep hn hrun k hk
    exact hcount
  · obtain ⟨-, -, hpc⟩ := rep_run_prefix hrep hn hrun k hk.le
    exact hpc hk

end Sys2Proof.Machine
end

section
/-! The lines of a bus word (R140, R142): what the writes of R253 leave of REQ, BSY, the phase and the data byte. -/
namespace Sys2Proof.Machine

/-! ### The lines of a bus word (R140, R153) -/

section
variable {w : Nat} {a b m : BitVec w}

theorem or_and_eq_zero (ha : a &&& m = 0#w) (hb : b &&& m = 0#w) : (a ||| b) &&& m = 0#w := by
  rw [BitVec.and_or_distrib_right, ha, hb, BitVec.or_zero]

theorem and_and_eq_zero (ha : a &&& m = 0#w) (c : BitVec w) : a &&& c &&& m = 0#w := by
  rw [BitVec.and_assoc, BitVec.and_comm c, ← BitVec.and_assoc, ha, BitVec.zero_and]

/-- A value cut to a mask has no bit of another mask that is disjoint from it. -/
theorem and_and_of_disjoint (hm : b &&& m = 0#w) : a &&& b &&& m = 0#w := by
  rw [BitVec.and_assoc, hm, BitVec.and_zero]

end

section
variable (b v m : Word)

theorem hasLine_or : hasLine (b ||| v) m = (hasLine b m || hasLine v m) := by
  rw [Bool.eq_iff_iff]
  simp only [hasLine, BitVec.and_or_distrib_right, Bool.or_eq_true, decide_eq_true_eq]
  exact (not_congr BitVec.or_eq_zero_iff).trans not_and_or

variable {v m}

theorem hasLine_and_of_subset (h : v &&& m = m) : hasLine (b &&& v) m = hasLine b m := by
  rw [hasLine, BitVec.and_assoc, h, hasLine]

theorem hasLine_and_of_disjoint (h : v &&& m = 0) : hasLine (b &&& v) m = false := by
  rw [hasLine, and_and_of_disjoint h]
  rfl

end

/-- A data byte stands on the data lines alone. -/
theorem busSetData_eq_and (v : Byte) : busSetData v = busSetData v &&& busDataMask := by
  ext i hi
  simp only [busSetData, busDataMask]
  interval_cases i <;> simp


/-- No line is set that the core never drives (R290). -/
abbrev Driven (b : Word) : Prop := b &&& ~~~drivenMask = 0

theorem Driven.or {a b : Word} (ha : Driven a) (hb : Driven b) : Driven (a ||| b) := or_and_eq_zero ha hb
theorem Driven.and {a : Word} (ha : Driven a) (b : Word) : Driven (a &&& b) := and_and_eq_zero ha b
theorem driven_and {m : Word} (hm : Driven m) (a : Word) : Driven (a &&& m) := and_and_of_disjoint hm

theorem driven_busSetData (v : Byte) : Driven (busSetData v) := by
  rw [busSetData_eq_and]
  exact driven_and (by decide) _

/-! The words `SetPhase` and `SetData` leave, and REQ lowered and raised (R253). -/

/-- The word `b` with the phase lines of `p`: what `Ncr.setPhase` makes of `cur_bus`. -/
def phaseWord (b p : Word) : Word := (b &&& ~~~phaseMask) ||| (p &&& phaseMask)

/-- The word `b` with the data byte `v`: what `Ncr.setData` makes of `cur_bus`. -/
def dataWord (b : Word) (v : Byte) : Word := (b &&& ~~~busDataMask) ||| busSetData v

theorem setPhase_curBus (p : Word) (n : Ncr) : (n.setPhase p).curBus = phaseWord n.curBus p := rfl
theorem setData_curBus (v : Byte) (n : Ncr) : (n.setData v).curBus = dataWord n.curBus v := rfl

section
variable {b p : Word} {v : Byte}

@[simp] theorem phaseWord_req : hasLine (phaseWord b p) busReq = hasLine b busReq := by
  rw [phaseWord, hasLine_or, hasLine_and_of_subset _ (by decide), hasLine_and_of_disjoint _ (by decide),
    Bool.or_false]
@[simp] theorem phaseWord_bsy : hasLine (phaseWord b p) busBsy = hasLine b busBsy := by
  rw [phaseWord, hasLine_or, hasLine_and_of_subset _ (by decide), hasLine_and_of_disjoint _ (by decide),
    Bool.or_false]
@[simp] theorem phaseWord_phase : phaseWord b p &&& phaseMask = p &&& phaseMask := by
  rw [phaseWord, BitVec.and_or_distrib_right, and_and_of_disjoint (by decide), BitVec.and_assoc, BitVec.and_self,
    BitVec.zero_or]
theorem phaseWord_driven (h : Driven b) : Driven (phaseWord b p) := (h.and _).or (driven_and (by decide) _)

@[simp] theorem dataWord_req : hasLine (dataWord b v) busReq = hasLine b busReq := by
  rw [dataWord, busSetData_eq_and, hasLine_or, hasLine_and_of_subset _ (by decide),
    hasLine_and_of_disjoint _ (by decide), Bool.or_false]
@[simp] theorem dataWord_bsy : hasLine (dataWord b v) busBsy = hasLine b busBsy := by
  rw [dataWord, busSetData_eq_and, hasLine_or, hasLine_and_of_subset _ (by decide),
    hasLine_and_of_disjoint _ (by decide), Bool.or_false]
@[simp] theorem dataWord_phase : dataWord b v &&& phaseMask = b &&& phaseMask := by
  rw [dataWord, busSetData_eq_and, BitVec.and_or_distrib_right, and_and_of_disjoint (a := busSetData v) (by decide),
    BitVec.and_assoc, BitVec.or_zero]
  rfl
@[simp] theorem dataWord_data : busGetData (dataWord b v) = v := by
  ext i hi
  simp only [dataWord, busGetData, busSetData, busDataMask]
  interval_cases i <;> simp
theorem dataWord_driven (h : Driven b) : Driven (dataWord b v) := (h.and _).or (driven_busSetData v)

@[simp] theorem andNotReq_req : hasLine (b &&& ~~~busReq) busReq = false := hasLine_and_of_disjoint _ (by decide)
@[simp] theorem andNotReq_bsy : hasLine (b &&& ~~~busReq) busBsy = hasLine b busBsy :=
  hasLine_and_of_subset _ (by decide)

@[simp] theorem orReq_req : hasLine (b ||| busReq) busReq = true := by
  rw [hasLine_or, show hasLine busReq busReq = true by decide, Bool.or_true]
@[simp] theorem orReq_bsy : hasLine (b ||| busReq) busBsy = hasLine b busBsy := by
  rw [hasLine_or, show hasLine busReq busBsy = false by decide, Bool.or_false]
@[simp] theorem orReq_phase : (b ||| busReq) &&& phaseMask = b &&& phaseMask := by
  rw [BitVec.and_or_distrib_right, show busReq &&& phaseMask = 0#32 by decide, BitVec.or_zero]
theorem orReq_data : busGetData (b ||| busReq) = busGetData b := by
  rw [busGetData, BitVec.ushiftRight_or_distrib, BitVec.setWidth_or, show (busReq >>> 16).setWidth 8 = 0#8 by decide,
    BitVec.or_zero]
  rfl

/-- REQ raised where it stands already. -/
theorem orReq_of_req (h : hasLine b busReq = true) : b ||| busReq = b := by
  have h5 : b.getLsbD 5 = true := (hasLine_bit b 5 (by decide)).symm.trans h
  refine BitVec.eq_of_getLsbD_eq fun i hi => ?_
  rw [BitVec.getLsbD_or]
  by_cases hb : i = 5
  · rw [hb, h5, Bool.true_or]
  · simp [show busReq = BitVec.twoPow 32 5 from rfl, BitVec.getLsbD_twoPow, Ne.symm hb]
end

end Sys2Proof.Machine
end

section
/-! Changes of the SCSI core's record and of the selected device (R46, R252), and what one tick does, by which countdown
runs (R256, R257). -/
namespace Sys2Proof.Machine

/-! ### Changes of the SCSI core's record and of the selected device (R46, R252) -/

section
variable {cfg : Cfg} {io : Io} {f : Ncr → Ncr}

@[simp] theorem mapNcr_ncr (io : Io) (f : Ncr → Ncr) : (io.mapNcr f).ncr = f io.ncr := rfl

theorem mapNcr_mapNcr (io : Io) (f g : Ncr → Ncr) : (io.mapNcr f).mapNcr g = io.mapNcr fun n => g (f n) := rfl

theorem mapNcr_congr {g : Ncr → Ncr} (h : f io.ncr = g io.ncr) : io.mapNcr f = io.mapNcr g := by
  rw [Io.mapNcr, h, Io.mapNcr]

/-- A change of the record that the record itself already meets is none. -/
theorem mapNcr_eq_self (h : f io.ncr = io.ncr) : io.mapNcr f = io := by
  rw [Io.mapNcr, h]

@[simp] theorem deviceAt_mapNcr (id : Fin 8) : deviceAt cfg (io.mapNcr f) id = deviceAt cfg io id := rfl

theorem devBufferLength_mapNcr (h : (f io.ncr).targetId = io.ncr.targetId) :
    devBufferLength cfg (io.mapNcr f) = devBufferLength cfg io := by
  rw [devBufferLength, selected_mapNcr h, devBufferLength]

theorem devByte_mapNcr (h : (f io.ncr).targetId = io.ncr.targetId) (i : Nat) :
    devByte cfg (io.mapNcr f) i = devByte cfg io i := by
  rw [devByte, selected_mapNcr h, devByte]

theorem devStatus_mapNcr (h : (f io.ncr).targetId = io.ncr.targetId) :
    devStatus cfg (io.mapNcr f) = devStatus cfg io := by
  rw [devStatus, selected_mapNcr h, devStatus]

theorem nextPhase_mapNcr (h : (f io.ncr).targetId = io.ncr.targetId) :
    nextPhase cfg (io.mapNcr f) = nextPhase cfg io := by
  rw [nextPhase, selected_mapNcr h, nextPhase]

theorem targetPresent_of_targetId {id : Fin 8} (h : io.ncr.targetId = some id) :
    targetPresent cfg io = (deviceAt cfg io id).present := by
  rw [targetPresent, selected_some h]

theorem devBufferLength_of_targetId {id : Fin 8} (h : io.ncr.targetId = some id) :
    devBufferLength cfg io = (deviceAt cfg io id).buffer.length := by
  rw [devBufferLength, selected_some h]

theorem devByte_of_targetId {id : Fin 8} (h : io.ncr.targetId = some id) (i : Nat) :
    devByte cfg io i = ((deviceAt cfg io id).buffer[i]?).getD (Config.noDeviceByte i) := by
  rw [devByte, selected_some h]

/-- The device table and the core's record change independently. -/
theorem modifySelected_mapNcr (d : Fin 8 → Device → Device) (h : (f io.ncr).targetId = io.ncr.targetId) :
    modifySelected cfg d (io.mapNcr f) = (modifySelected cfg d io).mapNcr f := by
  simp only [modifySelected, mapNcr_ncr, h]
  cases io.ncr.targetId <;> rfl

theorem deviceAt_modifySelected {id : Fin 8} (d : Fin 8 → Device → Device) (h : io.ncr.targetId = some id)
    (hb : cfg.scsiBus < io.scsiDevices.length) :
    deviceAt cfg (modifySelected cfg d io) id = d id (deviceAt cfg io id) := by
  simp only [modifySelected, h]
  exact deviceAt_setDeviceAt hb

end

/-! ### Tick (R256, R257) -/

section
variable {cfg : Cfg} {io : Io}

/-- T1 while the next REQ is some calls away. -/
theorem tick_req_pending (hw : io.ncr.waitData = 0) (hc : io.ncr.waitComplete = 0) (hr : 1 < io.ncr.clearReq) :
    tick cfg io = io.mapNcr fun n => { n with clearReq := n.clearReq - 1 } := by
  have h1 : tickClearReq io.ncr = { io.ncr with clearReq := io.ncr.clearReq - 1 } := by
    rw [tickClearReq, if_pos (by omega), if_neg (by omega)]
  simp [tick, tickWaitData, tickWaitComplete, Io.mapNcr, h1, hw, hc]

/-- T1 on its last call: REQ with the phase armed. -/
theorem tick_req_due (hw : io.ncr.waitData = 0) (hc : io.ncr.waitComplete = 0) (hr : io.ncr.clearReq = 1) :
    tick cfg io = io.mapNcr fun n =>
      { n with clearReq := 0, curBus := phaseWord n.curBus n.newPhase ||| busReq } := by
  have h1 : tickClearReq io.ncr =
      { io.ncr with clearReq := 0, curBus := phaseWord io.ncr.curBus io.ncr.newPhase ||| busReq } := by
    rw [tickClearReq, if_pos (by omega), if_pos hr]
    rfl
  simp [tick, tickWaitData, tickWaitComplete, Io.mapNcr, h1, hw, hc]

theorem tickClearReq_zero {n : Ncr} (h : n.clearReq = 0) : tickClearReq n = n := by simp [tickClearReq, h]

/-- T2 and T3 while the next phase is some calls away. -/
theorem tick_entry_pending (hr : io.ncr.clearReq = 0) (hw : 1 < io.ncr.waitData)
    (hc : io.ncr.waitComplete = 0 ∨ io.ncr.waitData ≤ io.ncr.waitComplete) :
    tick cfg io = io.mapNcr fun n => { n with waitData := n.waitData - 1, waitComplete := n.waitComplete - 1 } := by
  have h2 : tickWaitData cfg io = io.mapNcr fun n => { n with waitData := n.waitData - 1 } := by
    rw [tickWaitData, if_pos (by omega), if_neg (by omega)]
  rw [tick, mapNcr_eq_self (tickClearReq_zero hr), h2, mapNcr_mapNcr]
  refine mapNcr_congr ?_
  rw [tickWaitComplete]
  split
  · rw [if_neg (by dsimp only; omega)]
  · next h => simp [show io.ncr.waitComplete = 0 by dsimp only at h; omega]

/-- T3 alone. -/
theorem tick_complete (hr : io.ncr.clearReq = 0) (hw : io.ncr.waitData = 0) :
    tick cfg io = io.mapNcr tickWaitComplete := by
  rw [tick, mapNcr_eq_self (tickClearReq_zero hr)]
  simp [tickWaitData, hw]

/-- REQ after the entry to a phase: on the same call, unless `wait_complete` is still running (R257, R256 T3). -/
def Ncr.firstReq (n : Ncr) : Ncr :=
  { n with waitComplete := n.waitComplete - 1,
           curBus := if n.waitComplete ≤ 1 then n.curBus ||| busReq else n.curBus }

theorem tickWaitComplete_raise {n : Ncr} (h : n.state ≠ .idle) :
    tickWaitComplete (if n.waitComplete = 0 then n.raiseReqLine else n) = n.firstReq := by
  obtain h0 | h1 | h2 : n.waitComplete = 0 ∨ n.waitComplete = 1 ∨ 2 ≤ n.waitComplete := by omega
  · simp [tickWaitComplete, Ncr.raiseReqLine, Ncr.firstReq, h0]
  · simp [tickWaitComplete, Ncr.raiseReqLine, Ncr.firstReq, h1, h]
  · have a : n.waitComplete ≠ 0 := by omega
    have b : n.waitComplete ≠ 1 := by omega
    have c : ¬ n.waitComplete ≤ 1 := by omega
    have d : 0 < n.waitComplete := by omega
    simp [tickWaitComplete, Ncr.firstReq, a, b, c, d]

/-- T3 in IDLE counts and asserts nothing. -/
theorem tickWaitComplete_idle {n : Ncr} (h : n.state = .idle) :
    tickWaitComplete n = { n with waitComplete := n.waitComplete - 1 } := by
  unfold tickWaitComplete
  split
  · split
    · next h1 => rw [h1]
    · rfl
  · next h0 => rw [show n.waitComplete - 1 = n.waitComplete by omega]

/-- T2 on its last call. -/
theorem tick_entry_due (hr : io.ncr.clearReq = 0) (hw : io.ncr.waitData = 1) :
    tick cfg io = (phaseEntry cfg (io.mapNcr fun n => { n with waitData := 0 })).mapNcr tickWaitComplete := by
  rw [tick, mapNcr_eq_self (tickClearReq_zero hr), tickWaitData, if_pos (by omega), if_pos hw]

/-- The entry to IDLE: the bus is free (R257). -/
theorem tick_busFree (hr : io.ncr.clearReq = 0) (hw : io.ncr.waitData = 1) (hp : io.ncr.newPhase = busIdleMark) :
    tick cfg io = io.mapNcr fun n =>
      { n with waitData := 0, waitComplete := n.waitComplete - 1, state := .idle, curBus := 0 } := by
  have hm : hasLine io.ncr.newPhase busIdleMark = true := by rw [hp]; decide
  rw [tick_entry_due hr hw, phaseEntry, if_pos (by exact hm), mapNcr_mapNcr, mapNcr_mapNcr]
  refine mapNcr_congr ?_
  exact tickWaitComplete_idle rfl

/-- The core's record on the entry to a state, the phase lines set already: what R257 adds to them. -/
def enterState (cfg : Cfg) (io : Io) (st : BusState) (n : Ncr) : Ncr :=
  match st with
  | .dataIn =>
    { n with state := .dataIn, txData := devByte cfg io n.dataPos, dataPos := n.dataPos + 1,
             curBus := dataWord n.curBus (devByte cfg io n.dataPos) }
  | .status => { n with state := .status, curBus := dataWord n.curBus (devStatus cfg io) }
  | .messageIn => { n with state := .messageIn, curBus := dataWord n.curBus 0x00 }
  | st => { n with state := st }

theorem enterState_state (st : BusState) (n : Ncr) : (enterState cfg io st n).state = st := by
  cases st <;> rfl

/-- The entry to a state of a phase (R257). -/
theorem tick_enters {st : BusState} (hr : io.ncr.clearReq = 0) (hw : io.ncr.waitData = 1)
    (hm : hasLine io.ncr.newPhase busIdleMark = false)
    (hst : stateOfPhase (io.ncr.newPhase &&& phaseMask) = some st) (hn : st ≠ .idle) :
    tick cfg io = io.mapNcr fun n =>
      (enterState cfg io st { n with waitData := 0, curBus := phaseWord n.curBus n.newPhase }).firstReq := by
  have he : phaseEntry cfg (io.mapNcr fun n => { n with waitData := 0 }) = io.mapNcr fun n =>
      let m := enterState cfg io st { n with waitData := 0, curBus := phaseWord n.curBus n.newPhase }
      if m.waitComplete = 0 then m.raiseReqLine else m := by
    rw [phaseEntry, if_neg (by simp [hm])]
    extract_lets io1 p v io2
    have hp : stateOfPhase p = some st := hst
    have h2 : io2 = io.mapNcr fun n =>
        enterState cfg io st { n with waitData := 0, curBus := phaseWord n.curBus n.newPhase } := by
      simp only [io2, hp]
      cases st <;> rfl
    split <;> next h =>
      rw [h2, mapNcr_ncr] at h
      simp only [h2, Io.mapNcr, h, if_true, if_false]
  rw [tick_entry_due hr hw, he, mapNcr_mapNcr]
  refine mapNcr_congr ?_
  refine tickWaitComplete_raise ?_
  rwa [enterState_state]

/-- T3 with REQ asserted already counts and does nothing else. -/
theorem tickWaitComplete_of_req {n : Ncr} (h : hasLine n.curBus busReq = true) :
    tickWaitComplete n = { n with waitComplete := n.waitComplete - 1 } := by
  unfold tickWaitComplete
  split
  · split
    · next h1 => simp [Ncr.raiseReqLine, orReq_of_req h, h1]
    · rfl
  · next h0 => rw [show n.waitComplete - 1 = n.waitComplete by omega]

end

end Sys2Proof.Machine
end

section
/-! The rules of the states, said once (R254, R262 to R282): what each makes of the core's record and of the device
table, by whether ACK rose. -/
namespace Sys2Proof.Machine

/-! ### The rules of the states, with an edge of ACK and without (R262 to R282) -/

section
variable {cfg : Cfg} {bus : Word} {io : Io}

/-- Without an edge of ACK a state that waits for one does nothing. -/
theorem dispatch_no_ack (ha : io.ncr.ackRise bus = false)
    (hs : io.ncr.state ∉ [BusState.idle, .select, .messageId]) : dispatch cfg bus io = io := by
  unfold dispatch
  cases h : io.ncr.state
  case idle | select | messageId => simp [h] at hs
  case command => rw [dispatchCommand, ha]; rfl
  case dataIn => rw [dispatchDataIn, ha]; rfl
  case dataOut => rw [dispatchDataOut, ha]; rfl
  case status => rw [dispatchStatus, ha]; rfl
  case messageIn => rw [dispatchMessageIn, ha]; rfl
  case messageOut => rw [dispatchMessageOut, ha]; rfl

/-- The block of a command with one byte more (R266). -/
def storedCommand (bus : Word) (n : Ncr) : Vector Byte 16 := n.command.setIfInBounds n.commandPos (busGetData bus)

/-- The message with one byte more (R280). -/
def storedMessage (bus : Word) (n : Ncr) : Vector Byte 256 := n.msgout.setIfInBounds n.msgoutPos (busGetData bus)

theorem dispatchCommand_more (ha : io.ncr.ackRise bus = true)
    (hn : io.ncr.commandPos + 1 ≠ cmdLen ((storedCommand bus io.ncr).get 0)) :
    dispatchCommand cfg bus io = io.mapNcr fun n => { n with
      command := storedCommand bus n, commandPos := n.commandPos + 1, curBus := n.curBus &&& ~~~busReq,
      newPhase := phaseCommand, clearReq := cfg.clearReqInit } := by
  rw [dispatchCommand, if_pos ha]
  exact if_neg hn

/-- The device table after the block is handed over (R266). -/
def commandGiven (cfg : Cfg) (bus : Word) (io : Io) : Io :=
  commandPhase0 cfg ((storedCommand bus io.ncr).toList.take (io.ncr.commandPos + 1)) io

theorem dispatchCommand_last (ha : io.ncr.ackRise bus = true)
    (he : io.ncr.commandPos + 1 = cmdLen ((storedCommand bus io.ncr).get 0)) :
    dispatchCommand cfg bus io = (commandGiven cfg bus io).mapNcr fun n => { n with
      command := storedCommand bus n, commandPos := n.commandPos + 1, curBus := n.curBus &&& ~~~busReq, dataPos := 0,
      newPhase := nextPhase cfg (commandGiven cfg bus io), waitData := cfg.waitDataInit, clearReq := 0,
      waitComplete := 0 } := by
  have hd (f : Ncr → Ncr) (hf : (f io.ncr).targetId = io.ncr.targetId) :
      commandPhase0 cfg ((storedCommand bus io.ncr).toList.take (io.ncr.commandPos + 1)) (io.mapNcr f) =
        (commandGiven cfg bus io).mapNcr f := modifySelected_mapNcr _ hf
  rw [dispatchCommand, if_pos ha]
  refine (if_pos he).trans ?_
  dsimp only
  simp only [mapNcr_mapNcr, mapNcr_ncr, Ncr.clearReqLine]
  rw [show io.ncr.command.setIfInBounds io.ncr.commandPos (busGetData bus) = storedCommand bus io.ncr from rfl]
  rw [hd, nextPhase_mapNcr]
  · rfl
  · rfl
  · rfl

theorem finishData_eq : finishData cfg io = (commandPhase1 cfg io).mapNcr fun n => { n with
    curBus := n.curBus &&& ~~~busReq, newPhase := phaseStatus, waitData := cfg.waitDataInit, clearReq := 0,
    waitComplete := cfg.waitCompleteInit } := by
  have h : commandPhase1 cfg (io.mapNcr Ncr.clearReqLine) = (commandPhase1 cfg io).mapNcr Ncr.clearReqLine :=
    modifySelected_mapNcr _ rfl
  rw [finishData, h]
  rfl

/-- The record with the next byte of a DATAIN phase shown (R270). -/
def shownByte (v : Byte) (n : Ncr) : Ncr :=
  { n with txData := v, dataPos := n.dataPos + 1, curBus := dataWord n.curBus v }

theorem dispatchDataIn_next (ha : io.ncr.ackRise bus = true) (hl : io.ncr.dataPos < devBufferLength cfg io) :
    dispatchDataIn cfg bus io = io.mapNcr fun n =>
      nextDataReq cfg phaseDataIn (shownByte (devByte cfg io io.ncr.dataPos) n) := by
  rw [dispatchDataIn, if_pos ha, if_neg (Nat.not_le.2 hl)]
  rfl

theorem dispatchDataIn_last (ha : io.ncr.ackRise bus = true) (hl : devBufferLength cfg io ≤ io.ncr.dataPos) :
    dispatchDataIn cfg bus io = finishData cfg io := by
  rw [dispatchDataIn, if_pos ha, if_pos hl]

/-- The device table after a byte of a DATAOUT phase is stored (R272). -/
def byteStored (cfg : Cfg) (bus : Word) (io : Io) : Io := putDevByte cfg io.ncr.dataPos (busGetData bus) io

theorem devBufferLength_byteStored : devBufferLength cfg (byteStored cfg bus io) = devBufferLength cfg io :=
  devBufferLength_modifySelected fun _ _ => List.length_set ..

theorem devBufferLength_commandPhase1 : devBufferLength cfg (commandPhase1 cfg io) = devBufferLength cfg io :=
  devBufferLength_modifySelected fun _ _ => rfl

theorem devBufferLength_identify (l : Option (BitVec 3)) :
    devBufferLength cfg (identify cfg l io) = devBufferLength cfg io :=
  devBufferLength_modifySelected fun _ _ => rfl

theorem byteStored_ncr : (byteStored cfg bus io).ncr = io.ncr := modifySelected_ncr ..

theorem dispatchDataOut_ack (ha : io.ncr.ackRise bus = true) :
    dispatchDataOut cfg bus io =
      let stored := (byteStored cfg bus io).mapNcr fun n => { n with dataPos := n.dataPos + 1 }
      if devBufferLength cfg io ≤ io.ncr.dataPos + 1 then finishData cfg stored
      else stored.mapNcr (nextDataReq cfg phaseDataOut) := by
  rw [dispatchDataOut, if_pos ha, ← byteStored]
  simp only [mapNcr_ncr, byteStored_ncr]
  rw [devBufferLength_mapNcr rfl, devBufferLength_byteStored]

theorem dispatchDataOut_next (ha : io.ncr.ackRise bus = true) (hl : io.ncr.dataPos + 1 < devBufferLength cfg io) :
    dispatchDataOut cfg bus io = (byteStored cfg bus io).mapNcr fun n =>
      nextDataReq cfg phaseDataOut { n with dataPos := n.dataPos + 1 } :=
  (dispatchDataOut_ack ha).trans (if_neg (Nat.not_le.2 hl))

theorem dispatchDataOut_last (ha : io.ncr.ackRise bus = true) (hl : devBufferLength cfg io ≤ io.ncr.dataPos + 1) :
    dispatchDataOut cfg bus io = (commandPhase1 cfg (byteStored cfg bus io)).mapNcr fun n => { n with
      dataPos := n.dataPos + 1, curBus := n.curBus &&& ~~~busReq, newPhase := phaseStatus,
      waitData := cfg.waitDataInit, clearReq := 0, waitComplete := cfg.waitCompleteInit } := by
  refine ((dispatchDataOut_ack ha).trans (if_pos hl)).trans ?_
  have h : commandPhase1 cfg ((byteStored cfg bus io).mapNcr fun n => { n with dataPos := n.dataPos + 1 }) =
      (commandPhase1 cfg (byteStored cfg bus io)).mapNcr fun n => { n with dataPos := n.dataPos + 1 } :=
    modifySelected_mapNcr _ rfl
  rw [finishData_eq, h]
  rfl

theorem nextDataReq_dma {p : Word} {n : Ncr} (h : n.dmaMode ≠ .idle) : nextDataReq cfg p n = n := if_pos h

theorem nextDataReq_idle {p : Word} {n : Ncr} (h : n.dmaMode = .idle) : nextDataReq cfg p n =
    { n with curBus := n.curBus &&& ~~~busReq, newPhase := p, clearReq := cfg.clearReqInit } :=
  if_neg (not_not.2 h)

theorem dispatchStatus_ack (ha : io.ncr.ackRise bus = true) :
    dispatchStatus cfg bus io = (identify cfg none io).mapNcr fun n => { n with
      msglun := none, curBus := n.curBus &&& ~~~busReq, newPhase := phaseMessageIn, waitData := cfg.waitDataInit,
      clearReq := 0, waitComplete := cfg.waitCompleteInit } := if_pos ha

theorem dispatchMessageIn_ack (ha : io.ncr.ackRise bus = true) :
    dispatchMessageIn cfg bus io = io.mapNcr fun n => { n with
      curBus := n.curBus &&& ~~~busReq, newPhase := busIdleMark, waitData := cfg.waitDataInit,
      clearReq := 0, waitComplete := 0 } := if_pos ha

/-- When the message with `p` bytes received is complete (R148, R280). -/
def MessageDone (m0 m1 p : Nat) : Prop :=
  (m0 = 0 ∨ (2 ≤ m0 ∧ m0 ≤ 0x1F) ∨ 0x80 ≤ m0) ∨ (2 ≤ p ∧ 0x20 ≤ m0 ∧ m0 ≤ 0x2F) ∨
    (2 ≤ p ∧ (m0 = 1 ∨ (0x30 ≤ m0 ∧ m0 ≤ 0x7F)) ∧ m1 ≤ p)

theorem getMsgLen_le_iff (m0 m1 : Byte) {p : Nat} (hp : 1 ≤ p) :
    getMsgLen m0 m1 p ≤ p ↔ MessageDone m0.toNat m1.toNat p := by
  unfold getMsgLen MessageDone
  split
  · bv_omega
  · split
    · bv_omega
    · split <;> bv_omega

/-- IDENTIFY is told by bit 7 of the first byte (R152). -/
theorem and_0x80_ne_zero_iff : ∀ m : Byte, m &&& 0x80 ≠ 0 ↔ 0x80 ≤ m.toNat := by decide

theorem dispatchMessageOut_done (ha : io.ncr.ackRise bus = true)
    (hd : MessageDone ((storedMessage bus io.ncr).get 0).toNat ((storedMessage bus io.ncr).get 1).toNat
      (io.ncr.msgoutPos + 1)) :
    dispatchMessageOut cfg bus io = io.mapNcr fun n => { n with
      msgout := storedMessage bus n, msgoutPos := n.msgoutPos + 1, curBus := n.curBus &&& ~~~busReq,
      msglun := if 0x80 ≤ ((storedMessage bus n).get 0).toNat then some (((storedMessage bus n).get 0).setWidth 3)
        else n.msglun,
      state := .messageId } := by
  rw [dispatchMessageOut, if_pos ha]
  refine mapNcr_congr ((if_pos ((getMsgLen_le_iff _ _ (by omega)).2 hd)).trans ?_)
  simp only [← and_0x80_ne_zero_iff]
  rfl

theorem dispatchMessageOut_more (ha : io.ncr.ackRise bus = true)
    (hd : ¬ MessageDone ((storedMessage bus io.ncr).get 0).toNat ((storedMessage bus io.ncr).get 1).toNat
      (io.ncr.msgoutPos + 1)) :
    dispatchMessageOut cfg bus io = io.mapNcr fun n => { n with
      msgout := storedMessage bus n, msgoutPos := n.msgoutPos + 1, curBus := n.curBus &&& ~~~busReq,
      newPhase := phaseMessageOut, clearReq := cfg.clearReqInit } := by
  rw [dispatchMessageOut, if_pos ha]
  exact mapNcr_congr (if_neg (mt (getMsgLen_le_iff _ _ (by omega)).1 hd))

theorem dispatchMessageId_present (h : targetPresent cfg io = true) :
    dispatchMessageId cfg io = (identify cfg io.ncr.msglun io).mapNcr enterCommand := if_pos h

theorem dispatchMessageId_absent (h : targetPresent cfg io = false) : dispatchMessageId cfg io = io := by
  rw [dispatchMessageId, h]
  rfl

end
end Sys2Proof.Machine
end

section
/-! The invariant of the SCSI core (R290): what it says of each stage of the countdowns, and that a tick, every rule of a
state and so every bus update keep it. -/
namespace Sys2Proof.Machine

/-! ### The invariant of the core's record (R290) -/

/-- `BusInv` of a record and the length of the selected device's buffer. -/
abbrev CoreInv (n : Ncr) (len : Nat) : Prop := BusLines n ∧ BusCountdowns n len ∧ BusPositions n len

section
variable {cfg : Cfg} {bus : Word} {io : Io} {n : Ncr} {len : Nat}

theorem BusInv.core (h : BusInv cfg io) : CoreInv io.ncr (devBufferLength cfg io) := h

theorem busInv_mapNcr {f : Ncr → Ncr} (ht : (f io.ncr).targetId = io.ncr.targetId) :
    BusInv cfg (io.mapNcr f) ↔ CoreInv (f io.ncr) (devBufferLength cfg io) := by
  rw [← devBufferLength_mapNcr ht]
  rfl

/-! How the countdowns can stand: none running, the next REQ armed, or the next phase armed. -/

theorem BusCountdowns.of_none (h : NoCountdown n) : BusCountdowns n len := by
  simp [BusCountdowns, h]

theorem BusCountdowns.of_clearReq (hw : n.waitData = 0) (hc : n.waitComplete = 0)
    (hq : hasLine n.curBus busReq = false)
    (hs : n.state = .command ∨ n.state = .dataIn ∨ n.state = .dataOut ∨ n.state = .messageOut) :
    BusCountdowns n len :=
  ⟨fun _ => ⟨hw, hc⟩, fun _ => hc, fun _ => ⟨hw, hc, hq, hs⟩, fun h => absurd h (by omega)⟩

theorem BusCountdowns.of_waitData (hr : n.clearReq = 0) (hq : hasLine n.curBus busReq = false)
    (hs : n.state ∉ [BusState.idle, .select, .messageOut, .messageId])
    (hcmd : n.state = .command → n.waitComplete = 0) (hc : n.waitComplete = 0 ∨ n.waitData ≤ n.waitComplete)
    (hp : n.newPhase = busIdleMark ∨ n.newPhase = phaseStatus ∨ n.newPhase = phaseMessageIn ∨
      ((n.newPhase = phaseDataIn ∨ n.newPhase = phaseDataOut) ∧ n.state = .command ∧ n.dataPos = 0 ∧ 0 < len)) :
    BusCountdowns n len :=
  ⟨fun h => absurd h (by simpa using hs), hcmd, fun h => absurd h (by omega), fun _ => ⟨hq, hc, hp⟩⟩

theorem BusCountdowns.of_entered (hw : n.waitData = 0) (hr : n.clearReq = 0)
    (hs : n.state ∉ [BusState.idle, .select, .command, .messageOut, .messageId]) : BusCountdowns n len := by
  simp only [List.mem_cons, List.not_mem_nil, or_false, not_or] at hs
  simp [BusCountdowns, hw, hr, hs]

/-! The positions, by the states that bound them, and while a phase is armed. -/

theorem BusPositions.of_unbounded (hs : n.state ∉ [BusState.command, .messageOut, .dataIn, .dataOut])
    (hc : n.commandPos ≤ 16) (hm : n.msgoutPos ≤ 255) : BusPositions n len := by
  simp only [List.mem_cons, List.not_mem_nil, or_false, not_or] at hs
  simp [BusPositions, hs, hc, hm]

theorem cmdLen_bounds (c : Byte) : 6 ≤ cmdLen c ∧ cmdLen c ≤ 16 := by
  unfold cmdLen
  split <;> decide

theorem BusPositions.of_command (hs : n.state = .command) (hc : n.commandPos < cmdLen (n.command.get 0))
    (hm : n.msgoutPos ≤ 255) : BusPositions n len := by
  have hle := (cmdLen_bounds (n.command.get 0)).2
  exact ⟨by omega, fun _ _ => ⟨hc.le, fun _ => hc⟩, hm, by simp [hs], by simp [hs], by simp [hs]⟩

theorem BusPositions.of_messageOut (hs : n.state = .messageOut) (hc : n.commandPos ≤ 16) (hm : n.msgoutPos ≤ 254) :
    BusPositions n len :=
  ⟨hc, by simp [hs], by omega, fun _ => hm, by simp [hs], by simp [hs]⟩

theorem BusPositions.of_data (hs : n.state = .dataIn ∨ n.state = .dataOut) (hz : n.waitComplete = 0)
    (hc : n.commandPos ≤ 16) (hm : n.msgoutPos ≤ 255) (hlen : 1 ≤ len) (hd : n.dataPos ≤ len)
    (hout : n.state = .dataOut → n.dataPos < len) : BusPositions n len := by
  refine ⟨hc, fun e => ?_, hm, fun e => ?_, fun _ => ⟨hlen, hd, fun _ => hz⟩, fun e _ => hout e⟩
  · simp [e] at hs
  · simp [e] at hs

theorem BusPositions.of_waitData (hw : 0 < n.waitData) (hs : n.state ≠ .messageOut) (hc : n.commandPos ≤ 16)
    (hcmd : n.state = .command → 1 ≤ n.commandPos → n.commandPos ≤ cmdLen (n.command.get 0))
    (hm : n.msgoutPos ≤ 255)
    (hd : n.state = .dataIn ∨ n.state = .dataOut → 1 ≤ len ∧ n.dataPos ≤ len) : BusPositions n len :=
  ⟨hc, fun h k => ⟨hcmd h k, fun e => absurd e (by omega)⟩, hm, fun h => absurd h hs,
    fun h => ⟨(hd h).1, (hd h).2, fun e => absurd e (by omega)⟩, fun _ e => absurd e (by omega)⟩

/-! What the invariant says of a record with a countdown running, and with none. -/

/-- While the next REQ is armed: no entry is, and REQ is low. -/
theorem CoreInv.of_clearReq (h : CoreInv n len) (hr : 0 < n.clearReq) :
    n.waitData = 0 ∧ n.waitComplete = 0 ∧ hasLine n.curBus busReq = false ∧
      (n.state = .command ∨ n.state = .dataIn ∨ n.state = .dataOut ∨ n.state = .messageOut) := by
  obtain ⟨-, ⟨-, -, hc, -⟩, -⟩ := h
  exact hc hr

/-- What may be armed (R253). -/
theorem CoreInv.newPhase_cases (h : CoreInv n len) (hw : 0 < n.waitData) :
    n.newPhase = busIdleMark ∨ n.newPhase = phaseStatus ∨ n.newPhase = phaseMessageIn ∨
      ((n.newPhase = phaseDataIn ∨ n.newPhase = phaseDataOut) ∧ n.state = .command ∧ n.dataPos = 0 ∧ 0 < len) := by
  obtain ⟨-, ⟨-, -, -, he⟩, -⟩ := h
  exact (he hw).2.2

/-- While a phase is armed: the state waits for it, and REQ is low. -/
theorem CoreInv.of_waitData (h : CoreInv n len) (hw : 0 < n.waitData) :
    n.clearReq = 0 ∧ n.state ∉ [BusState.idle, .select, .messageOut, .messageId] ∧
      hasLine n.curBus busReq = false ∧ (n.waitComplete = 0 ∨ n.waitData ≤ n.waitComplete) := by
  obtain ⟨-, ⟨hz, -, hr, he⟩, -⟩ := h
  obtain ⟨hq, hc, -⟩ := he hw
  refine ⟨?_, fun hs => ?_, hq, hc⟩
  · by_contra hn
    obtain ⟨h0, -⟩ := hr (by omega)
    omega
  · obtain ⟨h0, -⟩ := hz (by simpa using hs)
    omega

/-- `wait_complete` runs alone in STATUS and MESSAGEIN only. -/
theorem CoreInv.waitComplete_eq_zero (h : CoreInv n len) (hw : n.waitData = 0) (hs : n.state ≠ .status)
    (hm : n.state ≠ .messageIn) : n.waitComplete = 0 := by
  obtain ⟨-, ⟨hz, hc, -, -⟩, -, -, -, -, hd, -⟩ := h
  cases hst : n.state
  case status => exact absurd hst hs
  case messageIn => exact absurd hst hm
  case command => exact hc hst
  case dataIn => exact (hd (.inl hst)).2.2 hw
  case dataOut => exact (hd (.inr hst)).2.2 hw
  all_goals exact (hz (by simp [hst])).2

/-- In IDLE, SELECT and MESSAGE_ID no countdown runs. -/
theorem CoreInv.noCountdown (h : CoreInv n len) (hs : n.state ∈ [BusState.idle, .select, .messageId]) :
    NoCountdown n := by
  have hr : n.clearReq = 0 := by
    by_contra hn
    obtain ⟨-, -, -, hst⟩ := h.of_clearReq (by omega)
    rcases hst with e | e | e | e <;> simp [e] at hs
  obtain ⟨-, ⟨hz, -⟩, -⟩ := h
  obtain ⟨hw, hc⟩ := hz (by simp only [List.mem_cons, List.not_mem_nil, or_false] at hs; tauto)
  exact ⟨hw, hr, hc⟩

/-- What an edge of ACK finds outside STATUS and MESSAGEIN: REQ, so no countdown runs (R253, R256). -/
theorem BusInv.noCountdown_of_ackRise (h : BusInv cfg io) (ha : io.ncr.ackRise bus = true)
    (hs : io.ncr.state ≠ .status) (hm : io.ncr.state ≠ .messageIn) : NoCountdown io.ncr := by
  simp only [Ncr.ackRise, Bool.and_eq_true] at ha
  obtain ⟨hw, hr⟩ := ackRise_quiet h ha.2
  exact ⟨hw, hr, h.core.waitComplete_eq_zero hw hs hm⟩

/-! The countdowns, one call on (R256). -/

theorem CoreInv.clearReq_pending (h : CoreInv n len) (hr : 1 < n.clearReq) :
    CoreInv { n with clearReq := n.clearReq - 1 } len := by
  obtain ⟨hw, hc, hq, hs⟩ := h.of_clearReq (by omega)
  obtain ⟨hl, -, hp⟩ := h
  exact ⟨hl, .of_clearReq hw hc hq hs, hp⟩

theorem CoreInv.clearReq_due (h : CoreInv n len) (hr : 0 < n.clearReq) :
    CoreInv { n with clearReq := 0, curBus := phaseWord n.curBus n.newPhase ||| busReq } len := by
  obtain ⟨hw, hc, -, -⟩ := h.of_clearReq hr
  obtain ⟨⟨hl, hd⟩, -, hp⟩ := h
  refine ⟨⟨fun hs => ?_, ?_⟩, .of_none ⟨hw, rfl, hc⟩, hp⟩
  · simpa using hl hs
  · exact (phaseWord_driven hd).or (by decide)

theorem CoreInv.waitData_pending (h : CoreInv n len) (hw : 1 < n.waitData) :
    CoreInv { n with waitData := n.waitData - 1, waitComplete := n.waitComplete - 1 } len := by
  obtain ⟨hr, hs, hq, hc⟩ := h.of_waitData (by omega)
  have hp := h.newPhase_cases (by omega)
  obtain ⟨hl, ⟨-, hcmd, -, -⟩, hc16, hcp, hm, -, hd, -⟩ := h
  refine ⟨hl, .of_waitData hr hq hs (fun e => ?_) ?_ hp, .of_waitData ?_ ?_ hc16 ?_ hm ?_⟩
  · simp [hcmd e]
  · dsimp only
    omega
  · dsimp only
    omega
  · rintro e
    simp [show n.state = .messageOut from e] at hs
  · exact fun e k => (hcp e k).1
  · exact fun e => ⟨(hd e).1, (hd e).2.1⟩

/-! The entry to a phase, and the REQ that follows it (R257). -/

/-- REQ after an entry keeps the invariant of a state that waits for nothing but it. -/
theorem CoreInv.firstReq (hl : BusLines n) (hw : n.waitData = 0) (hr : n.clearReq = 0)
    (hs : n.state ∉ [BusState.idle, .select, .command, .messageOut, .messageId]) (hp : BusPositions n len) :
    CoreInv n.firstReq len := by
  obtain ⟨hb, hd⟩ := hl
  obtain ⟨hc, hcmd, hm, hmo, hdata, hout⟩ := hp
  refine ⟨⟨fun e => ?_, ?_⟩, .of_entered hw hr hs, hc, hcmd, hm, hmo, fun e => ?_, hout⟩
  · have := hb e
    simp only [Ncr.firstReq]
    split <;> simpa
  · simp only [Ncr.firstReq]
    split
    · exact Driven.or hd (by decide)
    · exact hd
  · obtain ⟨h1, h2, h3⟩ := hdata e
    exact ⟨h1, h2, fun e => by simp [Ncr.firstReq, h3 e]⟩

theorem CoreInv.tickWaitComplete (h : CoreInv n len) (hw : n.waitData = 0) (hr : n.clearReq = 0) :
    CoreInv (tickWaitComplete n) len := by
  by_cases hz : n.waitComplete = 0
  · rwa [Machine.tickWaitComplete, if_neg (by omega)]
  have hs : n.state ∉ [BusState.idle, .select, .command, .messageOut, .messageId] := by
    intro hm
    refine hz (h.waitComplete_eq_zero hw ?_ ?_) <;> rintro e <;> simp [e] at hm
  have ht := tickWaitComplete_raise (n := n) fun e => hs (by simp [e])
  rw [if_neg hz] at ht
  rw [ht]
  exact .firstReq h.1 hw hr hs h.2.2

theorem BusLines.enterState {st : BusState} (hb : hasLine n.curBus busBsy = true) (ht : n.targetId ≠ none)
    (hd : Driven n.curBus) : BusLines (enterState cfg io st n) := by
  cases st
  case dataIn | status | messageIn => exact ⟨fun _ => ⟨dataWord_bsy.trans hb, ht⟩, dataWord_driven hd⟩
  all_goals exact ⟨fun _ => ⟨hb, ht⟩, hd⟩

/-- The entry to an armed phase but the free bus (R257). -/
theorem CoreInv.enters {st : BusState} (h : CoreInv n len) (hw : n.waitData = 1) (hm : n.newPhase ≠ busIdleMark)
    (hst : stateOfPhase (n.newPhase &&& phaseMask) = some st) :
    CoreInv (enterState cfg io st { n with waitData := 0, curBus := phaseWord n.curBus n.newPhase }).firstReq len := by
  obtain ⟨hr, hs, -, -⟩ := h.of_waitData (by omega)
  have hphase := h.newPhase_cases (by omega)
  obtain ⟨⟨hl, hd⟩, ⟨-, hcmd, -, -⟩, hc, -, hmo, -⟩ := h
  obtain ⟨hb, ht⟩ := hl fun e => hs (by simp [e])
  have lines : BusLines (enterState cfg io st { n with waitData := 0, curBus := phaseWord n.curBus n.newPhase }) :=
    .enterState (phaseWord_bsy.trans hb) ht (phaseWord_driven hd)
  obtain hp | hp | hp | ⟨hp | hp, hcm, hpos, hlen⟩ := hphase
  · exact absurd hp hm
  · obtain rfl : BusState.status = st := by rw [hp] at hst; exact Option.some.inj hst
    exact .firstReq lines rfl hr (by simp [enterState]) (.of_unbounded (by simp [enterState]) hc hmo)
  · obtain rfl : BusState.messageIn = st := by rw [hp] at hst; exact Option.some.inj hst
    exact .firstReq lines rfl hr (by simp [enterState]) (.of_unbounded (by simp [enterState]) hc hmo)
  · obtain rfl : BusState.dataIn = st := by rw [hp] at hst; exact Option.some.inj hst
    refine .firstReq lines rfl hr (by simp [enterState]) (.of_data (.inl rfl) (hcmd hcm) hc hmo hlen ?_ nofun)
    exact (congrArg Nat.succ hpos).trans_le hlen
  · obtain rfl : BusState.dataOut = st := by rw [hp] at hst; exact Option.some.inj hst
    refine .firstReq lines rfl hr (by simp [enterState]) (.of_data (.inr rfl) (hcmd hcm) hc hmo hlen ?_ fun _ => ?_)
    · exact hpos.le.trans (Nat.zero_le _)
    · exact hpos.trans_lt hlen

theorem CoreInv.override (h : CoreInv n len) : CoreInv (arbitrationOverride n) len := by
  obtain ⟨⟨-, hd⟩, -, hc, -, hm, -⟩ := h
  exact ⟨⟨fun e => absurd rfl e, hd⟩, .of_none ⟨rfl, rfl, rfl⟩, .of_unbounded (by simp [arbitrationOverride]) hc hm⟩

/-- An armed code is the free bus or a phase with a state of its own (R142). -/
theorem CoreInv.armed_cases (h : CoreInv n len) (hw : 0 < n.waitData) :
    n.newPhase = busIdleMark ∨ n.newPhase ≠ busIdleMark ∧ hasLine n.newPhase busIdleMark = false ∧
      ∃ st, stateOfPhase (n.newPhase &&& phaseMask) = some st ∧ st ≠ .idle := by
  obtain hp | hp | hp | ⟨hp | hp, -⟩ := h.newPhase_cases hw
  · exact .inl hp
  all_goals rw [hp]
  · exact .inr ⟨by decide, by decide, .status, rfl, by decide⟩
  · exact .inr ⟨by decide, by decide, .messageIn, rfl, by decide⟩
  · exact .inr ⟨by decide, by decide, .dataIn, rfl, by decide⟩
  · exact .inr ⟨by decide, by decide, .dataOut, rfl, by decide⟩

/-- The free bus in IDLE, once the rule of that state has cleared `wait_complete` (R262). -/
theorem CoreInv.freed {k : Nat} (h : CoreInv n len) :
    CoreInv (arbitrationOverride { n with waitData := 0, waitComplete := k, state := .idle, curBus := 0 }) len := by
  obtain ⟨-, -, hc, -, hm, -⟩ := h
  exact ⟨⟨fun e => absurd rfl e, BitVec.zero_and⟩, .of_none ⟨rfl, rfl, rfl⟩,
    .of_unbounded (by simp [arbitrationOverride]) hc hm⟩

theorem firstReq_enterState_targetId (st : BusState) (n : Ncr) :
    (enterState cfg io st n).firstReq.targetId = n.targetId := by
  cases st <;> rfl

theorem tickWaitComplete_targetId (n : Ncr) : (tickWaitComplete n).targetId = n.targetId := by
  unfold tickWaitComplete
  split
  · split
    · split <;> rfl
    · rfl
  · rfl

/-- A tick keeps the invariant, but for what the free bus leaves of `wait_complete` until IDLE's own rule runs
(R256, R262). -/
theorem BusInv.tick (h : BusInv cfg io) :
    BusInv cfg (tick cfg io) ∨
      (tick cfg io).ncr.state = .idle ∧ BusInv cfg ((tick cfg io).mapNcr arbitrationOverride) := by
  have hi := h.core
  by_cases hr : 0 < io.ncr.clearReq
  · obtain ⟨hw, hc, -, -⟩ := hi.of_clearReq hr
    left
    obtain h1 | h1 : io.ncr.clearReq = 1 ∨ 1 < io.ncr.clearReq := by omega
    · rw [tick_req_due hw hc h1]
      exact (busInv_mapNcr rfl).2 (hi.clearReq_due hr)
    · rw [tick_req_pending hw hc h1]
      exact (busInv_mapNcr rfl).2 (hi.clearReq_pending h1)
  replace hr : io.ncr.clearReq = 0 := by omega
  obtain h0 | h1 | h2 : io.ncr.waitData = 0 ∨ io.ncr.waitData = 1 ∨ 1 < io.ncr.waitData := by omega
  · left
    rw [tick_complete hr h0]
    exact (busInv_mapNcr (tickWaitComplete_targetId _)).2 (hi.tickWaitComplete h0 hr)
  · obtain hp | ⟨hn, hm, st, hst, hst'⟩ := hi.armed_cases (by omega)
    · right
      rw [tick_busFree hr h1 hp]
      exact ⟨rfl, (busInv_mapNcr rfl).2 hi.freed⟩
    · left
      rw [tick_enters hr h1 hm hst hst', busInv_mapNcr]
      · exact hi.enters h1 hn hst
      · exact firstReq_enterState_targetId st _
  · left
    obtain ⟨-, -, -, hc⟩ := hi.of_waitData (by omega)
    rw [tick_entry_pending hr h2 hc]
    exact (busInv_mapNcr rfl).2 (hi.waitData_pending h2)

/-! The rules of the states keep the invariant (R262 to R282). -/

theorem targetId_ne_none_of_present (h : targetPresent cfg io = true) : io.ncr.targetId ≠ none := by
  intro hn
  simp [targetPresent, selected, hn] at h

theorem BusInv.dispatchIdle (h : BusInv cfg (io.mapNcr arbitrationOverride)) (hs : io.ncr.state = .idle) :
    BusInv cfg (dispatchIdle cfg bus io) := by
  have hz : (io.mapNcr fun n => { n with waitData := 0, clearReq := 0, waitComplete := 0 }) =
      io.mapNcr arbitrationOverride := mapNcr_congr (by simp [arbitrationOverride, hs])
  obtain ⟨⟨-, hd⟩, -, hc, -, hm, -⟩ := h.core
  rw [Machine.dispatchIdle, hz]
  dsimp only
  split
  · split
    · next hp =>
      refine ⟨⟨fun _ => ⟨?_, targetId_ne_none_of_present hp⟩, Driven.or hd (by decide)⟩, .of_none ⟨rfl, rfl, rfl⟩,
        .of_unbounded (by simp) hc hm⟩
      exact (hasLine_or _ _ _).trans (Bool.or_true _)
    · exact ⟨⟨fun e => absurd rfl e, BitVec.zero_and⟩, .of_none ⟨rfl, rfl, rfl⟩,
        .of_unbounded (by simp [arbitrationOverride]) hc hm⟩
  · exact h

theorem commandWord_bsy : hasLine (busBsy ||| busReq ||| phaseCommand) busBsy = true := by decide
theorem commandWord_driven : Driven (busBsy ||| busReq ||| phaseCommand) := by decide
theorem messageOutWord_bsy : hasLine (busBsy ||| busReq ||| phaseMessageOut) busBsy = true := by decide
theorem messageOutWord_driven : Driven (busBsy ||| busReq ||| phaseMessageOut) := by decide

theorem CoreInv.enterCommand (hz : NoCountdown n) (ht : n.targetId ≠ none) (hm : n.msgoutPos ≤ 255) :
    CoreInv (enterCommand n) len :=
  ⟨⟨fun _ => ⟨commandWord_bsy, ht⟩, commandWord_driven⟩, .of_none hz,
    .of_command rfl (Nat.lt_of_lt_of_le (Nat.zero_lt_succ 5) (cmdLen_bounds _).1) hm⟩

theorem BusInv.dispatchSelect (h : BusInv cfg io) (hs : io.ncr.state = .select) :
    BusInv cfg (dispatchSelect cfg bus io) := by
  have hz := h.core.noCountdown (by simp [hs])
  obtain ⟨⟨hl, -⟩, -, hc, -, hm, -⟩ := h.core
  obtain ⟨-, ht⟩ := hl (by simp [hs])
  unfold Machine.dispatchSelect
  split
  · exact h
  · split
    · exact (busInv_mapNcr rfl).2
        ⟨⟨fun _ => ⟨messageOutWord_bsy, ht⟩, messageOutWord_driven⟩, .of_none hz,
          .of_messageOut rfl hc (Nat.zero_le _)⟩
    · split
      · exact (busInv_mapNcr rfl).2 (.enterCommand hz ht hm)
      · exact (busInv_mapNcr rfl).2
          ⟨⟨fun e => absurd rfl e, BitVec.zero_and⟩, .of_none hz, .of_unbounded (by simp) hc hm⟩

theorem BusLines.andNotReq {m : Ncr} (h : BusLines n) (hs : n.state ≠ .idle)
    (hb : m.curBus = n.curBus &&& ~~~busReq) (ht : m.targetId = n.targetId) : BusLines m := by
  obtain ⟨hl, hd⟩ := h
  obtain ⟨hy, hn⟩ := hl hs
  refine ⟨fun _ => ⟨?_, ht ▸ hn⟩, ?_⟩
  · rw [hb, andNotReq_bsy, hy]
  · rw [hb]
    exact Driven.and hd _

theorem andNotReq_low {m : Ncr} (hb : m.curBus = n.curBus &&& ~~~busReq) : hasLine m.curBus busReq = false := by
  rw [hb, andNotReq_req]

theorem nextPhase_cases : nextPhase cfg io = phaseStatus ∨
    ((nextPhase cfg io = phaseDataIn ∨ nextPhase cfg io = phaseDataOut) ∧ 0 < devBufferLength cfg io) := by
  unfold nextPhase devBufferLength
  split
  · next d hd =>
    dsimp only
    split
    · next h => exact .inr ⟨h.1, by simpa only [hd] using h.2⟩
    · exact .inl rfl
  · exact .inl rfl

/-- The first byte of the block stays while later ones come. -/
theorem storedCommand_zero (h : 1 ≤ n.commandPos) : (storedCommand bus n).get 0 = n.command.get 0 := by
  simp only [storedCommand, Vector.get_eq_getElem]
  exact Vector.getElem_setIfInBounds_ne _ (by simp; omega)

/-- The count after one more byte stays within the length of the block (R290 (b)). -/
theorem commandPos_lt (h : CoreInv n len) (hs : n.state = .command) (hw : n.waitData = 0) :
    n.commandPos < cmdLen ((storedCommand bus n).get 0) := by
  obtain ⟨-, -, -, hc, -⟩ := h
  obtain h0 | h1 : n.commandPos = 0 ∨ 1 ≤ n.commandPos := by omega
  · have := (cmdLen_bounds ((storedCommand bus n).get 0)).1
    omega
  · rw [storedCommand_zero h1]
    exact (hc hs h1).2 hw

theorem BusInv.dispatchCommand (hc : cfg.wf) (h : BusInv cfg io) (hs : io.ncr.state = .command) :
    BusInv cfg (dispatchCommand cfg bus io) := by
  obtain ⟨-, hinit, -, -⟩ := hc
  cases ha : io.ncr.ackRise bus
  · rwa [Machine.dispatchCommand, ha]
  obtain ⟨hw, -, hz⟩ := h.noCountdown_of_ackRise ha (by simp [hs]) (by simp [hs])
  have hlt := commandPos_lt (bus := bus) h.core hs hw
  have h16 := (cmdLen_bounds ((storedCommand bus io.ncr).get 0)).2
  obtain ⟨hl, -, -, -, hm, -⟩ := h
  by_cases he : io.ncr.commandPos + 1 = cmdLen ((storedCommand bus io.ncr).get 0)
  · have hg : (commandGiven cfg bus io).ncr = io.ncr := modifySelected_ncr ..
    rw [dispatchCommand_last ha he, busInv_mapNcr]
    · rw [hg]
      refine ⟨hl.andNotReq (by simp [hs]) rfl rfl, .of_waitData rfl (andNotReq_low rfl) (by simp [hs]) (fun _ => rfl)
        (.inl rfl) ?_, .of_waitData hinit (by simp [hs]) ?_ (fun _ _ => ?_) hm (by simp [hs])⟩
      · obtain hp | hp := nextPhase_cases (cfg := cfg) (io := commandGiven cfg bus io)
        · exact .inr (.inl hp)
        · exact .inr (.inr (.inr ⟨hp.1, hs, rfl, hp.2⟩))
      · dsimp only
        omega
      · exact he.le
    · rfl
  · rw [dispatchCommand_more ha he, busInv_mapNcr]
    · exact ⟨hl.andNotReq (by simp [hs]) rfl rfl, .of_clearReq hw hz (andNotReq_low rfl) (.inl hs),
        .of_command hs (lt_of_le_of_ne hlt he) hm⟩
    · rfl

/-- The next phase armed from a data phase, STATUS or MESSAGEIN (R253). -/
theorem CoreInv.of_armed (hc : cfg.wf) (hl : BusLines n) (hq : hasLine n.curBus busReq = false)
    (hs : n.state ∈ [BusState.dataIn, .dataOut, .status, .messageIn]) (hw : n.waitData = cfg.waitDataInit)
    (hr : n.clearReq = 0) (hcomp : n.waitComplete = 0 ∨ n.waitComplete = cfg.waitCompleteInit)
    (hp : n.newPhase = busIdleMark ∨ n.newPhase = phaseStatus ∨ n.newPhase = phaseMessageIn)
    (h16 : n.commandPos ≤ 16) (hm : n.msgoutPos ≤ 255)
    (hd : n.state = .dataIn ∨ n.state = .dataOut → 1 ≤ len ∧ n.dataPos ≤ len) : CoreInv n len := by
  obtain ⟨-, hinit, hle, -⟩ := hc
  have hne {st : BusState} (h : st ∉ [BusState.dataIn, .dataOut, .status, .messageIn]) : n.state ≠ st :=
    fun e => h (e ▸ hs)
  refine ⟨hl, .of_waitData hr hq ?_ (fun e => absurd e (hne (by decide))) (by omega) (by tauto),
    .of_waitData (by omega) (hne (by decide)) h16 (fun e => absurd e (hne (by decide))) hm hd⟩
  simp [hne]

/-- The next REQ of a data phase, in either mode (R270, R272). -/
theorem CoreInv.nextDataReq {p : Word} (h : CoreInv n len) (hs : n.state = .dataIn ∨ n.state = .dataOut)
    (hw : n.waitData = 0) (hz : n.waitComplete = 0) : CoreInv (nextDataReq cfg p n) len := by
  by_cases hm : n.dmaMode = .idle
  · obtain ⟨hl, -, hp⟩ := h
    rw [nextDataReq_idle hm]
    exact ⟨hl.andNotReq (by rcases hs with e | e <;> simp [e]) rfl rfl,
      .of_clearReq hw hz (andNotReq_low rfl) (.inr (hs.imp_right .inl)), hp⟩
  · rwa [nextDataReq_dma hm]

theorem nextDataReq_targetId (p : Word) (n : Ncr) : (nextDataReq cfg p n).targetId = n.targetId := by
  unfold nextDataReq
  split <;> rfl

theorem BusLines.shownByte (h : BusLines n) (v : Byte) : BusLines (shownByte v n) :=
  ⟨fun e => ⟨by simpa [Machine.shownByte] using (h.1 e).1, (h.1 e).2⟩, dataWord_driven h.2⟩

theorem BusInv.dispatchDataIn (hc : cfg.wf) (h : BusInv cfg io) (hs : io.ncr.state = .dataIn) :
    BusInv cfg (dispatchDataIn cfg bus io) := by
  cases ha : io.ncr.ackRise bus
  · rwa [Machine.dispatchDataIn, ha]
  have hn := h.noCountdown_of_ackRise ha (by simp [hs]) (by simp [hs])
  have ⟨hw, _, hz⟩ := hn
  obtain ⟨hl, -, h16, -, hm, -, hd, -⟩ := h
  obtain ⟨h1, hle, -⟩ := hd (.inl hs)
  obtain hlt | hge := Nat.lt_or_ge io.ncr.dataPos (devBufferLength cfg io)
  · rw [dispatchDataIn_next ha hlt, busInv_mapNcr]
    · exact .nextDataReq ⟨hl.shownByte _, .of_none hn,
        .of_data (.inl hs) hz h16 hm h1 hlt fun e => absurd (hs.symm.trans e) nofun⟩ (.inl hs) hw hz
    · exact nextDataReq_targetId _ _
  · have hg : (commandPhase1 cfg io).ncr = io.ncr := modifySelected_ncr ..
    rw [dispatchDataIn_last ha hge, finishData_eq, busInv_mapNcr, hg, devBufferLength_commandPhase1]
    · exact .of_armed hc (hl.andNotReq (by simp [hs]) rfl rfl) (andNotReq_low rfl) (by simp [hs]) rfl rfl (.inr rfl)
        (.inr (.inl rfl)) h16 hm fun _ => ⟨h1, hle⟩
    · rfl

theorem BusInv.dispatchDataOut (hc : cfg.wf) (h : BusInv cfg io) (hs : io.ncr.state = .dataOut) :
    BusInv cfg (dispatchDataOut cfg bus io) := by
  cases ha : io.ncr.ackRise bus
  · rwa [Machine.dispatchDataOut, ha]
  have hn := h.noCountdown_of_ackRise ha (by simp [hs]) (by simp [hs])
  have ⟨hw, _, hz⟩ := hn
  obtain ⟨hl, -, h16, -, hm, -, -, hout⟩ := h
  have hlt := hout hs hw
  obtain hlt' | hge := Nat.lt_or_ge (io.ncr.dataPos + 1) (devBufferLength cfg io)
  · rw [dispatchDataOut_next ha hlt', busInv_mapNcr, byteStored_ncr, devBufferLength_byteStored]
    · exact .nextDataReq ⟨hl, .of_none hn, .of_data (.inr hs) hz h16 hm (by omega) hlt fun _ => hlt'⟩ (.inr hs) hw hz
    · exact nextDataReq_targetId _ _
  · have hg : (commandPhase1 cfg (byteStored cfg bus io)).ncr = io.ncr :=
      (modifySelected_ncr ..).trans byteStored_ncr
    rw [dispatchDataOut_last ha hge, busInv_mapNcr, hg, devBufferLength_commandPhase1, devBufferLength_byteStored]
    · exact .of_armed hc (hl.andNotReq (by simp [hs]) rfl rfl) (andNotReq_low rfl) (by simp [hs]) rfl rfl (.inr rfl)
        (.inr (.inl rfl)) h16 hm fun _ => ⟨by omega, hlt⟩
    · rfl

theorem identify_ncr (l : Option (BitVec 3)) : (identify cfg l io).ncr = io.ncr := modifySelected_ncr ..

theorem BusInv.dispatchStatus (hc : cfg.wf) (h : BusInv cfg io) (hs : io.ncr.state = .status) :
    BusInv cfg (dispatchStatus cfg bus io) := by
  cases ha : io.ncr.ackRise bus
  · rwa [Machine.dispatchStatus, ha]
  obtain ⟨hl, -, h16, -, hm, -⟩ := h
  rw [dispatchStatus_ack ha, busInv_mapNcr, identify_ncr, devBufferLength_identify]
  · exact .of_armed hc (hl.andNotReq (by simp [hs]) rfl rfl) (andNotReq_low rfl) (by simp [hs]) rfl rfl (.inr rfl)
      (.inr (.inr rfl)) h16 hm (by simp [hs])
  · rfl

theorem BusInv.dispatchMessageIn (hc : cfg.wf) (h : BusInv cfg io) (hs : io.ncr.state = .messageIn) :
    BusInv cfg (dispatchMessageIn cfg bus io) := by
  cases ha : io.ncr.ackRise bus
  · rwa [Machine.dispatchMessageIn, ha]
  obtain ⟨hl, -, h16, -, hm, -⟩ := h
  rw [dispatchMessageIn_ack ha, busInv_mapNcr]
  · exact .of_armed hc (hl.andNotReq (by simp [hs]) rfl rfl) (andNotReq_low rfl) (by simp [hs]) rfl rfl (.inl rfl)
      (.inl rfl) h16 hm (by simp [hs])
  · rfl

/-- A message that goes on has fewer bytes than its second byte can count (R148, R290 (c)). -/
theorem lt_255_of_not_messageDone {m0 m1 p : Nat} (h0 : m0 < 256) (h1 : m1 < 256) (h : ¬ MessageDone m0 m1 p) :
    p < 255 := by
  unfold MessageDone at h
  omega

theorem BusInv.dispatchMessageOut (h : BusInv cfg io) (hs : io.ncr.state = .messageOut) :
    BusInv cfg (dispatchMessageOut cfg bus io) := by
  cases ha : io.ncr.ackRise bus
  · rwa [Machine.dispatchMessageOut, ha]
  have hn := h.noCountdown_of_ackRise ha (by simp [hs]) (by simp [hs])
  have ⟨hw, _, hz⟩ := hn
  obtain ⟨hl, -, h16, -, -, hm, -⟩ := h
  have hm := hm hs
  by_cases hd : MessageDone ((storedMessage bus io.ncr).get 0).toNat ((storedMessage bus io.ncr).get 1).toNat
      (io.ncr.msgoutPos + 1)
  · rw [dispatchMessageOut_done ha hd, busInv_mapNcr]
    · obtain ⟨hb, hdr⟩ := hl
      exact ⟨⟨fun _ => by simpa using hb (by simp [hs]), Driven.and hdr _⟩, .of_none hn,
        .of_unbounded (by simp) h16 (Nat.succ_le_succ hm)⟩
    · rfl
  · have hp := lt_255_of_not_messageDone (BitVec.isLt _) (BitVec.isLt _) hd
    rw [dispatchMessageOut_more ha hd, busInv_mapNcr]
    · exact ⟨hl.andNotReq (by simp [hs]) rfl rfl, .of_clearReq hw hz (andNotReq_low rfl) (by simp [hs]),
        .of_messageOut hs h16 (Nat.le_of_lt_succ hp)⟩
    · rfl

theorem BusInv.dispatchMessageId (h : BusInv cfg io) (hs : io.ncr.state = .messageId) :
    BusInv cfg (dispatchMessageId cfg io) := by
  have hz := h.core.noCountdown (by simp [hs])
  cases hp : targetPresent cfg io
  · rwa [dispatchMessageId_absent hp]
  obtain ⟨-, -, -, -, hm, -⟩ := h
  rw [dispatchMessageId_present hp, busInv_mapNcr, identify_ncr, devBufferLength_identify]
  · exact .enterCommand hz (targetId_ne_none_of_present hp) hm
  · rfl

/-- Every rule of a state keeps the invariant. -/
theorem BusInv.dispatch (hc : cfg.wf) (h : BusInv cfg io) : BusInv cfg (dispatch cfg bus io) := by
  unfold Machine.dispatch
  split
  · next hs => exact .dispatchIdle ((busInv_mapNcr rfl).2 h.core.override) hs
  · next hs => exact h.dispatchSelect hs
  · next hs => exact h.dispatchCommand hc hs
  · next hs => exact h.dispatchDataIn hc hs
  · next hs => exact h.dispatchDataOut hc hs
  · next hs => exact h.dispatchStatus hc hs
  · next hs => exact h.dispatchMessageIn hc hs
  · next hs => exact h.dispatchMessageOut hs
  · next hs => exact h.dispatchMessageId hs

/-- Every bus update keeps the invariant: time passes, then the rule of the state runs, and the bus word is recorded
(R254). -/
theorem BusInv.busUpdate (hc : cfg.wf) (h : BusInv cfg io) : BusInv cfg (busUpdate cfg bus io) := by
  change BusInv cfg (if hasLine bus busArb then io.mapNcr arbitrationOverride
    else Machine.dispatch cfg bus (Machine.tick cfg io))
  split
  · exact (busInv_mapNcr rfl).2 h.core.override
  · obtain ht | ⟨hs, ht⟩ := h.tick
    · exact ht.dispatch hc
    · rw [Machine.dispatch, hs]
      exact ht.dispatchIdle hs

end

/-- Settles O40: a tick and every rule of a state keep the invariant (`BusInv.tick`, `BusInv.dispatch`). -/
theorem busUpdateKeepsInv : Obligations.BusUpdateKeepsInv := by
  unfold Obligations.BusUpdateKeepsInv
  intro cfg bus io hc h
  exact h.busUpdate hc

end Sys2Proof.Machine
end

section
/-! The phase machine's byte transfers (R253, R262 to R284): every rule of a state read off as a whole update. -/
namespace Sys2Proof.Machine

section
variable {cfg : Cfg} {bus : Word} {io : Io} {id : Fin 8}

/-! ### Updates without a running countdown -/

/-- An update without ARB: time passes, the rule of the state runs, and the bus word is recorded (R254). -/
theorem busUpdate_of_no_arb (hb : hasLine bus busArb = false) :
    busUpdate cfg bus io = (dispatch cfg bus (tick cfg io)).mapNcr fun n => { n with busIn := bus } := by
  rw [busUpdate, hb]
  rfl

/-- Nothing changes but the recorded bus word while a state waits for ACK and no countdown runs (R253, R284). -/
theorem busUpdate_no_ack (hb : hasLine bus busArb = false) (hz : NoCountdown io.ncr) (ha : ¬ AckEdge bus io.ncr)
    (hs : io.ncr.state ∉ [BusState.idle, .select, .messageId]) :
    busUpdate cfg bus io = { io with ncr := { io.ncr with busIn := bus } } := by
  obtain ⟨hw, hr, hc⟩ := hz
  rw [busUpdate_quiet hb hw hr hc, dispatch_no_ack (by rwa [← ackRise_iff, Bool.not_eq_true] at ha) hs]
  rfl

/-- An edge of ACK in a state whose `wait_complete` is through: the rule of the state, on the spot. -/
theorem busUpdate_ack (hi : BusInv cfg io) (hb : hasLine bus busArb = false) (ha : AckEdge bus io.ncr)
    (hs : io.ncr.state ≠ .status) (hm : io.ncr.state ≠ .messageIn) :
    NoCountdown io.ncr ∧ busUpdate cfg bus io = (dispatch cfg bus io).mapNcr fun n => { n with busIn := bus } := by
  have hz := hi.noCountdown_of_ackRise ((ackRise_iff _ _).2 ha) hs hm
  have ⟨hw, hr, hc⟩ := hz
  exact ⟨hz, busUpdate_quiet hb hw hr hc⟩

/-- Settles O42: the override is the whole update. -/
theorem busUpdate_arbitrationOverride : Obligations.ArbitrationOverride := by
  unfold Obligations.ArbitrationOverride
  intro cfg bus io h
  have hb : hasLine bus busArb = true := (hasLine_bit bus 15 (by decide)).trans h
  rw [busUpdate, hb]
  rfl

/-! ### Selection (R144, R262, R264) -/

theorem targetOf_eq_some {d : Byte} (h : d.getLsbD id = true) (hl : ∀ j : Fin 8, j < id → d.getLsbD j = false) :
    targetOf d = some id := by
  rw [targetOf, List.find?_eq_some_iff_getElem]
  refine ⟨h, id.val, by simp, by simp, fun j hj => ?_⟩
  have := hl ⟨j, by omega⟩ hj
  simpa using this

theorem targetOf_zero : targetOf 0 = none := by decide

theorem NoCountdown.cleared {n : Ncr} (h : NoCountdown n) :
    { n with waitData := 0, clearReq := 0, waitComplete := 0 } = n := by
  obtain ⟨hw, hr, hc⟩ := h
  cases n
  dsimp only at hw hr hc
  rw [hw, hr, hc]

/-- What IDLE does with no countdown running: nothing, or a selection. -/
theorem busUpdate_idle (hi : BusInv cfg io) (hs : io.ncr.state = .idle) (hb : hasLine bus busArb = false) :
    busUpdate cfg bus io =
      if hasLine bus busSel && !hasLine bus busBsy then
        if targetPresent cfg (io.mapNcr fun n => { n with targetId := targetOf (busGetData bus) }) then
          io.mapNcr fun n => { n with
            targetId := targetOf (busGetData bus), curBus := n.curBus ||| busBsy, state := .select, busIn := bus }
        else io.mapNcr fun n => { n with targetId := targetOf (busGetData bus), curBus := 0, busIn := bus }
      else io.mapNcr fun n => { n with busIn := bus } := by
  obtain ⟨hw, hr, hc⟩ := hi.core.noCountdown (by simp [hs])
  have hz : (io.mapNcr fun n => { n with waitData := 0, clearReq := 0, waitComplete := 0 }) = io :=
    mapNcr_eq_self (NoCountdown.cleared ⟨hw, hr, hc⟩)
  rw [busUpdate_quiet hb hw hr hc, dispatch, hs]
  dsimp only
  rw [dispatchIdle, hz]
  dsimp only
  split
  · split <;> rfl
  · rfl

/-- Settles O43, by the two outcomes of a selection. -/
theorem selection : Obligations.Selection := by
  unfold Obligations.Selection
  intro cfg bus io hi hs hb
  rw [busUpdate_idle hi hs hb]
  refine ⟨fun hsel hbsy => ⟨fun id hid hlow => ?_, fun h0 => ?_⟩, fun h => ?_⟩
  · rw [targetOf_eq_some hid hlow, targetPresent_of_targetId (id := id) rfl, deviceAt_mapNcr, hsel, hbsy]
    exact ⟨fun hp => if_pos hp, fun hp => if_neg (Bool.eq_false_iff.1 hp)⟩
  · rw [h0, targetOf_zero, hsel, hbsy]
    rfl
  · refine if_neg ?_
    rcases h with h | h <;> simp [h]

/-- Settles O44: the four branches of R264, each a whole update. -/
theorem selectRelease : Obligations.SelectRelease := by
  unfold Obligations.SelectRelease
  intro cfg bus io hi hs hb
  obtain ⟨hw, hr, hc⟩ := hi.core.noCountdown (by simp [hs])
  rw [busUpdate_quiet hb hw hr hc, dispatch, hs]
  dsimp only
  refine ⟨fun hsel => ?_, fun hsel hatn => ?_, fun hsel hatn hp => ?_, fun hsel hatn hp => ?_⟩
  · rw [dispatchSelect, if_pos hsel]
    rfl
  · rw [dispatchSelect, hsel, hatn]
    rfl
  · rw [dispatchSelect, hsel, hatn, hp]
    rfl
  · rw [dispatchSelect, hsel, hatn, hp]
    rfl

/-! ### The command block (R266, R268) -/

/-- R146 in one table. -/
theorem cmdLen_table : ∀ c0 : Byte, [6, 10, 10, 6, 16, 12, 10, 6][c0.toNat / 32]? = some (cmdLen c0) := by decide

theorem nextPhase_of_selected {d : Device} (h : selected cfg io = some d) : nextPhase cfg io =
    if (d.phase &&& phaseMask = 0x04 ∨ d.phase &&& phaseMask = 0x00) ∧ 0 < d.buffer.length
      then d.phase &&& phaseMask else 0x0C := by
  rw [nextPhase, h]
  rfl

theorem storedCommand_getElem? {n : Ncr} (h : n.commandPos < 16) :
    (storedCommand bus n).toList[n.commandPos]? = some (busGetData bus) := by
  simp [storedCommand, h]

theorem dispatchCommand_command (ha : io.ncr.ackRise bus = true) :
    (dispatchCommand cfg bus io).ncr.command = storedCommand bus io.ncr := by
  have hg : (commandGiven cfg bus io).ncr = io.ncr := modifySelected_ncr ..
  by_cases he : io.ncr.commandPos + 1 = cmdLen ((storedCommand bus io.ncr).get 0)
  · rw [dispatchCommand_last ha he, mapNcr_ncr, hg]
  · rw [dispatchCommand_more ha he, mapNcr_ncr]

/-- Settles O45: the byte is stored (`dispatchCommand_more`), and the last one hands the block over
(`dispatchCommand_last`). -/
theorem commandByte : Obligations.CommandByte := by
  unfold Obligations.CommandByte
  intro cfg bus io id hi hs ht hp hb
  have hbus := bus_lt_of_present hp
  have hack (ha : AckEdge bus io.ncr) := busUpdate_ack hi hb ha (by simp [hs]) (by simp [hs])
  have hd : dispatch cfg bus io = dispatchCommand cfg bus io := by rw [dispatch, hs]
  have hsel : selected cfg (commandGiven cfg bus io) = _ := selected_modifySelected _ ht hbus
  refine ⟨cmdLen_table, fun hz ha => busUpdate_no_ack hb hz ha (by simp [hs]), fun ha => ?_, fun ha hne => ?_,
    fun ha he => ?_⟩
  · obtain ⟨⟨hw, -⟩, hu⟩ := hack ha
    have hlt := (commandPos_lt (bus := bus) hi.core hs hw).trans_le (cmdLen_bounds _).2
    rw [hu, hd, mapNcr_ncr, dispatchCommand_command ((ackRise_iff _ _).2 ha)]
    exact storedCommand_getElem? hlt
  · rw [(hack ha).2, hd, dispatchCommand_more ((ackRise_iff _ _).2 ha) hne]
    rfl
  · rw [(hack ha).2, hd, dispatchCommand_last ((ackRise_iff _ _).2 ha) he]
    refine ⟨deviceAt_modifySelected _ ht hbus, ?_⟩
    rw [nextPhase_of_selected hsel]
    simp only [mapNcr_ncr, commandGiven, commandPhase0, modifySelected_ncr]
    rfl

/-! ### The data phases (R270, R272) -/

/-- A device whose buffer is not empty stands in the table. -/
theorem bus_lt_of_buffer (h : 0 < (deviceAt cfg io id).buffer.length) : cfg.scsiBus < io.scsiDevices.length := by
  by_contra hn
  rw [deviceAt, List.getElem?_eq_none (by omega)] at h
  simp [Device.absent] at h

/-- Settles O46: a byte is left (`dispatchDataIn_next`) or none (`dispatchDataIn_last`). -/
theorem dataInByte : Obligations.DataInByte := by
  unfold Obligations.DataInByte
  intro cfg bus io id hi hs ht hb
  have hlen : devBufferLength cfg io = (deviceAt cfg io id).buffer.length := devBufferLength_of_targetId ht
  have hack (ha : AckEdge bus io.ncr) := (busUpdate_ack hi hb ha (by simp [hs]) (by simp [hs])).2
  have hd : dispatch cfg bus io = dispatchDataIn cfg bus io := by rw [dispatch, hs]
  refine ⟨fun hz ha => busUpdate_no_ack hb hz ha (by simp [hs]), fun v ha hv => ?_, fun ha hl => ?_⟩
  · have hlt : io.ncr.dataPos < devBufferLength cfg io := hlen ▸ (List.getElem?_eq_some_iff.1 hv).1
    have hbyte : devByte cfg io io.ncr.dataPos = v := by rw [devByte_of_targetId ht, hv, Option.getD_some]
    rw [hack ha, hd, dispatchDataIn_next ((ackRise_iff _ _).2 ha) hlt, hbyte]
    have recorded {m : Ncr} (hm : nextDataReq cfg phaseDataIn (shownByte v io.ncr) = m) :=
      congrArg (fun m : Ncr => { io with ncr := { m with busIn := bus } }) hm
    exact ⟨fun hm => recorded (nextDataReq_dma hm), fun hm => recorded (nextDataReq_idle hm)⟩
  · obtain ⟨-, -, -, -, -, -, hdata, -⟩ := hi
    obtain ⟨hpos, -⟩ := hdata (.inl hs)
    rw [hack ha, hd, dispatchDataIn_last ((ackRise_iff _ _).2 ha) (hlen ▸ hl), finishData_eq]
    refine ⟨deviceAt_modifySelected _ ht (bus_lt_of_buffer (hlen ▸ hpos)), ?_⟩
    simp only [mapNcr_ncr, commandPhase1, modifySelected_ncr]

theorem nextDataReq_eq (p : Word) (n : Ncr) : nextDataReq cfg p n = { n with
    curBus := if n.dmaMode = .idle then n.curBus &&& ~~~busReq else n.curBus,
    newPhase := if n.dmaMode = .idle then p else n.newPhase,
    clearReq := if n.dmaMode = .idle then cfg.clearReqInit else n.clearReq } := by
  by_cases h : n.dmaMode = .idle
  · rw [nextDataReq_idle h]
    simp only [h, if_true]
  · rw [nextDataReq_dma h]
    simp only [h, if_false]

theorem modifySelected_length (f : Fin 8 → Device → Device) :
    (modifySelected cfg f io).scsiDevices.length = io.scsiDevices.length := by
  unfold modifySelected
  split
  · exact List.length_modify ..
  · rfl

/-- Settles O47: the byte is stored, and more are expected (`dispatchDataOut_next`) or none
(`dispatchDataOut_last`). -/
theorem dataOutByte : Obligations.DataOutByte := by
  unfold Obligations.DataOutByte
  intro cfg bus io id hi hs ht hb
  have hlen : devBufferLength cfg io = (deviceAt cfg io id).buffer.length := devBufferLength_of_targetId ht
  have hput : ((deviceAt cfg io id).putByte io.ncr.dataPos (busGetData bus)).buffer.length = devBufferLength cfg io :=
    (List.length_set ..).trans hlen.symm
  have hack (ha : AckEdge bus io.ncr) := busUpdate_ack hi hb ha (by simp [hs]) (by simp [hs])
  have hd : dispatch cfg bus io = dispatchDataOut cfg bus io := by rw [dispatch, hs]
  obtain ⟨-, -, -, -, -, -, hdata, hout⟩ := hi.core
  obtain ⟨hpos, -⟩ := hdata (.inr hs)
  have hbus : cfg.scsiBus < io.scsiDevices.length := bus_lt_of_buffer (hlen ▸ hpos)
  have hstored : deviceAt cfg (byteStored cfg bus io) id =
      (deviceAt cfg io id).putByte io.ncr.dataPos (busGetData bus) := deviceAt_modifySelected _ ht hbus
  refine ⟨fun hz ha => busUpdate_no_ack hb hz ha (by simp [hs]), fun ha => ?_, fun ha hlt => ?_, fun ha hge => ?_⟩
  · have hlt := hout hs (hack ha).1.1
    exact List.getElem?_set_self (hlen ▸ hlt)
  · rw [(hack ha).2, hd, dispatchDataOut_next ((ackRise_iff _ _).2 ha) (hput ▸ hlt)]
    refine ⟨hstored, ?_⟩
    simp only [mapNcr_ncr, byteStored_ncr, nextDataReq_eq]
  · rw [(hack ha).2, hd, dispatchDataOut_last ((ackRise_iff _ _).2 ha) (hput ▸ hge)]
    refine ⟨?_, ?_⟩
    · refine (deviceAt_modifySelected _ ?_ ?_).trans (congrArg _ hstored)
      · rw [byteStored_ncr, ht]
      · rw [byteStored, putDevByte, modifySelected_length]
        exact hbus
    · simp only [mapNcr_ncr, commandPhase1, modifySelected_ncr, byteStored_ncr]

/-! ### STATUS and MESSAGEIN (R274, R276) -/

/-- While REQ stands, a tick can do no more than count `wait_complete` down (R256 T3). -/
theorem busUpdate_req (hi : BusInv cfg io) (hb : hasLine bus busArb = false) (ha : AckEdge bus io.ncr) :
    ∃ k, busUpdate cfg bus io = (dispatch cfg bus (io.mapNcr fun n => { n with waitComplete := k })).mapNcr
      fun n => { n with busIn := bus } := by
  have hreq : hasLine io.ncr.curBus busReq = true := by
    have hrise := (ackRise_iff _ _).2 ha
    simp only [Ncr.ackRise, Bool.and_eq_true] at hrise
    exact hrise.2
  obtain ⟨hw, hr⟩ := ackRise_quiet hi hreq
  have ht : tick cfg io = io.mapNcr fun n => { n with waitComplete := io.ncr.waitComplete - 1 } :=
    (tick_complete hr hw).trans (mapNcr_congr (tickWaitComplete_of_req hreq))
  exact ⟨_, by rw [busUpdate_of_no_arb hb, ht]⟩

/-- Settles O48: the rule of the state overwrites whatever `wait_complete` was left (`busUpdate_req`). -/
theorem statusAndMessageIn : Obligations.StatusAndMessageIn := by
  unfold Obligations.StatusAndMessageIn
  intro cfg bus io id hi ht hp hb
  refine ⟨fun hs hz ha => busUpdate_no_ack hb hz ha ?_, fun ha hs => ?_, fun ha hs => ?_⟩
  · rcases hs with e | e <;> simp [e]
  · obtain ⟨k, hu⟩ := busUpdate_req hi hb ha
    have hd : dispatch cfg bus (io.mapNcr fun n => { n with waitComplete := k }) =
        dispatchStatus cfg bus (io.mapNcr fun n => { n with waitComplete := k }) := by rw [dispatch, mapNcr_ncr, hs]
    rw [hu, hd, dispatchStatus_ack (by exact (ackRise_iff _ _).2 ha)]
    refine ⟨deviceAt_modifySelected _ (by exact ht) (bus_lt_of_present hp), ?_⟩
    simp only [mapNcr_ncr, identify_ncr]
  · obtain ⟨k, hu⟩ := busUpdate_req hi hb ha
    have hd : dispatch cfg bus (io.mapNcr fun n => { n with waitComplete := k }) =
        dispatchMessageIn cfg bus (io.mapNcr fun n => { n with waitComplete := k }) := by rw [dispatch, mapNcr_ncr, hs]
    rw [hu, hd, dispatchMessageIn_ack (by exact (ackRise_iff _ _).2 ha)]
    rfl

/-! ### MESSAGEOUT and MESSAGE_ID (R280, R282) -/

/-- Settles O49: `MessageDone` decides between the two outcomes of an edge of ACK. -/
theorem messageOut : Obligations.MessageOut := by
  unfold Obligations.MessageOut
  intro cfg bus io hi hb
  refine ⟨fun hs hz ha => busUpdate_no_ack hb hz ha (by simp [hs]), fun hs ha hd => ?_, fun hs ha hd => ?_,
    fun hs id ht hp => ?_⟩
  · rw [(busUpdate_ack hi hb ha (by simp [hs]) (by simp [hs])).2, dispatch, hs]
    dsimp only
    rw [dispatchMessageOut_done ((ackRise_iff _ _).2 ha) hd]
    rfl
  · rw [(busUpdate_ack hi hb ha (by simp [hs]) (by simp [hs])).2, dispatch, hs]
    dsimp only
    rw [dispatchMessageOut_more ((ackRise_iff _ _).2 ha) hd]
    rfl
  · obtain ⟨hw, hr, hc⟩ := hi.core.noCountdown (by simp [hs])
    rw [busUpdate_quiet hb hw hr hc, dispatch, hs]
    dsimp only
    rw [dispatchMessageId_present ((targetPresent_of_targetId ht).trans hp)]
    refine ⟨deviceAt_modifySelected _ ht (bus_lt_of_present hp), ?_⟩
    simp only [mapNcr_ncr, identify_ncr]
    rfl

end
end Sys2Proof.Machine
end

section
/-! The countdowns over several updates (R256, R257): when an armed phase is entered and when REQ returns. -/
namespace Sys2Proof.Machine

section
variable {cfg : Cfg} {bus : Word} {io : Io} {buses : List Word}

theorem busUpdates_append (l : List Word) (b : Word) :
    busUpdates cfg (l ++ [b]) io = busUpdate cfg b (busUpdates cfg l io) := List.foldl_append

/-- Calls without ARB and ACK let time pass, in the states that wait for ACK. -/
theorem busUpdate_tick (hb : hasLine bus busArb = false) (ha : hasLine bus busAck = false)
    (hs : (tick cfg io).ncr.state ∉ [BusState.idle, .select, .messageId]) :
    busUpdate cfg bus io = (tick cfg io).mapNcr fun n => { n with busIn := bus } := by
  have hd : dispatch cfg bus (tick cfg io) = tick cfg io := dispatch_no_ack (by simp [Ncr.ackRise, ha]) hs
  rw [busUpdate_of_no_arb hb, hd]

/-! ### REQ within a phase (R256 T1) -/

/-- While `clear_req` runs, calls without ARB and ACK count it down and do nothing else. -/
theorem busUpdates_clearReq (hi : BusInv cfg io) (hlt : buses.length < io.ncr.clearReq)
    (hb : ∀ b ∈ buses, hasLine b busArb = false ∧ hasLine b busAck = false) :
    ∃ b, busUpdates cfg buses io =
      io.mapNcr fun n => { n with clearReq := n.clearReq - buses.length, busIn := b } := by
  obtain ⟨hw, hc, -, hs⟩ := hi.core.of_clearReq (by omega)
  induction buses using List.reverseRecOn with
  | nil => exact ⟨io.ncr.busIn, rfl⟩
  | append_singleton l b ih =>
    rw [List.length_append, List.length_singleton] at hlt
    obtain ⟨b', hl⟩ := ih (by omega) fun c hc => hb c (List.mem_append_left _ hc)
    obtain ⟨harb, hack⟩ := hb b (by simp)
    have ht : tick cfg (busUpdates cfg l io) = (busUpdates cfg l io).mapNcr fun n =>
        { n with clearReq := n.clearReq - 1 } := by
      rw [hl]
      exact tick_req_pending hw hc (by simp; omega)
    refine ⟨b, ?_⟩
    rw [busUpdates_append, busUpdate_tick harb hack, ht, hl, List.length_append, List.length_singleton]
    · simp only [mapNcr_mapNcr, Nat.sub_sub]
    · rw [ht, hl]
      rcases hs with e | e | e | e <;> simp [e]

/-- Settles O51: the countdown (`busUpdates_clearReq`), then its last call (`tick_req_due`). -/
theorem reqReturns : Obligations.ReqReturns := by
  unfold Obligations.ReqReturns
  intro cfg io buses hi hr hlen hb
  obtain ⟨hw, hc, hreq, hs⟩ := hi.core.of_clearReq hr
  refine ⟨fun k hk => ?_, ?_⟩
  · obtain ⟨b, h⟩ := busUpdates_clearReq (buses := buses.take k) hi (by rw [List.length_take]; omega)
      fun b hm => hb b (List.mem_of_mem_take hm)
    rw [h]
    exact hreq
  obtain rfl | ⟨l, last, rfl⟩ := List.eq_nil_or_concat' buses
  · simp at hlen
    omega
  rw [List.length_append, List.length_singleton] at hlen
  obtain ⟨harb, hack⟩ := hb last (by simp)
  obtain ⟨b, hl⟩ := busUpdates_clearReq (buses := l) hi (by omega) fun c hc => hb c (List.mem_append_left _ hc)
  have ht : tick cfg (busUpdates cfg l io) = io.mapNcr fun n =>
      { n with clearReq := 0, curBus := phaseWord n.curBus n.newPhase ||| busReq, busIn := b } := by
    rw [hl]
    exact tick_req_due hw hc (by simp; omega)
  rw [busUpdates_append, busUpdate_tick harb hack, ht]
  · exact ⟨rfl, orReq_req, by simp, rfl⟩
  · rw [ht]
    rcases hs with e | e | e | e <;> simp [e]

/-! ### The entry to an armed phase (R256 T2 and T3, R257) -/

/-- While `wait_data` runs, calls without ARB and ACK count it and `wait_complete` down and do nothing else. -/
theorem busUpdates_waitData (hi : BusInv cfg io) (hlt : buses.length < io.ncr.waitData)
    (hb : ∀ b ∈ buses, hasLine b busArb = false ∧ hasLine b busAck = false) :
    ∃ b, busUpdates cfg buses io = io.mapNcr fun n =>
      { n with waitData := n.waitData - buses.length, waitComplete := n.waitComplete - buses.length, busIn := b } := by
  obtain ⟨hr, hs, -, hc⟩ := hi.core.of_waitData (by omega)
  induction buses using List.reverseRecOn with
  | nil => exact ⟨io.ncr.busIn, rfl⟩
  | append_singleton l b ih =>
    rw [List.length_append, List.length_singleton] at hlt
    obtain ⟨b', hl⟩ := ih (by omega) fun c hc => hb c (List.mem_append_left _ hc)
    obtain ⟨harb, hack⟩ := hb b (by simp)
    have ht : tick cfg (busUpdates cfg l io) = (busUpdates cfg l io).mapNcr fun n =>
        { n with waitData := n.waitData - 1, waitComplete := n.waitComplete - 1 } := by
      rw [hl]
      exact tick_entry_pending hr (by simp; omega) (by simp; omega)
    refine ⟨b, ?_⟩
    rw [busUpdates_append, busUpdate_tick harb hack, ht, hl, List.length_append, List.length_singleton]
    · simp only [mapNcr_mapNcr, Nat.sub_sub]
    · rw [ht, hl]
      simp only [mapNcr_ncr]
      simp only [List.mem_cons, List.not_mem_nil, or_false, not_or] at hs ⊢
      tauto

theorem enterState_mapNcr {f : Ncr → Ncr} (h : (f io.ncr).targetId = io.ncr.targetId) (st : BusState) :
    enterState cfg (io.mapNcr f) st = enterState cfg io st := by
  funext n
  cases st <;> simp only [enterState, devByte_mapNcr h, devStatus_mapNcr h]

section
variable {n : Ncr}

theorem firstReq_data : busGetData n.firstReq.curBus = busGetData n.curBus := by
  unfold Ncr.firstReq
  dsimp only
  split
  · exact orReq_data
  · rfl

theorem firstReq_phase : n.firstReq.curBus &&& phaseMask = n.curBus &&& phaseMask := by
  unfold Ncr.firstReq
  dsimp only
  split
  · exact orReq_phase
  · rfl

theorem firstReq_req_iff (h : hasLine n.curBus busReq = false) :
    hasLine n.firstReq.curBus busReq = true ↔ n.waitComplete ≤ 1 := by
  unfold Ncr.firstReq
  dsimp only
  split
  · next hc => simp [hc]
  · next hc => simp [hc, h]

end

/-- What stands before the last call of `wait_data` runs out (`busUpdates_waitData`). -/
theorem busUpdates_last (hi : BusInv cfg io) (hw : 0 < io.ncr.waitData) (hlen : buses.length = io.ncr.waitData)
    (hb : ∀ b ∈ buses, hasLine b busArb = false ∧ hasLine b busAck = false) :
    ∃ b last, last ∈ buses ∧ busUpdates cfg buses io = busUpdate cfg last (io.mapNcr fun n =>
      { n with waitData := 1, waitComplete := n.waitComplete - (n.waitData - 1), busIn := b }) := by
  obtain rfl | ⟨l, last, rfl⟩ := List.eq_nil_or_concat' buses
  · simp only [List.length_nil] at hlen
    omega
  rw [List.length_append, List.length_singleton] at hlen
  obtain ⟨b, hl⟩ := busUpdates_waitData (buses := l) hi (by omega) fun c hc => hb c (List.mem_append_left _ hc)
  refine ⟨b, last, by simp, ?_⟩
  rw [busUpdates_append, hl]
  refine congrArg _ (mapNcr_congr ?_)
  rw [show io.ncr.waitData - l.length = 1 by omega, show io.ncr.waitData - 1 = l.length by omega]

/-- The bus is free after the last call (R257). -/
theorem busUpdates_busFree (hi : BusInv cfg io) (hw : 0 < io.ncr.waitData) (hlen : buses.length = io.ncr.waitData)
    (hb : ∀ b ∈ buses, hasLine b busArb = false ∧ hasLine b busAck = false ∧ hasLine b busSel = false)
    (hp : io.ncr.newPhase = busIdleMark) :
    (busUpdates cfg buses io).ncr.state = .idle ∧ (busUpdates cfg buses io).ncr.curBus = 0 := by
  obtain ⟨b, last, hm, hl⟩ := busUpdates_last hi hw hlen fun c hc => ⟨(hb c hc).1, (hb c hc).2.1⟩
  obtain ⟨harb, -, hsel⟩ := hb last hm
  obtain ⟨hr, -⟩ := hi.core.of_waitData hw
  rw [hl, busUpdate_of_no_arb harb, tick_busFree (by exact hr) rfl (by exact hp)]
  simp only [dispatch, mapNcr_ncr, dispatchIdle, hsel]
  exact ⟨rfl, rfl⟩

/-- The core's record on the entry to an armed phase, before the REQ that follows it. -/
def enteredNcr (cfg : Cfg) (io : Io) (st : BusState) : Ncr :=
  enterState cfg io st { io.ncr with
    waitData := 0, waitComplete := io.ncr.waitComplete - (io.ncr.waitData - 1),
    curBus := phaseWord io.ncr.curBus io.ncr.newPhase }

/-- The phase is entered on the last call (R257). -/
theorem busUpdates_enters (hi : BusInv cfg io) (hw : 0 < io.ncr.waitData) (hlen : buses.length = io.ncr.waitData)
    (hb : ∀ b ∈ buses, hasLine b busArb = false ∧ hasLine b busAck = false)
    (hm : hasLine io.ncr.newPhase busIdleMark = false) {st : BusState}
    (hst : stateOfPhase (io.ncr.newPhase &&& phaseMask) = some st) (hs : st ∉ [BusState.idle, .select, .messageId]) :
    ∃ b, (busUpdates cfg buses io).ncr = { (enteredNcr cfg io st).firstReq with busIn := b } := by
  obtain ⟨b, last, hlast, hl⟩ := busUpdates_last hi hw hlen hb
  obtain ⟨harb, hack⟩ := hb last hlast
  obtain ⟨hr, -⟩ := hi.core.of_waitData hw
  have ht := tick_enters (cfg := cfg) (io := io.mapNcr fun n =>
    { n with waitData := 1, waitComplete := n.waitComplete - (n.waitData - 1), busIn := b })
    hr rfl hm hst (by rintro rfl; simp at hs)
  refine ⟨last, ?_⟩
  rw [hl, busUpdate_tick harb hack, ht]
  · rw [enterState_mapNcr rfl]
    cases st <;> rfl
  · rw [ht]
    exact (enterState_state st _).symm ▸ hs

section
variable {st : BusState}

theorem enteredNcr_phase : (enteredNcr cfg io st).firstReq.curBus &&& phaseMask = io.ncr.newPhase &&& phaseMask := by
  rw [firstReq_phase]
  cases st
  case dataIn | status | messageIn => exact dataWord_phase.trans phaseWord_phase
  all_goals exact phaseWord_phase

/-- REQ comes with the entry unless `wait_complete` is still running. -/
theorem enteredNcr_req_iff (hi : BusInv cfg io) (hw : 0 < io.ncr.waitData) :
    hasLine (enteredNcr cfg io st).firstReq.curBus busReq = true ↔
      io.ncr.waitComplete = 0 ∨ io.ncr.waitComplete = io.ncr.waitData := by
  obtain ⟨-, -, hreq, hc⟩ := hi.core.of_waitData hw
  have hlow : hasLine (enteredNcr cfg io st).curBus busReq = false := by
    rw [← phaseWord_req (p := io.ncr.newPhase)] at hreq
    cases st
    case dataIn | status | messageIn => exact dataWord_req.trans hreq
    all_goals exact hreq
  have hwait : (enteredNcr cfg io st).waitComplete = io.ncr.waitComplete - (io.ncr.waitData - 1) := by
    cases st <;> rfl
  rw [firstReq_req_iff hlow, hwait]
  omega

end

/-- A data phase is armed from COMMAND, at the first byte, and without `wait_complete` (R268). -/
theorem CoreInv.data_armed {n : Ncr} {len : Nat} (h : CoreInv n len) (hw : 0 < n.waitData)
    (hp : n.newPhase = phaseDataIn ∨ n.newPhase = phaseDataOut) : n.dataPos = 0 ∧ n.waitComplete = 0 := by
  have hphase := h.newPhase_cases hw
  obtain ⟨-, ⟨-, hcmd, -⟩, -⟩ := h
  obtain h1 | h1 | h1 | ⟨-, hs, h0, -⟩ := hphase
  case inr.inr.inr => exact ⟨h0, hcmd hs⟩
  all_goals
    rw [h1] at hp
    exact absurd hp (by decide)

/-- Settles O50: nothing but the countdowns moves before the last call (`busUpdates_waitData`), which frees the bus
(`busUpdates_busFree`) or enters the phase (`busUpdates_enters`). -/
theorem phaseEntered : Obligations.PhaseEntered := by
  unfold Obligations.PhaseEntered
  intro cfg io buses hi hw hlen hb
  have hb' : ∀ b ∈ buses, hasLine b busArb = false ∧ hasLine b busAck = false := fun b hm =>
    have ⟨harb, hack, _⟩ := hb b hm
    ⟨harb, hack⟩
  obtain ⟨-, -, hreq, -⟩ := hi.core.of_waitData hw
  have enters {p : Word} (st : BusState) (hp : io.ncr.newPhase = p) (hm : hasLine p busIdleMark = false)
      (hst : stateOfPhase (p &&& phaseMask) = some st) (hs : st ∉ [BusState.idle, .select, .messageId]) :=
    busUpdates_enters hi hw hlen hb' (hp ▸ hm) (hp ▸ hst) hs
  have phase {p : Word} {st : BusState} (hp : io.ncr.newPhase = p) (hm : p &&& phaseMask = p) :
      (enteredNcr cfg io st).firstReq.curBus &&& phaseMask = p := by rw [enteredNcr_phase, hp, hm]
  refine ⟨fun k hk => ?_, busUpdates_busFree hi hw hlen hb, fun hp => ?_, fun hp => ?_, fun hp => ?_, fun hp => ?_⟩
  · obtain ⟨b, h⟩ := busUpdates_waitData (buses := buses.take k) hi (by rw [List.length_take]; omega)
      fun b hm => hb' b (List.mem_of_mem_take hm)
    rw [h]
    exact ⟨rfl, hreq⟩
  · obtain ⟨b, he⟩ := enters .status hp (by decide) rfl (by decide)
    rw [he]
    exact ⟨rfl, firstReq_data.trans dataWord_data, phase hp (by decide), enteredNcr_req_iff hi hw⟩
  · obtain ⟨b, he⟩ := enters .messageIn hp (by decide) rfl (by decide)
    rw [he]
    exact ⟨rfl, firstReq_data.trans dataWord_data, phase hp (by decide), enteredNcr_req_iff hi hw⟩
  · obtain ⟨b, he⟩ := enters .dataIn hp (by decide) rfl (by decide)
    obtain ⟨h0, hc⟩ := hi.core.data_armed hw (.inl hp)
    rw [he]
    refine ⟨rfl, congrArg (· + 1) h0, ?_, phase hp (by decide), (enteredNcr_req_iff hi hw).2 (.inl hc)⟩
    rw [← h0]
    exact firstReq_data.trans dataWord_data
  · obtain ⟨b, he⟩ := enters .dataOut hp (by decide) rfl (by decide)
    obtain ⟨h0, hc⟩ := hi.core.data_armed hw (.inr hp)
    rw [he]
    exact ⟨rfl, h0, phase hp (by decide), (enteredNcr_req_iff hi hw).2 (.inl hc)⟩

end
end Sys2Proof.Machine
end

section
/-! The invariant of the machine (R50, R72, R290, R320): every access, every callback of the timer and every event keeps
it, and so does every step. -/
namespace Sys2Proof.Machine

/-! ### Bits of a register -/

section
variable (r : Byte) {c m : Byte}

theorem hasBit_or_of_disjoint (h : c &&& m = 0#8) : hasBit (r ||| c) m = hasBit r m := by
  rw [hasBit, BitVec.and_or_distrib_right, h, BitVec.or_zero, hasBit]

theorem hasBit_and_of_subset (h : c &&& m = m) : hasBit (r &&& c) m = hasBit r m := by
  rw [hasBit, BitVec.and_assoc, h, hasBit]

theorem hasBit_and_of_disjoint (h : c &&& m = 0#8) : hasBit (r &&& c) m = false := by
  rw [hasBit, and_and_of_disjoint h]
  rfl

theorem hasBit_or_self (h : c ≠ 0#8) : hasBit (r ||| c) c = true := by
  rw [hasBit, BitVec.and_or_distrib_right, BitVec.and_self]
  exact decide_eq_true fun he => h (BitVec.or_eq_zero_iff.1 he).2

end

/-! ### The invariant of the adapter: the SCSI core, its registers and the bridge -/

/-- The device side's part of `MachineInv`. -/
structure AdapterInv (cfg : Cfg) (io : Io) : Prop where
  bus : BusInv cfg io
  regs : RegInv io.ncr
  bridge : BridgeInv io.bridge

section
variable {cfg : Cfg} {io : Io}

/-! What the invariant does not speak of. -/

theorem AdapterInv.emit (h : AdapterInv cfg io) (o : Output) : AdapterInv cfg (io.emit o) :=
  ⟨h.bus, h.regs, h.bridge⟩

theorem AdapterInv.supply (h : AdapterInv cfg io) (inputs : List Byte) (drawn : Nat) :
    AdapterInv cfg { io with inputs := inputs, drawn := drawn } := ⟨h.bus, h.regs, h.bridge⟩

theorem AdapterInv.drawByte (h : AdapterInv cfg io) : AdapterInv cfg (drawByte io).2 := by
  unfold Machine.drawByte
  split <;> exact ⟨h.bus, h.regs, h.bridge⟩

theorem AdapterInv.drawDelay (h : AdapterInv cfg io) : AdapterInv cfg (drawDelay io).2 := by
  unfold Machine.drawDelay
  split <;> exact ⟨h.bus, h.regs, h.bridge⟩

/-! One part at a time. -/

theorem AdapterInv.mapBridge {f : Bridge → Bridge} (h : AdapterInv cfg io) (hf : BridgeInv (f io.bridge)) :
    AdapterInv cfg (io.mapBridge f) := ⟨h.bus, h.regs, hf⟩

/-- A change of the host's registers, which `BusInv` does not speak of. -/
theorem AdapterInv.mapRegs {f : Ncr → Ncr} (h : AdapterInv cfg io) (hb : BusInv cfg (io.mapNcr f))
    (hf : RegInv (f io.ncr)) : AdapterInv cfg (io.mapNcr f) := ⟨hb, hf, h.bridge⟩

theorem AdapterInv.busUpdate (hc : cfg.wf) (h : AdapterInv cfg io) (bus : Word) :
    AdapterInv cfg (busUpdate cfg bus io) := by
  have hf := busUpdate_frame cfg bus io
  obtain ⟨-, hicr, -, htcr, -, hisr⟩ := hf.regs
  refine ⟨h.bus.busUpdate hc, ?_, ?_⟩
  · rw [RegInv, hicr, htcr, hisr, hf.irqState]
    exact h.regs
  · rw [hf.bridge]
    exact h.bridge

theorem AdapterInv.hostUpdate (hc : cfg.wf) (h : AdapterInv cfg io) : AdapterInv cfg (hostUpdate cfg io) :=
  h.busUpdate hc _

/-! ### The registers (R303 to R320) -/

theorem AdapterInv.armTimer (h : AdapterInv cfg io) : AdapterInv cfg (armTimer io) := by
  unfold Machine.armTimer
  split
  · exact h
  · have hd := h.drawDelay
    obtain ⟨hpos, hhost, -⟩ := hd.bridge
    exact hd.mapBridge ⟨hpos, hhost, nofun⟩

theorem AdapterInv.ncrIrqSet (h : AdapterInv cfg io) : AdapterInv cfg (ncrIrqSet cfg io) := by
  obtain ⟨hicr, htcr, hisr, -⟩ := h.regs
  have hs : AdapterInv cfg (io.mapNcr fun n => { n with irqState := true, isr := n.isr ||| 0x10 }) :=
    h.mapRegs h.bus ⟨hicr, htcr, or_and_eq_zero hisr (by decide), (hasBit_or_self _ (by decide)).symm⟩
  unfold Machine.ncrIrqSet
  dsimp only
  split
  · exact hs.emit _
  · exact hs

theorem AdapterInv.ncrIrqClear (h : AdapterInv cfg io) : AdapterInv cfg (ncrIrqClear cfg io) := by
  obtain ⟨hicr, htcr, hisr, -⟩ := h.regs
  have hs : AdapterInv cfg (io.mapNcr fun n => { n with irqState := false, isr := n.isr &&& ~~~0x10 }) :=
    h.mapRegs h.bus ⟨hicr, htcr, and_and_eq_zero hisr _, (hasBit_and_of_disjoint _ (by decide)).symm⟩
  unfold Machine.ncrIrqClear
  dsimp only
  split
  · exact hs.emit _
  · exact hs

theorem adapterInv_adapterReset : AdapterInv cfg (adapterReset cfg io) :=
  .ncrIrqClear ⟨busInv_afterReset rfl, regInv_afterReset, bridgeInv_afterReset _⟩

theorem AdapterInv.disarm (h : AdapterInv cfg io) : AdapterInv cfg (io.mapBridge Bridge.disarm) := by
  obtain ⟨hhost, hpos, -⟩ := h.bridge
  exact h.mapBridge ⟨hhost, hpos, fun _ => rfl⟩

theorem AdapterInv.clearBusy (h : AdapterInv cfg io) : AdapterInv cfg (io.mapBridge (Bridge.clearBusy cfg)) :=
  h.mapBridge h.bridge

theorem chunk_le : chunk cfg io ≤ 512 := Nat.min_le_left ..

theorem AdapterInv.dmaStartSend (h : AdapterInv cfg io) : AdapterInv cfg (dmaStartSend cfg io) := by
  obtain ⟨-, -, ht⟩ := h.bridge
  exact h.mapBridge ⟨Nat.zero_le _, Nat.zero_le _, ht⟩

theorem AdapterInv.dmaStartRecv (h : AdapterInv cfg io) : AdapterInv cfg (dmaStartRecv cfg io) := by
  obtain ⟨-, -, ht⟩ := h.bridge
  exact .armTimer (h.mapBridge ⟨chunk_le, Nat.zero_le _, ht⟩)

/-- Of the reads, register 4 draws the DBP line and register 7 clears the interrupt (R314, R318). -/
theorem AdapterInv.readValue (h : AdapterInv cfg io) (reg : BitVec 3) : AdapterInv cfg (readValue cfg reg io).2 := by
  unfold Machine.readValue
  dsimp only
  split
  case h_5 => exact h.drawByte
  case h_8 =>
    have hc := h.ncrIrqClear
    obtain ⟨hicr, htcr, hisr, hirq⟩ := hc.regs
    exact hc.mapRegs (f := fun n => { n with isr := n.isr &&& ~~~0x04 }) hc.bus
      ⟨hicr, htcr, and_and_eq_zero hisr _, hirq.trans (hasBit_and_of_subset _ (by decide)).symm⟩
  all_goals exact h

/-- Of the writes, those of registers 1, 2 and 3 cut their value to the bits that are stored, or reset (R306 to R312). -/
theorem AdapterInv.writeEffect (h : AdapterInv cfg io) (reg : BitVec 3) (v : Byte) :
    AdapterInv cfg (writeEffect cfg reg v io) := by
  have ⟨hicr, htcr, hisr, hirq⟩ := h.regs
  unfold Machine.writeEffect
  dsimp only
  split
  case h_1 => exact h.mapRegs h.bus h.regs
  case h_2 =>
    split
    · exact adapterInv_adapterReset
    · exact h.mapRegs h.bus ⟨and_and_of_disjoint (by decide), htcr, hisr, hirq⟩
  case h_3 =>
    split
    · exact h.mapRegs h.bus h.regs
    · have hm : AdapterInv cfg (io.mapNcr fun n =>
          { n with mode := v, dmaMode := .idle, isr := n.isr &&& ~~~0x80, tcr := n.tcr &&& ~~~0x80 }) :=
        h.mapRegs h.bus ⟨hicr, and_and_eq_zero htcr _, and_and_eq_zero hisr _,
          hirq.trans (hasBit_and_of_subset _ (by decide)).symm⟩
      exact hm.disarm.clearBusy
  case h_4 =>
    exact h.mapRegs h.bus
      ⟨hicr, or_and_eq_zero (and_and_of_disjoint (by decide)) (and_and_of_disjoint (by decide)), hisr, hirq⟩
  case h_5 => exact h.mapRegs h.bus h.regs
  case h_6 =>
    split
    · exact (h.mapRegs (f := fun n => { n with dmaMode := .outTxBus }) h.bus h.regs).dmaStartSend
    · exact h
  case h_7 => exact h
  case h_8 =>
    split
    · exact (h.mapRegs (f := fun n => { n with dmaMode := .inTxBus }) h.bus h.regs).dmaStartRecv
    · exact h

theorem AdapterInv.regRead (hc : cfg.wf) (h : AdapterInv cfg io) (reg : BitVec 3) :
    AdapterInv cfg (regRead cfg reg io).2 := (h.hostUpdate hc).readValue reg

theorem AdapterInv.regWrite (hc : cfg.wf) (h : AdapterInv cfg io) (reg : BitVec 3) (v : Byte) :
    AdapterInv cfg (regWrite cfg reg v io) := (h.writeEffect reg v).hostUpdate hc

/-! ### The data port and the window (R332 to R337) -/

theorem AdapterInv.dataPortRead (h : AdapterInv cfg io) : AdapterInv cfg (dataPortRead cfg io).2 := by
  obtain ⟨-, hpos, ht⟩ := h.bridge
  unfold Machine.dataPortRead
  split
  · exact h
  · next hr =>
    simp only [not_or, Nat.not_le] at hr
    obtain ⟨-, hlt, -⟩ := hr
    have h1 : AdapterInv cfg (io.mapBridge fun b => { b with hostPos := b.hostPos + 1 }) :=
      h.mapBridge ⟨hlt.trans_le chunk_le, hpos, ht⟩
    dsimp only
    split
    · split
      · exact h1.clearBusy.mapRegs (f := fun n => { n with dmaMode := .idle }) h1.bus h1.regs
      · exact h1.clearBusy.armTimer
    · exact h1

theorem AdapterInv.dataPortWrite (h : AdapterInv cfg io) (v : Byte) : AdapterInv cfg (dataPortWrite cfg v io) := by
  obtain ⟨-, hpos, ht⟩ := h.bridge
  unfold Machine.dataPortWrite
  split
  · exact h
  · next hr =>
    simp only [not_or, Nat.not_le] at hr
    obtain ⟨-, hlt, -⟩ := hr
    have h1 : AdapterInv cfg (io.mapBridge fun b =>
        { b with buffer := b.buffer.setIfInBounds b.hostPos v, hostPos := b.hostPos + 1 }) :=
      h.mapBridge ⟨hlt.trans_le chunk_le, hpos, ht⟩
    dsimp only
    split
    · exact h1.clearBusy.armTimer
    · exact h1

theorem AdapterInv.bridgeRead (hc : cfg.wf) (h : AdapterInv cfg io) (off : Nat) :
    AdapterInv cfg (bridgeRead cfg off io).2 := by
  unfold Machine.bridgeRead
  dsimp only
  split
  · exact h
  · split
    · exact h
    · split
      · exact h
      · split
        · exact h.regRead hc _
        · split
          · exact h.dataPortRead
          · exact h

theorem AdapterInv.bridgeWrite (hc : cfg.wf) (h : AdapterInv cfg io) (off : Nat) (v : Byte) :
    AdapterInv cfg (bridgeWrite cfg off v io) := by
  unfold Machine.bridgeWrite
  dsimp only
  split
  · exact h.mapBridge h.bridge
  · split
    · exact h.regWrite hc _ v
    · split
      · exact h.dataPortWrite v
      · exact h

/-! ### The pump (R340 to R348) -/

theorem AdapterInv.pollReq (hc : cfg.wf) (h : AdapterInv cfg io) (phase : Word) (n : Nat) :
    AdapterInv cfg (pollReq cfg phase n io).2 := by
  induction n generalizing io with
  | zero => exact h
  | succ n ih =>
    simp only [Machine.pollReq]
    split
    · exact h.hostUpdate hc
    · exact ih (h.hostUpdate hc)

theorem pollReq_frame (phase : Word) (n : Nat) (io : Io) : BusFrame io (pollReq cfg phase n io).2 := by
  induction n generalizing io with
  | zero => exact .refl _
  | succ n ih =>
    simp only [pollReq]
    split
    · exact busUpdate_frame ..
    · exact (busUpdate_frame ..).trans (ih _)

theorem AdapterInv.handshake (hc : cfg.wf) (h : AdapterInv cfg io) (d : Byte) : AdapterInv cfg (handshake cfg d io) :=
  (h.busUpdate hc _).busUpdate hc _

theorem handshake_frame (d : Byte) (io : Io) : BusFrame io (handshake cfg d io) :=
  (busUpdate_frame ..).trans (busUpdate_frame ..)

theorem AdapterInv.endOfDma (h : AdapterInv cfg io) : AdapterInv cfg (endOfDma cfg io) := by
  obtain ⟨hicr, htcr, hisr, hirq⟩ := h.regs
  have h1 : AdapterInv cfg (io.mapNcr fun n => { n with isr := n.isr ||| 0x80, tcr := n.tcr ||| 0x80 }) :=
    h.mapRegs h.bus ⟨hicr, or_and_eq_zero htcr (by decide), or_and_eq_zero hisr (by decide),
      hirq.trans (hasBit_or_of_disjoint _ (by decide)).symm⟩
  unfold Machine.endOfDma
  dsimp only
  split
  · exact h1.ncrIrqSet
  · exact h1

theorem AdapterInv.chunkDone (h : AdapterInv cfg io) : AdapterInv cfg (chunkDone cfg io) := by
  obtain ⟨-, -, ht⟩ := h.bridge
  exact h.mapBridge ⟨Nat.zero_le _, Nat.zero_le _, ht⟩

/-- A byte moved and counted after a poll: the position stays in the buffer (R50, R344, R346). -/
theorem AdapterInv.moved {f : Bridge → Bridge} (hc : cfg.wf) (h : AdapterInv cfg io)
    (hlt : io.bridge.pos < chunk cfg io) (hf : ∀ b, f b = { b with buffer := (f b).buffer }) (phase : Word)
    (d : Io → Byte) :
    let polled := (Machine.pollReq cfg phase cfg.pollMax io).2
    AdapterInv cfg ((Machine.handshake cfg (d polled) polled).mapBridge fun b => (f b).countByte) := by
  intro polled
  have hframe : BusFrame io (Machine.handshake cfg (d polled) polled) := (pollReq_frame ..).trans (handshake_frame ..)
  have hh : AdapterInv cfg (Machine.handshake cfg (d polled) polled) := (h.pollReq hc phase cfg.pollMax).handshake hc _
  obtain ⟨hhost, -, ht⟩ := hh.bridge
  refine hh.mapBridge ?_
  rw [hf]
  exact ⟨hhost, hframe.bridge ▸ hlt.trans_le chunk_le, ht⟩

theorem AdapterInv.drain (hc : cfg.wf) (n : Nat) (h : AdapterInv cfg io) : AdapterInv cfg (drain cfg n io) := by
  induction n generalizing io with
  | zero => exact h.chunkDone
  | succ n ih =>
    simp only [Machine.drain]
    split
    · next hlt =>
      have hm := h.moved hc hlt (f := id) (fun _ => rfl) phaseDataOut fun io =>
        (io.bridge.buffer[io.bridge.pos]?).getD 0
      split
      · exact (h.pollReq hc _ _).armTimer
      · split
        · have he := hm.endOfDma
          obtain ⟨-, -, ht⟩ := he.bridge
          exact (he.mapRegs (f := fun n => { n with dmaMode := .idle }) he.bus he.regs).mapBridge
            ⟨Nat.zero_le _, Nat.zero_le _, ht⟩
        · exact ih hm
    · exact h.chunkDone

theorem AdapterInv.fill (hc : cfg.wf) (n : Nat) (h : AdapterInv cfg io) : AdapterInv cfg (fill cfg n io) := by
  induction n generalizing io with
  | zero => exact h.chunkDone
  | succ n ih =>
    simp only [Machine.fill]
    split
    · next hlt =>
      have hm := h.moved hc hlt
        (f := fun b =>
          { b with
            buffer := b.buffer.setIfInBounds b.pos
              (busGetData (busRead (Machine.pollReq cfg phaseDataIn cfg.pollMax io).2)) })
        (fun _ => rfl) phaseDataIn fun io => io.ncr.outputData
      split
      · exact (h.pollReq hc _ _).armTimer
      · split
        · have he := hm.endOfDma
          exact (he.mapBridge (f := fun b => { b with pumpDone := true }) he.bridge).chunkDone
        · exact ih hm
    · exact h.chunkDone

theorem AdapterInv.abortDma (h : AdapterInv cfg io) : AdapterInv cfg (abortDma cfg io) := by
  obtain ⟨hicr, htcr, hisr, hirq⟩ := h.regs
  have h1 : AdapterInv cfg (io.mapNcr fun n =>
      { n with mode := n.mode &&& ~~~0x02, dmaMode := .idle, isr := n.isr ||| 0x04 }) :=
    h.mapRegs h.bus ⟨hicr, htcr, or_and_eq_zero hisr (by decide), hirq.trans (hasBit_or_of_disjoint _ (by decide)).symm⟩
  exact h1.clearBusy.disarm

theorem AdapterInv.callback (hc : cfg.wf) (h : AdapterInv cfg io) : AdapterInv cfg (callback cfg io) := by
  unfold Machine.callback
  extract_lets idle drained
  have hidle : AdapterInv cfg idle := h.disarm
  have hdrained : AdapterInv cfg drained := by
    simp only [drained]
    split
    · exact hidle.drain hc _
    · exact hidle
  split
  · exact hidle.abortDma
  · split
    · exact hdrained.fill hc _
    · exact hdrained

/-- The accesses of a CPU step keep the adapter's invariant. -/
theorem AdapterInv.reach {io' : Io} (hc : cfg.wf) (h : AdapterInv cfg io) (hr : IoReach cfg io io') :
    AdapterInv cfg io' :=
  hr.induct (fun off _ h => h.bridgeRead hc off) (fun off v _ h => h.bridgeWrite hc off v)
    (fun r _ h => h.regRead hc r) (fun r v _ h => h.regWrite hc r v) (fun _ h => h.drawByte) (fun o _ h => h.emit o)
    (fun i d _ h => h.supply i d) h

end

/-! ### The invariant of the machine -/

section
variable {s t : State}

theorem machineInv_iff : MachineInv s ↔ Memory.wf s.mem = true ∧ s.cfg.wf ∧ AdapterInv s.cfg s.io :=
  ⟨fun ⟨hm, hc, hb, hr, hg⟩ => ⟨hm, hc, hb, hr, hg⟩, fun ⟨hm, hc, hb, hr, hg⟩ => ⟨hm, hc, hb, hr, hg⟩⟩

/-- The configuration is legal, and the device side meets its invariant. -/
theorem MachineInv.adapter (h : MachineInv s) : s.cfg.wf ∧ AdapterInv s.cfg s.io := (machineInv_iff.1 h).2

/-- What accesses leave meets the invariant again. -/
theorem Keeps.machineInv (hk : Keeps s t) (h : MachineInv s) : MachineInv t := by
  obtain ⟨hm, hc, ha⟩ := machineInv_iff.1 h
  rw [machineInv_iff, hk.cfg]
  exact ⟨hk.wf hm, hc, ha.reach hc hk.io⟩

theorem MachineInv.setIo {io : Io} (h : MachineInv s) (ha : AdapterInv s.cfg io) : MachineInv (s.setIo io) := by
  obtain ⟨hm, hc, -⟩ := machineInv_iff.1 h
  exact machineInv_iff.2 ⟨hm, hc, ha⟩

/-- The invariant does not speak of the CPU context. -/
theorem MachineInv.withCpu (h : MachineInv s) (cpu : Cpu) : MachineInv { s with cpu := cpu } := h

theorem exec_keeps_inv {i : Instr} (h : MachineInv s) (he : exec i s = .next t) : MachineInv t := by
  obtain ⟨-, ⟨-, -, rfl⟩ | ⟨-, k, u, hu, -, rfl⟩ | ⟨-, -, w, v, f, u, hw, -, -, -, rfl⟩⟩ := exec_cases he
  · exact h.withCpu _
  · exact (hu.machineInv h).withCpu _
  · exact (hw.machineInv h).withCpu _

theorem cpuStep_keeps_inv (h : MachineInv s) (hs : cpuStep s = .next t) : MachineInv t := by
  have hk : (fetch s).Kept s := fetchFrom_kept _ _ _
  unfold cpuStep at hs
  split at hs
  · next k u hf =>
    rw [hf] at hk
    cases hs
    exact ((fetchUndone_keeps hk).machineInv h).withCpu _
  · next bytes u hf =>
    rw [hf] at hk
    split at hs
    · cases hs
    · exact exec_keeps_inv (Keeps.machineInv hk h) hs

theorem timerTick_keeps_inv (h : MachineInv s) : MachineInv (timerTick s) := by
  unfold timerTick
  split
  · next ha =>
    obtain ⟨hc, hi⟩ := h.adapter
    obtain ⟨hhost, hpos, -⟩ := hi.bridge
    exact h.setIo (hi.mapBridge ⟨hhost, hpos, fun e => by simp [ha] at e⟩)
  · exact h

theorem agentStep_keeps_inv (h : MachineInv s) (hs : agentStep s = .next t) : MachineInv t := by
  obtain ⟨hc, hi⟩ := h.adapter
  unfold agentStep at hs
  split at hs
  · cases hs
    exact h.setIo (hi.callback hc)
  · unfold cpuTurn at hs
    split at hs
    · exact cpuStep_keeps_inv (timerTick_keeps_inv h) hs
    · split at hs
      · cases hs
        exact timerTick_keeps_inv h
      · cases hs

theorem envAccess_keeps (a : EnvAccess) (s : State) : Keeps s (envAccess a s) := by
  cases a with
  | memRead addr => exact memRead_keeps addr s
  | memWrite addr b => exact memWrite_keeps addr b s
  | portRead port => exact portRead8_keeps port s
  | portWrite port b => exact portWrite8_keeps port b s

theorem envAccesses_keep (l : List EnvAccess) (s : State) : Keeps s (l.foldl (fun s a => envAccess a s) s) := by
  induction l generalizing s with
  | nil => exact .refl _
  | cons a l ih => exact (envAccess_keeps a s).trans (ih _)

theorem envEvent_keeps_inv (h : MachineInv s) (e : EnvEvent) : MachineInv (envEvent e s) := by
  obtain ⟨-, hi⟩ := h.adapter
  cases e with
  | deliver accesses cpu => exact ((envAccesses_keep accesses s).machineInv h).withCpu _
  | cpuReset => exact (h.setIo (hi.supply s.io.inputs (s.io.drawn + 8))).withCpu _
  | adapterReset => exact h.setIo adapterInv_adapterReset

end

/-- Settles O41, by whose turn it is: an event of the environment (`envEvent_keeps_inv`), the timer's callback
(`AdapterInv.callback`) or the CPU, whose accesses keep the adapter's invariant (`AdapterInv.reach`). -/
theorem stepKeepsInv : Obligations.StepKeepsInv := by
  unfold Obligations.StepKeepsInv
  intro s t h hs
  unfold step at hs
  split at hs
  · next e rest _ =>
    cases hs
    exact envEvent_keeps_inv (s := s.setAgenda rest) h e
  · next rest _ => exact agentStep_keeps_inv (s := s.setAgenda rest) h hs
  · exact agentStep_keeps_inv h hs

end Sys2Proof.Machine
end

section
/-! The NCR5380 register file (R300 to R326): the interrupt line, the host's bus word, what each read answers and what
each write leaves. -/
namespace Sys2Proof.Machine

/-! ### Single bits -/

/-- A mask of one bit tests that bit. -/
theorem hasBit_bit (r m : Byte) (k : Nat) (hm : m = BitVec.twoPow 8 k) (hk : k < 8 := by decide) :
    hasBit r m = r.getLsbD k := by
  rw [Bool.eq_iff_iff, hasBit, decide_eq_true_eq, hm, BitVec.and_twoPow]
  cases r.getLsbD k
  · simp
  · simpa using fun h0 => by simpa [hk] using congrArg (fun x => x.getLsbD k) h0

theorem getLsbD_ite_twoPow {w k : Nat} (c : Bool) (hk : k < w) (j : Nat) :
    (if c then BitVec.twoPow w k else 0#w).getLsbD j = (c && decide (k = j)) := by
  cases c <;> simp [hk]

/-- What a register shows of one bit of another. -/
theorem getLsbD_and_bit (r m : Byte) (k : Nat) (hm : m = BitVec.twoPow 8 k) (j : Nat) (hk : k < 8 := by decide) :
    (r &&& m).getLsbD j = (r.getLsbD k && decide (k = j)) := by
  rw [hm, BitVec.and_twoPow, getLsbD_ite_twoPow _ hk]

theorem getLsbD_bitIf (c : Bool) (m : Byte) (k : Nat) (hm : m = BitVec.twoPow 8 k) (j : Nat)
    (hk : k < 8 := by decide) : (bitIf c m).getLsbD j = (c && decide (k = j)) := by
  rw [bitIf, hm, ← getLsbD_ite_twoPow c hk]
  rfl

/-- What the bus word shows of one bit of a register. -/
theorem getLsbD_lineIf (r m : Byte) (line : Word) (i k : Nat) (hm : m = BitVec.twoPow 8 i)
    (hl : line = BitVec.twoPow 32 k) (j : Nat) (hi : i < 8 := by decide) (hk : k < 32 := by decide) :
    (if hasBit r m then line else 0).getLsbD j = (r.getLsbD i && decide (k = j)) := by
  rw [hasBit_bit r m i hm hi, hl, ← getLsbD_ite_twoPow _ hk]
  rfl

theorem getLsbD_busSetData (v : Byte) (j : Nat) :
    (busSetData v).getLsbD j = (!decide (j < 16) && v.getLsbD (j - 16)) := by
  rw [busSetData, BitVec.getLsbD_shiftLeft, BitVec.getLsbD_setWidth]
  by_cases h : j < 24
  · have h1 : j < 32 := by omega
    have h2 : j - 16 < 32 := by omega
    simp [h1, h2]
  · have h1 : 8 ≤ j - 16 := by omega
    simp [BitVec.getLsbD_of_ge v _ h1]

/-! ### The interrupt line (R320, R347) -/

section
variable {cfg : Cfg} {io : Io}

theorem ncrIrqSet_eq : ncrIrqSet cfg io = { io with
    ncr := { io.ncr with irqState := true, isr := io.ncr.isr ||| 0x10 },
    outputs := if cfg.irqLine ≠ -1 then .irqRaise cfg.irqLine :: io.outputs else io.outputs } := by
  unfold ncrIrqSet
  split <;> rfl

theorem ncrIrqClear_eq : ncrIrqClear cfg io = { io with
    ncr := { io.ncr with irqState := false, isr := io.ncr.isr &&& ~~~0x10 },
    outputs := if cfg.irqLine ≠ 1 ∧ cfg.irqLine ≠ -1 then .irqLower cfg.irqLine :: io.outputs else io.outputs } := by
  unfold ncrIrqClear
  split <;> rfl

end

/-- Settles O60: the two bits of the end, then `NcrIrq`'s two effects (`ncrIrqSet_eq`, `ncrIrqClear_eq`). -/
theorem interruptLine : Obligations.InterruptLine := by
  unfold Obligations.InterruptLine
  intro cfg io
  have hena : hasBit io.ncr.mode 0x08 = io.ncr.mode.getLsbD 3 := hasBit_bit _ _ 3 rfl
  refine ⟨fun h => ?_, fun h => ?_, ?_⟩
  · have hm : hasBit io.ncr.mode 0x08 = true := hena.trans h
    have hisr : io.ncr.isr ||| 0x80 ||| 0x10 = io.ncr.isr ||| 0x90 := BitVec.or_assoc ..
    rw [endOfDma, mapNcr_ncr, if_pos hm, ncrIrqSet_eq, mapNcr_ncr, hisr]
    rfl
  · have hm : hasBit io.ncr.mode 0x08 = false := hena.trans h
    rw [endOfDma, mapNcr_ncr, if_neg (Bool.eq_false_iff.1 hm)]
    rfl
  · rw [ncrIrqClear_eq]
    simp only [← not_or, ite_not]

/-! ### The host's lines (R302) -/

/-- Every bit of the host's bus word. -/
theorem getLsbD_hostBus (n : Ncr) (j : Nat) : (hostBus n).getLsbD j =
    (!decide (j < 16) && n.outputData.getLsbD (j - 16) || n.icr.getLsbD 1 && decide (8 = j) ||
      n.icr.getLsbD 2 && decide (1 = j) || n.icr.getLsbD 3 && decide (6 = j) || n.icr.getLsbD 4 && decide (9 = j) ||
      n.tcr.getLsbD 0 && decide (2 = j) || n.tcr.getLsbD 1 && decide (3 = j) || n.tcr.getLsbD 2 && decide (4 = j) ||
      n.tcr.getLsbD 3 && decide (5 = j) || n.mode.getLsbD 0 && decide (15 = j)) := by
  simp only [hostBus, BitVec.getLsbD_or, getLsbD_busSetData]
  rw [getLsbD_lineIf _ 0x02 busAtn 1 8 rfl rfl, getLsbD_lineIf _ 0x04 busSel 2 1 rfl rfl,
    getLsbD_lineIf _ 0x08 busBsy 3 6 rfl rfl, getLsbD_lineIf _ 0x10 busAck 4 9 rfl rfl,
    getLsbD_lineIf _ 0x01 busIo 0 2 rfl rfl, getLsbD_lineIf _ 0x02 busCd 1 3 rfl rfl,
    getLsbD_lineIf _ 0x04 busMsg 2 4 rfl rfl, getLsbD_lineIf _ 0x08 busReq 3 5 rfl rfl,
    getLsbD_lineIf _ 0x01 busArb 0 15 rfl rfl]

theorem hostBus_data (n : Ncr) {k : Nat} (hk : k < 8) : (hostBus n).getLsbD (16 + k) = n.outputData.getLsbD k := by
  have h (i : Nat) (hi : i < 16) : decide (i = 16 + k) = false := decide_eq_false (by omega)
  simp [getLsbD_hostBus, h]

/-- The bits of the bus word that no register drives. -/
theorem hostBus_undriven (n : Ncr) {k : Nat} (hk : k ∉ [1, 2, 3, 4, 5, 6, 8, 9, 15]) (hr : k < 16 ∨ 24 ≤ k) :
    (hostBus n).getLsbD k = false := by
  simp only [List.mem_cons, List.not_mem_nil, or_false, not_or, ← ne_eq] at hk
  obtain ⟨h1, h2, h3, h4, h5, h6, h8, h9, h15⟩ := hk
  have hd : (!decide (k < 16) && n.outputData.getLsbD (k - 16)) = false := by
    rcases hr with h | h
    · simp [h]
    · simp [BitVec.getLsbD_of_ge n.outputData (k - 16) (by omega)]
  simp [getLsbD_hostBus, hd, h1.symm, h2.symm, h3.symm, h4.symm, h5.symm, h6.symm, h8.symm, h9.symm, h15.symm]

/-! ### The reads (R303 to R318) -/

section
variable {cfg : Cfg} {io : Io}

/-- An access updates the bus first, and that leaves every register as it is. -/
theorem hostUpdate_frame (io : Io) : BusFrame io (hostUpdate cfg io) := busUpdate_frame ..

theorem drawByte_free (h : io.inputs = []) :
    drawByte io = (Config.freeByte io.drawn, { io with drawn := io.drawn + 1 }) := by
  simp [drawByte, h]

theorem regRead_currentData : regRead cfg 0 io =
    (if io.ncr.icr.getLsbD 0 then io.ncr.outputData else busGetData (hostUpdate cfg io).ncr.curBus,
      hostUpdate cfg io) := by
  obtain ⟨hdata, hicr, -⟩ := (hostUpdate_frame (cfg := cfg) io).regs
  rw [← hdata, ← hicr, ← hasBit_bit _ 0x01 0 rfl]
  rfl

theorem regRead_initiatorCommand : regRead cfg 1 io =
    ((io.ncr.icr &&& 0x1F) ||| (if io.ncr.mode.getLsbD 0 then 0x40 else 0), hostUpdate cfg io) := by
  obtain ⟨-, hicr, hmode, -⟩ := (hostUpdate_frame (cfg := cfg) io).regs
  rw [← hicr, ← hmode, ← hasBit_bit _ 0x01 0 rfl]
  rfl

theorem regRead_mode : regRead cfg 2 io = (io.ncr.mode, hostUpdate cfg io) := by
  obtain ⟨-, -, hmode, -⟩ := (hostUpdate_frame (cfg := cfg) io).regs
  rw [← hmode]
  rfl

theorem regRead_targetCommand : regRead cfg 3 io = (io.ncr.tcr &&& 0x8F, hostUpdate cfg io) := by
  obtain ⟨-, -, -, htcr, -⟩ := (hostUpdate_frame (cfg := cfg) io).regs
  rw [← htcr]
  rfl

/-- Register 4 shows the byte drawn for its unspecified bit 0 (R314, log 9). -/
theorem regRead_busStatus : regRead cfg 4 io =
    (busStatusValue (drawByte (hostUpdate cfg io)).2 ||| ((drawByte (hostUpdate cfg io)).1 &&& 0x01),
      (drawByte (hostUpdate cfg io)).2) := rfl

theorem drawByte_ncr : (drawByte io).2.ncr = io.ncr := by
  unfold drawByte
  split <;> rfl

/-- The bits of register 4: the low byte of the target's lines above the unspecified bit (R314). -/
theorem getLsbD_busStatus (b : Byte) {k : Nat} (hk : k < 8) :
    (busStatusValue io ||| (b &&& 0x01)).getLsbD k = if k = 0 then b.getLsbD 0 else io.ncr.curBus.getLsbD k := by
  rw [BitVec.getLsbD_or, getLsbD_and_bit _ 0x01 0 rfl, busStatusValue, busRead]
  interval_cases k <;> simp

/-- Reading register 7 clears the interrupt and BUSY_ERROR (R318). -/
theorem regRead_resetInterrupt : regRead cfg 7 io = (0x00, { hostUpdate cfg io with
    ncr := { (hostUpdate cfg io).ncr with irqState := false, isr := io.ncr.isr &&& 0xEB },
    outputs := if cfg.irqLine ≠ 1 ∧ cfg.irqLine ≠ -1 then .irqLower cfg.irqLine :: io.outputs else io.outputs }) := by
  have hf := hostUpdate_frame (cfg := cfg) io
  obtain ⟨-, -, -, -, -, hisr⟩ := hf.regs
  have hmask : (hostUpdate cfg io).ncr.isr &&& ~~~0x10 &&& ~~~0x04 = io.ncr.isr &&& 0xEB := by
    rw [hisr]
    exact BitVec.and_assoc ..
  rw [← hmask, ← hf.outputs]
  change ((0x00 : Byte), (ncrIrqClear cfg (hostUpdate cfg io)).mapNcr fun n => { n with isr := n.isr &&& ~~~0x04 }) = _
  rw [ncrIrqClear_eq]
  rfl

/-- A line the target side never drives is clear (R290). -/
theorem getLsbD_of_driven {b : Word} (h : Driven b) {k : Nat} (hk : (~~~drivenMask).getLsbD k = true) :
    b.getLsbD k = false := by
  simpa [hk] using congrArg (fun x => x.getLsbD k) h

/-- PHASE_MATCH in numbers: the phase code is the low three bits of `tcr` (R142, R315). -/
theorem phaseMatch_iff (b : Word) (t : Byte) :
    ((b &&& phaseMask) >>> 2).setWidth 8 = t &&& 0x07 ↔ (b &&& phaseMask).toNat / 4 = t.toNat % 8 := by
  have hb : (b &&& phaseMask).toNat ≤ 0x1C := by
    rw [BitVec.toNat_and]
    exact Nat.and_le_right
  have ht : t.toNat &&& 7 = t.toNat % 8 := Nat.and_two_pow_sub_one_eq_mod t.toNat 3
  rw [← BitVec.toNat_inj, BitVec.toNat_setWidth, BitVec.toNat_ushiftRight, Nat.shiftRight_eq_div_pow,
    BitVec.toNat_and t, show BitVec.toNat (0x07 : Byte) = 7 from rfl, ht, Nat.mod_eq_of_lt (by omega)]

/-- Every bit of register 5 (R315). -/
theorem getLsbD_busAndStatus (j : Nat) : (busAndStatusValue io).getLsbD j =
    (io.ncr.isr.getLsbD 7 && decide (7 = j) ||
      (decide (io.ncr.dmaMode ≠ .idle) && hasLine io.ncr.curBus busReq) && decide (6 = j) ||
      io.ncr.isr.getLsbD 4 && decide (4 = j) ||
      decide ((io.ncr.curBus &&& phaseMask).toNat / 4 = io.ncr.tcr.toNat % 8) && decide (3 = j) ||
      io.ncr.isr.getLsbD 2 && decide (2 = j) || io.ncr.icr.getLsbD 1 && decide (1 = j) ||
      io.ncr.icr.getLsbD 4 && decide (0 = j)) := by
  simp only [busAndStatusValue, BitVec.getLsbD_or, busRead, phaseMatch_iff]
  rw [getLsbD_and_bit _ 0x80 7 rfl, getLsbD_bitIf _ 0x40 6 rfl, getLsbD_and_bit _ 0x10 4 rfl,
    getLsbD_bitIf _ 0x08 3 rfl, getLsbD_and_bit _ 0x04 2 rfl, getLsbD_bitIf _ 0x02 1 rfl, getLsbD_bitIf _ 0x01 0 rfl,
    hasBit_bit _ 0x02 1 rfl, hasBit_bit _ 0x10 4 rfl]

/-- Register 4 reads the target's lines of the update above its unspecified bit (R314). -/
theorem regRead_busStatus_getLsbD {k : Nat} (hk : k < 8) (h0 : k ≠ 0) :
    (regRead cfg 4 io).1.getLsbD k = (busUpdate cfg (hostBus io.ncr) io).ncr.curBus.getLsbD k := by
  rw [regRead_busStatus, getLsbD_busStatus _ hk, if_neg h0, drawByte_ncr]
  rfl

/-- Register 5 reads the lines of the update beside the registers that stood before it (R315). -/
theorem regRead_busAndStatus_getLsbD (j : Nat) :
    let u := busUpdate cfg (hostBus io.ncr) io
    (regRead cfg 5 io).1.getLsbD j = (io.ncr.isr.getLsbD 7 && decide (7 = j) ||
      (decide (io.ncr.dmaMode ≠ .idle) && hasLine u.ncr.curBus busReq) && decide (6 = j) ||
      io.ncr.isr.getLsbD 4 && decide (4 = j) ||
      decide ((u.ncr.curBus &&& phaseMask).toNat / 4 = io.ncr.tcr.toNat % 8) && decide (3 = j) ||
      io.ncr.isr.getLsbD 2 && decide (2 = j) || io.ncr.icr.getLsbD 1 && decide (1 = j) ||
      io.ncr.icr.getLsbD 4 && decide (0 = j)) := by
  have hu := busUpdate_frame cfg (hostBus io.ncr) io
  obtain ⟨-, hicr, -, htcr, -, hisr⟩ := hu.regs
  rw [← hisr, ← hicr, ← htcr, ← hu.dmaMode]
  exact getLsbD_busAndStatus (io := busUpdate cfg (hostBus io.ncr) io) j

end

/-- Settles O52: the host's word by its bits (`getLsbD_hostBus`), then each read's answer after the update, which
leaves the registers (`hostUpdate_frame`). -/
theorem registerReads : Obligations.RegisterReads := by
  unfold Obligations.RegisterReads
  intro cfg io
  have hf := hostUpdate_frame (cfg := cfg) io
  refine ⟨fun k hk => hostBus_data _ hk, ?_, ?_, ?_, ?_, ?_, ?_, ?_, ?_, ?_, fun k hk hr => hostBus_undriven _ hk hr,
    regRead_currentData, regRead_initiatorCommand, regRead_mode, regRead_targetCommand, fun b rest hin => ?_,
    fun hin => ?_, rfl, rfl, regRead_resetInterrupt, fun hc hi => ?_, fun hr => ?_⟩
  iterate 9
    · rw [getLsbD_hostBus]
      simp
  · rw [regRead_busStatus, drawByte_supplied (hf.inputs.trans hin)]
    exact ⟨rfl, getLsbD_busStatus b (k := 0) (by decide)⟩
  · rw [regRead_busStatus, drawByte_free (hf.inputs.trans hin), hf.drawn]
    rfl
  · obtain ⟨⟨-, hdriven⟩, -⟩ := hi.busUpdate (bus := hostBus io.ncr) hc
    have undriven (k : Nat) (hk : k < 8) (h0 : k ≠ 0) (hm : (~~~drivenMask).getLsbD k = true) :=
      (regRead_busStatus_getLsbD (cfg := cfg) (io := io) hk h0).trans (getLsbD_of_driven hdriven hm)
    have shows (k : Nat) (hk : k < 8) (h0 : k ≠ 0) :=
      (regRead_busStatus_getLsbD (cfg := cfg) (io := io) hk h0).trans (hasLine_bit _ k (by omega)).symm
    exact ⟨undriven 7 (by decide) (by decide) (by decide), shows 6 (by decide) (by decide),
      shows 5 (by decide) (by decide), shows 4 (by decide) (by decide), shows 3 (by decide) (by decide),
      shows 2 (by decide) (by decide), undriven 1 (by decide) (by decide) (by decide)⟩
  · obtain ⟨-, -, -, hirq⟩ := hr
    rw [hirq, hasBit_bit _ 0x10 4 rfl]
    refine ⟨?_, ?_, ?_, ?_, ?_, ?_, ?_, ?_⟩
    all_goals
      rw [regRead_busAndStatus_getLsbD]
      simp

/-! ### The writes (R303 to R318, R338) -/

section
variable {cfg : Cfg} {io : Io}

/-- The update after a write leaves the registers and the bridge as the write's own effect set them (R301). -/
theorem regWrite_frame (reg : BitVec 3) (v : Byte) : BusFrame (writeEffect cfg reg v io) (regWrite cfg reg v io) :=
  hostUpdate_frame _

/-- The phase machine of a core just reset stays in IDLE: the host drives no line (R61, R262). -/
theorem hostUpdate_afterReset (h : io.ncr = .afterReset) : hostUpdate cfg io = io := by
  have hb : hostBus io.ncr = 0 := by rw [h]; decide
  have hs : io.ncr.state = .idle := by rw [h]; rfl
  rw [hostUpdate, hb, busUpdate_idle (busInv_afterReset h) hs (by decide), if_neg (by decide)]
  exact mapNcr_eq_self (by rw [h]; rfl)

theorem adapterReset_eq : adapterReset cfg io = { io with
    ncr := .afterReset, bridge := .afterReset (Config.bridgeBuffer io.drawn), drawn := io.drawn + 1,
    outputs := if cfg.irqLine ≠ 1 ∧ cfg.irqLine ≠ -1 then .irqLower cfg.irqLine :: io.outputs else io.outputs } := by
  have hn : { Ncr.afterReset with irqState := false, isr := Ncr.afterReset.isr &&& ~~~0x10 } = .afterReset :=
    congrArg (fun isr => { Ncr.afterReset with isr := isr }) (show Ncr.afterReset.isr &&& ~~~0x10 = 0 by decide)
  rw [adapterReset, ncrIrqClear_eq, ← hn]
  rfl

theorem writeEffect_reset {v : Byte} (h : v.getLsbD 7 = true) : writeEffect cfg 1 v io = adapterReset cfg io :=
  if_pos ((hasBit_bit v 0x80 7 rfl).trans h)

theorem writeEffect_icr {v : Byte} (h : v.getLsbD 7 = false) :
    writeEffect cfg 1 v io = io.mapNcr fun n => { n with icr := v &&& 0x1F } :=
  if_neg (Bool.eq_false_iff.1 ((hasBit_bit v 0x80 7 rfl).trans h))

end

/-- Settles O53: the reset (`adapterReset_eq`), which the update after it leaves as it is (`hostUpdate_afterReset`), and
the store. -/
theorem softReset : Obligations.SoftReset := by
  unfold Obligations.SoftReset
  intro cfg io v
  refine ⟨fun h => ?_, fun h => ?_⟩
  · rw [regWrite, writeEffect_reset h, adapterReset_eq, hostUpdate_afterReset rfl]
    exact ⟨rfl, ⟨_, rfl⟩, rfl, rfl⟩
  · rw [regWrite, writeEffect_icr h]
    rfl

section
variable {cfg : Cfg} {io : Io} {v : Byte}

/-- Arming changes the timer alone, and what its delay is drawn from (R350). -/
theorem armTimer_changes : (armTimer io).ncr = io.ncr ∧
    ∃ wait, (armTimer io).bridge = { io.bridge with timerArmed := true, timerWait := wait } := by
  have hd : (drawDelay io).2.ncr = io.ncr ∧ (drawDelay io).2.bridge = io.bridge := by
    unfold drawDelay
    split <;> exact ⟨rfl, rfl⟩
  obtain ⟨hn, hb⟩ := hd
  unfold armTimer
  split
  · next ha => exact ⟨rfl, io.bridge.timerWait, by rw [← ha]⟩
  · exact ⟨hn, (drawDelay io).1, by rw [← hb]; rfl⟩

/-- A receive starts with the buffer closed to the host and the timer armed (R338). -/
theorem dmaStartRecv_changes : (dmaStartRecv cfg io).ncr = io.ncr ∧
    ∃ wait, (dmaStartRecv cfg io).bridge = { io.bridge with
      pos := 0, hostPos := chunk cfg io, total := 0, pumpDone := false, status := io.bridge.status &&& ~~~cfg.busyBit,
      timerArmed := true, timerWait := wait } := armTimer_changes

theorem writeEffect_mode_dma (h : v.getLsbD 1 = true) :
    writeEffect cfg 2 v io = io.mapNcr fun n => { n with mode := v } :=
  if_pos ((hasBit_bit _ 0x02 1 rfl).trans h)

/-- Clearing DMA_MODE ends DMA (R309). -/
theorem writeEffect_mode_noDma (h : v.getLsbD 1 = false) :
    writeEffect cfg 2 v io = { io with
      ncr := { io.ncr with
        mode := v, dmaMode := .idle, isr := io.ncr.isr &&& 0x7F, tcr := io.ncr.tcr &&& 0x7F },
      bridge := io.bridge.disarm.clearBusy cfg } :=
  if_neg (Bool.eq_false_iff.1 ((hasBit_bit _ 0x02 1 rfl).trans h))

theorem writeEffect_startSend (h : io.ncr.mode.getLsbD 1 = true) :
    writeEffect cfg 5 v io = dmaStartSend cfg (io.mapNcr fun n => { n with dmaMode := .outTxBus }) :=
  if_pos ((hasBit_bit _ 0x02 1 rfl).trans h)

theorem writeEffect_startReceive (h : io.ncr.mode.getLsbD 1 = true) :
    writeEffect cfg 7 v io = dmaStartRecv cfg (io.mapNcr fun n => { n with dmaMode := .inTxBus }) :=
  if_pos ((hasBit_bit _ 0x02 1 rfl).trans h)

/-- Without DMA_MODE the start registers store nothing (R316, R318). -/
theorem writeEffect_noStart (h : io.ncr.mode.getLsbD 1 = false) :
    writeEffect cfg 5 v io = io ∧ writeEffect cfg 7 v io = io :=
  have hbit : ¬ hasBit io.ncr.mode 0x02 = true := Bool.eq_false_iff.1 ((hasBit_bit _ 0x02 1 rfl).trans h)
  ⟨if_neg hbit, if_neg hbit⟩

end

/-- Settles O54: each write's own effect, kept by the update after it (`regWrite_frame`). -/
theorem dmaStartAndEnd : Obligations.DmaStartAndEnd := by
  unfold Obligations.DmaStartAndEnd
  intro cfg io v
  refine ⟨rfl, rfl, rfl, rfl, fun h => ?_, fun h => ?_, fun h => ?_, fun h => ?_, fun h => ?_⟩
  · rw [regWrite, writeEffect_mode_dma h]
    rfl
  · have hf := regWrite_frame (cfg := cfg) (io := io) 2 v
    rw [writeEffect_mode_noDma h] at hf
    obtain ⟨-, -, hmode, htcr, -, hisr⟩ := hf.regs
    dsimp only
    rw [hf.bridge]
    exact ⟨hmode, hf.dmaMode, hisr, htcr, rfl, rfl, rfl, rfl, rfl, rfl⟩
  · have hf := regWrite_frame (cfg := cfg) (io := io) 5 v
    rw [writeEffect_startSend h] at hf
    dsimp only
    rw [hf.bridge]
    exact ⟨hf.dmaMode, rfl, rfl, rfl, rfl, rfl, rfl⟩
  · have hf := regWrite_frame (cfg := cfg) (io := io) 7 v
    rw [writeEffect_startReceive h] at hf
    obtain ⟨hncr, wait, hb⟩ :=
      dmaStartRecv_changes (cfg := cfg) (io := io.mapNcr fun n => { n with dmaMode := .inTxBus })
    dsimp only
    rw [hf.bridge, hf.dmaMode, hncr, hb]
    exact ⟨rfl, rfl, rfl, rfl, rfl, rfl, rfl⟩
  · obtain ⟨h5, h7⟩ := writeEffect_noStart (cfg := cfg) (v := v) h
    rw [regWrite, h5, regWrite, h7]
    exact ⟨rfl, rfl⟩

end Sys2Proof.Machine
end

section
/-! The bridge timer and the callbacks that move nothing (R340, R348, R350). -/
namespace Sys2Proof.Machine

/-! ### The timer (R350, R382) -/

section
variable {s : State}

theorem agentStep_due (ha : s.io.bridge.timerArmed = true) (hw : s.io.bridge.timerWait = 0) :
    agentStep s = .next (s.setIo (callback s.cfg s.io)) :=
  if_pos (by rw [timerDue, ha, hw]; rfl)

/-- A stopped CPU waits one step of the armed timer's delay (R370, log 6). -/
theorem agentStep_waits {k : Abort} (ha : s.io.bridge.timerArmed = true) (hw : s.io.bridge.timerWait ≠ 0)
    (hk : s.cpu.abrt = some k) :
    agentStep s = .next (s.setIo (s.io.mapBridge fun b => { b with timerWait := b.timerWait - 1 })) := by
  have hdue : ¬ timerDue s = true := by simp [timerDue, hw]
  have htick : timerTick s = s.setIo (s.io.mapBridge fun b => { b with timerWait := b.timerWait - 1 }) := if_pos ha
  rw [agentStep, if_neg hdue, cpuTurn, timerTick_cpu, hk, htick]
  exact if_pos ha

theorem step_of_empty_agenda (h : s.agenda = []) : step s = agentStep s := by
  rw [step, h]

/-- With the CPU stopped, the delay runs out and the callback follows (R350, R382). -/
theorem runsTo_callback {k : Abort} (n : Nat) (ha : s.io.bridge.timerArmed = true) (he : s.agenda = [])
    (hk : s.cpu.abrt = some k) (hn : s.io.bridge.timerWait = n) :
    RunsTo (n + 1) s (s.setIo (callback s.cfg (s.io.mapBridge fun b => { b with timerWait := 0 }))) := by
  induction n generalizing s with
  | zero =>
    have hio : (s.io.mapBridge fun b => { b with timerWait := 0 }) = s.io := by rw [Io.mapBridge, ← hn]
    rw [hio]
    exact ⟨_, (step_of_empty_agenda he).trans (agentStep_due ha hn), rfl⟩
  | succ n ih =>
    refine ⟨_, (step_of_empty_agenda he).trans (agentStep_waits ha (by omega) hk), ?_⟩
    exact ih (s := s.setIo _) ha he hk (by exact Nat.sub_eq_of_eq_add hn)

end

/-- Settles O9: the due step (`agentStep_due`), and the delay before it by induction (`runsTo_callback`). -/
theorem timerFires : Obligations.TimerFires := by
  unfold Obligations.TimerFires
  intro s ha
  refine ⟨fun he hw => ?_, fun k n he hk hn => runsTo_callback n ha he hk hn⟩
  rw [step_agent he]
  exact agentStep_due ha hw

/-! ### The callback without a transfer to move (R340, R348) -/

section
variable {cfg : Cfg} {io : Io}

theorem busyLost_iff : busyLost io = true ↔
    io.ncr.mode.getLsbD 2 = true ∧ hasLine io.ncr.curBus busBsy = false ∧ io.ncr.dmaMode ≠ .idle := by
  simp only [busyLost, busRead, hasBit_bit _ 0x04 2 rfl, Bool.and_eq_true, Bool.not_eq_true', decide_eq_true_eq,
    and_assoc]

theorem callback_of_busyLost (h : busyLost io = true) :
    callback cfg io = abortDma cfg (io.mapBridge Bridge.disarm) := if_pos h

/-- Sending never turns to receiving (R344). -/
theorem drain_dmaMode (n : Nat) :
    (drain cfg n io).ncr.dmaMode = io.ncr.dmaMode ∨ (drain cfg n io).ncr.dmaMode = .idle := by
  induction n generalizing io with
  | zero => exact .inl rfl
  | succ n ih =>
    have hpoll := (pollReq_frame (cfg := cfg) phaseDataOut cfg.pollMax io).dmaMode
    simp only [drain]
    split
    · split
      · obtain ⟨hncr, -⟩ := armTimer_changes (io := (pollReq cfg phaseDataOut cfg.pollMax io).2)
        exact .inl ((congrArg Ncr.dmaMode hncr).trans hpoll)
      · split
        · exact .inr rfl
        · refine ih.imp_left fun h => h.trans ?_
          exact (handshake_frame (cfg := cfg) _ _).dmaMode.trans hpoll
    · exact .inl rfl

/-- A chunk to send is drained, and nothing is received (R340). -/
theorem callback_of_send (h : ¬ busyLost io = true) (hm : io.ncr.dmaMode = .outTxBus)
    (hh : io.bridge.hostPos = chunk cfg io) :
    callback cfg io = drain cfg chunkMax (io.mapBridge Bridge.disarm) := by
  unfold callback
  extract_lets idle drained
  have hd : drained = drain cfg chunkMax idle := if_pos ⟨hm, hh⟩
  have hmode : drained.ncr.dmaMode ≠ .inTxBus := by
    rw [hd]
    rcases drain_dmaMode (cfg := cfg) (io := idle) chunkMax with e | e
    · rw [e]
      exact ne_of_eq_of_ne hm nofun
    · rw [e]
      nofun
  rw [if_neg (by exact h), if_neg fun ⟨hin, _⟩ => hmode hin, hd]

/-- Without a chunk to send the callback receives a chunk, or does nothing (R340). -/
theorem callback_of_no_send (h : ¬ busyLost io = true)
    (hs : ¬ (io.ncr.dmaMode = .outTxBus ∧ io.bridge.hostPos = chunk cfg io)) :
    callback cfg io =
      if io.ncr.dmaMode = .inTxBus ∧ io.bridge.hostPos = chunk cfg io ∧ io.bridge.pumpDone = false then
        fill cfg chunkMax (io.mapBridge Bridge.disarm)
      else io.mapBridge Bridge.disarm := by
  unfold callback
  extract_lets idle drained
  have hd : drained = idle := if_neg hs
  rw [if_neg (by exact h), hd]
  rfl

end

/-- Settles O59: the busy guard's condition (`busyLost_iff`) decides; without it nothing is there to send or receive. -/
theorem busyLossAborts : Obligations.BusyLossAborts := by
  unfold Obligations.BusyLossAborts
  intro cfg io
  refine ⟨fun hm hb hd => callback_of_busyLost (busyLost_iff.2 ⟨hm, hb, hd⟩), fun hl hn => ?_⟩
  have hlost : ¬ busyLost io = true := fun h => by
    obtain ⟨hm, hb, hd⟩ := busyLost_iff.1 h
    rw [hm, hb] at hl
    simp [hd] at hl
  rw [callback_of_no_send hlost, if_neg]
  · rfl
  · rintro ⟨hm, hh, hp⟩
    simp [hm, hh, hp] at hn
  · rintro ⟨hm, hh⟩
    simp [hm, hh] at hn

end Sys2Proof.Machine
end

section
/-! The data port of the bridge (R336, R337, R426): the chunk read out by the host and written in by it, byte by
byte. -/
namespace Sys2Proof.Machine

/-! ### A list overwritten from a place on -/

/-- `l` with the bytes of `vs` from place `k` on. -/
def overwrite (l : List Byte) (k : Nat) (vs : List Byte) : List Byte := l.take k ++ vs ++ l.drop (k + vs.length)

section
variable {l : List Byte} {k : Nat}

theorem overwrite_nil : overwrite l k [] = l := by
  simp [overwrite]

/-- One byte stored and the rest after it. -/
theorem overwrite_set (v : Byte) (vs : List Byte) (h : k < l.length) :
    overwrite (l.set k v) (k + 1) vs = overwrite l k (v :: vs) := by
  have htake : (l.set k v).take (k + 1) = l.take k ++ [v] := by
    rw [List.take_add_one, List.getElem?_set_self h, List.take_set_of_le (Nat.le_refl k)]
    rfl
  have hdrop : (l.set k v).drop (k + 1 + vs.length) = l.drop (k + (vs.length + 1)) := by
    rw [List.drop_set_of_lt (by omega), Nat.add_assoc, Nat.add_comm 1]
  rw [overwrite, overwrite, htake, hdrop]
  simp

end

/-! ### The bytes of the buffer from a place on (R50) -/

section
variable {b : Vector Byte 512} {k : Nat}

theorem overwrite_setIfInBounds (v : Byte) (vs : List Byte) (h : k < 512) :
    overwrite (b.setIfInBounds k v).toList (k + 1) vs = overwrite b.toList k (v :: vs) := by
  rw [Vector.toList_setIfInBounds, overwrite_set v vs (by rwa [Vector.length_toList])]

theorem take_drop_buffer {n : Nat} (h : k + (n + 1) ≤ 512) :
    (b.toList.drop k).take (n + 1) = (b[k]?).getD 0xFF :: (b.toList.drop (k + 1)).take n := by
  rw [List.drop_eq_getElem?_toList_append, Vector.getElem?_toList, Vector.getElem?_eq_getElem (by omega)]
  rfl

end

/-! ### Single accesses (R336, R337, R426) -/

section
variable {cfg : Cfg} {io : Io} {m : DmaMode} {v : Byte}

theorem hasBit_eq_false_iff (r m : Byte) : hasBit r m = false ↔ r &&& m = 0 := by
  simp [hasBit]

theorem portRejects_iff : portRejects cfg m io ↔
    io.ncr.dmaMode ≠ m ∨ chunk cfg io ≤ io.bridge.hostPos ∨ io.bridge.status &&& cfg.busyBit = 0 := by
  rw [portRejects, hasBit_eq_false_iff]

theorem dataPortRead_rejected (h : portRejects cfg .inTxBus io) : dataPortRead cfg io = (0xFF, io) := if_pos h

theorem dataPortWrite_rejected (h : portRejects cfg .outTxBus io) : dataPortWrite cfg v io = io := if_pos h

/-- Within the chunk, in its direction and with the busy bit set the data port answers. -/
theorem not_portRejects (hm : io.ncr.dmaMode = m) (hb : io.bridge.status &&& cfg.busyBit ≠ 0)
    (hlt : io.bridge.hostPos < chunk cfg io) : ¬ portRejects cfg m io := by
  rw [portRejects_iff]
  rintro (h | h | h)
  · exact h hm
  · omega
  · exact hb h

/-- The host's place in the chunk, one byte on. -/
def hostMoved (io : Io) : Io := io.mapBridge fun b => { b with hostPos := b.hostPos + 1 }

/-- What the host's last read of a chunk leaves: the transfer ended or the pump called for the next chunk (R336). -/
def chunkRead (cfg : Cfg) (io : Io) : Io :=
  let io := io.mapBridge fun b => { b with hostPos := chunk cfg io }.clearBusy cfg
  if io.bridge.pumpDone then io.mapNcr fun n => { n with dmaMode := .idle } else armTimer io

/-- What the host's last write of a chunk leaves: the pump called to send it (R337). -/
def chunkWritten (cfg : Cfg) (io : Io) : Io :=
  armTimer (io.mapBridge fun b => { b with hostPos := chunk cfg io }.clearBusy cfg)

theorem dataPortRead_next (h : ¬ portRejects cfg .inTxBus io) (hn : io.bridge.hostPos + 1 ≠ chunk cfg io) :
    dataPortRead cfg io = ((io.bridge.buffer[io.bridge.hostPos]?).getD 0xFF, hostMoved io) :=
  (if_neg h).trans (if_neg hn)

theorem dataPortRead_last (h : ¬ portRejects cfg .inTxBus io) (hn : io.bridge.hostPos + 1 = chunk cfg io) :
    dataPortRead cfg io = ((io.bridge.buffer[io.bridge.hostPos]?).getD 0xFF, chunkRead cfg io) := by
  refine ((if_neg h).trans (if_pos hn)).trans ?_
  rw [chunkRead, ← hn]
  rfl

/-- A byte of the host stored at its place in the buffer. -/
def storeByte (v : Byte) (io : Io) : Io :=
  io.mapBridge fun b => { b with buffer := b.buffer.setIfInBounds b.hostPos v }

theorem dataPortWrite_next (h : ¬ portRejects cfg .outTxBus io) (hn : io.bridge.hostPos + 1 ≠ chunk cfg io) :
    dataPortWrite cfg v io = hostMoved (storeByte v io) :=
  (if_neg h).trans (if_neg hn)

theorem dataPortWrite_last (h : ¬ portRejects cfg .outTxBus io) (hn : io.bridge.hostPos + 1 = chunk cfg io) :
    dataPortWrite cfg v io = chunkWritten cfg (storeByte v io) := by
  refine ((if_neg h).trans (if_pos hn)).trans ?_
  rw [chunkWritten, show chunk cfg (storeByte v io) = chunk cfg io from rfl, ← hn]
  rfl

end

/-! ### A chunk (R330, R356) -/

section
variable {cfg : Cfg} {io : Io}

/-- The busy bit is clear once the chunk is through, so the data port rejects (R426). -/
theorem portRejects_of_clearBusy {m : DmaMode} {b : Byte} (h : io.bridge.status = b &&& ~~~cfg.busyBit) :
    portRejects cfg m io := by
  rw [portRejects_iff, h]
  exact .inr (.inr (and_and_of_disjoint (by simp)))

theorem chunkRead_bridge : ∃ armed wait, (chunkRead cfg io).bridge = { io.bridge with
    hostPos := chunk cfg io, status := io.bridge.status &&& ~~~cfg.busyBit, timerArmed := armed,
    timerWait := wait } := by
  unfold chunkRead
  dsimp only
  split
  · exact ⟨_, _, rfl⟩
  · obtain ⟨-, wait, hb⟩ := armTimer_changes (io := io.mapBridge fun b =>
      { b with hostPos := chunk cfg io }.clearBusy cfg)
    exact ⟨_, _, hb⟩

theorem chunkRead_pumpDone (h : io.bridge.pumpDone = true) : (chunkRead cfg io).ncr.dmaMode = .idle := by
  rw [chunkRead, if_pos (by exact h)]
  rfl

theorem chunkRead_pumping (h : io.bridge.pumpDone = false) :
    (chunkRead cfg io).ncr = io.ncr ∧ (chunkRead cfg io).bridge.timerArmed = true := by
  have hn : chunkRead cfg io = armTimer _ := if_neg (Bool.eq_false_iff.1 h)
  obtain ⟨hncr, wait, hb⟩ := armTimer_changes (io := io.mapBridge fun b =>
    { b with hostPos := chunk cfg io }.clearBusy cfg)
  rw [hn, hncr, hb]
  exact ⟨rfl, rfl⟩

theorem chunkWritten_changes : (chunkWritten cfg io).ncr = io.ncr ∧ ∃ wait, (chunkWritten cfg io).bridge =
    { io.bridge with
      hostPos := chunk cfg io, status := io.bridge.status &&& ~~~cfg.busyBit, timerArmed := true, timerWait := wait } :=
  armTimer_changes

/-- Reads to the end of the chunk give the bytes of the buffer that are left of it. -/
theorem dataPortReads_rest (n : Nat) (hm : io.ncr.dmaMode = .inTxBus) (hb : io.bridge.status &&& cfg.busyBit ≠ 0)
    (hn : io.bridge.hostPos + (n + 1) = chunk cfg io) :
    dataPortReads cfg (n + 1) io =
      ((io.bridge.buffer.toList.drop io.bridge.hostPos).take (n + 1), chunkRead cfg io) := by
  induction n generalizing io with
  | zero =>
    rw [take_drop_buffer (hn ▸ chunk_le), dataPortReads, dataPortRead_last (not_portRejects hm hb (by omega)) hn]
    rfl
  | succ n ih =>
    have hrest := ih (io := hostMoved io) hm hb (by exact (Nat.succ_add_eq_add_succ ..).trans hn)
    rw [take_drop_buffer (hn ▸ chunk_le), dataPortReads,
      dataPortRead_next (not_portRejects hm hb (by omega)) (by omega), hrest]
    rfl

/-- Writes to the end of the chunk overwrite the bytes of the buffer that are left of it. -/
theorem dataPortWrites_rest (v : Byte) (vs : List Byte) (hm : io.ncr.dmaMode = .outTxBus)
    (hb : io.bridge.status &&& cfg.busyBit ≠ 0) (hn : io.bridge.hostPos + (vs.length + 1) = chunk cfg io) :
    ∃ buffer : Vector Byte 512,
      buffer.toList = overwrite io.bridge.buffer.toList io.bridge.hostPos (v :: vs) ∧
      dataPortWrites cfg (v :: vs) io = chunkWritten cfg (io.mapBridge fun b => { b with buffer := buffer }) := by
  have hlt : io.bridge.hostPos < 512 := by
    have hle : chunk cfg io ≤ 512 := chunk_le
    omega
  rw [← overwrite_setIfInBounds v vs hlt]
  induction vs generalizing io v with
  | nil => exact ⟨_, overwrite_nil.symm, dataPortWrite_last (not_portRejects hm hb (by omega)) hn⟩
  | cons w ws ih =>
    have hle : chunk cfg io ≤ 512 := chunk_le
    rw [List.length_cons] at hn
    have hlt' : (hostMoved (storeByte v io)).bridge.hostPos < 512 := by
      have hpos : io.bridge.hostPos + 1 < 512 := by omega
      exact hpos
    obtain ⟨buffer, hbuf, hrest⟩ := ih (io := hostMoved (storeByte v io)) w hm hb
      (by exact (Nat.succ_add_eq_add_succ ..).trans hn) hlt'
    refine ⟨buffer, hbuf.trans (overwrite_setIfInBounds w ws hlt'), ?_⟩
    have hnext : dataPortWrite cfg v io = _ := dataPortWrite_next (not_portRejects hm hb (by omega)) (by omega)
    rw [dataPortWrites, List.foldl_cons, hnext]
    exact hrest

end

/-- Settles O55: the reads of the whole chunk (`dataPortReads_rest` from its start), and what the last one leaves. -/
theorem chunkReadOut : Obligations.ChunkReadOut := by
  unfold Obligations.ChunkReadOut
  intro cfg io
  refine ⟨fun h => dataPortRead_rejected (portRejects_iff.2 h), fun hm h0 hb hc => ?_⟩
  obtain ⟨n, hn⟩ : ∃ n, chunk cfg io = n + 1 := ⟨chunk cfg io - 1, by omega⟩
  have hreads := dataPortReads_rest n hm hb (by omega)
  obtain ⟨armed, wait, hbridge⟩ := chunkRead_bridge (cfg := cfg) (io := io)
  rw [← hn, h0, List.drop_zero] at hreads
  dsimp only
  rw [hreads, hbridge]
  refine ⟨rfl, rfl, rfl, rfl, chunkRead_pumpDone, fun hp => ?_,
    dataPortRead_rejected (portRejects_of_clearBusy (by rw [hbridge]))⟩
  obtain ⟨hncr, harmed⟩ := chunkRead_pumping (cfg := cfg) hp
  exact ⟨hncr ▸ hm, hbridge ▸ harmed⟩

/-- Settles O56: the writes of the whole chunk (`dataPortWrites_rest` from its start), and what the last one leaves. -/
theorem chunkWrittenIn : Obligations.ChunkWrittenIn := by
  unfold Obligations.ChunkWrittenIn
  intro cfg io vs v
  refine ⟨fun h => dataPortWrite_rejected (portRejects_iff.2 h), fun hm h0 hb hlen hc => ?_⟩
  obtain ⟨w, ws, rfl⟩ := List.exists_cons_of_length_pos (hlen ▸ hc)
  obtain ⟨buffer, hbuf, hwrites⟩ := dataPortWrites_rest w ws hm hb (by rw [h0, ← hlen, Nat.zero_add]; rfl)
  obtain ⟨hncr, wait, hbridge⟩ :=
    chunkWritten_changes (cfg := cfg) (io := io.mapBridge fun b => { b with buffer := buffer })
  rw [h0, overwrite, hlen, Nat.zero_add] at hbuf
  dsimp only
  rw [hwrites, hncr, hbridge]
  exact ⟨hbuf, rfl, rfl, rfl, rfl,
    dataPortWrite_rejected (portRejects_of_clearBusy (by rw [hbridge]))⟩

end Sys2Proof.Machine
end

section
/-! A bus update does not look at the bridge (R254): it commutes with every change of it. -/
namespace Sys2Proof.Machine

section
variable {cfg : Cfg} {f : Bridge → Bridge} {bus : Word} {io : Io}

@[simp] theorem mapBridge_ncr : (io.mapBridge f).ncr = io.ncr := rfl

theorem mapNcr_mapBridge (g : Ncr → Ncr) : (io.mapBridge f).mapNcr g = (io.mapNcr g).mapBridge f := rfl

theorem mapBridge_ite (p : Prop) [Decidable p] (a b : Io) :
    (if p then a else b).mapBridge f = if p then a.mapBridge f else b.mapBridge f := apply_ite _ p a b

theorem modifySelected_mapBridge (d : Fin 8 → Device → Device) :
    modifySelected cfg d (io.mapBridge f) = (modifySelected cfg d io).mapBridge f := by
  unfold modifySelected
  cases h : io.ncr.targetId with
  | none => simp only [mapBridge_ncr, h]
  | some id =>
    simp only [mapBridge_ncr, h]
    rfl

theorem phaseEntry_mapBridge : phaseEntry cfg (io.mapBridge f) = (phaseEntry cfg io).mapBridge f := by
  unfold phaseEntry
  extract_lets a p v b a' p' v' b'
  have hb : b = b'.mapBridge f := by
    have hp : p = p' := rfl
    simp only [b, b', hp]
    cases stateOfPhase p' with
    | none => rfl
    | some st => cases st <;> rfl
  rw [mapBridge_ite, mapBridge_ite]
  simp only [hb]
  rfl

theorem tick_mapBridge : tick cfg (io.mapBridge f) = (tick cfg io).mapBridge f := by
  have hw (io : Io) : tickWaitData cfg (io.mapBridge f) = (tickWaitData cfg io).mapBridge f := by
    unfold tickWaitData
    rw [mapBridge_ite, mapBridge_ite, ← phaseEntry_mapBridge]
    rfl
  rw [tick, mapNcr_mapBridge, hw]
  rfl

theorem dispatchIdle_mapBridge :
    dispatchIdle cfg bus (io.mapBridge f) = (dispatchIdle cfg bus io).mapBridge f := by
  simp only [dispatchIdle, mapBridge_ite]
  rfl

theorem dispatchSelect_mapBridge :
    dispatchSelect cfg bus (io.mapBridge f) = (dispatchSelect cfg bus io).mapBridge f := by
  simp only [dispatchSelect, mapBridge_ite]
  rfl

theorem dispatchCommand_mapBridge :
    dispatchCommand cfg bus (io.mapBridge f) = (dispatchCommand cfg bus io).mapBridge f := by
  simp only [dispatchCommand, commandPhase0, mapBridge_ite, mapNcr_mapBridge, modifySelected_mapBridge]
  rfl

theorem finishData_mapBridge : finishData cfg (io.mapBridge f) = (finishData cfg io).mapBridge f := by
  simp only [finishData, commandPhase1, mapNcr_mapBridge, modifySelected_mapBridge]

theorem dispatchDataIn_mapBridge :
    dispatchDataIn cfg bus (io.mapBridge f) = (dispatchDataIn cfg bus io).mapBridge f := by
  simp only [dispatchDataIn, mapBridge_ite, finishData_mapBridge]
  rfl

theorem dispatchDataOut_mapBridge :
    dispatchDataOut cfg bus (io.mapBridge f) = (dispatchDataOut cfg bus io).mapBridge f := by
  have hput (i : Nat) (b : Byte) : putDevByte cfg i b (io.mapBridge f) = (putDevByte cfg i b io).mapBridge f :=
    modifySelected_mapBridge _
  simp only [dispatchDataOut, mapBridge_ite, hput, mapNcr_mapBridge, finishData_mapBridge]
  rfl

theorem dispatch_mapBridge : dispatch cfg bus (io.mapBridge f) = (dispatch cfg bus io).mapBridge f := by
  unfold dispatch
  cases h : io.ncr.state <;> simp only [mapBridge_ncr, h]
  case idle => exact dispatchIdle_mapBridge
  case select => exact dispatchSelect_mapBridge
  case command => exact dispatchCommand_mapBridge
  case dataIn => exact dispatchDataIn_mapBridge
  case dataOut => exact dispatchDataOut_mapBridge
  case status =>
    simp only [dispatchStatus, identify, mapBridge_ite, modifySelected_mapBridge]
    rfl
  case messageIn =>
    simp only [dispatchMessageIn, mapBridge_ite]
    rfl
  case messageOut =>
    simp only [dispatchMessageOut, mapBridge_ite]
    rfl
  case messageId =>
    simp only [dispatchMessageId, identify, mapBridge_ite, modifySelected_mapBridge]
    rfl

theorem busUpdate_mapBridge : busUpdate cfg bus (io.mapBridge f) = (busUpdate cfg bus io).mapBridge f := by
  unfold busUpdate
  rw [tick_mapBridge, dispatch_mapBridge]
  split <;> rfl

theorem busUpdates_mapBridge (buses : List Word) :
    busUpdates cfg buses (io.mapBridge f) = (busUpdates cfg buses io).mapBridge f := by
  induction buses generalizing io with
  | nil => rfl
  | cons b l ih =>
    rw [busUpdates, List.foldl_cons, busUpdate_mapBridge]
    exact ih

end
end Sys2Proof.Machine
end

section
/-! The pump's round (R341 to R346): a poll that finds REQ or runs out, the handshake that moves a byte, and the loops
around them. -/
namespace Sys2Proof.Machine

/-! ### The pump's bus words (R302, R342) -/

section
variable {b : Word} {v : Byte} {n : Ncr}

theorem hostBus_arb (h : HostQuiet n) : hasLine (hostBus n) busArb = false := by
  obtain ⟨-, hmode⟩ := h
  have hbit : n.mode.getLsbD 0 = false := (hasBit_bit _ 0x01 0 rfl).symm.trans ((hasBit_eq_false_iff _ _).2 hmode)
  rw [show busArb = 1#32 <<< 15 from rfl, hasLine_bit _ 15 (by decide), getLsbD_hostBus, hbit]
  simp

theorem hostBus_ack (h : HostQuiet n) : hasLine (hostBus n) busAck = false := by
  obtain ⟨hicr, -⟩ := h
  have hbit : n.icr.getLsbD 4 = false := (hasBit_bit _ 0x10 4 rfl).symm.trans ((hasBit_eq_false_iff _ _).2 hicr)
  rw [show busAck = 1#32 <<< 9 from rfl, hasLine_bit _ 9 (by decide), getLsbD_hostBus, hbit]
  simp

theorem dataWord_arb : hasLine (dataWord b v) busArb = hasLine b busArb := by
  rw [dataWord, busSetData_eq_and, hasLine_or, hasLine_and_of_subset _ (by decide),
    hasLine_and_of_disjoint _ (by decide), Bool.or_false]

theorem orAck_ack : hasLine (b ||| busAck) busAck = true := by
  rw [hasLine_or, show hasLine busAck busAck = true by decide, Bool.or_true]
theorem orAck_arb : hasLine (b ||| busAck) busArb = hasLine b busArb := by
  rw [hasLine_or, show hasLine busAck busArb = false by decide, Bool.or_false]
theorem orAck_data : busGetData (b ||| busAck) = busGetData b := by
  rw [busGetData, BitVec.ushiftRight_or_distrib, BitVec.setWidth_or, show (busAck >>> 16).setWidth 8 = 0#8 by decide,
    BitVec.or_zero]
  rfl

theorem andNotAck_ack : hasLine (b &&& ~~~busAck) busAck = false := hasLine_and_of_disjoint _ (by decide)
theorem andNotAck_arb : hasLine (b &&& ~~~busAck) busArb = hasLine b busArb := hasLine_and_of_subset _ (by decide)

/-- Without ACK there is no edge of it (R253). -/
theorem not_ackEdge (h : hasLine b busAck = false) : ¬ AckEdge b n := by
  rw [← ackRise_iff, Ncr.ackRise, h]
  nofun

end

/-! ### A poll that runs out (R341) -/

section
variable {cfg : Cfg} {io : Io} {phase : Word}

/-- No update of the poll shows REQ of the phase. -/
theorem pollReq_runs_out (n : Nat)
    (h : ∀ k, k < n →
      let b := (busUpdates cfg (List.replicate (k + 1) (hostBus io.ncr)) io).ncr.curBus
      hasLine b busReq = false ∨ b &&& phaseMask ≠ phase) :
    pollReq cfg phase n io = (false, busUpdates cfg (List.replicate n (hostBus io.ncr)) io) := by
  induction n generalizing io with
  | zero => rfl
  | succ n ih =>
    have hhost : hostBus (hostUpdate cfg io).ncr = hostBus io.ncr := hostBus_frame (hostUpdate_frame io)
    have hmiss : ¬ (hasLine (busRead (hostUpdate cfg io)) busReq ∧
        busRead (hostUpdate cfg io) &&& phaseMask = phase) := fun ⟨hreq, hphase⟩ =>
      (h 0 (by omega)).elim (fun e => Bool.false_ne_true (e.symm.trans hreq)) fun e => e hphase
    have hrest := ih (io := hostUpdate cfg io) fun k hk => by
      rw [hhost]
      exact h (k + 1) (by omega)
    rw [pollReq, if_neg hmiss, hrest, hhost]
    rfl

/-- The same of the poll in a callback that changed the bridge first. -/
theorem pollReq_of_noReq {f : Bridge → Bridge} (h : NoReq cfg io phase) :
    pollReq cfg phase cfg.pollMax (io.mapBridge f) =
      (false, busUpdates cfg (List.replicate cfg.pollMax (hostBus io.ncr)) (io.mapBridge f)) :=
  pollReq_runs_out cfg.pollMax fun k hk => by
    rw [busUpdates_mapBridge]
    exact h k hk

theorem busUpdates_frame (buses : List Word) : BusFrame io (busUpdates cfg buses io) := by
  induction buses generalizing io with
  | nil => exact .refl _
  | cons b l ih => exact (busUpdate_frame cfg b io).trans ih

theorem armTimer_frame : (armTimer io).scsiDevices = io.scsiDevices ∧ (armTimer io).outputs = io.outputs := by
  have hd : (drawDelay io).2.scsiDevices = io.scsiDevices ∧ (drawDelay io).2.outputs = io.outputs := by
    unfold drawDelay
    split <;> exact ⟨rfl, rfl⟩
  unfold armTimer
  split
  · exact ⟨rfl, rfl⟩
  · exact hd

/-- A timer armed after a poll that ran out, in the callback that disarmed it first. -/
theorem pollRanOut_armTimer :
    PollRanOut cfg io
      (armTimer (busUpdates cfg (List.replicate cfg.pollMax (hostBus io.ncr)) (io.mapBridge Bridge.disarm))) := by
  have hf := busUpdates_frame (cfg := cfg) (io := io) (List.replicate cfg.pollMax (hostBus io.ncr))
  rw [busUpdates_mapBridge, PollRanOut]
  generalize busUpdates cfg (List.replicate cfg.pollMax (hostBus io.ncr)) io = u at hf ⊢
  obtain ⟨hncr, wait, hb⟩ := armTimer_changes (io := u.mapBridge Bridge.disarm)
  obtain ⟨hdev, hout⟩ := armTimer_frame (io := u.mapBridge Bridge.disarm)
  rw [hncr, hdev, hout, hb]
  refine ⟨rfl, rfl, hf.outputs, rfl, ?_⟩
  rw [← hf.bridge]
  rfl

end

/-! ### The loops of the pump, one round (R344, R346) -/

section
variable {cfg : Cfg} {io u : Io} (n : Nat)

theorem drain_chunk_through (h : chunk cfg io ≤ io.bridge.pos) : drain cfg n io = chunkDone cfg io := by
  cases n with
  | zero => rfl
  | succ n => exact if_neg (by omega)

theorem fill_chunk_through (h : chunk cfg io ≤ io.bridge.pos) : fill cfg n io = chunkDone cfg io := by
  cases n with
  | zero => rfl
  | succ n => exact if_neg (by omega)

theorem drain_not_ready (hlt : io.bridge.pos < chunk cfg io)
    (hp : pollReq cfg phaseDataOut cfg.pollMax io = (false, u)) : drain cfg (n + 1) io = armTimer u := by
  rw [drain, if_pos hlt, hp]
  rfl

theorem fill_not_ready (hlt : io.bridge.pos < chunk cfg io)
    (hp : pollReq cfg phaseDataIn cfg.pollMax io = (false, u)) : fill cfg (n + 1) io = armTimer u := by
  rw [fill, if_pos hlt, hp]
  rfl

/-- A byte of the buffer sent (R342, R344). -/
def sendByte (cfg : Cfg) (io : Io) : Io :=
  (handshake cfg ((io.bridge.buffer[io.bridge.pos]?).getD 0) io).mapBridge Bridge.countByte

/-- The byte on the bus received (R342, R346). -/
def receiveByte (cfg : Cfg) (io : Io) : Io :=
  (handshake cfg io.ncr.outputData io).mapBridge fun b =>
    { b with buffer := b.buffer.setIfInBounds b.pos (busGetData io.ncr.curBus) }.countByte

/-- The end of a send (R344, R347). -/
def sendDone (cfg : Cfg) (io : Io) : Io :=
  ((endOfDma cfg io).mapNcr fun n => { n with dmaMode := .idle }).mapBridge fun b => { b with pos := 0, hostPos := 0 }

/-- The end of a receive (R346, R347). -/
def receiveDone (cfg : Cfg) (io : Io) : Io :=
  chunkDone cfg ((endOfDma cfg io).mapBridge fun b => { b with pumpDone := true })

theorem drain_ready (hlt : io.bridge.pos < chunk cfg io)
    (hp : pollReq cfg phaseDataOut cfg.pollMax io = (true, u)) :
    drain cfg (n + 1) io =
      if (sendByte cfg u).bridge.total = devLen cfg (sendByte cfg u) then
        sendDone cfg (sendByte cfg u)
      else drain cfg n (sendByte cfg u) := by
  rw [drain, if_pos hlt, hp]
  rfl

theorem fill_ready (hlt : io.bridge.pos < chunk cfg io)
    (hp : pollReq cfg phaseDataIn cfg.pollMax io = (true, u)) :
    fill cfg (n + 1) io =
      if (receiveByte cfg u).bridge.total = devLen cfg (receiveByte cfg u) then
        receiveDone cfg (receiveByte cfg u)
      else fill cfg n (receiveByte cfg u) := by
  rw [fill, if_pos hlt, hp]
  rfl

end

/-! ### A poll and a handshake in a data phase (R270, R272, R341, R342) -/

/-- The phase machine stands in a data phase with a DMA mode on, and the host drives neither ACK nor ARB. -/
structure Pumping (cfg : Cfg) (io : Io) (id : Fin 8) (st : BusState) (phase : Word) : Prop where
  data : DataPhase cfg io id st phase
  quiet : HostQuiet io.ncr
  dma : io.ncr.dmaMode ≠ .idle

/-- What a poll that finds REQ leaves. -/
def polled (io : Io) : Io := io.mapNcr fun n => { n with busIn := hostBus n }

section
variable {cfg : Cfg} {io : Io} {id : Fin 8} {st : BusState} {phase : Word}

theorem Pumping.noCountdown (h : Pumping cfg io id st phase) : NoCountdown io.ncr := by
  obtain ⟨-, -, -, hw, hr, hc, -⟩ := h.data
  exact ⟨hw, hr, hc⟩

theorem Pumping.state (h : Pumping cfg io id st phase) : io.ncr.state = st := by
  obtain ⟨hst, -⟩ := h.data
  exact hst

theorem Pumping.bsy (h : Pumping cfg io id st phase) : hasLine io.ncr.curBus busBsy = true := by
  obtain ⟨-, -, -, -, -, -, -, hbsy, -⟩ := h.data
  exact hbsy

theorem Pumping.targetId (h : Pumping cfg io id st phase) : io.ncr.targetId = some id := by
  obtain ⟨-, ht, -⟩ := h.data
  exact ht

theorem Pumping.present (h : Pumping cfg io id st phase) : (deviceAt cfg io id).present = true := by
  obtain ⟨-, -, hp, -⟩ := h.data
  exact hp

theorem devLen_of_present (ht : io.ncr.targetId = some id) (hp : (deviceAt cfg io id).present = true) :
    devLen cfg io = (deviceAt cfg io id).buffer.length := by
  rw [devLen, if_pos ((targetPresent_of_targetId ht).trans hp), devBufferLength_of_targetId ht]

theorem chunk_of_present (ht : io.ncr.targetId = some id) (hp : (deviceAt cfg io id).present = true) :
    chunk cfg io = min chunkMax (deviceAt cfg io id).buffer.length := by
  rw [chunk, devLen_of_present ht hp]

/-- The first update of a poll shows REQ already. -/
theorem Pumping.pollReq (h : Pumping cfg io id st phase) (hs : st ∉ [BusState.idle, .select, .messageId])
    (hc : cfg.wf) : pollReq cfg phase cfg.pollMax io = (true, polled io) := by
  obtain ⟨-, -, -, -, -, -, hreq, -, hphase⟩ := h.data
  obtain ⟨-, -, -, hpoll⟩ := hc
  obtain ⟨n, hn⟩ : ∃ n, cfg.pollMax = n + 1 := ⟨cfg.pollMax - 1, by omega⟩
  have hu : hostUpdate cfg io = polled io :=
    busUpdate_no_ack (hostBus_arb h.quiet) h.noCountdown (not_ackEdge (hostBus_ack h.quiet)) (h.state ▸ hs)
  rw [hn, Machine.pollReq, hu]
  exact if_pos ⟨hreq, hphase⟩

/-- The word `Handshake(d)` sets ACK with (R342). -/
def ackWord (n : Ncr) (d : Byte) : Word := dataWord (hostBus n) d ||| busAck

theorem ackWord_data (n : Ncr) (d : Byte) : busGetData (ackWord n d) = d := by
  rw [ackWord, orAck_data, dataWord_data]

/-- After a poll that found REQ, `Handshake` makes an edge of ACK. -/
theorem Pumping.ackRise (h : Pumping cfg io id st phase) (d : Byte) :
    (polled io).ncr.ackRise (ackWord io.ncr d) = true := by
  obtain ⟨-, -, -, -, -, -, hreq, -⟩ := h.data
  rw [Ncr.ackRise, ackWord, orAck_ack, show hasLine (polled io).ncr.busIn busAck = false from hostBus_ack h.quiet]
  exact hreq

/-- `Handshake` runs the rule of the state on the edge of ACK, then ACK falls. -/
theorem Pumping.handshake_eq (h : Pumping cfg io id st phase) (d : Byte) :
    handshake cfg d (polled io) = busUpdate cfg (dataWord (hostBus io.ncr) d &&& ~~~busAck)
      ((dispatch cfg (ackWord io.ncr d) (polled io)).mapNcr fun n => { n with busIn := ackWord io.ncr d }) := by
  obtain ⟨hw, hr, hc⟩ := h.noCountdown
  have harb : hasLine (ackWord io.ncr d) busArb = false := by
    rw [ackWord, orAck_arb, dataWord_arb, hostBus_arb h.quiet]
  rw [← busUpdate_quiet (cfg := cfg) (io := polled io) harb hw hr hc]
  rfl

/-- ACK falls, and nothing else happens while the state waits. -/
theorem Pumping.handshake_waits (h : Pumping cfg io id st phase) {d : Byte} {u : Io}
    (hu : dispatch cfg (ackWord io.ncr d) (polled io) = u) (hz : NoCountdown u.ncr)
    (hs : u.ncr.state ∉ [BusState.idle, .select, .messageId]) :
    ∃ w, handshake cfg d (polled io) = u.mapNcr fun n => { n with busIn := w } := by
  refine ⟨dataWord (hostBus io.ncr) d &&& ~~~busAck, ?_⟩
  have harb : hasLine (dataWord (hostBus io.ncr) d &&& ~~~busAck) busArb = false := by
    rw [andNotAck_arb, dataWord_arb, hostBus_arb h.quiet]
  rw [h.handshake_eq, hu]
  exact busUpdate_no_ack harb hz (not_ackEdge andNotAck_ack) hs

/-- ACK falls with STATUS armed: the countdown runs on, and the device table stays. -/
theorem Pumping.handshake_armed (h : Pumping cfg io id st phase) {d : Byte} {u : Io}
    (hu : dispatch cfg (ackWord io.ncr d) (polled io) = u) (hw : 0 < u.ncr.waitData) (hr : u.ncr.clearReq = 0)
    (hc : u.ncr.waitData ≤ u.ncr.waitComplete) (hp : u.ncr.newPhase = phaseStatus)
    (hs : u.ncr.state ∉ [BusState.idle, .select, .messageId]) :
    ∃ n, handshake cfg d (polled io) = { u with ncr := n } ∧ n.targetId = u.ncr.targetId := by
  have harb : hasLine (dataWord (hostBus io.ncr) d &&& ~~~busAck) busArb = false := by
    rw [andNotAck_arb, dataWord_arb, hostBus_arb h.quiet]
  rw [h.handshake_eq, hu]
  by_cases h1 : u.ncr.waitData = 1
  · have ht := tick_enters (cfg := cfg) (io := u.mapNcr fun n => { n with busIn := ackWord io.ncr d })
      (st := .status) hr h1 (by rw [mapNcr_ncr, hp]; decide) (by rw [mapNcr_ncr, hp]; rfl) nofun
    rw [busUpdate_tick harb andNotAck_ack, ht]
    · exact ⟨_, rfl, rfl⟩
    · rw [ht]
      exact show BusState.status ∉ [BusState.idle, .select, .messageId] by decide
  · have hw1 : 1 < u.ncr.waitData := by omega
    have ht := tick_entry_pending (cfg := cfg) (io := u.mapNcr fun n => { n with busIn := ackWord io.ncr d })
      hr hw1 (.inr hc)
    rw [busUpdate_tick harb andNotAck_ack, ht]
    · exact ⟨_, rfl, rfl⟩
    · rw [ht]
      exact hs

end
end Sys2Proof.Machine
end

section
/-! One callback of the pump that receives (R270, R346, R347): the rounds that carry a chunk from the device to the
buffer, and what the last byte of the transfer leaves. -/
namespace Sys2Proof.Machine

/-! ### Bytes copied from one list into another -/

/-- `dst` with `k` bytes of `src` from place `q` on in place of its own from place `p` on. -/
def copyInto (dst : List Byte) (p : Nat) (src : List Byte) (q k : Nat) : List Byte :=
  dst.take p ++ (src.drop q).take k ++ dst.drop (p + k)

theorem copyInto_zero (dst : List Byte) (p : Nat) (src : List Byte) (q : Nat) : copyInto dst p src q 0 = dst := by
  simp [copyInto]

/-- One more byte copied. -/
theorem copyInto_set {dst src : List Byte} {p q k : Nat} {v : Byte} (hv : src[q + k]? = some v)
    (hp : p + k < dst.length) : (copyInto dst p src q k).set (p + k) v = copyInto dst p src q (k + 1) := by
  have hq : q + k < src.length := (List.getElem?_eq_some_iff.1 hv).1
  have hfront : (dst.take p ++ (src.drop q).take k).length = p + k := by
    simp only [List.length_append, List.length_take, List.length_drop]
    omega
  have hrest : dst.drop (p + k) = dst[p + k] :: dst.drop (p + k + 1) := List.drop_eq_getElem_cons hp
  have hmore : (src.drop q).take (k + 1) = (src.drop q).take k ++ [v] := by
    rw [List.take_add_one, List.getElem?_drop, hv]
    rfl
  rw [copyInto, copyInto, List.set_append_right _ _ hfront.le, hfront, Nat.sub_self, hrest, hmore]
  simp [Nat.add_assoc]

/-! ### What the pump keeps, byte by byte -/

/-- `k` bytes moved: of the host's registers, the outputs and the bridge only the buffer and the positions change. -/
structure Moved (k : Nat) (io io' : Io) : Prop where
  host : io'.ncr.host = io.ncr.host
  outputs : io'.outputs = io.outputs
  bridge : io'.bridge = { io.bridge with
    buffer := io'.bridge.buffer, pos := io.bridge.pos + k, total := io.bridge.total + k }

theorem Moved.refl (io : Io) : Moved 0 io io := ⟨rfl, rfl, rfl⟩

/-- One byte more, by a bus transfer and the count of the byte. -/
theorem Moved.next {k : Nat} {io u u' : Io} (h : Moved k io u) (hf : BusFrame u u') (buffer : Vector Byte 512) :
    Moved (k + 1) io (u'.mapBridge fun b => { b with buffer := buffer }.countByte) := by
  refine ⟨hf.host.trans h.host, hf.outputs.trans h.outputs, ?_⟩
  change { u'.bridge with buffer := buffer, pos := u'.bridge.pos + 1, total := u'.bridge.total + 1 } = _
  rw [hf.bridge, h.bridge]
  rfl

/-- A loop that makes `k` rounds, each of which carries `P` one byte on. -/
theorem loop_rounds {loop : Nat → Io → Io} {P : Nat → Io → Prop} {io : Io} (k : Nat) (h0 : P 0 io)
    (hround : ∀ j u, j < k → P j u → ∃ u', (∀ n, loop (n + 1) u = loop n u') ∧ P (j + 1) u') :
    ∃ u, (∀ n, loop (n + k) io = loop n u) ∧ P k u := by
  induction k with
  | zero => exact ⟨io, fun _ => rfl, h0⟩
  | succ k ih =>
    obtain ⟨u, hloop, hu⟩ := ih fun j u hj => hround j u (by omega)
    obtain ⟨u', hlast, hu'⟩ := hround k u (by omega) hu
    exact ⟨u', fun n => by rw [← hlast, ← hloop, Nat.add_right_comm]; rfl, hu'⟩

/-- The end of DMA touches its own bits, and the interrupt when it is enabled (R347). -/
theorem endOfDma_changes (cfg : Cfg) (io : Io) : ∃ isr tcr irq outs,
    endOfDma cfg io = { io with
      ncr := { io.ncr with isr := isr, tcr := tcr, irqState := irq }, outputs := outs } ∧
    isr.getLsbD 7 = true ∧ tcr.getLsbD 7 = true ∧ (io.ncr.mode.getLsbD 3 = true → irq = true) ∧
    (io.ncr.mode.getLsbD 3 = false → irq = io.ncr.irqState ∧ outs = io.outputs) := by
  obtain ⟨hset, hclear, -⟩ := interruptLine cfg io
  cases h : io.ncr.mode.getLsbD 3
  · exact ⟨_, _, _, _, hclear h, by simp, by simp, nofun, fun _ => ⟨rfl, rfl⟩⟩
  · exact ⟨_, _, _, _, hset h, by simp, by simp, fun _ => rfl, nofun⟩

section
variable {cfg : Cfg} {io u : Io} {id : Fin 8}

theorem deviceAt_congr (h : u.scsiDevices = io.scsiDevices) : deviceAt cfg u id = deviceAt cfg io id := by
  rw [deviceAt, h, deviceAt]

/-! ### Receiving (R270, R346) -/

/-- The pump in DATAIN: the byte at `total` stands on the bus. -/
structure Receiving (cfg : Cfg) (io : Io) (id : Fin 8) : Prop where
  pumping : Pumping cfg io id .dataIn phaseDataIn
  place : io.ncr.dataPos = io.bridge.total + 1
  shown : (deviceAt cfg io id).buffer[io.bridge.total]? = some (busGetData io.ncr.curBus)

theorem Receiving.targetId (h : Receiving cfg io id) : io.ncr.targetId = some id := h.pumping.targetId

/-- With a byte left ACK brings it to the bus. -/
theorem Receiving.handshake_next (h : Receiving cfg io id) (d : Byte) {v : Byte}
    (hv : (deviceAt cfg io id).buffer[io.bridge.total + 1]? = some v) :
    ∃ w, handshake cfg d (polled io) = io.mapNcr fun n => { shownByte v n with busIn := w } := by
  obtain ⟨hst, ht, -⟩ := h.pumping.data
  rw [← h.place] at hv
  have hlt : (polled io).ncr.dataPos < devBufferLength cfg (polled io) := by
    rw [devBufferLength_of_targetId (io := polled io) ht]
    exact (List.getElem?_eq_some_iff.1 hv).1
  have hbyte : devByte cfg (polled io) (polled io).ncr.dataPos = v := by
    rw [devByte_of_targetId (io := polled io) ht]
    exact congrArg (Option.getD · _) hv
  have hu : dispatch cfg (ackWord io.ncr d) (polled io) = (polled io).mapNcr (shownByte v) := by
    rw [dispatch, show (polled io).ncr.state = .dataIn from hst]
    dsimp only
    rw [dispatchDataIn_next (h.pumping.ackRise d) hlt, hbyte]
    exact mapNcr_congr (nextDataReq_dma h.pumping.dma)
  exact h.pumping.handshake_waits hu h.pumping.noCountdown
    (show io.ncr.state ∉ _ by rw [hst]; decide)

/-- After the last byte ACK completes the device's command. -/
theorem Receiving.handshake_last (h : Receiving cfg io id) (hc : cfg.wf) (d : Byte)
    (hl : (deviceAt cfg io id).buffer.length = io.bridge.total + 1) :
    ∃ n, handshake cfg d (polled io) = { commandPhase1 cfg io with ncr := n } ∧ n.targetId = some id := by
  obtain ⟨hst, ht, -⟩ := h.pumping.data
  obtain ⟨-, hw, hwc, -⟩ := hc
  have hle : devBufferLength cfg (polled io) ≤ (polled io).ncr.dataPos := by
    rw [devBufferLength_of_targetId (io := polled io) ht]
    exact (hl.trans h.place.symm).le
  have hphase1 : commandPhase1 cfg (polled io) = polled (commandPhase1 cfg io) := modifySelected_mapNcr _ rfl
  have hu : dispatch cfg (ackWord io.ncr d) (polled io) = finishData cfg (polled io) := by
    rw [dispatch, show (polled io).ncr.state = .dataIn from hst]
    exact dispatchDataIn_last (h.pumping.ackRise d) hle
  rw [finishData_eq, hphase1] at hu
  have hncr : (commandPhase1 cfg io).ncr = io.ncr := modifySelected_ncr ..
  obtain ⟨n, hn, htarget⟩ := h.pumping.handshake_armed hu hw rfl hwc rfl
    (show (commandPhase1 cfg io).ncr.state ∉ _ by rw [hncr, hst]; decide)
  exact ⟨n, hn, htarget.trans ((congrArg Ncr.targetId hncr).trans ht)⟩

/-- The next byte shown: the pump stands in DATAIN again, one byte on. -/
theorem Receiving.receiveByte_next (h : Receiving cfg io id)
    (hlt : io.bridge.total + 1 < (deviceAt cfg io id).buffer.length) :
    Receiving cfg (receiveByte cfg (polled io)) id ∧
      (receiveByte cfg (polled io)).scsiDevices = io.scsiDevices := by
  have hv := List.getElem?_eq_getElem hlt
  obtain ⟨hst, ht, hp, hw, hr, hc, hreq, hbsy, hphase⟩ := h.pumping.data
  obtain ⟨w, hhand⟩ := h.handshake_next (polled io).ncr.outputData hv
  rw [receiveByte, hhand]
  refine ⟨⟨⟨⟨hst, ht, hp, hw, hr, hc, ?_, ?_, ?_⟩, h.pumping.quiet, h.pumping.dma⟩, ?_, ?_⟩, rfl⟩
  · exact dataWord_req.trans hreq
  · exact dataWord_bsy.trans hbsy
  · exact dataWord_phase.trans hphase
  · exact congrArg (· + 1) h.place
  · exact hv.trans (congrArg some dataWord_data.symm)

/-- The device's command completed after the transfer's last byte. -/
theorem Receiving.receiveByte_last (h : Receiving cfg io id) (hc : cfg.wf)
    (hl : (deviceAt cfg io id).buffer.length = io.bridge.total + 1) :
    (receiveByte cfg (polled io)).ncr.targetId = some id ∧
      deviceAt cfg (receiveByte cfg (polled io)) id = (deviceAt cfg io id).commandPhase1 cfg.scsiBus id := by
  obtain ⟨n, hhand, ht⟩ := h.handshake_last hc (polled io).ncr.outputData hl
  rw [receiveByte, hhand]
  exact ⟨ht, deviceAt_modifySelected _ h.targetId (bus_lt_of_present h.pumping.present)⟩

/-- `k` bytes received into the buffer. -/
structure Received (cfg : Cfg) (io : Io) (id : Fin 8) (k : Nat) (u : Io) : Prop where
  moved : Moved k io u
  buffer : u.bridge.buffer.toList =
    copyInto io.bridge.buffer.toList io.bridge.pos (deviceAt cfg io id).buffer io.bridge.total k

/-- The pump between two rounds, `k` bytes on. -/
structure ReceivedSoFar (cfg : Cfg) (io : Io) (id : Fin 8) (k : Nat) (u : Io) : Prop extends
    Received cfg io id k u where
  devices : u.scsiDevices = io.scsiDevices
  receiving : Receiving cfg u id

theorem Moved.pos_eq {k : Nat} (h : Moved k io u) : u.bridge.pos = io.bridge.pos + k := by rw [h.bridge]

theorem Moved.total_eq {k : Nat} (h : Moved k io u) : u.bridge.total = io.bridge.total + k := by rw [h.bridge]

/-- The registers and the rest of the bridge while the pump runs. -/
theorem Moved.regs {k : Nat} (h : Moved k io u) : u.ncr.dmaMode = io.ncr.dmaMode ∧ u.ncr.mode = io.ncr.mode ∧
    u.ncr.tcr = io.ncr.tcr ∧ u.ncr.isr = io.ncr.isr ∧ u.ncr.irqState = io.ncr.irqState := by
  have hhost := h.host
  simp only [Ncr.host, Prod.mk.injEq, List.cons.injEq] at hhost
  obtain ⟨hdma, ⟨-, -, hmode, htcr, -, hisr, -⟩, hirq⟩ := hhost
  exact ⟨hdma, hmode, htcr, hisr, hirq⟩

theorem Moved.bridge_rest {k : Nat} (h : Moved k io u) : u.bridge.timerArmed = io.bridge.timerArmed ∧
    u.bridge.status = io.bridge.status ∧ u.bridge.pumpDone = io.bridge.pumpDone := by
  rw [h.bridge]
  exact ⟨rfl, rfl, rfl⟩

theorem Receiving.chunk_eq (h : Receiving cfg io id) :
    chunk cfg io = min chunkMax (deviceAt cfg io id).buffer.length :=
  chunk_of_present h.targetId h.pumping.present

theorem ReceivedSoFar.chunk_eq {k : Nat} (h : ReceivedSoFar cfg io id k u) (hr : Receiving cfg io id) :
    chunk cfg u = chunk cfg io := by
  rw [h.receiving.chunk_eq, hr.chunk_eq, deviceAt_congr h.devices]

theorem ReceivedSoFar.shown {k : Nat} (h : ReceivedSoFar cfg io id k u) :
    (deviceAt cfg io id).buffer[io.bridge.total + k]? = some (busGetData u.ncr.curBus) := by
  rw [← h.moved.total_eq, ← deviceAt_congr h.devices]
  exact h.receiving.shown

/-- The byte on the bus goes to its place in the buffer. -/
theorem ReceivedSoFar.received_next {k : Nat} (h : ReceivedSoFar cfg io id k u) (hlt : io.bridge.pos + k < 512) :
    Received cfg io id (k + 1) (receiveByte cfg (polled u)) := by
  have hf : BusFrame u (handshake cfg (polled u).ncr.outputData (polled u)) :=
    .trans (b := polled u) (.mapNcr rfl) (handshake_frame ..)
  refine ⟨h.moved.next hf _, ?_⟩
  change ((handshake cfg (polled u).ncr.outputData (polled u)).bridge.buffer.setIfInBounds
    (handshake cfg (polled u).ncr.outputData (polled u)).bridge.pos (busGetData u.ncr.curBus)).toList = _
  rw [hf.bridge, Vector.toList_setIfInBounds, h.buffer, h.moved.pos_eq]
  exact copyInto_set h.shown (by rwa [Vector.length_toList])

/-- A round with a byte left. -/
theorem ReceivedSoFar.next {k : Nat} (hc : cfg.wf) (hr : Receiving cfg io id) (h : ReceivedSoFar cfg io id k u)
    (hlt : io.bridge.pos + k < chunk cfg io) (hleft : io.bridge.total + (k + 1) < (deviceAt cfg io id).buffer.length) :
    ∃ u', (∀ n, fill cfg (n + 1) u = fill cfg n u') ∧ ReceivedSoFar cfg io id (k + 1) u' := by
  have hle : chunk cfg io ≤ 512 := chunk_le
  have hpos := h.moved.pos_eq
  have htotal := h.moved.total_eq
  have hdev : deviceAt cfg u id = deviceAt cfg io id := deviceAt_congr h.devices
  have hnext := h.received_next (by omega)
  obtain ⟨hrec, hdevs⟩ := h.receiving.receiveByte_next (by rw [hdev]; omega)
  have hmore : (receiveByte cfg (polled u)).bridge.total ≠ devLen cfg (receiveByte cfg (polled u)) := by
    rw [devLen_of_present hrec.targetId hrec.pumping.present, deviceAt_congr hdevs, hdev, hnext.moved.total_eq]
    omega
  refine ⟨_, fun n => ?_, hnext, hdevs.trans h.devices, hrec⟩
  rw [fill_ready n (by rw [h.chunk_eq hr, hpos]; exact hlt) (h.receiving.pumping.pollReq (by decide) hc)]
  exact if_neg hmore

/-- The round of the transfer's last byte. -/
theorem ReceivedSoFar.last {k : Nat} (hc : cfg.wf) (hr : Receiving cfg io id) (h : ReceivedSoFar cfg io id k u)
    (hlt : io.bridge.pos + k < chunk cfg io) (hl : io.bridge.total + (k + 1) = (deviceAt cfg io id).buffer.length) :
    ∃ u', (∀ n, fill cfg (n + 1) u = receiveDone cfg u') ∧ Received cfg io id (k + 1) u' ∧
      deviceAt cfg u' id = (deviceAt cfg io id).commandPhase1 cfg.scsiBus id := by
  have hle : chunk cfg io ≤ 512 := chunk_le
  have hpos := h.moved.pos_eq
  have htotal := h.moved.total_eq
  have hdev : deviceAt cfg u id = deviceAt cfg io id := deviceAt_congr h.devices
  have hnext := h.received_next (by omega)
  obtain ⟨ht, hfinal⟩ := h.receiving.receiveByte_last hc (by rw [hdev]; omega)
  rw [hdev] at hfinal
  have hdone : (receiveByte cfg (polled u)).bridge.total = devLen cfg (receiveByte cfg (polled u)) := by
    rw [devLen_of_present ht (by rw [hfinal]; exact hr.pumping.present), hfinal, hnext.moved.total_eq]
    exact hl
  refine ⟨_, fun n => ?_, hnext, hfinal⟩
  rw [fill_ready n (by rw [h.chunk_eq hr, hpos]; exact hlt) (h.receiving.pumping.pollReq (by decide) hc)]
  exact if_pos hdone

/-- The rounds while bytes are left of the chunk and of the transfer. -/
theorem Receiving.rounds (hc : cfg.wf) (h : Receiving cfg io id) (k : Nat) (hk : io.bridge.pos + k ≤ chunk cfg io)
    (hl : io.bridge.total + k < (deviceAt cfg io id).buffer.length) :
    ∃ u, (∀ n, fill cfg (n + k) io = fill cfg n u) ∧ ReceivedSoFar cfg io id k u :=
  loop_rounds k ⟨⟨.refl io, (copyInto_zero ..).symm⟩, rfl, h⟩ fun j u hj hu =>
    hu.next hc h (by omega) (by omega)

/-- A chunk filled before the transfer's last byte (R346). -/
theorem Receiving.fill_more (hc : cfg.wf) (h : Receiving cfg io id) (hlt : io.bridge.pos < chunk cfg io)
    (hl : io.bridge.total + (chunk cfg io - io.bridge.pos) < (deviceAt cfg io id).buffer.length) :
    ∃ u, fill cfg chunkMax io = chunkDone cfg u ∧ ReceivedSoFar cfg io id (chunk cfg io - io.bridge.pos) u := by
  have hle : chunk cfg io ≤ chunkMax := chunk_le
  obtain ⟨u, hloop, hu⟩ := h.rounds hc (chunk cfg io - io.bridge.pos) (by omega) hl
  refine ⟨u, ?_, hu⟩
  rw [← fill_chunk_through (chunkMax - (chunk cfg io - io.bridge.pos)), ← hloop, Nat.sub_add_cancel (by omega)]
  rw [hu.chunk_eq h, hu.moved.pos_eq]
  omega

/-- The transfer's last byte in the chunk (R346, R347). -/
theorem Receiving.fill_last (hc : cfg.wf) (h : Receiving cfg io id) {m : Nat}
    (hm : io.bridge.pos + (m + 1) ≤ chunk cfg io)
    (hl : io.bridge.total + (m + 1) = (deviceAt cfg io id).buffer.length) :
    ∃ u, fill cfg chunkMax io = receiveDone cfg u ∧ Received cfg io id (m + 1) u ∧
      deviceAt cfg u id = (deviceAt cfg io id).commandPhase1 cfg.scsiBus id := by
  have hle : chunk cfg io ≤ chunkMax := chunk_le
  obtain ⟨u, hloop, hu⟩ := h.rounds hc m (by omega) (by omega)
  obtain ⟨u', hlast, hu'⟩ := hu.last hc h (by omega) hl
  refine ⟨u', ?_, hu'⟩
  rw [← hlast (chunkMax - (m + 1)), ← hloop]
  exact congrArg (fill cfg · io) (by omega)

end

/-! ### The callback (R340) -/

section
variable {cfg : Cfg} {io : Io}

theorem not_busyLost (h : io.ncr.mode.getLsbD 2 = false ∨ hasLine io.ncr.curBus busBsy = true) :
    ¬ busyLost io = true := fun hl => by
  obtain ⟨hm, hb, -⟩ := busyLost_iff.1 hl
  rw [hm, hb] at h
  simp at h

theorem callback_fills (hb : io.ncr.mode.getLsbD 2 = false ∨ hasLine io.ncr.curBus busBsy = true)
    (hm : io.ncr.dmaMode = .inTxBus) (hp : io.bridge.pumpDone = false) (hh : io.bridge.hostPos = chunk cfg io) :
    callback cfg io = fill cfg chunkMax (io.mapBridge Bridge.disarm) :=
  (callback_of_no_send (not_busyLost hb) fun ⟨ho, _⟩ => nomatch hm.symm.trans ho).trans (if_pos ⟨hm, hh, hp⟩)

end

/-- Settles O57: the rounds to the end of the chunk (`Receiving.fill_more`) or of the transfer
(`Receiving.fill_last`), and a poll that runs out (`pollReq_of_noReq`). -/
theorem callbackReceives : Obligations.CallbackReceives := by
  unfold Obligations.CallbackReceives
  intro cfg io hm hp hh hlt
  refine ⟨fun id hc hd hq hpos hv => ?_, fun hb hno => ?_⟩
  · have hr : Receiving cfg (io.mapBridge Bridge.disarm) id :=
      ⟨⟨hd, hq, by rw [mapBridge_ncr, hm]; nofun⟩, hpos, hv⟩
    have hleft := (List.getElem?_eq_some_iff.1 hv).1
    rw [callback_fills (io := io) (.inr hr.pumping.bsy) hm hp hh]
    dsimp only
    by_cases hmore : io.bridge.total + (chunk cfg io - io.bridge.pos) < (deviceAt cfg io id).buffer.length
    · rw [Nat.min_eq_left (by omega)]
      obtain ⟨u, hfill, hu⟩ := hr.fill_more hc hlt hmore
      have htotal := hu.moved.total_eq
      obtain ⟨hdma, hmode, htcr, hisr, hirq⟩ := hu.moved.regs
      obtain ⟨harmed, hstatus, hpump⟩ := hu.moved.bridge_rest
      rw [hfill]
      refine ⟨hu.buffer, rfl, rfl, htotal, harmed, congrArg (· ||| cfg.busyBit) hstatus, hdma.trans hm,
        fun he => absurd he hmore.ne, fun _ => ⟨hpump.trans hp, hisr, htcr, hirq, hu.moved.outputs, hu.devices,
          hu.receiving.pumping.state, ?_, ?_⟩⟩
      · exact hu.receiving.place.trans (congrArg (· + 1) htotal)
      · exact hu.shown
    · rw [Nat.min_eq_right (by omega)]
      obtain ⟨k, hk⟩ : ∃ k, (deviceAt cfg io id).buffer.length - io.bridge.total = k + 1 :=
        ⟨(deviceAt cfg io id).buffer.length - io.bridge.total - 1, by omega⟩
      have hl : io.bridge.total + (k + 1) = (deviceAt cfg io id).buffer.length := by omega
      have hroom : io.bridge.pos + (k + 1) ≤ chunk cfg io := by omega
      obtain ⟨u, hfill, hu, hdev⟩ := hr.fill_last hc hroom hl
      have htotal := hu.moved.total_eq
      obtain ⟨hdma, hmode, htcr, hisr, hirq⟩ := hu.moved.regs
      obtain ⟨harmed, hstatus, hpump⟩ := hu.moved.bridge_rest
      obtain ⟨isr, tcr, irq, outs, hend, hdone, hlast, hena, hdis⟩ := endOfDma_changes cfg u
      rw [hmode] at hena hdis
      rw [hk, hfill, receiveDone, hend]
      refine ⟨hu.buffer, rfl, rfl, htotal, harmed, congrArg (· ||| cfg.busyBit) hstatus, hdma.trans hm,
        fun _ => ⟨rfl, hdone, hlast, hena, fun h3 => ?_, hdev⟩, fun hlt' => absurd hlt' hl.not_lt⟩
      obtain ⟨hirq', houts⟩ := hdis h3
      exact ⟨hirq'.trans hirq, houts.trans hu.moved.outputs⟩
  · rw [callback_fills hb hm hp hh, show chunkMax = 511 + 1 from rfl,
      fill_not_ready (io := io.mapBridge Bridge.disarm) 511 hlt (pollReq_of_noReq hno)]
    exact pollRanOut_armTimer

end Sys2Proof.Machine
end

section
/-! One callback of the pump that sends (R272, R344, R347): the rounds that carry a chunk from the buffer to the device,
and what the last byte of the transfer leaves. -/
namespace Sys2Proof.Machine

theorem length_copyInto {dst src : List Byte} {p q k : Nat} (hp : p + k ≤ dst.length) (hq : q + k ≤ src.length) :
    (copyInto dst p src q k).length = dst.length := by
  simp only [copyInto, List.length_append, List.length_take, List.length_drop]
  omega

section
variable {cfg : Cfg} {io u : Io} {id : Fin 8} {k : Nat}

/-! ### One byte sent -/

/-- The pump in DATAOUT: the device waits for the byte at `total`. -/
structure Sending (cfg : Cfg) (io : Io) (id : Fin 8) : Prop where
  pumping : Pumping cfg io id .dataOut phaseDataOut
  place : io.ncr.dataPos = io.bridge.total
  room : io.bridge.total < (deviceAt cfg io id).buffer.length

/-- The byte of the buffer at `pos`. -/
def nextByte (io : Io) : Byte := (io.bridge.buffer[io.bridge.pos]?).getD 0

/-- The device table with that byte stored in the selected device. -/
def stored (cfg : Cfg) (io : Io) : Io := putDevByte cfg io.bridge.total (nextByte io) io

theorem stored_ncr : (stored cfg io).ncr = io.ncr := modifySelected_ncr ..

theorem polled_stored : polled (stored cfg io) = { stored cfg io with ncr := (polled io).ncr } := by
  rw [polled, Io.mapNcr, stored_ncr]
  rfl

theorem Sending.deviceAt_stored (h : Sending cfg io id) :
    deviceAt cfg (stored cfg io) id = (deviceAt cfg io id).putByte io.bridge.total (nextByte io) :=
  deviceAt_modifySelected _ h.pumping.targetId (bus_lt_of_present h.pumping.present)

theorem Sending.byteStored_eq (h : Sending cfg io id) :
    byteStored cfg (ackWord io.ncr (nextByte io)) (polled io) = polled (stored cfg io) := by
  rw [byteStored, ackWord_data, show (polled io).ncr.dataPos = io.bridge.total from h.place]
  exact modifySelected_mapNcr _ rfl

/-- ACK stores the byte, and the device waits for the next. -/
theorem Sending.handshake_next (h : Sending cfg io id)
    (hlt : io.bridge.total + 1 < (deviceAt cfg io id).buffer.length) :
    ∃ w, handshake cfg (nextByte io) (polled io) =
      { stored cfg io with ncr := { io.ncr with dataPos := io.ncr.dataPos + 1, busIn := w } } := by
  obtain ⟨hst, ht, -⟩ := h.pumping.data
  have hlt' : (polled io).ncr.dataPos + 1 < devBufferLength cfg (polled io) := by
    rw [devBufferLength_of_targetId (io := polled io) ht, show (polled io).ncr.dataPos = _ from h.place]
    exact hlt
  have hdma : (polled (stored cfg io)).ncr.dmaMode ≠ .idle := polled_stored (cfg := cfg) ▸ h.pumping.dma
  have hu : dispatch cfg (ackWord io.ncr (nextByte io)) (polled io) =
      (polled (stored cfg io)).mapNcr fun n => { n with dataPos := n.dataPos + 1 } := by
    rw [dispatch, show (polled io).ncr.state = .dataOut from hst]
    dsimp only
    rw [dispatchDataOut_next (h.pumping.ackRise _) hlt', h.byteStored_eq]
    exact mapNcr_congr (nextDataReq_dma hdma)
  rw [polled_stored] at hu
  exact h.pumping.handshake_waits hu h.pumping.noCountdown (show io.ncr.state ∉ _ by rw [hst]; decide)

/-- ACK stores the last byte and completes the device's command. -/
theorem Sending.handshake_last (h : Sending cfg io id) (hc : cfg.wf)
    (hl : (deviceAt cfg io id).buffer.length = io.bridge.total + 1) :
    ∃ n, handshake cfg (nextByte io) (polled io) = { commandPhase1 cfg (stored cfg io) with ncr := n } ∧
      n.targetId = some id := by
  obtain ⟨hst, ht, -⟩ := h.pumping.data
  obtain ⟨-, hw, hwc, -⟩ := hc
  have hle : devBufferLength cfg (polled io) ≤ (polled io).ncr.dataPos + 1 := by
    rw [devBufferLength_of_targetId (io := polled io) ht, show (polled io).ncr.dataPos = _ from h.place]
    exact hl.le
  have hphase1 : commandPhase1 cfg (polled (stored cfg io)) = polled (commandPhase1 cfg (stored cfg io)) :=
    modifySelected_mapNcr _ rfl
  have hncr : (commandPhase1 cfg (stored cfg io)).ncr = io.ncr := (modifySelected_ncr ..).trans stored_ncr
  have hu : dispatch cfg (ackWord io.ncr (nextByte io)) (polled io) =
      dispatchDataOut cfg (ackWord io.ncr (nextByte io)) (polled io) := by
    rw [dispatch, show (polled io).ncr.state = .dataOut from hst]
  rw [dispatchDataOut_last (h.pumping.ackRise _) hle, h.byteStored_eq, hphase1] at hu
  obtain ⟨n, hn, htarget⟩ := h.pumping.handshake_armed hu hw rfl hwc rfl
    (show (commandPhase1 cfg (stored cfg io)).ncr.state ∉ _ by rw [hncr, hst]; decide)
  exact ⟨n, hn, htarget.trans ((congrArg Ncr.targetId hncr).trans ht)⟩

/-- One byte on, the pump stands in DATAOUT again. -/
theorem Sending.sendByte_next (h : Sending cfg io id)
    (hlt : io.bridge.total + 1 < (deviceAt cfg io id).buffer.length) :
    Sending cfg (sendByte cfg (polled io)) id ∧
      deviceAt cfg (sendByte cfg (polled io)) id = (deviceAt cfg io id).putByte io.bridge.total (nextByte io) := by
  obtain ⟨hst, ht, hp, hw, hr, hc, hreq, hbsy, hphase⟩ := h.pumping.data
  obtain ⟨w, hhand⟩ := h.handshake_next hlt
  have hbridge : (stored cfg io).bridge = io.bridge := (modifySelected_frame ..).bridge
  have hsend : sendByte cfg (polled io) = _ := congrArg (Io.mapBridge Bridge.countByte) hhand
  have hdev : deviceAt cfg (sendByte cfg (polled io)) id =
      (deviceAt cfg io id).putByte io.bridge.total (nextByte io) := by
    rw [hsend]
    exact h.deviceAt_stored
  have hlen : (deviceAt cfg (sendByte cfg (polled io)) id).buffer.length = (deviceAt cfg io id).buffer.length := by
    rw [hdev]
    exact List.length_set ..
  have htotal : (sendByte cfg (polled io)).bridge.total = io.bridge.total + 1 := by
    rw [hsend]
    exact congrArg (·.total + 1) hbridge
  refine ⟨⟨⟨?_, ?_, ?_⟩, ?_, by rw [hlen, htotal]; exact hlt⟩, hdev⟩
  · rw [DataPhase, hdev, hsend]
    exact ⟨hst, ht, hp, hw, hr, hc, hreq, hbsy, hphase⟩
  · rw [hsend]
    exact h.pumping.quiet
  · rw [hsend]
    exact h.pumping.dma
  · rw [htotal, hsend]
    exact congrArg (· + 1) h.place

/-- The device's command completed after the transfer's last byte. -/
theorem Sending.sendByte_last (h : Sending cfg io id) (hc : cfg.wf)
    (hl : (deviceAt cfg io id).buffer.length = io.bridge.total + 1) :
    (sendByte cfg (polled io)).ncr.targetId = some id ∧ deviceAt cfg (sendByte cfg (polled io)) id =
      ((deviceAt cfg io id).putByte io.bridge.total (nextByte io)).commandPhase1 cfg.scsiBus id := by
  obtain ⟨n, hhand, ht⟩ := h.handshake_last hc hl
  have hsend : sendByte cfg (polled io) = _ := congrArg (Io.mapBridge Bridge.countByte) hhand
  have htarget : (stored cfg io).ncr.targetId = some id := by rw [stored_ncr, h.pumping.targetId]
  have hp : (deviceAt cfg (stored cfg io) id).present = true := by
    rw [h.deviceAt_stored]
    exact h.pumping.present
  rw [hsend, ← h.deviceAt_stored]
  exact ⟨ht, deviceAt_modifySelected _ htarget (bus_lt_of_present hp)⟩

/-! ### The rounds (R344) -/

/-- The device with `k` bytes of the buffer in its own. -/
def sentDevice (cfg : Cfg) (io : Io) (id : Fin 8) (k : Nat) : Device :=
  { deviceAt cfg io id with
    buffer := copyInto (deviceAt cfg io id).buffer io.bridge.total io.bridge.buffer.toList io.bridge.pos k }

theorem length_sentDevice (hp : io.bridge.pos + k ≤ 512)
    (hl : io.bridge.total + k ≤ (deviceAt cfg io id).buffer.length) :
    (sentDevice cfg io id k).buffer.length = (deviceAt cfg io id).buffer.length :=
  length_copyInto hl (by rwa [Vector.length_toList])

/-- `k` bytes sent: the buffer stays. -/
structure Sent (io : Io) (k : Nat) (u : Io) : Prop where
  moved : Moved k io u
  buffer : u.bridge.buffer = io.bridge.buffer

/-- The pump between two rounds, `k` bytes on. -/
structure SentSoFar (cfg : Cfg) (io : Io) (id : Fin 8) (k : Nat) (u : Io) : Prop extends Sent io k u where
  device : deviceAt cfg u id = sentDevice cfg io id k
  sending : Sending cfg u id

theorem Sent.sent_next (h : Sent io k u) : Sent io (k + 1) (sendByte cfg (polled u)) := by
  have hf : BusFrame u (handshake cfg (nextByte u) (polled u)) :=
    .trans (b := polled u) (.mapNcr rfl) (handshake_frame ..)
  exact ⟨h.moved.next hf (handshake cfg (nextByte u) (polled u)).bridge.buffer,
    (congrArg Bridge.buffer hf.bridge).trans h.buffer⟩

/-- The byte of the buffer goes to its place in the device. -/
theorem SentSoFar.putByte (h : SentSoFar cfg io id k u) (hp : io.bridge.pos + k < 512)
    (hl : io.bridge.total + k < (deviceAt cfg io id).buffer.length) :
    (deviceAt cfg u id).putByte u.bridge.total (nextByte u) = sentDevice cfg io id (k + 1) := by
  have hpos := h.moved.pos_eq
  have htotal := h.moved.total_eq
  have hv : io.bridge.buffer.toList[io.bridge.pos + k]? = some (nextByte u) := by
    rw [nextByte, h.buffer, hpos, Vector.getElem?_toList, Vector.getElem?_eq_getElem hp]
    rfl
  rw [h.device, htotal, Device.putByte]
  exact congrArg (fun b => { deviceAt cfg io id with buffer := b }) (copyInto_set hv hl)

theorem Sending.chunk_eq (h : Sending cfg io id) : chunk cfg io = min chunkMax (deviceAt cfg io id).buffer.length :=
  chunk_of_present h.pumping.targetId h.pumping.present

theorem SentSoFar.chunk_eq (h : SentSoFar cfg io id k u) (hs : Sending cfg io id) (hp : io.bridge.pos + k ≤ 512)
    (hl : io.bridge.total + k ≤ (deviceAt cfg io id).buffer.length) : chunk cfg u = chunk cfg io := by
  rw [h.sending.chunk_eq, hs.chunk_eq, h.device, length_sentDevice hp hl]

/-- A round with a byte left. -/
theorem SentSoFar.next (hc : cfg.wf) (hs : Sending cfg io id) (h : SentSoFar cfg io id k u)
    (hlt : io.bridge.pos + k < chunk cfg io) (hleft : io.bridge.total + (k + 1) < (deviceAt cfg io id).buffer.length) :
    ∃ u', (∀ n, drain cfg (n + 1) u = drain cfg n u') ∧ SentSoFar cfg io id (k + 1) u' := by
  have hle : chunk cfg io ≤ 512 := chunk_le
  have hpos := h.moved.pos_eq
  have htotal := h.moved.total_eq
  have hlen := length_sentDevice (cfg := cfg) (io := io) (id := id) (k := k) (by omega) (by omega)
  have hnext := h.sent_next (cfg := cfg)
  obtain ⟨hsend, hdev⟩ := h.sending.sendByte_next (by rw [h.device, hlen]; omega)
  rw [h.putByte (by omega) (by omega)] at hdev
  have hmore : (sendByte cfg (polled u)).bridge.total ≠ devLen cfg (sendByte cfg (polled u)) := by
    rw [devLen_of_present hsend.pumping.targetId hsend.pumping.present, hdev, length_sentDevice (by omega) (by omega),
      hnext.moved.total_eq]
    omega
  refine ⟨_, fun n => ?_, hnext, hdev, hsend⟩
  rw [drain_ready n (by rw [h.chunk_eq hs (by omega) (by omega), hpos]; exact hlt)
    (h.sending.pumping.pollReq (by decide) hc)]
  exact if_neg hmore

/-- The round of the transfer's last byte. -/
theorem SentSoFar.last (hc : cfg.wf) (hs : Sending cfg io id) (h : SentSoFar cfg io id k u)
    (hlt : io.bridge.pos + k < chunk cfg io) (hl : io.bridge.total + (k + 1) = (deviceAt cfg io id).buffer.length) :
    ∃ u', (∀ n, drain cfg (n + 1) u = sendDone cfg u') ∧ Sent io (k + 1) u' ∧
      deviceAt cfg u' id = (sentDevice cfg io id (k + 1)).commandPhase1 cfg.scsiBus id := by
  have hle : chunk cfg io ≤ 512 := chunk_le
  have hpos := h.moved.pos_eq
  have htotal := h.moved.total_eq
  have hlen := length_sentDevice (cfg := cfg) (io := io) (id := id) (k := k) (by omega) (by omega)
  have hnext := h.sent_next (cfg := cfg)
  obtain ⟨ht, hdev⟩ := h.sending.sendByte_last hc (by rw [h.device, hlen]; omega)
  rw [h.putByte (by omega) (by omega)] at hdev
  have hdone : (sendByte cfg (polled u)).bridge.total = devLen cfg (sendByte cfg (polled u)) := by
    rw [devLen_of_present ht (by rw [hdev]; exact hs.pumping.present), hdev, hnext.moved.total_eq]
    exact hl.trans (length_sentDevice (by omega) (by omega)).symm
  refine ⟨_, fun n => ?_, hnext, hdev⟩
  rw [drain_ready n (by rw [h.chunk_eq hs (by omega) (by omega), hpos]; exact hlt)
    (h.sending.pumping.pollReq (by decide) hc)]
  exact if_pos hdone

theorem sentDevice_zero : sentDevice cfg io id 0 = deviceAt cfg io id := by
  rw [sentDevice, copyInto_zero]

/-- The rounds while bytes are left of the chunk and of the transfer. -/
theorem Sending.rounds (hc : cfg.wf) (h : Sending cfg io id) (k : Nat) (hk : io.bridge.pos + k ≤ chunk cfg io)
    (hl : io.bridge.total + k < (deviceAt cfg io id).buffer.length) :
    ∃ u, (∀ n, drain cfg (n + k) io = drain cfg n u) ∧ SentSoFar cfg io id k u :=
  loop_rounds k ⟨⟨.refl io, rfl⟩, sentDevice_zero.symm, h⟩ fun j u hj hu => hu.next hc h (by omega) (by omega)

/-- A chunk sent before the transfer's last byte (R344). -/
theorem Sending.drain_more (hc : cfg.wf) (h : Sending cfg io id) (hlt : io.bridge.pos < chunk cfg io)
    (hl : io.bridge.total + (chunk cfg io - io.bridge.pos) < (deviceAt cfg io id).buffer.length) :
    ∃ u, drain cfg chunkMax io = chunkDone cfg u ∧ SentSoFar cfg io id (chunk cfg io - io.bridge.pos) u := by
  have hle : chunk cfg io ≤ chunkMax := chunk_le
  have hmax : chunkMax = 512 := rfl
  obtain ⟨u, hloop, hu⟩ := h.rounds hc (chunk cfg io - io.bridge.pos) (by omega) hl
  refine ⟨u, ?_, hu⟩
  rw [← drain_chunk_through (chunkMax - (chunk cfg io - io.bridge.pos)), ← hloop, Nat.sub_add_cancel (by omega)]
  rw [hu.chunk_eq h (by omega) hl.le, hu.moved.pos_eq]
  omega

/-- The transfer's last byte in the chunk (R344, R347). -/
theorem Sending.drain_last (hc : cfg.wf) (h : Sending cfg io id) {m : Nat}
    (hm : io.bridge.pos + (m + 1) ≤ chunk cfg io)
    (hl : io.bridge.total + (m + 1) = (deviceAt cfg io id).buffer.length) :
    ∃ u, drain cfg chunkMax io = sendDone cfg u ∧ Sent io (m + 1) u ∧
      deviceAt cfg u id = (sentDevice cfg io id (m + 1)).commandPhase1 cfg.scsiBus id := by
  have hle : chunk cfg io ≤ chunkMax := chunk_le
  obtain ⟨u, hloop, hu⟩ := h.rounds hc m (by omega) (by omega)
  obtain ⟨u', hlast, hu'⟩ := hu.last hc h (by omega) hl
  refine ⟨u', ?_, hu'⟩
  rw [← hlast (chunkMax - (m + 1)), ← hloop]
  exact congrArg (drain cfg · io) (by omega)

end

/-- Settles O58: the rounds to the end of the chunk (`Sending.drain_more`) or of the transfer (`Sending.drain_last`),
and a poll that runs out (`pollReq_of_noReq`). -/
theorem callbackSends : Obligations.CallbackSends := by
  unfold Obligations.CallbackSends
  intro cfg io hm hh hlt
  refine ⟨fun id hc hd hq hpos hleft => ?_, fun hb hno => ?_⟩
  · have hs : Sending cfg (io.mapBridge Bridge.disarm) id :=
      ⟨⟨hd, hq, by rw [mapBridge_ncr, hm]; nofun⟩, hpos, hleft⟩
    rw [callback_of_send (not_busyLost (io := io) (.inr hs.pumping.bsy)) hm hh]
    dsimp only
    by_cases hmore : io.bridge.total + (chunk cfg io - io.bridge.pos) < (deviceAt cfg io id).buffer.length
    · rw [Nat.min_eq_left (by omega)]
      obtain ⟨u, hdrain, hu⟩ := hs.drain_more hc hlt hmore
      have htotal := hu.moved.total_eq
      obtain ⟨hdma, hmode, htcr, hisr, hirq⟩ := hu.moved.regs
      obtain ⟨harmed, hstatus, -⟩ := hu.moved.bridge_rest
      rw [hdrain]
      refine ⟨hu.buffer, rfl, rfl, htotal, harmed, fun he => absurd he hmore.ne, fun _ =>
        ⟨hu.device, congrArg (· ||| cfg.busyBit) hstatus, hdma.trans hm, hisr, htcr, hirq, hu.moved.outputs,
          hu.sending.pumping.state, ?_⟩⟩
      exact hu.sending.place.trans htotal
    · rw [Nat.min_eq_right (by omega)]
      obtain ⟨k, hk⟩ : ∃ k, (deviceAt cfg io id).buffer.length - io.bridge.total = k + 1 :=
        ⟨(deviceAt cfg io id).buffer.length - io.bridge.total - 1, by omega⟩
      have hl : io.bridge.total + (k + 1) = (deviceAt cfg io id).buffer.length := by omega
      have hroom : io.bridge.pos + (k + 1) ≤ chunk cfg io := by omega
      obtain ⟨u, hdrain, hu, hdev⟩ := hs.drain_last hc hroom hl
      have htotal := hu.moved.total_eq
      obtain ⟨hdma, hmode, htcr, hisr, hirq⟩ := hu.moved.regs
      obtain ⟨harmed, hstatus, -⟩ := hu.moved.bridge_rest
      obtain ⟨isr, tcr, irq, outs, hend, hdone, hlast, hena, hdis⟩ := endOfDma_changes cfg u
      rw [hmode] at hena hdis
      rw [hk, hdrain, sendDone, hend]
      refine ⟨hu.buffer, rfl, rfl, htotal, harmed,
        fun _ => ⟨hdev, hstatus, rfl, hdone, hlast, hena, fun h3 => ?_⟩,
        fun hlt' => absurd hlt' hl.not_lt⟩
      obtain ⟨hirq', houts⟩ := hdis h3
      exact ⟨hirq'.trans hirq, houts.trans hu.moved.outputs⟩
  · rw [callback_of_send (not_busyLost hb) hm hh, show chunkMax = 511 + 1 from rfl,
      drain_not_ready (io := io.mapBridge Bridge.disarm) 511 hlt (pollReq_of_noReq hno)]
    exact pollRanOut_armTimer

end Sys2Proof.Machine
end

section
/-! Aborts (R360 to R373): which abort an iteration takes (R364), what stands at an abort (R366), that with paging off
the memory families do not see the privilege level (R373), and the delivery of an abort (R370). -/
namespace Sys2Proof.Machine

/-! ### The accesses of an iteration never abort (R361, R366) -/

/-- Once the operands are translated and no abort is pending, the iteration completes: no access raises an abort, so
every check of `abrt` passes (log 23). -/
theorem accessOperands_ok (i : Instr) (s : State) (pa pb : List Word) {w : State} (ha : w.cpu.abrt = none) :
    ∃ u, accessOperands i s pa pb w = .ok () u := by
  unfold accessOperands
  cases i.handler.fam <;> simp [checkAbort_none, ha]

/-- An iteration that aborts did so in the check of the ports or in a translation, before every access. -/
theorem translateOperands_abort_of_iterate {i : Instr} {s u : State} {k : Abort} (ha : s.cpu.abrt = none)
    (h : iterate i.handler (segOf i) s = .abort k u) : translateOperands i s = .abort k u := by
  rw [iterate_eq_translate_access] at h
  have hkept := translateOperands_kept i s
  cases ht : translateOperands i s with
  | abort k' w =>
    rw [ht] at h
    cases h
    rfl
  | ok p w =>
    rw [ht] at h hkept
    have hw : w.cpu.abrt = none := (Keeps.abrt hkept).trans ha
    obtain ⟨t, hok⟩ := accessOperands_ok i s p.1 p.2 hw
    cases hok.symm.trans h

/-- With no abort pending before, a pending abort is that of an iteration that ended before its accesses. -/
theorem exec_abort_cases {i : Instr} {s t : State} {k : Abort} (ha : s.cpu.abrt = none) (h : exec i s = .next t)
    (ht : t.cpu.abrt = some k) :
    ∃ u, Keeps s u ∧ translateOperands i s = .abort k u ∧ t = u.setAbrt (some k) := by
  obtain ⟨-, ⟨-, -, rfl⟩ | ⟨-, k', u, hu, hiter, rfl⟩ | ⟨-, -, w, v, f, u, -, -, -, -, rfl⟩⟩ := exec_cases h
  · exact absurd (ht.symm.trans ha) nofun
  · cases ht
    exact ⟨u, hu, translateOperands_abort_of_iterate ha hiter, rfl⟩
  · exact absurd (ht.symm.trans ha) nofun

/-! ### The first abort of the table (R364) -/

theorem portCheck_open {i : Instr} {s : State} (ho : Family.isIo i.handler.fam = true → IoOpen s) :
    portCheck i s = .ok () s := by
  unfold portCheck
  split
  · next hio => exact ioCheck_open (ho hio)
  · rfl

/-- Settles O22: with the ports open and paging off the translations are the checks of R364, and their abort is all
that happens. -/
theorem firstAbortTaken : Obligations.FirstAbortTaken := by
  unfold Obligations.FirstAbortTaken
  intro i s k h hp ho hk
  refine exec_translate_abort h ?_
  rw [translateOperands_off i hp, portCheck_open ho, Res.bind_ok, hk]

/-! ### What the translations leave (R84, R86, R211, R366) -/

/-- The check of the ports leaves its draws and, at a page fault, `cr2` (R211, logs 9 and 16). -/
theorem portCheck_all_draws (i : Instr) (s : State) :
    (portCheck i s).All fun u => u = (keepDraws s u).setCr2 u.cpu.sys.cr2 := by
  unfold portCheck
  split
  · cases hr : ioCheck (dx s.cpu.regs) i.handler.size s with
    | abort k u => exact (ioCheck_abort hr).1
    | ok _ u =>
      have hu := ioCheck_ok hr
      have hcr2 : u.cpu.sys.cr2 = s.cpu.sys.cr2 := congrArg (·.cpu.sys.cr2) hu
      change u = _
      rw [hcr2]
      exact hu
  · rfl

theorem Res.All.imp {α : Type} {P Q : State → Prop} {r : Res α} (h : r.All P) (hpq : ∀ u, P u → Q u) : r.All Q := by
  cases r <;> exact hpq _ h

theorem Res.All.of_abort {α : Type} {P : State → Prop} {r : Res α} {k : Abort} {u : State} (h : r.All P)
    (hr : r = .abort k u) : P u := by
  rw [hr] at h
  exact h

section
variable {P : State → Prop} {s u : State}

/-- Whatever the translation of every byte keeps, the translation of an operand keeps (R88). -/
theorem translateFrom_all (hpage : ∀ lin kind u, P u → (pageTranslate u.cpu.sys lin kind u).All P) (d : SegDesc)
    (off : Word) (kind : AccessKind) (n i : Nat) (h : P u) : (translateFrom d off kind n i u).All P := by
  induction n generalizing i u with
  | zero => exact h
  | succ n ih =>
    refine (hpage (linearAddr d off i) kind u h).bind fun p t _ ht => ?_
    exact (ih (i + 1) ht).bind fun ps w _ hw => hw

theorem preTranslate_all (hpage : ∀ lin kind u, P u → (pageTranslate u.cpu.sys lin kind u).All P) (seg : SegReg)
    (off : Word) (n : Nat) (kind : AccessKind) (h : P u) : (preTranslate seg off n kind u).All P := by
  unfold preTranslate
  split
  · exact h
  · exact translateFrom_all hpage _ off kind n 0 h

/-- Whatever the check of the ports leaves and the translation of every byte keeps, stands before the accesses. -/
theorem translateOperands_all {i : Instr} (hports : (portCheck i s).All P) (hs : P s)
    (hpage : ∀ lin kind u, P u → (pageTranslate u.cpu.sys lin kind u).All P) : (translateOperands i s).All P := by
  have src {u : State} (h : P u) := preTranslate_all hpage (segOf i) (srcOff i s) (elemBytes i) .read h
  have dst (kind : AccessKind) {u : State} (h : P u) := preTranslate_all hpage .es (dstOff i s) (elemBytes i) kind h
  have last {α : Type} (f : List Word → α) {r : Res (List Word)} (hr : r.All P) :
      (r.bind fun ps t => .ok (f ps) t).All P := hr.bind fun _ _ _ ht => ht
  unfold portCheck at hports
  unfold translateOperands
  cases hf : i.handler.fam <;> simp only [hf, Family.isIo, Bool.false_eq_true, if_false, if_true] at hports ⊢
  case movs => exact (src hs).bind fun pa u _ hu => last _ (dst .write hu)
  case cmps => exact (src hs).bind fun pa u _ hu => last _ (dst .read hu)
  case stos => exact last _ (dst .write hs)
  case scas => exact last _ (dst .read hs)
  case lods => exact last _ (src hs)
  case ins => exact hports.bind fun _ u _ hu => last _ (dst .write hu)
  case outs => exact hports.bind fun _ u _ hu => last _ (src hu)

/-- The device side of `s`, but for what was drawn from outside. -/
abbrev SameDevices (s u : State) : Prop := u.io = { s.io with inputs := u.io.inputs, drawn := u.io.drawn }

/-- With paging off nothing but draws and `cr2` has changed before the accesses. -/
theorem translateOperands_off_all (i : Instr) (hp : PagingOff s) :
    (translateOperands i s).All fun u => PagingOff u ∧ u.mem = s.mem ∧ SameDevices s u := by
  refine translateOperands_all ?_ ⟨hp, rfl, rfl⟩ fun lin kind u hu => ?_
  · refine (portCheck_all_draws i s).imp fun u hu => ?_
    rw [hu]
    exact ⟨hp, rfl, rfl⟩
  · rw [pageTranslate_off _ hu.1]
    exact hu

/-- An unspecified paging function touches no port and no device (R84). -/
theorem translateOperands_unspecified_all (i : Instr) (hu : s.cfg.paging = .unspecified) :
    (translateOperands i s).All fun u => u.cfg.paging = .unspecified ∧ SameDevices s u := by
  refine translateOperands_all ?_ ⟨hu, rfl⟩ fun lin kind u h => ?_
  · refine (portCheck_all_draws i s).imp fun u h => ?_
    rw [h]
    exact ⟨hu, rfl⟩
  · rw [pageTranslate, h.1]
    dsimp only
    unfold pageTranslateFree
    split
    · exact h
    · dsimp only
      split <;> exact h

/-- The reference paging function changes accessed and dirty marks in RAM at most (R86). -/
theorem translateOperands_all_onlyMarks (i : Instr) (href : s.cfg.paging = .reference)
    (hw : Memory.wf s.mem = true) : (translateOperands i s).All (OnlyMarks s) := by
  have hs : OnlyMarks s s := ⟨href, rfl, hw, fun _ => rfl⟩
  refine translateOperands_all ?_ hs fun lin kind u hu => pageTranslate_all_onlyMarks hu _ lin kind
  refine (portCheck_all_draws i s).imp fun u hu => ?_
  rw [hu]
  exact hs.of_mem_eq rfl rfl

end

/-- Settles O27: an abort comes from the check of the ports or from a translation (`exec_abort_cases`), and each leaves
no more than the statement says. -/
theorem abortIsPrecise : Obligations.AbortIsPrecise := by
  unfold Obligations.AbortIsPrecise
  intro i s t k ha h ht
  obtain ⟨u, hu, htr, rfl⟩ := exec_abort_cases ha h ht
  refine ⟨?_, fun hp => ?_, fun href hw => ?_, ?_⟩
  · simp only [State.setAbrt]
    rw [hu.cpu]
  · obtain ⟨-, hmem, -⟩ := (translateOperands_off_all i hp).of_abort htr
    exact hmem
  · exact ((translateOperands_all_onlyMarks i href hw).of_abort htr).ram
  · rintro (hp | hun)
    · obtain ⟨-, -, hio⟩ := (translateOperands_off_all i hp).of_abort htr
      exact hio
    · obtain ⟨-, hio⟩ := (translateOperands_unspecified_all i hun).of_abort htr
      exact hio

/-! ### Another system context (R373) -/

/-- The state in another system context (R28). -/
def State.setSys (y : Sys) (s : State) : State := { s with cpu := { s.cpu with sys := y } }

/-- A result with its state changed. -/
def Res.mapState {α : Type} (f : State → State) : Res α → Res α
  | .ok a t => .ok a (f t)
  | .abort k t => .abort k (f t)

section
variable (y : Sys) (s : State)

@[simp] theorem State.setSys_abrt : (s.setSys y).cpu.abrt = s.cpu.abrt := rfl
@[simp] theorem State.setSys_cfg : (s.setSys y).cfg = s.cfg := rfl

theorem memRead_setSys (a : Word) : memRead a (s.setSys y) = ((memRead a s).1, (memRead a s).2.setSys y) := by
  unfold memRead
  rw [State.setSys_cfg]
  split <;> rfl

theorem memWrite_setSys (a : Word) (b : Byte) : memWrite a b (s.setSys y) = (memWrite a b s).setSys y := by
  unfold memWrite
  rw [State.setSys_cfg]
  split <;> rfl

theorem readBytes_setSys (ps : List Word) :
    readBytes ps (s.setSys y) = ((readBytes ps s).1, (readBytes ps s).2.setSys y) := by
  induction ps generalizing s with
  | nil => rfl
  | cons p ps ih => simp only [readBytes, memRead_setSys, ih]

theorem readElem_setSys (ps : List Word) :
    readElem ps (s.setSys y) = ((readElem ps s).1, (readElem ps s).2.setSys y) := by
  simp only [readElem, readBytes_setSys]

theorem writeElem_setSys (ps : List Word) (v : Word) : writeElem ps v (s.setSys y) = (writeElem ps v s).setSys y := by
  induction ps generalizing v s with
  | nil => rfl
  | cons p ps ih => simp only [writeElem, memWrite_setSys, ih]

theorem checkAbort_setSys : checkAbort (s.setSys y) = (checkAbort s).mapState (State.setSys y) := by
  unfold checkAbort
  rw [State.setSys_abrt]
  split <;> rfl

variable {y s} {i : Instr}

theorem Res.mapState_bind {α β : Type} {g : State → State} {f f' : α → State → Res β} (r : Res α)
    (h : ∀ a t, f' a (g t) = (f a t).mapState g) : (r.mapState g).bind f' = (r.bind f).mapState g := by
  cases r with
  | ok a t => exact h a t
  | abort k t => rfl

/-- The accesses of the memory families do not see the system context. -/
theorem accessOperands_setSys (hf : Family.isIo i.handler.fam = false) (pa pb : List Word) (w : State) :
    accessOperands i (s.setSys y) pa pb (w.setSys y) = (accessOperands i s pa pb w).mapState (State.setSys y) := by
  unfold accessOperands
  cases hfam : i.handler.fam with
  | movs =>
    simp only [readElem_setSys, checkAbort_setSys]
    refine Res.mapState_bind _ fun _ u => ?_
    rw [writeElem_setSys, checkAbort_setSys]
    exact Res.mapState_bind _ fun _ _ => rfl
  | cmps =>
    simp only [readElem_setSys, checkAbort_setSys]
    refine Res.mapState_bind _ fun _ u => ?_
    rw [readElem_setSys, checkAbort_setSys]
    exact Res.mapState_bind _ fun _ _ => rfl
  | stos =>
    simp only [writeElem_setSys, checkAbort_setSys]
    exact Res.mapState_bind _ fun _ _ => rfl
  | lods | scas =>
    simp only [readElem_setSys, checkAbort_setSys]
    exact Res.mapState_bind _ fun _ _ => rfl
  | ins | outs => exact absurd hf (by rw [hfam]; decide)

/-- With paging off an iteration of a memory family does not see the system context. -/
theorem iterate_setSys (hf : Family.isIo i.handler.fam = false) (hp : PagingOff s) (hy : y.pg = false) :
    iterate i.handler (segOf i) (s.setSys y) = (iterate i.handler (segOf i) s).mapState (State.setSys y) := by
  have hports (u : State) : portCheck i u = .ok () u := if_neg (by rw [hf]; decide)
  have hchecks : firstAbort i (s.setSys y) = firstAbort i s := rfl
  have haddrs : operandAddrs i (s.setSys y) = operandAddrs i s := rfl
  simp only [iterate_eq_translate_access, translateOperands_off i hp,
    translateOperands_off i (s := s.setSys y) hy, hports, hchecks, haddrs, Res.bind_ok]
  cases firstAbort i s with
  | some k => rfl
  | none => exact accessOperands_setSys hf _ _ s

/-! The end of a repeated iteration that leaves the loop, and of one that stays in it (R236). -/

theorem repeatTail_leaves {len : Nat} {a : AddrSize} {kind : RepKind} {c : Word}
    (h : c - 1 = 0 ∨ stopCondition kind s.cpu.flags = true) :
    repeatTail len a kind c s = pcAdvance len (s.setRegs (setIdx .ecx a (c - 1) s.cpu.regs)) := if_pos h

theorem repeatTail_stays {len : Nat} {a : AddrSize} {kind : RepKind} {c : Word}
    (h : ¬ (c - 1 = 0 ∨ stopCondition kind s.cpu.flags = true)) :
    repeatTail len a kind c s = s.setRegs (setIdx .ecx a (c - 1) s.cpu.regs) := if_neg h

theorem repeatTail_setSys (len : Nat) (a : AddrSize) (kind : RepKind) (c : Word) :
    repeatTail len a kind c (s.setSys y) = (repeatTail len a kind c s).setSys y := by
  by_cases h : c - 1 = 0 ∨ stopCondition kind s.cpu.flags = true
  · rw [repeatTail_leaves h, repeatTail_leaves (s := s.setSys y) h]
    rfl
  · rw [repeatTail_stays h, repeatTail_stays (s := s.setSys y) h]
    rfl

/-- What an iteration does not see, the step around it does not see (R234, R238). -/
theorem exec_setSys {t : State} (h : exec i s = .next t)
    (hiter : iterate i.handler (segOf i) (s.setSys y) =
      (iterate i.handler (segOf i) s).mapState (State.setSys y)) :
    exec i (s.setSys y) = .next (t.setSys y) := by
  have hadm : Admitted i := (exec_next_iff i s).1 ⟨t, h⟩
  rw [exec_admitted hadm] at h ⊢
  cases h
  refine congrArg _ ?_
  cases repOf i with
  | none =>
    simp only [stepPlain, hiter]
    cases iterate i.handler (segOf i) s <;> rfl
  | some kind =>
    have hcount : idx (s.setSys y).cpu.regs .ecx i.handler.asz = idx s.cpu.regs .ecx i.handler.asz := rfl
    simp only [stepRepeat, hcount, hiter]
    split
    · rfl
    · cases iterate i.handler (segOf i) s with
      | abort k u => rfl
      | ok _ u => exact repeatTail_setSys _ _ _ _

end

/-- Settles O29: the iteration does not see the system context (`iterate_setSys`), so the step does not. -/
theorem privilegeBlind : Obligations.PrivilegeBlind := by
  unfold Obligations.PrivilegeBlind
  intro i s t y hf _ hp hy h
  exact exec_setSys h (iterate_setSys hf hp hy)

/-! ### Delivery (R370) -/

/-- With an abort undelivered and no timer armed no agent of the block is enabled (log 6). -/
theorem agentStep_undelivered {s : State} {k : Abort} (hk : s.cpu.abrt = some k)
    (ht : s.io.bridge.timerArmed = false) : agentStep s = .fault (.undelivered k) := by
  have hdue : timerDue s = false := by rw [timerDue, ht, Bool.false_and]
  have htick : timerTick s = s := if_neg (by rw [ht]; decide)
  simp only [agentStep, hdue, Bool.false_eq_true, if_false, htick, cpuTurn, hk, ht]

theorem step_event {s : State} {e : EnvEvent} {rest : List (Option EnvEvent)} (h : s.agenda = some e :: rest) :
    step s = .next (envEvent e (s.setAgenda rest)) := by
  rw [step, h]

/-- Settles O8: the stopped machine (`agentStep_undelivered`), and a delivery, whose accesses keep the configuration
and the events to come (`envAccesses_keep`). -/
theorem abortDelivery : Obligations.AbortDelivery := by
  unfold Obligations.AbortDelivery
  intro s
  refine ⟨fun k he hk ht => ?_, fun accesses c rest h => ?_⟩
  · rw [step_agent he]
    exact agentStep_undelivered hk ht
  · have hkeeps := envAccesses_keep accesses (s.setAgenda rest)
    refine ⟨_, step_event h, rfl, hkeeps.cfg, hkeeps.agenda, ?_⟩
    rintro rfl
    exact ⟨rfl, rfl⟩

end Sys2Proof.Machine
end

section
/-! The platform's resets as events of the environment (R400, R60 to R62). -/
namespace Sys2Proof.Machine

/-- Settles O10: each event is one step (`step_event`). The CPU's values stand in its reset context, the descriptors by
segment (`segRegs_afterReset_get`); the adapter's are those of `adapterReset_eq`. -/
theorem cpuResetEvent : Obligations.CpuResetEvent := by
  unfold Obligations.CpuResetEvent
  intro s rest
  refine ⟨fun h => ?cpu, fun h => ?adapter⟩
  case cpu =>
    refine ⟨_, step_event h, rfl, rfl, rfl, rfl, rfl, rfl, rfl, rfl, rfl, rfl, rfl, rfl, rfl, rfl, rfl, fun seg => ?_⟩
    have hseg : (envEvent .cpuReset (s.setAgenda rest)).cpu.segs.get seg =
        .afterReset (if seg = .cs then 0xFFFF0000 else 0) (decide (seg = .ss)) := segRegs_afterReset_get seg
    rw [hseg]
    exact ⟨rfl, rfl, rfl, rfl, rfl, rfl⟩
  case adapter =>
    refine ⟨_, step_event h, rfl, rfl, rfl, rfl, ?_⟩
    have hio : (envEvent .adapterReset (s.setAgenda rest)).io = adapterReset s.cfg s.io := rfl
    rw [hio, adapterReset_eq]
    exact ⟨rfl, ⟨_, rfl⟩, rfl, rfl⟩

end Sys2Proof.Machine
end
